-- ==== Sys2Proof/Word.lean ====
section
/-! DEFINITION. The three bit-vector widths of the machine (spec/00_scope.md R7: REG_BITS = 16,
DATA_BUS_BITS = 8, ADDR_BITS = 20). -/

namespace Sys2Proof

/-- One byte: what one bus cycle moves (R7 DATA_BUS_BITS). -/
abbrev Byte := BitVec 8

/-- A 16-bit register, offset, segment value or port (R7 REG_BITS, IO_ADDR_BITS). -/
abbrev Word := BitVec 16

/-- A 20-bit physical address (R7 ADDR_BITS). -/
abbrev PhysAddr := BitVec 20

end Sys2Proof
end

