-- ==== Sys2Proof/Machine/Bits.lean ====
section
/-! DEFINITION. Bit-field and byte helpers (spec/00_scope.md section 6): halves of a word, sign extension,
parity, one bit set or tested by number. -/

namespace Sys2Proof.Machine

/-- Bits 7:0 of a word (R81). -/
def loByte (v : Word) : Byte := v.extractLsb' 0 8

/-- Bits 15:8 of a word (R81). -/
def hiByte (v : Word) : Byte := v.extractLsb' 8 8

/-- `hi ++ lo` (00_scope.md section 6). -/
def word (hi lo : Byte) : Word := hi ++ lo

/-- A word with its low byte replaced (R21). -/
def setLo (v : Word) (b : Byte) : Word := word (hiByte v) b

/-- A word with its high byte replaced (R21). -/
def setHi (v : Word) (b : Byte) : Word := word b (loByte v)

/-- `sext_16` (R161). -/
def sext16 (b : Byte) : Word := b.signExtend 16

/-- `zext_16`. -/
def zext16 (b : Byte) : Word := b.setWidth 16

/-- `parity8` (00_scope.md section 6): true when the byte has an even number of 1 bits. -/
def parity8 (b : Byte) : Bool :=
  !(b.getLsbD 0 ^^ b.getLsbD 1 ^^ b.getLsbD 2 ^^ b.getLsbD 3 ^^
    b.getLsbD 4 ^^ b.getLsbD 5 ^^ b.getLsbD 6 ^^ b.getLsbD 7)

/-- Bit `i` of a vector. -/
def bit {n : Nat} (v : BitVec n) (i : Nat) : Bool := v.getLsbD i

/-- A vector with bit `i` written. -/
def setBit {n : Nat} (v : BitVec n) (i : Nat) (b : Bool) : BitVec n :=
  if b then v ||| BitVec.twoPow n i else v &&& ~~~(BitVec.twoPow n i)

/-- A flag as one bit of a byte at position `i`. -/
def bitAt (b : Bool) (i : Nat) : Byte := if b then BitVec.twoPow 8 i else 0#8

/-- Which half of a word an access reaches: the high half when `hi`. -/
def halfOf (hi : Bool) (v : Word) : Byte := if hi then hiByte v else loByte v

/-- A word with the half an access reaches replaced. -/
def setHalf (hi : Bool) (v : Word) (b : Byte) : Word := if hi then setHi v b else setLo v b

end Sys2Proof.Machine
end

