-- ==== Sys2Proof/Config.lean ====
section
/-! DEFINITION. What an implementation fixes: the numeric parameters of spec/00_scope.md R7 that the
spec gives a value, the byte an unlisted address reads as, and the free values (`draw_N()` of
00_scope.md section 6), which have no body, so that no proof can lean on one. The parameters the spec
leaves open (R7 "open") are plain data in the machine's state (`Machine.Params`), so that a statement
about every state is a statement about every configuration. -/

namespace Sys2Proof.Config

/-- QUEUE_CAP (R7): the prefetch queue's capacity in bytes on the 8088. -/
def queueCap : Nat := 4

/-- PIT_DIV (R7, R581): system ticks per PIT reference clock. -/
def pitDiv : Nat := 4

/-- FETCH_START_DELAY (R7, R531): ticks an idle BIU spends scheduling a code fetch. -/
def fetchStartDelay : Nat := 2

/-- EMPTY_QUEUE_ACCESS (R7, R539): FETCH_START_DELAY + 4 + 1. -/
def emptyQueueAccess : Nat := 7

/-- REFRESH_BUS_TICKS (R7, R673): ticks one DMA cycle holds the bus. -/
def refreshBusTicks : Nat := 5

/-- Hdots per system tick on the CGA (R581). -/
def cgaHdotsPerTick : Nat := 3

/-- What a RAM, display-memory or plane byte nothing has written reads as: the spec says `draw_8()`
(R40, R720, R731). DESIGN CHOICE, unsafe: log 2. -/
def powerOnByte : Byte := 0x00#8

/-- What a byte of a ROM range with no image byte there reads as: what an unmapped address does (R79,
R90 "else unmapped"). DEDUCED: log 3. -/
def emptyRomByte : Byte := 0xFF#8

/-- `draw_16()`: value number `n` of the free source `source`. No body: any value. Log 9. -/
opaque freeWord (source n : Nat) : Word

/-- Where an access reaches a device out of scope: an address of its MMIO range (R76) or a port of its port range
(R93). -/
inductive ExtPlace where
  | memory (a : PhysAddr)
  | port (p : Word)
  deriving DecidableEq, Repr

/-- One access that a device out of scope has seen: the place, and the byte of a write (none for a read). -/
structure ExtAccess where
  place : ExtPlace
  wrote : Option Byte
  deriving DecidableEq, Repr

/-- The functions of a device out of scope, `mmio_read` and `read_io` (R76, R93, 93_implementation_defined.md 2.4):
the byte device `n` answers at a place, after the accesses that such devices have seen, latest first. No body: any
value. Log 46. -/
opaque extByte (n : Nat) (seen : List ExtAccess) (place : ExtPlace) : Byte

end Sys2Proof.Config
end

