-- ==== Sys2Proof/Syntax.lean ====
section
/-! DEFINITION. The instruction set as syntax: register names, the ModRM operand, and `Instr`, one
constructor per row of spec/opcode_table.json (30_encoding.md R170 to R177). A prefix byte (R135) is a
row of the table and so a constructor: executing it accumulates the prefix record (R134), inside the
same instruction step as the instruction it stands before (R585). -/

namespace Sys2Proof

/-- 16-bit register names in encoding order (R150). -/
inductive Reg16 where
  | ax | cx | dx | bx | sp | bp | si | di
  deriving DecidableEq, Repr

/-- 8-bit register names in encoding order (R151). -/
inductive Reg8 where
  | al | cl | dl | bl | ah | ch | dh | bh
  deriving DecidableEq, Repr

/-- Segment register names in encoding order (R152). -/
inductive SReg where
  | es | cs | ss | ds
  deriving DecidableEq, Repr

/-- The base of an effective address, by the r/m field (R156). -/
inductive EaBase where
  | bxSi | bxDi | bpSi | bpDi | si | di | bp | bx
  deriving DecidableEq, Repr

/-- A ModRM memory operand (R155, R156), by its mod field. `ind .bp` has no encoding: mod 00 with
r/m 110 is the direct address. -/
inductive MemOp where
  /-- mod 00, r/m 110: a 16-bit direct offset. -/
  | direct (off : Word)
  /-- mod 00: no displacement. -/
  | ind (b : EaBase)
  /-- mod 01: a displacement byte, sign-extended. -/
  | ind8 (b : EaBase) (disp : Byte)
  /-- mod 10: a displacement word. -/
  | ind16 (b : EaBase) (disp : Word)
  deriving DecidableEq, Repr

/-- The r/m operand (R141, R155): a register when mod = 3, else a memory operand. -/
inductive RM (R : Type) where
  | reg (r : R)
  | mem (m : MemOp)
  deriving DecidableEq, Repr

/-- An 8-bit r/m operand `Eb`. -/
abbrev RM8 := RM Reg8

/-- A 16-bit r/m operand `Ew`. -/
abbrev RM16 := RM Reg16

/-- The mod field of a memory operand (R155). -/
def MemOp.mode : MemOp → BitVec 2
  | .direct _ => 0#2
  | .ind _ => 0#2
  | .ind8 _ _ => 1#2
  | .ind16 _ _ => 2#2

/-- The instructions, one constructor per row of spec/opcode_table.json, the rows with operands first and
in the table's order of first bytes; each line's comment gives the row's match word, its operands and the rule of its meaning. A field
`ignored` or `bit5` holds ModRM bits the 8088 does not use (R176, R152). -/
inductive Instr where
  | addEbGb (rm : RM8) (r : Reg8)  -- 0000: ADD Eb,Gb R263
  | addEwGw (rm : RM16) (r : Reg16)  -- 0100: ADD Ew,Gw R263
  | addGbEb (r : Reg8) (rm : RM8)  -- 0200: ADD Gb,Eb R263
  | addGwEw (r : Reg16) (rm : RM16)  -- 0300: ADD Gw,Ew R263
  | addAlIb (imm : Byte)  -- 0400: ADD AL,Ib R263
  | addAxIw (imm : Word)  -- 0500: ADD AX,Iw R263
  | orEbGb (rm : RM8) (r : Reg8)  -- 0800: OR Eb,Gb R322
  | orEwGw (rm : RM16) (r : Reg16)  -- 0900: OR Ew,Gw R322
  | orGbEb (r : Reg8) (rm : RM8)  -- 0A00: OR Gb,Eb R322
  | orGwEw (r : Reg16) (rm : RM16)  -- 0B00: OR Gw,Ew R322
  | orAlIb (imm : Byte)  -- 0C00: OR AL,Ib R322
  | orAxIw (imm : Word)  -- 0D00: OR AX,Iw R322
  | adcEbGb (rm : RM8) (r : Reg8)  -- 1000: ADC Eb,Gb R264
  | adcEwGw (rm : RM16) (r : Reg16)  -- 1100: ADC Ew,Gw R264
  | adcGbEb (r : Reg8) (rm : RM8)  -- 1200: ADC Gb,Eb R264
  | adcGwEw (r : Reg16) (rm : RM16)  -- 1300: ADC Gw,Ew R264
  | adcAlIb (imm : Byte)  -- 1400: ADC AL,Ib R264
  | adcAxIw (imm : Word)  -- 1500: ADC AX,Iw R264
  | sbbEbGb (rm : RM8) (r : Reg8)  -- 1800: SBB Eb,Gb R266
  | sbbEwGw (rm : RM16) (r : Reg16)  -- 1900: SBB Ew,Gw R266
  | sbbGbEb (r : Reg8) (rm : RM8)  -- 1A00: SBB Gb,Eb R266
  | sbbGwEw (r : Reg16) (rm : RM16)  -- 1B00: SBB Gw,Ew R266
  | sbbAlIb (imm : Byte)  -- 1C00: SBB AL,Ib R266
  | sbbAxIw (imm : Word)  -- 1D00: SBB AX,Iw R266
  | andEbGb (rm : RM8) (r : Reg8)  -- 2000: AND Eb,Gb R321
  | andEwGw (rm : RM16) (r : Reg16)  -- 2100: AND Ew,Gw R321
  | andGbEb (r : Reg8) (rm : RM8)  -- 2200: AND Gb,Eb R321
  | andGwEw (r : Reg16) (rm : RM16)  -- 2300: AND Gw,Ew R321
  | andAlIb (imm : Byte)  -- 2400: AND AL,Ib R321
  | andAxIw (imm : Word)  -- 2500: AND AX,Iw R321
  | subEbGb (rm : RM8) (r : Reg8)  -- 2800: SUB Eb,Gb R265
  | subEwGw (rm : RM16) (r : Reg16)  -- 2900: SUB Ew,Gw R265
  | subGbEb (r : Reg8) (rm : RM8)  -- 2A00: SUB Gb,Eb R265
  | subGwEw (r : Reg16) (rm : RM16)  -- 2B00: SUB Gw,Ew R265
  | subAlIb (imm : Byte)  -- 2C00: SUB AL,Ib R265
  | subAxIw (imm : Word)  -- 2D00: SUB AX,Iw R265
  | xorEbGb (rm : RM8) (r : Reg8)  -- 3000: XOR Eb,Gb R323
  | xorEwGw (rm : RM16) (r : Reg16)  -- 3100: XOR Ew,Gw R323
  | xorGbEb (r : Reg8) (rm : RM8)  -- 3200: XOR Gb,Eb R323
  | xorGwEw (r : Reg16) (rm : RM16)  -- 3300: XOR Gw,Ew R323
  | xorAlIb (imm : Byte)  -- 3400: XOR AL,Ib R323
  | xorAxIw (imm : Word)  -- 3500: XOR AX,Iw R323
  | cmpEbGb (rm : RM8) (r : Reg8)  -- 3800: CMP Eb,Gb R267
  | cmpEwGw (rm : RM16) (r : Reg16)  -- 3900: CMP Ew,Gw R267
  | cmpGbEb (r : Reg8) (rm : RM8)  -- 3A00: CMP Gb,Eb R267
  | cmpGwEw (r : Reg16) (rm : RM16)  -- 3B00: CMP Gw,Ew R267
  | cmpAlIb (imm : Byte)  -- 3C00: CMP AL,Ib R267
  | cmpAxIw (imm : Word)  -- 3D00: CMP AX,Iw R267
  | incReg16 (r : Reg16)  -- 4000: INC reg16 R268
  | decReg16 (r : Reg16)  -- 4800: DEC reg16 R270
  | pushReg16 (r : Reg16)  -- 5000: PUSH reg16 R210
  | popReg16 (r : Reg16)  -- 5800: POP reg16 R213
  | joAlias (rel : Byte)  -- 6000: JO Jb R406 (u)
  | jnoAlias (rel : Byte)  -- 6100: JNO Jb R406 (u)
  | jbAlias (rel : Byte)  -- 6200: JB Jb R406 (u)
  | jnbAlias (rel : Byte)  -- 6300: JNB Jb R406 (u)
  | jzAlias (rel : Byte)  -- 6400: JZ Jb R406 (u)
  | jnzAlias (rel : Byte)  -- 6500: JNZ Jb R406 (u)
  | jbeAlias (rel : Byte)  -- 6600: JBE Jb R406 (u)
  | jaAlias (rel : Byte)  -- 6700: JA Jb R406 (u)
  | jsAlias (rel : Byte)  -- 6800: JS Jb R406 (u)
  | jnsAlias (rel : Byte)  -- 6900: JNS Jb R406 (u)
  | jpAlias (rel : Byte)  -- 6A00: JP Jb R406 (u)
  | jnpAlias (rel : Byte)  -- 6B00: JNP Jb R406 (u)
  | jlAlias (rel : Byte)  -- 6C00: JL Jb R406 (u)
  | jgeAlias (rel : Byte)  -- 6D00: JGE Jb R406 (u)
  | jleAlias (rel : Byte)  -- 6E00: JLE Jb R406 (u)
  | jgAlias (rel : Byte)  -- 6F00: JG Jb R406 (u)
  | jo (rel : Byte)  -- 7000: JO Jb R406
  | jno (rel : Byte)  -- 7100: JNO Jb R406
  | jb (rel : Byte)  -- 7200: JB Jb R406
  | jnb (rel : Byte)  -- 7300: JNB Jb R406
  | jz (rel : Byte)  -- 7400: JZ Jb R406
  | jnz (rel : Byte)  -- 7500: JNZ Jb R406
  | jbe (rel : Byte)  -- 7600: JBE Jb R406
  | ja (rel : Byte)  -- 7700: JA Jb R406
  | js (rel : Byte)  -- 7800: JS Jb R406
  | jns (rel : Byte)  -- 7900: JNS Jb R406
  | jp (rel : Byte)  -- 7A00: JP Jb R406
  | jnp (rel : Byte)  -- 7B00: JNP Jb R406
  | jl (rel : Byte)  -- 7C00: JL Jb R406
  | jge (rel : Byte)  -- 7D00: JGE Jb R406
  | jle (rel : Byte)  -- 7E00: JLE Jb R406
  | jg (rel : Byte)  -- 7F00: JG Jb R406
  | addEbIb (rm : RM8) (imm : Byte)  -- 8000: ADD Eb,Ib R263
  | orEbIb (rm : RM8) (imm : Byte)  -- 8008: OR Eb,Ib R322
  | adcEbIb (rm : RM8) (imm : Byte)  -- 8010: ADC Eb,Ib R264
  | sbbEbIb (rm : RM8) (imm : Byte)  -- 8018: SBB Eb,Ib R266
  | andEbIb (rm : RM8) (imm : Byte)  -- 8020: AND Eb,Ib R321
  | subEbIb (rm : RM8) (imm : Byte)  -- 8028: SUB Eb,Ib R265
  | xorEbIb (rm : RM8) (imm : Byte)  -- 8030: XOR Eb,Ib R323
  | cmpEbIb (rm : RM8) (imm : Byte)  -- 8038: CMP Eb,Ib R267
  | addEwIw (rm : RM16) (imm : Word)  -- 8100: ADD Ew,Iw R263
  | orEwIw (rm : RM16) (imm : Word)  -- 8108: OR Ew,Iw R322
  | adcEwIw (rm : RM16) (imm : Word)  -- 8110: ADC Ew,Iw R264
  | sbbEwIw (rm : RM16) (imm : Word)  -- 8118: SBB Ew,Iw R266
  | andEwIw (rm : RM16) (imm : Word)  -- 8120: AND Ew,Iw R321
  | subEwIw (rm : RM16) (imm : Word)  -- 8128: SUB Ew,Iw R265
  | xorEwIw (rm : RM16) (imm : Word)  -- 8130: XOR Ew,Iw R323
  | cmpEwIw (rm : RM16) (imm : Word)  -- 8138: CMP Ew,Iw R267
  | addEbIb82 (rm : RM8) (imm : Byte)  -- 8200: ADD Eb,Ib R263 (u)
  | orEbIb82 (rm : RM8) (imm : Byte)  -- 8208: OR Eb,Ib R322 (u)
  | adcEbIb82 (rm : RM8) (imm : Byte)  -- 8210: ADC Eb,Ib R264 (u)
  | sbbEbIb82 (rm : RM8) (imm : Byte)  -- 8218: SBB Eb,Ib R266 (u)
  | andEbIb82 (rm : RM8) (imm : Byte)  -- 8220: AND Eb,Ib R321 (u)
  | subEbIb82 (rm : RM8) (imm : Byte)  -- 8228: SUB Eb,Ib R265 (u)
  | xorEbIb82 (rm : RM8) (imm : Byte)  -- 8230: XOR Eb,Ib R323 (u)
  | cmpEbIb82 (rm : RM8) (imm : Byte)  -- 8238: CMP Eb,Ib R267 (u)
  | addEwIs (rm : RM16) (imm : Byte)  -- 8300: ADD Ew,Is R263
  | orEwIs (rm : RM16) (imm : Byte)  -- 8308: OR Ew,Is R322 (u)
  | adcEwIs (rm : RM16) (imm : Byte)  -- 8310: ADC Ew,Is R264
  | sbbEwIs (rm : RM16) (imm : Byte)  -- 8318: SBB Ew,Is R266
  | andEwIs (rm : RM16) (imm : Byte)  -- 8320: AND Ew,Is R321 (u)
  | subEwIs (rm : RM16) (imm : Byte)  -- 8328: SUB Ew,Is R265
  | xorEwIs (rm : RM16) (imm : Byte)  -- 8330: XOR Ew,Is R323 (u)
  | cmpEwIs (rm : RM16) (imm : Byte)  -- 8338: CMP Ew,Is R267
  | testEbGb (rm : RM8) (r : Reg8)  -- 8400: TEST Eb,Gb R324
  | testEwGw (rm : RM16) (r : Reg16)  -- 8500: TEST Ew,Gw R324
  | xchgGbEb (r : Reg8) (rm : RM8)  -- 8600: XCHG Gb,Eb R218
  | xchgGwEw (r : Reg16) (rm : RM16)  -- 8700: XCHG Gw,Ew R218
  | movEbGb (rm : RM8) (r : Reg8)  -- 8800: MOV Eb,Gb R201
  | movEwGw (rm : RM16) (r : Reg16)  -- 8900: MOV Ew,Gw R201
  | movGbEb (r : Reg8) (rm : RM8)  -- 8A00: MOV Gb,Eb R202
  | movGwEw (r : Reg16) (rm : RM16)  -- 8B00: MOV Gw,Ew R202
  | movEwSw (rm : RM16) (sr : SReg) (bit5 : Bool)  -- 8C00: MOV Ew,Sw R208
  | leaM0 (r : Reg16) (m : MemOp)  -- 8D00: LEA Gw,M R227
  | leaM1 (r : Reg16) (m : MemOp)  -- 8D40: LEA Gw,M R227
  | leaM2 (r : Reg16) (m : MemOp)  -- 8D80: LEA Gw,M R227
  | leaReg (r : Reg16) (r2 : Reg16)  -- 8DC0: LEA Gw,reg (mod=3) R487
  | movSwEw (sr : SReg) (bit5 : Bool) (rm : RM16)  -- 8E00: MOV Sw,Ew R207
  | popEw (rm : RM16) (ignored : BitVec 3)  -- 8F00: POP Ew R214
  | callFar (off : Word) (seg : Word)  -- 9A00: CALL Ap R412
  | movAlOb (off : Word)  -- A000: MOV AL,Ob R205
  | movAxOw (off : Word)  -- A100: MOV AX,Ow R205
  | movObAl (off : Word)  -- A200: MOV Ob,AL R206
  | movOwAx (off : Word)  -- A300: MOV Ow,AX R206
  | testAlIb (imm : Byte)  -- A800: TEST AL,Ib R325
  | testAxIw (imm : Word)  -- A900: TEST AX,Iw R325
  | movReg8Ib (r : Reg8) (imm : Byte)  -- B000: MOV reg8,Ib R204
  | movReg16Iw (r : Reg16) (imm : Word)  -- B800: MOV reg16,Iw R204
  | retIwAlias (imm : Word)  -- C000: RET Iw R416 (u)
  | retIw (imm : Word)  -- C200: RET Iw R416
  | lesM0 (r : Reg16) (m : MemOp)  -- C400: LES Gw,Mp R229
  | lesM1 (r : Reg16) (m : MemOp)  -- C440: LES Gw,Mp R229
  | lesM2 (r : Reg16) (m : MemOp)  -- C480: LES Gw,Mp R229
  | lesReg (r : Reg16) (r2 : Reg16)  -- C4C0: LES Gw,reg (mod=3) R487
  | ldsM0 (r : Reg16) (m : MemOp)  -- C500: LDS Gw,Mp R228
  | ldsM1 (r : Reg16) (m : MemOp)  -- C540: LDS Gw,Mp R228
  | ldsM2 (r : Reg16) (m : MemOp)  -- C580: LDS Gw,Mp R228
  | ldsReg (r : Reg16) (r2 : Reg16)  -- C5C0: LDS Gw,reg (mod=3) R487
  | movEbIb (rm : RM8) (ignored : BitVec 3) (imm : Byte)  -- C600: MOV Eb,Ib R203
  | movEwIw (rm : RM16) (ignored : BitVec 3) (imm : Word)  -- C700: MOV Ew,Iw R203
  | retfIwAlias (imm : Word)  -- C800: RETF Iw R418 (u)
  | retfIw (imm : Word)  -- CA00: RETF Iw R418
  | intIb (imm : Byte)  -- CD00: INT Ib R430
  | rolEb1 (rm : RM8)  -- D000: ROL Eb,1 R331
  | rorEb1 (rm : RM8)  -- D008: ROR Eb,1 R332
  | rclEb1 (rm : RM8)  -- D010: RCL Eb,1 R333
  | rcrEb1 (rm : RM8)  -- D018: RCR Eb,1 R334
  | shlEb1 (rm : RM8)  -- D020: SHL Eb,1 R335
  | shrEb1 (rm : RM8)  -- D028: SHR Eb,1 R336
  | setmoEb1 (rm : RM8)  -- D030: SETMO Eb,1 R338 (u)
  | sarEb1 (rm : RM8)  -- D038: SAR Eb,1 R337
  | rolEw1 (rm : RM16)  -- D100: ROL Ew,1 R331
  | rorEw1 (rm : RM16)  -- D108: ROR Ew,1 R332
  | rclEw1 (rm : RM16)  -- D110: RCL Ew,1 R333
  | rcrEw1 (rm : RM16)  -- D118: RCR Ew,1 R334
  | shlEw1 (rm : RM16)  -- D120: SHL Ew,1 R335
  | shrEw1 (rm : RM16)  -- D128: SHR Ew,1 R336
  | setmoEw1 (rm : RM16)  -- D130: SETMO Ew,1 R338 (u)
  | sarEw1 (rm : RM16)  -- D138: SAR Ew,1 R337
  | rolEbCl (rm : RM8)  -- D200: ROL Eb,CL R331
  | rorEbCl (rm : RM8)  -- D208: ROR Eb,CL R332
  | rclEbCl (rm : RM8)  -- D210: RCL Eb,CL R333
  | rcrEbCl (rm : RM8)  -- D218: RCR Eb,CL R334
  | shlEbCl (rm : RM8)  -- D220: SHL Eb,CL R335
  | shrEbCl (rm : RM8)  -- D228: SHR Eb,CL R336
  | setmocEbCl (rm : RM8)  -- D230: SETMOC Eb,CL R338 (u)
  | sarEbCl (rm : RM8)  -- D238: SAR Eb,CL R337
  | rolEwCl (rm : RM16)  -- D300: ROL Ew,CL R331
  | rorEwCl (rm : RM16)  -- D308: ROR Ew,CL R332
  | rclEwCl (rm : RM16)  -- D310: RCL Ew,CL R333
  | rcrEwCl (rm : RM16)  -- D318: RCR Ew,CL R334
  | shlEwCl (rm : RM16)  -- D320: SHL Ew,CL R335
  | shrEwCl (rm : RM16)  -- D328: SHR Ew,CL R336
  | setmocEwCl (rm : RM16)  -- D330: SETMOC Ew,CL R338 (u)
  | sarEwCl (rm : RM16)  -- D338: SAR Ew,CL R337
  | aam (imm : Byte)  -- D400: AAM Ib R281
  | aad (imm : Byte)  -- D500: AAD Ib R282
  | esc (op : BitVec 3) (reg : BitVec 3) (rm : RM16)  -- D800: ESC opcode[2:0],E R477
  | loopnz (rel : Byte)  -- E000: LOOPNZ Jb R427
  | loopz (rel : Byte)  -- E100: LOOPZ Jb R426
  | loop (rel : Byte)  -- E200: LOOP Jb R425
  | jcxz (rel : Byte)  -- E300: JCXZ Jb R428
  | inAlIb (port : Byte)  -- E400: IN AL,Ib R222
  | inAxIb (port : Byte)  -- E500: IN AX,Ib R222
  | outIbAl (port : Byte)  -- E600: OUT Ib,AL R224
  | outIbAx (port : Byte)  -- E700: OUT Ib,AX R224
  | callRel16 (rel : Word)  -- E800: CALL Jw R410
  | jmpRel16 (rel : Word)  -- E900: JMP Jw R402
  | jmpFar (off : Word) (seg : Word)  -- EA00: JMP Ap R403
  | jmpRel8 (rel : Byte)  -- EB00: JMP Jb R401
  | testEbIb (rm : RM8) (imm : Byte)  -- F600: TEST Eb,Ib R326
  | testEbIbAlias (rm : RM8) (imm : Byte)  -- F608: TEST Eb,Ib R326 (u)
  | notEb (rm : RM8)  -- F610: NOT Eb R327
  | negEb (rm : RM8)  -- F618: NEG Eb R272
  | mulEb (rm : RM8)  -- F620: MUL Eb R273
  | imulEb (rm : RM8)  -- F628: IMUL Eb R274
  | divEb (rm : RM8)  -- F630: DIV Eb R275
  | idivEb (rm : RM8)  -- F638: IDIV Eb R276
  | testEwIw (rm : RM16) (imm : Word)  -- F700: TEST Ew,Iw R326
  | testEwIwAlias (rm : RM16) (imm : Word)  -- F708: TEST Ew,Iw R326 (u)
  | notEw (rm : RM16)  -- F710: NOT Ew R327
  | negEw (rm : RM16)  -- F718: NEG Ew R272
  | mulEw (rm : RM16)  -- F720: MUL Ew R273
  | imulEw (rm : RM16)  -- F728: IMUL Ew R274
  | divEw (rm : RM16)  -- F730: DIV Ew R275
  | idivEw (rm : RM16)  -- F738: IDIV Ew R276
  | incEb (rm : RM8)  -- FE00: INC Eb R269
  | decEb (rm : RM8)  -- FE08: DEC Eb R271
  | grp4op2 (rm : RM8)  -- FE10: GRP4_2 Eb R485 (u)
  | grp4op3 (rm : RM8)  -- FE18: GRP4_3 Eb R485 (u)
  | grp4op4 (rm : RM8)  -- FE20: GRP4_4 Eb R485 (u)
  | grp4op5 (rm : RM8)  -- FE28: GRP4_5 Eb R485 (u)
  | grp4op6 (rm : RM8)  -- FE30: GRP4_6 Eb R485 (u)
  | grp4op7 (rm : RM8)  -- FE38: GRP4_7 Eb R485 (u)
  | incEw (rm : RM16)  -- FF00: INC Ew R269
  | decEw (rm : RM16)  -- FF08: DEC Ew R271
  | callEw (rm : RM16)  -- FF10: CALL Ew R411
  | jmpEw (rm : RM16)  -- FF20: JMP Ew R404
  | pushEw (rm : RM16)  -- FF30: PUSH Ew R211
  | pushEwAlias (rm : RM16)  -- FF38: PUSH Ew R211 (u)
  | callMpM0 (m : MemOp)  -- FF18: CALL Mp R413
  | callMpM1 (m : MemOp)  -- FF58: CALL Mp R413
  | callMpM2 (m : MemOp)  -- FF98: CALL Mp R413
  | callReg (r2 : Reg16)  -- FFD8: CALL reg (mod=3) R486
  | jmpMpM0 (m : MemOp)  -- FF28: JMP Mp R405
  | jmpMpM1 (m : MemOp)  -- FF68: JMP Mp R405
  | jmpMpM2 (m : MemOp)  -- FFA8: JMP Mp R405
  | jmpReg (r2 : Reg16)  -- FFE8: JMP reg (mod=3) R486
  | pushEs  -- 0600: PUSH ES R212
  | pushCs  -- 0E00: PUSH CS R212
  | pushSs  -- 1600: PUSH SS R212
  | pushDs  -- 1E00: PUSH DS R212
  | popEs  -- 0700: POP ES R215
  | popCs  -- 0F00: POP CS R215 (u)
  | popSs  -- 1700: POP SS R215
  | popDs  -- 1F00: POP DS R215
  | segEs  -- 2600: SEG ES: R479
  | segCs  -- 2E00: SEG CS: R479
  | segSs  -- 3600: SEG SS: R479
  | segDs  -- 3E00: SEG DS: R479
  | daa  -- 2700: DAA  R277
  | das  -- 2F00: DAS  R278
  | aaa  -- 3700: AAA  R279
  | aas  -- 3F00: AAS  R280
  | nop  -- 9000: NOP  R470
  | xchgAxCx  -- 9100: XCHG AX,CX R219
  | xchgAxDx  -- 9200: XCHG AX,DX R219
  | xchgAxBx  -- 9300: XCHG AX,BX R219
  | xchgAxSp  -- 9400: XCHG AX,SP R219
  | xchgAxBp  -- 9500: XCHG AX,BP R219
  | xchgAxSi  -- 9600: XCHG AX,SI R219
  | xchgAxDi  -- 9700: XCHG AX,DI R219
  | cbw  -- 9800: CBW  R283
  | cwd  -- 9900: CWD  R284
  | wait  -- 9B00: WAIT  R476
  | pushf  -- 9C00: PUSHF  R216
  | popf  -- 9D00: POPF  R217
  | sahf  -- 9E00: SAHF  R221
  | lahf  -- 9F00: LAHF  R220
  | movsb  -- A400: MOVSB  R371
  | movsw  -- A500: MOVSW  R371
  | cmpsb  -- A600: CMPSB  R372
  | cmpsw  -- A700: CMPSW  R372
  | stosb  -- AA00: STOSB  R375
  | stosw  -- AB00: STOSW  R375
  | lodsb  -- AC00: LODSB  R374
  | lodsw  -- AD00: LODSW  R374
  | scasb  -- AE00: SCASB  R373
  | scasw  -- AF00: SCASW  R373
  | retAlias  -- C100: RET  R415 (u)
  | ret  -- C300: RET  R415
  | retfAlias  -- C900: RETF  R417 (u)
  | retf  -- CB00: RETF  R417
  | int3  -- CC00: INT3  R431
  | into  -- CE00: INTO  R432
  | iret  -- CF00: IRET  R433
  | salc  -- D600: SALC  R471 (u)
  | xlat  -- D700: XLAT  R226
  | inAlDx  -- EC00: IN AL,DX R223
  | inAxDx  -- ED00: IN AX,DX R223
  | outDxAl  -- EE00: OUT DX,AL R225
  | outDxAx  -- EF00: OUT DX,AX R225
  | lock  -- F000: LOCK  R478
  | lockAlias  -- F100: LOCK  R478 (u)
  | repne  -- F200: REPNE  R380
  | rep  -- F300: REP  R380
  | hlt  -- F400: HLT  R475
  | cmc  -- F500: CMC  R462
  | clc  -- F800: CLC  R460
  | stc  -- F900: STC  R461
  | cli  -- FA00: CLI  R465
  | sti  -- FB00: STI  R466
  | cld  -- FC00: CLD  R463
  | std  -- FD00: STD  R464
  deriving DecidableEq, Repr

end Sys2Proof
end

