-- ==== Sys2Proof/Machine/State.lean ====
section
/-! DEFINITION. The machine's state as plain data (spec/10_state.md R20 to R40, 52_pit_pic_dma.md R611,
R640, R670, 53_crtc_video.md R701, R720, R731, R750), the stops, and the state after reset. The CPU's
registers stand at the top; everything a clock tick can change (bus unit, memory, devices) stands in
`Sys`, so that a tick visibly leaves the registers alone. -/

namespace Sys2Proof.Machine

/-! ## Sparse data -/

/-- Data by key in one canonical form: keys strictly rising, no entry equal to the value an unlisted key
has. `Sparse.get`, `Sparse.put` and `Sparse.wf` are in Machine/Mem.lean. -/
abbrev Sparse (α : Type) := List (Nat × α)

/-! ## CPU registers -/

/-- The eight general registers (R20); a byte register is half of one (R21). -/
structure Regs where
  ax : Word
  cx : Word
  dx : Word
  bx : Word
  sp : Word
  bp : Word
  si : Word
  di : Word
  deriving DecidableEq, Repr

/-- The four segment registers (R23). -/
structure SRegs where
  es : Word
  cs : Word
  ss : Word
  ds : Word
  deriving DecidableEq, Repr

/-- The nine stored flags (R27); the 16-bit image with its reserved bits is `Flags.image` (R28). -/
structure Flags where
  cf : Bool
  pf : Bool
  af : Bool
  zf : Bool
  sf : Bool
  tf : Bool
  ief : Bool
  df : Bool
  of : Bool
  deriving DecidableEq, Repr

/-- Which repeat prefix an instruction carries (R134). -/
inductive Rep where
  | none
  | repne
  | rep
  deriving DecidableEq, Repr

/-- The prefix record (R134). -/
structure Pfx where
  seg : Option SReg
  rep : Rep
  lock : Bool
  deriving DecidableEq, Repr

/-- The execution unit (R33). `start` is the offset of the current instruction's first byte, which an
interrupted WAIT needs (R476). `opword` is what EuCost is looked up by (R552): the current instruction's opcode
byte and, above it, its ModRM byte (0 without one), none in an entry step; `opIndex` is `mpc` when the opcode was
taken. `prefixing` says that the step ended among the prefix bytes of an instruction that the next step goes on
with (R130, log 13), which began at tick `startTick`. -/
structure Eu where
  instr : Option Instr
  pfx : Pfx
  repActive : Bool
  start : Word
  opword : Option Word
  opIndex : Nat
  prefixing : Bool
  startTick : Nat
  opr : Word
  tmpa : Word
  tmpb : Word
  ea : Word
  deriving DecidableEq, Repr

/-! ## Bus interface unit -/

/-- The phases of the bus state machine (R32, R510). -/
inductive Phase where
  | idle | t1 | t2 | t3 | tw | t4 | haltAck
  deriving DecidableEq, Repr

/-- The bus operations (R32, R502). -/
inductive BusOp where
  | codeFetch | memRead | memWrite | ioRead | ioWrite | intAck | passive | haltAck
  deriving DecidableEq, Repr

/-- A scheduled prefetch (R32, R531, R534). -/
inductive FetchSched where
  | none
  | scheduled (start : Nat)
  | aborted
  deriving DecidableEq, Repr

/-- One byte of the prefetch queue with the tick of the T4 that pushed it (R31, R532). -/
structure QueueByte where
  byte : Byte
  age : Nat
  deriving DecidableEq, Repr

/-- A bus request of the EU (R520). A port is the low 16 bits of `addr`. `segSrc` is none for a vector
read, a port and an interrupt acknowledge, which no segment register forms. `lock` says that the bus is locked
from the cycle's T1 on (R36). -/
structure Request where
  op : BusOp
  addr : PhysAddr
  data : Byte
  segSrc : Option SReg
  lock : Bool
  deriving DecidableEq, Repr

/-- Why the EU waits (R33). -/
inductive Stall where
  | none | queueEmpty | busBusy
  deriving DecidableEq, Repr

/-- The bus interface unit (R26, R31, R32, R36). `haltReq` is the EU's halt request (R522). `fromReset` is the model's
own: no tick has run since the reset, which decided the first fetch itself (R831, log 51). -/
structure Biu where
  phase : Phase
  op : BusOp
  addr : PhysAddr
  data : Byte
  waitLeft : Nat
  segSrc : Option SReg
  request : Option Request
  fetchSched : FetchSched
  suspended : Bool
  lock : Bool
  haltReq : Bool
  fromReset : Bool
  queue : List QueueByte
  pc : Word
  deriving DecidableEq, Repr

/-! ## Parameters (00_scope.md R7), constants of a run (R8) -/

/-- The video adapter installed (R7 VIDEO_KIND). -/
inductive VideoKind where
  | none | cga | ega | vga
  deriving DecidableEq, Repr

/-- What a memory range is (R73); an address in no range is unmapped. -/
inductive RangeKind where
  | ram | rom | mmio
  deriving DecidableEq, Repr

/-- The device an MMIO range delegates to (R73, R76): the video adapter, the one in scope, or a device out of
scope by number, whose functions are `Config.extByte` (log 46): `external` when a read leaves it as it is, `reactive`
when a read may change it. -/
inductive MmioDevice where
  | video
  | external (n : Nat)
  | reactive (n : Nat)
  deriving DecidableEq, Repr

/-- One range of the memory map (R73). `device` counts in an MMIO range only. -/
structure MemRange where
  base : Nat
  len : Nat
  kind : RangeKind
  device : MmioDevice
  wait : Nat
  deriving DecidableEq, Repr

/-- The devices that own ports (R93, R96): those in scope, or a device out of scope by number, whose functions are
`Config.extByte` (log 46). -/
inductive IoDevice where
  | dma | dmaPage | pic | pit | ppi | nmiMask | video
  | external (n : Nat)
  deriving DecidableEq, Repr

/-- One range of the port map (R93). -/
structure PortRange where
  base : Nat
  len : Nat
  device : IoDevice
  deriving DecidableEq, Repr

/-- A dot clock per system tick, as a fraction (R730). -/
structure Ratio where
  num : Nat
  den : Nat
  deriving DecidableEq, Repr

/-- The steps EuCost names (R552): EA, ALU, SUSP, CORR, FLUSH and RNI, and the gap between the two INTA cycles
(R785). -/
inductive EuStep where
  | ea | alu | susp | corr | flush | rni | intaGap
  deriving DecidableEq, Repr

/-- An operand with the value it has when a step is taken: a general register, the flags' image, or one of the EU's
latches (R33), through which memory operands (`opr`) and the operands of an ALU step (`tmpa`, `tmpb`) pass. -/
inductive EuOperand where
  | reg (r : Reg16) (v : Word)
  | flags (v : Word)
  | opr (v : Word)
  | tmpa (v : Word)
  | tmpb (v : Word)
  | ea (v : Word)
  deriving DecidableEq, Repr

/-- One value of EuCost (R552): the ticks of the step of kind `step` that is micro-operation number `index` of the
instruction, counted from its opcode byte; a later iteration of a repeated string instruction counts from 0.
`instr` is the opcode byte with the ModRM byte above it, none for an interrupt entry; `operands` are the operand
values the row asks for (92_eei_decisions.md D19 "EuCost(instruction, operands)"), none listed for every value. -/
structure EuCostRow where
  instr : Option Word
  step : EuStep
  index : Nat
  operands : List EuOperand
  ticks : Nat
  deriving DecidableEq, Repr

/-- What of the scan field the renderer shows (R753): all of it, or a rectangle. -/
inductive Aperture where
  | full
  | rect (x y width height : Nat)
  deriving DecidableEq, Repr

/-- The parameters the spec leaves open (R7). No rule changes them. `cpuHz` is CPU_HZ, the system tick rate;
`euCost` lists the values of EuCost that are not R552's own (1, and 0 for RNI and the INTA gap), the first row that
counts deciding; `convRamBytes` is CONV_RAM_BYTES, at most 655360; `memMap` lists the ranges of the memory map above
conventional memory. `cgaWait` lists CgaWait(phase) for phases 0 to 15 (R748); `dotRatio0` to
`dotRatio3` are the adapter's dot clocks by clock select (R743); `switches` are the EGA's four configuration
switches in bits 3:0 and its feature inputs in bits 6:5 (R742); `planeBytes` is the size of one EGA plane (R731);
`aperture` is the rectangle `read_frame()` answers with (R750, R753). -/
structure Params where
  cpuHz : Nat
  euCost : List EuCostRow
  videoKind : VideoKind
  convRamBytes : Fin 655361
  memMap : List MemRange
  ioMap : List PortRange
  cpuWait : Nat
  ioWait : Nat
  refreshEnabled : Bool
  cgaWait : List Nat
  dotRatio0 : Ratio
  dotRatio1 : Ratio
  dotRatio2 : Ratio
  dotRatio3 : Ratio
  switches : Byte
  planeBytes : Nat
  aperture : Aperture
  deriving DecidableEq, Repr

/-- The input lines of out-of-scope devices (R39, R588, R780): eight IRQ lines, the NMI source, the TEST
pin (R476; true when asserted), the DRQ lines of DMA channels 1 to 3 in bits 3:1 with the byte such a device
drives in a DMA write transfer (R677), the wait states READY demands of a cycle that reaches no in-scope
device (R515 item 4), and the PPI's port A and port C inputs. -/
structure Lines where
  irq : Byte
  nmi : Bool
  test : Bool
  drq : BitVec 4
  dmaData : Byte
  readyWait : Nat
  portA : Byte
  portC : Byte
  deriving DecidableEq, Repr

/-! ## PIT (R611) -/

/-- The six counter modes (R613). -/
inductive PitMode where
  | m0 | m1 | m2 | m3 | m4 | m5
  deriving DecidableEq, Repr

/-- One counter (R611). `mode` is none until a control word. The model's own fields: `first` (the next
CLK is the first after a load, R620), `armed` (the strobe of modes 4 and 5 is still to come), `openCount` (the
count in `ce` is one whose behaviour the spec leaves open, R615, R625), `counted` (a full count has been written
since power-on, R840 item 7), `rose` (out rose since the last line sampling, R591), `draws` (how many free values
the counter has taken). -/
structure PitCounter where
  mode : Option PitMode
  bcd : Bool
  rw : BitVec 2
  cr : Word
  ce : Word
  ol : Word
  latched : Bool
  rdHi : Bool
  wrHi : Bool
  loaded : Bool
  pendingLoad : Bool
  running : Bool
  gate : Bool
  gateEdge : Bool
  out : Bool
  first : Bool
  armed : Bool
  openCount : Bool
  counted : Bool
  rose : Bool
  draws : Nat
  deriving DecidableEq, Repr

/-- The PIT: three counters and the shared divider remainder (R611, R582). -/
structure Pit where
  c0 : PitCounter
  c1 : PitCounter
  c2 : PitCounter
  acc : Nat
  deriving DecidableEq, Repr

/-! ## PIC (R640) -/

/-- The initialisation sequencer (R640). -/
inductive PicInit where
  | ready | wantIcw2 | wantIcw3 | wantIcw4
  deriving DecidableEq, Repr

/-- The PIC (R640). `icw3` is stored (R649); `rotateAeoi` is the flag of R651; `edgeHeld` holds the lines
that were high at ICW1 and must fall before they can request again (R642). -/
structure Pic where
  irr : Byte
  isr : Byte
  imr : Byte
  irPrev : Byte
  edgeHeld : Byte
  base : BitVec 5
  lowest : BitVec 3
  ltim : Bool
  single : Bool
  ic4 : Bool
  icw3 : Byte
  aeoi : Bool
  sfnm : Bool
  buf : Bool
  ms : Bool
  upm : Bool
  smm : Bool
  rotateAeoi : Bool
  readIsr : Bool
  poll : Bool
  initState : PicInit
  intr : Bool
  inInta : Bool
  intaLevel : BitVec 3
  draws : Nat
  deriving DecidableEq, Repr

/-! ## DMA controller (R670) -/

/-- One channel (R670): `mode` is bits 7:2 of the mode register (R674). -/
structure DmaChannel where
  baseAddr : Word
  curAddr : Word
  baseCount : Word
  curCount : Word
  mode : BitVec 6
  page : Byte
  deriving DecidableEq, Repr

/-- The controller (R670). `tc` is status bits 3:0; status bits 7:4 are the request lines. `page0` is the
unused page slot at port 0x80 (R671). The model's own fields: `rotLow`, the channel last served, lowest
under rotation (R676), and `draws`, the free values taken. -/
structure Dma where
  ch0 : DmaChannel
  ch1 : DmaChannel
  ch2 : DmaChannel
  ch3 : DmaChannel
  page0 : Byte
  command : Byte
  tc : BitVec 4
  request : BitVec 4
  mask : BitVec 4
  flipflop : Bool
  temp : Byte
  dreq : BitVec 4
  busyLeft : Nat
  rotLow : BitVec 2
  draws : Nat
  deriving DecidableEq, Repr

/-! ## Video -/

/-- One dot of the scan field (R725, R750): blanking, or a colour (an RGBI index, an EGA colour or the
18 bits of a VGA palette entry). -/
inductive Dot where
  | blank
  | color (c : BitVec 18)
  deriving DecidableEq, Repr

/-- One frame of dots (R750): rows by number, each row's dots left to right. -/
structure Frame where
  width : Nat
  height : Nat
  rows : Sparse (List Dot)
  deriving DecidableEq, Repr

/-- Front and back buffers with the beam position (R750). `line` holds the dots since the last commit, latest
first, up to the longest line the model keeps. -/
structure Framebuffer where
  front : Frame
  back : Frame
  x : Nat
  y : Nat
  line : List Dot
  deriving DecidableEq, Repr

/-- The counters of the CRTC core (R701), at the widths of the widest CRTC (R731). `vline` is the scanline
counter that the EGA and VGA compare (R741); their `hcc` is `EgaScan.hchar`. -/
structure CrtcCounters where
  hcc : Byte
  vcc : BitVec 7
  ra : BitVec 5
  vtac : BitVec 5
  inVta : Bool
  vline : BitVec 10
  ma : Word
  maRow : Word
  hsync : Bool
  hsc : BitVec 4
  vsync : Bool
  vsc : BitVec 5
  hde : Bool
  vde : Bool
  frame : Nat
  cclkAcc : Nat
  deriving DecidableEq, Repr

/-- The CGA (R720): its MC6845's index and registers CR0 to CR17 (R701, R702), the mode and colour
registers, display memory, the light pen latch. `snowChar` and `snow` are the byte a contended fetch saw
and whether the next character is hit (R748); `hphase` is the hdot count modulo 16. -/
structure Cga where
  index : BitVec 5
  cr : Vector Byte 18
  crtc : CrtcCounters
  mode : BitVec 6
  color : BitVec 6
  vram : Sparse Byte
  lpLatch : BitVec 14
  lpTrigger : Bool
  snowChar : Byte
  snow : Bool
  hphase : BitVec 4
  deriving DecidableEq, Repr

/-- The EGA/VGA display memory: four planes and the CPU's read latches (R731). -/
structure EgaPlanes where
  plane0 : Sparse Byte
  plane1 : Sparse Byte
  plane2 : Sparse Byte
  plane3 : Sparse Byte
  latch0 : Byte
  latch1 : Byte
  latch2 : Byte
  latch3 : Byte
  deriving DecidableEq, Repr

/-- The EGA/VGA registers (R731): sequencer, graphics controller, `ac` controller of R734, CRTC, external
registers. `vse` is the VGA's subsystem enable (R740, 0x3C3). -/
structure EgaRegs where
  seqIndex : Byte
  sr : Vector Byte 5
  gcIndex : Byte
  gr : Vector Byte 9
  acIndex : Byte
  acFlipflop : Bool
  ar : Vector Byte 21
  crtcIndex : Byte
  cr : Vector Byte 25
  misc : Byte
  feature : Byte
  gfxPos1 : Byte
  gfxPos2 : Byte
  vse : Bool
  deriving DecidableEq, Repr

/-- The VGA's palette (R731, R744). The model's own fields: `hold`, the red and green of an entry being
written; `readMode`, whether the last index write was a read index (R740, 0x3C7 read). -/
structure VgaDac where
  dac : Sparse (BitVec 18)
  widx : Byte
  ridx : Byte
  phase : BitVec 2
  hold : BitVec 12
  readMode : Bool
  pelMask : Byte
  deriving DecidableEq, Repr

/-- The EGA/VGA scan: the CRTC's counters (R701, R731), with `hchar`, the character counter in `hcc`'s place, wide
enough for the VGA's totals past 255 (R741); and the model's own fields, `pan`, the panning value sampled at the
scanline's start (R734); `split`, past the line compare; `dblHalf`, `vHalf`, the half counts of double scan and of
the halved vertical clock; `hblank`, `vblank`, the blanking intervals; `hdePast`, `hsyncPast`, display enable and
horizontal retrace of the last three characters, latest in bit 0, for the skews (all R741); `lastOut`, the last
dot's output (R742). -/
structure EgaScan where
  crtc : CrtcCounters
  hchar : BitVec 9
  hdePast : BitVec 3
  hsyncPast : BitVec 3
  pan : BitVec 4
  split : Bool
  dblHalf : Bool
  vHalf : Bool
  hblank : Bool
  vblank : Bool
  lastOut : Byte
  deriving DecidableEq, Repr

/-- The EGA or VGA (R731, R746). The model's own fields: `vintRose`, whether the interrupt line rose since
the last line sampling (R591); `draws`, the free values taken. -/
structure Ega where
  planes : EgaPlanes
  regs : EgaRegs
  dac : VgaDac
  scan : EgaScan
  vintPending : Bool
  vintRose : Bool
  draws : Nat
  deriving DecidableEq, Repr

/-- The video subsystem: the adapter's own state for each kind, and the framebuffer. Only the adapter that
`Params.videoKind` names is reached or clocked. -/
structure Video where
  cga : Cga
  ega : Ega
  fb : Framebuffer
  deriving DecidableEq, Repr

/-! ## The system around the EU -/

/-- Everything a clock tick can change. `ticks` is R38's counter. `mpc` counts the current instruction's
micro-operations (R33, R550); `stall` is why the EU waits (R33). `halted`, `nmiLatched`, `intrPending` are
the pending events the bus unit and the devices see (R34); `nmiLine` is the NMI input's level at the last
edge test (R780). `ram`, `rom` and `font` hold the listed bytes of the RAM ranges, the ROM ranges and the
character generator (R38, R725). `inputs` lists the input lines' changes by tick, earliest first (R39);
`extAccesses` lists what devices out of scope have seen, latest first: every write, and the reads of ports and of
`reactive` MMIO ranges; it is their state (R73, R76, R93, log 46).
`draws` counts the free values the CPU has taken. -/
structure Sys where
  cfg : Params
  ticks : Nat
  mpc : Nat
  stall : Stall
  halted : Bool
  nmiLatched : Bool
  nmiLine : Bool
  nmiEnable : Bool
  intrPending : Bool
  biu : Biu
  ram : Sparse Byte
  rom : Sparse Byte
  font : Sparse Byte
  pit : Pit
  port61 : Byte
  pic : Pic
  dma : Dma
  video : Video
  extAccesses : List Config.ExtAccess
  inputs : List (Nat × Lines)
  draws : Nat
  deriving DecidableEq, Repr

/-- The machine's state. `trapLatched`, `intInhibit` (R35) and `waitTpr` (R34) are the events only the EU
sees. -/
structure State where
  regs : Regs
  sregs : SRegs
  ip : Word
  flags : Flags
  eu : Eu
  trapLatched : Bool
  intInhibit : Bool
  waitTpr : Bool
  sys : Sys
  deriving DecidableEq, Repr

/-! ## Stops -/

/-- Faults. The 8088 "never fails" (R74, R772): no fault stands for an event of the hardware. -/
inductive Fault where
  /-- Raised by `Machine.runInstr` when no instruction byte arrives within the model's bound on a queue
  stall. Safe: a stop where the hardware would go on waiting; the spec's own states do not reach it. -/
  | fetchStarved
  deriving DecidableEq, Repr

/-- Refusals: instructions the spec says a model refuses. All safe: the model stops. -/
inductive Refusal where
  /-- An instruction with no meaning yet. Raised by `Machine.exec`. -/
  | notModelled (mnemonic : String)
  /-- Opcode 0xFE with reg 2 to 7: "a model refuses to step it" (R485). Raised by its six meanings. -/
  | group4NotFixed
  /-- 0xFF /3 or /5 with a register operand: "a model refuses to step it" (R486). -/
  | farPointerInRegister
  /-- LEA, LES, LDS with a register operand: "a model refuses to step it" (R487). -/
  | addressOfRegister
  /-- REP or REPNE before MUL, IMUL, DIV or IDIV: "a model refuses" (R286). -/
  | repeatedMulDiv
  deriving DecidableEq, Repr

/-- What a meaning and a step answer. -/
abbrev Out := Host.Outcome State Fault Refusal

/-! ## Reset -/

/-- The general registers after reset: unspecified (R40). DESIGN CHOICE zero, log 1. -/
def Regs.reset : Regs :=
  { ax := 0#16, cx := 0#16, dx := 0#16, bx := 0#16, sp := 0#16, bp := 0#16, si := 0#16, di := 0#16 }

/-- R40: CS = 0xFFFF, the others 0. -/
def SRegs.reset : SRegs := { es := 0#16, cs := 0xFFFF#16, ss := 0#16, ds := 0#16 }

/-- R40: all nine stored bits 0. -/
def Flags.reset : Flags :=
  { cf := false, pf := false, af := false, zf := false, sf := false, tf := false, ief := false,
    df := false, of := false }

/-- No prefix taken (R134). -/
def Pfx.empty : Pfx := { seg := none, rep := .none, lock := false }

/-- R40: no current instruction. The latches' values are a DESIGN CHOICE, log 8. -/
def Eu.reset : Eu :=
  { instr := none, pfx := Pfx.empty, repActive := false, start := 0#16, opword := none,
    opIndex := 0, prefixing := false, startTick := 0, opr := 0#16, tmpa := 0#16,
    tmpb := 0#16, ea := 0#16 }

/-- R40: Idle, no request, no fetch scheduled, empty queue, PC = 0; no tick has run yet (R831). -/
def Biu.reset : Biu :=
  { phase := .idle, op := .passive, addr := 0#20, data := 0#8, waitLeft := 0, segSrc := none,
    request := none, fetchSched := .none, suspended := false, lock := false, haltReq := false,
    fromReset := true, queue := [], pc := 0#16 }

/-- The memory map of the reference IBM 5160 with a CGA above its conventional memory (R90): the CGA's window and its
mirror, the system ROM. Log 10. -/
def Params.referenceMemMap : List MemRange :=
  [ { base := 0xB8000, len := 0x08000, kind := .mmio, device := .video, wait := 0 },
    { base := 0xF0000, len := 0x10000, kind := .rom, device := .video, wait := 0 } ]

/-- The port map of the reference machine (R96). -/
def Params.referenceIoMap : List PortRange :=
  [ { base := 0x00, len := 0x10, device := .dma },
    { base := 0x20, len := 2, device := .pic },
    { base := 0x40, len := 4, device := .pit },
    { base := 0x60, len := 4, device := .ppi },
    { base := 0x80, len := 4, device := .dmaPage },
    { base := 0xA0, len := 1, device := .nmiMask },
    { base := 0x3D0, len := 0x10, device := .video } ]

/-- The reference machine's parameters (R7): CPU_HZ 4772727, EuCost as R552 gives it, 640 KiB of conventional memory, IO_WAIT 1, CPU_WAIT 0,
refresh enabled, CgaWait constant 0, no aperture cut; the fractions are 14.318, 16.257 MHz and two unused selects
over 14.31818 / 3 MHz. Log 10. -/
def Params.reference : Params :=
  { cpuHz := 4772727, euCost := [], videoKind := .cga,
    convRamBytes := ⟨655360, by decide⟩, memMap := Params.referenceMemMap, ioMap := Params.referenceIoMap,
    cpuWait := 0, ioWait := 1, refreshEnabled := true, cgaWait := [],
    dotRatio0 := { num := 3, den := 1 }, dotRatio1 := { num := 16257000, den := 4772727 },
    dotRatio2 := { num := 0, den := 1 }, dotRatio3 := { num := 0, den := 1 },
    switches := 0#8, planeBytes := 0x10000, aperture := .full }

/-- R611: unprogrammed; the unspecified fields' values are a DESIGN CHOICE, log 4. -/
def PitCounter.reset (gate : Bool) : PitCounter :=
  { mode := none, bcd := false, rw := 0#2, cr := 0#16, ce := 0#16, ol := 0#16, latched := false,
    rdHi := false, wrHi := false, loaded := false, pendingLoad := false, running := false,
    gate := gate, gateEdge := false, out := false, first := false, armed := false,
    openCount := false, counted := false, rose := false, draws := 0 }

/-- R611: counters 0 and 1 have GATE tied high, counter 2's is bit 0 of port 0x61. -/
def Pit.reset : Pit :=
  { c0 := PitCounter.reset true, c1 := PitCounter.reset true, c2 := PitCounter.reset false, acc := 0 }

/-- R640: Ready, IRR = ISR = 0, intr = 0; IMR and the fields ICW1 and ICW2 set are unspecified, DESIGN
CHOICE, log 5. -/
def Pic.reset : Pic :=
  { irr := 0#8, isr := 0#8, imr := 0#8, irPrev := 0#8, edgeHeld := 0#8, base := 0#5, lowest := 7#3,
    ltim := false, single := false, ic4 := false, icw3 := 0#8, aeoi := false, sfnm := false,
    buf := false, ms := false, upm := false, smm := false, rotateAeoi := false, readIsr := false,
    poll := false, initState := .ready, intr := false, inInta := false, intaLevel := 0#3, draws := 0 }

/-- R670: unspecified registers, DESIGN CHOICE, log 6. -/
def DmaChannel.reset : DmaChannel :=
  { baseAddr := 0#16, curAddr := 0#16, baseCount := 0#16, curCount := 0#16, mode := 0#6, page := 0#8 }

/-- R670: every channel masked, flip-flop 0. -/
def Dma.reset : Dma :=
  { ch0 := DmaChannel.reset, ch1 := DmaChannel.reset, ch2 := DmaChannel.reset, ch3 := DmaChannel.reset,
    page0 := 0#8, command := 0#8, tc := 0#4, request := 0#4, mask := 0xF#4, flipflop := false,
    temp := 0#8, dreq := 0#4, busyLeft := 0, rotLow := 3#2,
    draws := 0 }

/-- R701: counters 0, display enables 1. -/
def CrtcCounters.reset : CrtcCounters :=
  { hcc := 0#8, vcc := 0#7, ra := 0#5, vtac := 0#5, inVta := false, vline := 0#10, ma := 0#16,
    maRow := 0#16, hsync := false, hsc := 0#4, vsync := false, vsc := 0#5, hde := true, vde := true,
    frame := 0, cclkAcc := 0 }

/-- R720, R701: mode and colour 0; the CRTC's registers are unspecified, DESIGN CHOICE, log 7. -/
def Cga.reset : Cga :=
  { index := 0#5, cr := Vector.replicate 18 0#8, crtc := CrtcCounters.reset, mode := 0#6, color := 0#6,
    vram := [], lpLatch := 0#14, lpTrigger := false, snowChar := 0#8, snow := false, hphase := 0#4 }

/-- R731: planes and latches are unspecified; DESIGN CHOICE, logs 2 and 7. -/
def EgaPlanes.reset : EgaPlanes :=
  { plane0 := [], plane1 := [], plane2 := [], plane3 := [], latch0 := 0#8, latch1 := 0#8,
    latch2 := 0#8, latch3 := 0#8 }

/-- R731: registers 0, the flip-flop in the index state. -/
def EgaRegs.reset : EgaRegs :=
  { seqIndex := 0#8, sr := Vector.replicate 5 0#8, gcIndex := 0#8, gr := Vector.replicate 9 0#8,
    acIndex := 0#8, acFlipflop := false, ar := Vector.replicate 21 0#8, crtcIndex := 0#8,
    cr := Vector.replicate 25 0#8, misc := 0#8, feature := 0#8, gfxPos1 := 0#8, gfxPos2 := 0#8,
    vse := false }

/-- R731: indices 0, pel_mask 0xFF; the entries are unspecified, and so is what port 0x3C7 reads before any index
write (here 3, as after a write index): DESIGN CHOICE, log 7. -/
def VgaDac.reset : VgaDac :=
  { dac := [], widx := 0#8, ridx := 0#8, phase := 0#2, hold := 0#12, readMode := false,
    pelMask := 0xFF#8 }

/-- R731: counters as R701. -/
def EgaScan.reset : EgaScan :=
  { crtc := CrtcCounters.reset, hchar := 0#9, hdePast := 0#3, hsyncPast := 0#3, pan := 0#4, split := false,
    dblHalf := false, vHalf := false, hblank := false, vblank := false, lastOut := 0#8 }

/-- R731. -/
def Ega.reset : Ega :=
  { planes := EgaPlanes.reset, regs := EgaRegs.reset, dac := VgaDac.reset, scan := EgaScan.reset,
    vintPending := false, vintRose := false, draws := 0 }

/-- A frame with no dots. -/
def Frame.empty : Frame := { width := 0, height := 0, rows := [] }

/-- The framebuffer before the first frame (R750): no dots, the beam at its start. -/
def Framebuffer.reset : Framebuffer := { front := Frame.empty, back := Frame.empty, x := 0, y := 0, line := [] }

/-- The video subsystem after reset (R830). -/
def Video.reset : Video := { cga := Cga.reset, ega := Ega.reset, fb := Framebuffer.reset }

/-- The system after reset: R40, R830; memory lists nothing, no input line is ever driven. R40 gives `eu_stall` (R33)
no value: none here, DESIGN CHOICE, log 8. -/
def Sys.reset : Sys :=
  { cfg := Params.reference, ticks := 0, mpc := 0, stall := .none, halted := false,
    nmiLatched := false, nmiLine := false, nmiEnable := false, intrPending := false,
    biu := Biu.reset, ram := [], rom := [], font := [], pit := Pit.reset, port61 := 0#8,
    pic := Pic.reset, dma := Dma.reset, video := Video.reset, extAccesses := [],
    inputs := [], draws := 0 }

/-- The machine right after reset (R40, R830). -/
def State.reset : State :=
  { regs := Regs.reset, sregs := SRegs.reset, ip := 0#16, flags := Flags.reset, eu := Eu.reset,
    trapLatched := false, intInhibit := false, waitTpr := false, sys := Sys.reset }

end Sys2Proof.Machine
end

