-- ==== Sys2Proof/Machine/Dma.lean ====
section
/-! DEFINITION. The DMA controller and the arbiter's choice (spec/52_pit_pic_dma.md R669 to R680). A DMA
cycle moves the channel's counters and holds the bus; the byte a device's channel moves (R677) is
`Sys.dmaMove` in Machine/Bus.lean, and a refresh moves none (R673). -/

namespace Sys2Proof.Machine

/-- A channel by number. -/
def Dma.channel (d : Dma) (c : BitVec 2) : DmaChannel :=
  match c.toNat with
  | 0 => d.ch0 | 1 => d.ch1 | 2 => d.ch2 | _ => d.ch3

/-- The controller with one channel replaced. -/
def Dma.setChannel (d : Dma) (c : BitVec 2) (x : DmaChannel) : Dma :=
  match c.toNat with
  | 0 => { d with ch0 := x } | 1 => { d with ch1 := x } | 2 => { d with ch2 := x }
  | _ => { d with ch3 := x }

/-- A channel whose registers are six free values from number `n` of source 5. -/
def DmaChannel.unspecified (n : Nat) : DmaChannel :=
  { baseAddr := Config.freeWord 5 n, curAddr := Config.freeWord 5 (n + 1),
    baseCount := Config.freeWord 5 (n + 2), curCount := Config.freeWord 5 (n + 3),
    mode := (Config.freeWord 5 (n + 4)).extractLsb' 0 6, page := loByte (Config.freeWord 5 (n + 5)) }

/-- R670: the master clear, as a hardware reset; what a reset leaves unspecified is free (log 6). -/
def Dma.masterClear (d : Dma) : Dma :=
  { d with ch0 := DmaChannel.unspecified d.draws, ch1 := DmaChannel.unspecified (d.draws + 6),
           ch2 := DmaChannel.unspecified (d.draws + 12), ch3 := DmaChannel.unspecified (d.draws + 18),
           command := 0#8, tc := 0#4, request := 0#4, mask := 0xF#4, flipflop := false, temp := 0#8,
           dreq := 0#4, busyLeft := 0, rotLow := 3#2, draws := d.draws + 24 }

/-! ## Requests and the arbiter's choice (R676) -/

/-- Whether channel `c` asks for the bus. A software request of channel 0 does so, as R676 says, also while refresh is
disabled, where R672 says that no refresh cycle ever takes the bus (DESIGN CHOICE, log 53). -/
def Dma.wants (d : Dma) (c : BitVec 2) : Bool :=
  (bit d.dreq c.toNat || bit d.request c.toNat) && !bit d.mask c.toNat

/-- The first asking channel among `fuel` channels from `c` upward modulo 4. -/
def Dma.firstWanting (d : Dma) : Nat → BitVec 2 → Option (BitVec 2)
  | 0, _ => none
  | fuel + 1, c => if d.wants c then some c else d.firstWanting fuel (c + 1#2)

/-- R676: the channel the controller would serve: none when disabled; lowest number first, or the rotating
order when `command[4]` = 1. -/
def Dma.winner (d : Dma) : Option (BitVec 2) :=
  if bit d.command 2 then none
  else d.firstWanting 4 (if bit d.command 4 then d.rotLow + 1#2 else 0#2)

/-- R588: the level the devices present on the request lines of channels 1 to 3. -/
def Dma.present (d : Dma) (drq : BitVec 4) : Dma := { d with dreq := (d.dreq &&& 1#4) ||| (drq &&& 0xE#4) }

/-! ## One DMA cycle (R673, R677) -/

/-- R677: the physical address of a device channel's transfer. -/
def DmaChannel.busAddr (x : DmaChannel) : PhysAddr := (x.page.extractLsb' 0 4 : BitVec 4) ++ x.curAddr

/-- Mode bits 7:6 = 11, cascade (R674). -/
def DmaChannel.cascade (x : DmaChannel) : Bool := bit x.mode 4 && bit x.mode 5

/-- The current address after one transfer: R673, direction from mode bit 5. -/
def DmaChannel.nextAddr (x : DmaChannel) : Word :=
  if bit x.mode 3 then x.curAddr - 1#16 else x.curAddr + 1#16

/-- Mode bit 4, auto-initialise (R674). -/
def DmaChannel.autoInit (x : DmaChannel) : Bool := bit x.mode 2

/-- R673: the channel's counters after one cycle. -/
def DmaChannel.advance (x : DmaChannel) : DmaChannel :=
  if x.curCount = 0#16 then
    if x.autoInit then { x with curAddr := x.baseAddr, curCount := x.baseCount }
    else { x with curAddr := x.nextAddr }
  else { x with curAddr := x.nextAddr, curCount := x.curCount - 1#16 }

/-- R673: the granted cycle of channel `c`: the bus is held, the counters advance, terminal count sets the
status bit and, without auto-initialise, the mask; the request line is served. DESIGN CHOICE, log 19: demand, single
and block mode (bits 7:6) are served alike, one transfer a grant with `dreq` cleared, and a cascade channel's grant
advances its counters too; R674 names the modes only. DESIGN CHOICE, log 53: every grant makes its channel the lowest of
the rotating order, under fixed priority too; R676 says "the rotating order" only. -/
def Dma.grant (d : Dma) (c : BitVec 2) : Dma :=
  let x := d.channel c
  let atEnd := decide (x.curCount = 0#16)
  let d := d.setChannel c x.advance
  { d with busyLeft := Config.refreshBusTicks, rotLow := c,
           tc := if atEnd then setBit d.tc c.toNat true else d.tc,
           mask := if atEnd && !x.autoInit then setBit d.mask c.toNat true else d.mask,
           dreq := setBit d.dreq c.toNat false }

/-! ## Ports (R671, R674, R675, R678) -/

/-- R675: the status byte. -/
def Dma.status (d : Dma) : Byte := d.dreq ++ d.tc

/-- R678: write a byte of a channel's address (`count` false) or count. -/
def DmaChannel.writeHalf (x : DmaChannel) (count hi : Bool) (v : Byte) : DmaChannel :=
  if count then
    { x with baseCount := setHalf hi x.baseCount v, curCount := setHalf hi x.curCount v }
  else { x with baseAddr := setHalf hi x.baseAddr v, curAddr := setHalf hi x.curAddr v }

/-- R678: a byte of a channel's current address or count. -/
def DmaChannel.readHalf (x : DmaChannel) (count hi : Bool) : Byte :=
  halfOf hi (if count then x.curCount else x.curAddr)

/-- R671: a write to port 0x00 + `r`. -/
def Dma.write (d : Dma) (r : BitVec 4) (v : Byte) : Dma :=
  if bit r 3 then
    let c : BitVec 2 := v.extractLsb' 0 2
    match r.toNat with
    | 8 => { d with command := v }
    | 9 => { d with request := setBit d.request c.toNat (bit v 2) }
    | 10 => { d with mask := setBit d.mask c.toNat (bit v 2) }
    | 11 => d.setChannel c { d.channel c with mode := v.extractLsb' 2 6 }
    | 12 => { d with flipflop := false }
    | 13 => d.masterClear
    | 14 => { d with mask := 0#4 }
    | _ => { d with mask := v.extractLsb' 0 4 }
  else
    let c : BitVec 2 := r.extractLsb' 1 2
    let d' := d.setChannel c ((d.channel c).writeHalf (bit r 0) d.flipflop v)
    { d' with flipflop := !d.flipflop }

/-- R671: a read of port 0x00 + `r`; the status read clears bits 3:0. -/
def Dma.read (d : Dma) (r : BitVec 4) : Byte × Dma :=
  if bit r 3 then
    match r.toNat with
    | 8 => (d.status, { d with tc := 0#4 })
    | 13 => (d.temp, d)
    | _ => (0xFF#8, d)
  else
    let c : BitVec 2 := r.extractLsb' 1 2
    ((d.channel c).readHalf (bit r 0) d.flipflop, { d with flipflop := !d.flipflop })

/-- R671, R680: a page register's port, 0x80 + `r`, stores a byte. -/
def Dma.writePage (d : Dma) (r : BitVec 2) (v : Byte) : Dma :=
  match r.toNat with
  | 0 => { d with page0 := v }
  | 1 => { d with ch2 := { d.ch2 with page := v } }
  | 2 => { d with ch3 := { d.ch3 with page := v } }
  | _ => { d with ch1 := { d.ch1 with page := v } }

/-- R671: a page register reads back its byte. -/
def Dma.readPage (d : Dma) (r : BitVec 2) : Byte :=
  match r.toNat with
  | 0 => d.page0
  | 1 => d.ch2.page
  | 2 => d.ch3.page
  | _ => d.ch1.page

end Sys2Proof.Machine
end

