-- ==== Sys2Proof/Machine/Pic.lean ====
section
/-! DEFINITION. The PIC (spec/52_pit_pic_dma.md R639 to R660): initialisation words, operation words, line
sampling, priority, the INTR output, the two INTA pulses, poll mode. Free values come from source 4. -/

namespace Sys2Proof.Machine

/-! ## Priority (R644, R645) -/

/-- The level that is `k` places below the highest priority: R644's cyclic order. -/
def Pic.levelAt (p : Pic) (k : Nat) : BitVec 3 := p.lowest + BitVec.ofNat 3 (k + 1)

/-- The first level in priority order, among the next `fuel` places from place `k`, whose bit is set. -/
def Pic.firstSet (p : Pic) (v : Byte) : Nat → Nat → Option (BitVec 3)
  | 0, _ => none
  | fuel + 1, k => if bit v (p.levelAt k).toNat then some (p.levelAt k) else p.firstSet v fuel (k + 1)

/-- The highest-priority set bit of a byte (R644). -/
def Pic.highest (p : Pic) (v : Byte) : Option (BitVec 3) := p.firstSet v 8 0

/-- R645 without special mask mode: the first unmasked request in priority order, stopping at a level in
service. -/
def Pic.scan (p : Pic) : Nat → Nat → Option (BitVec 3)
  | 0, _ => none
  | fuel + 1, k =>
    let l := p.levelAt k
    if bit p.isr l.toNat then none
    else if bit p.irr l.toNat && !bit p.imr l.toNat then some l
    else p.scan fuel (k + 1)

/-- R645: the eligible level of highest priority. In special mask mode only masked levels and those in
service are left out. -/
def Pic.eligible (p : Pic) : Option (BitVec 3) :=
  if p.smm then p.highest (p.irr &&& ~~~p.imr &&& ~~~p.isr) else p.scan 8 0

/-- R645: `intr` is recomputed after every change of IRR, IMR or ISR. -/
def Pic.update (p : Pic) : Pic := { p with intr := p.eligible.isSome }

/-! ## Line sampling (R643, R658) -/

/-- R643: the lines' levels and which rose since the last sampling. A line that ICW1 found high does not
request until it has fallen (R642). A line of `quiet` makes no request, though its level is noted (R840 item 7,
log 4). -/
def Pic.sample (p : Pic) (level rose quiet : Byte) : Pic :=
  let rose := rose &&& ~~~quiet
  let held := p.edgeHeld &&& level &&& ~~~rose
  let irr :=
    if p.ltim then level &&& ~~~quiet
    else ((p.irr ||| ((~~~p.irPrev &&& level &&& ~~~quiet) ||| rose)) &&& level) &&& ~~~(held &&& ~~~p.irr)
  Pic.update { p with irr := irr, irPrev := level, edgeHeld := held }

/-! ## Initialisation and operation words -/

/-- R642: ICW1. With IC4 = 1 the ICW4 fields keep their values until ICW4 is written, as R642's effect has it (DESIGN
CHOICE, log 52: R640's table gives them 0 after ICW1). -/
def Pic.icw1 (p : Pic) (v : Byte) : Pic :=
  let ic4 := bit v 0
  { p with imr := 0#8, isr := 0#8, irr := 0#8, irPrev := 0#8, edgeHeld := p.irPrev ||| p.edgeHeld,
           lowest := 7#3, smm := false, readIsr := false, poll := false, intr := false, inInta := false,
           ic4 := ic4, single := bit v 1, ltim := bit v 3, initState := .wantIcw2,
           upm := ic4 && p.upm, aeoi := ic4 && p.aeoi, ms := ic4 && p.ms, buf := ic4 && p.buf,
           sfnm := ic4 && p.sfnm }

/-- Where the sequencer goes when the next word would be ICW4 (R648, R649). -/
def Pic.afterIcw3 (p : Pic) : PicInit := if p.ic4 then .wantIcw4 else .ready

/-- R648: ICW2. -/
def Pic.icw2 (p : Pic) (v : Byte) : Pic :=
  { p with base := v.extractLsb' 3 5, initState := if p.single then p.afterIcw3 else .wantIcw3 }

/-- R649: ICW3 is stored. -/
def Pic.icw3Write (p : Pic) (v : Byte) : Pic := { p with icw3 := v, initState := p.afterIcw3 }

/-- R649: ICW4. -/
def Pic.icw4 (p : Pic) (v : Byte) : Pic :=
  { p with upm := bit v 0, aeoi := bit v 1, ms := bit v 2, buf := bit v 3, sfnm := bit v 4,
           initState := .ready }

/-- The level a non-specific EOI clears (R651): the highest in service, masked ones left out in special
mask mode. -/
def Pic.eoiLevel (p : Pic) : Option (BitVec 3) :=
  p.highest (if p.smm then p.isr &&& ~~~p.imr else p.isr)

/-- Clear a level's in-service bit; with `rotate` it becomes the lowest (R651). -/
def Pic.endLevel (p : Pic) (rotate : Bool) (l : BitVec 3) : Pic :=
  { p with isr := setBit p.isr l.toNat false, lowest := if rotate then l else p.lowest }

/-- R651: OCW2. A non-specific EOI with nothing in service, rotating or not, does nothing (DESIGN CHOICE, log 52). -/
def Pic.ocw2 (p : Pic) (v : Byte) : Pic :=
  let l : BitVec 3 := v.extractLsb' 0 3
  Pic.update <|
    match (v.extractLsb' 5 3 : BitVec 3).toNat with
    | 0 => { p with rotateAeoi := false }
    | 1 => (p.eoiLevel.map (p.endLevel false)).getD p
    | 2 => p
    | 3 => p.endLevel false l
    | 4 => { p with rotateAeoi := true }
    | 5 => (p.eoiLevel.map (p.endLevel true)).getD p
    | 6 => { p with lowest := l }
    | _ => p.endLevel true l

/-- R652: OCW3. -/
def Pic.ocw3 (p : Pic) (v : Byte) : Pic :=
  Pic.update
    { p with smm := if bit v 6 then bit v 5 else p.smm, poll := p.poll || bit v 2,
             readIsr := if bit v 1 then bit v 0 else p.readIsr }

/-- R641: a write to port 0x20 (`a0` false) or 0x21. -/
def Pic.write (p : Pic) (a0 : Bool) (v : Byte) : Pic :=
  if a0 then
    match p.initState with
    | .wantIcw2 => p.icw2 v
    | .wantIcw3 => p.icw3Write v
    | .wantIcw4 => p.icw4 v
    | .ready => Pic.update { p with imr := v }
  else if bit v 4 then p.icw1 v
  else if bit v 3 then p.ocw3 v
  else p.ocw2 v

/-! ## Acknowledge -/

/-- A request taken into service: `ISR[l]` set and, in edge mode, `IRR[l]` cleared (R646, R660). -/
def Pic.accept (p : Pic) (l : BitVec 3) : Pic :=
  { p with isr := setBit p.isr l.toNat true,
           irr := if p.ltim then p.irr else setBit p.irr l.toNat false }

/-- R646: the first INTA pulse; IMR is ignored, and an empty IRR makes the acknowledge spurious (R654). -/
def Pic.inta1 (p : Pic) : Pic :=
  Pic.update <|
    match p.highest p.irr with
    | some l => { p.accept l with intaLevel := l, inInta := true }
    | none => { p with intaLevel := 7#3, inInta := true }

/-- R647: the type byte at the second pulse. In the 8080 mode (`upm` = 0) it is unspecified (R649): a free
value, log 26. -/
def Pic.vector (p : Pic) : Byte :=
  if p.upm then p.base ++ p.intaLevel else loByte (Config.freeWord 4 p.draws)

/-- R647: the second INTA pulse. An automatic EOI ends the level just acknowledged. -/
def Pic.inta2 (p : Pic) : Pic :=
  let p := if p.upm then p else { p with draws := p.draws + 1 }
  let p := { p with inInta := false }
  Pic.update (if p.aeoi then p.endLevel p.rotateAeoi p.intaLevel else p)

/-- R660: a poll-mode read acknowledges the eligible level; with none, bit 7 is 0 and the rest free.
An automatic EOI does not end that level, which stays in service, and nothing rotates (DESIGN CHOICE, log 52: R647 ties
the automatic EOI to the second INTA pulse, R660 says that the read acts as an acknowledge). -/
def Pic.pollRead (p : Pic) : Byte × Pic :=
  match p.eligible with
  | some l => (0x80#8 ||| l.setWidth 8, Pic.update { p.accept l with poll := false })
  | none => (loByte (Config.freeWord 4 p.draws) &&& 0x7F#8, { p with poll := false, draws := p.draws + 1 })

/-- R641: a read of port 0x20 (`a0` false) or 0x21. -/
def Pic.read (p : Pic) (a0 : Bool) : Byte × Pic :=
  if a0 then (p.imr, p)
  else if p.poll then p.pollRead
  else (if p.readIsr then p.isr else p.irr, p)

end Sys2Proof.Machine
end

