-- ==== Sys2Proof/Machine/Pit.lean ====
section
/-! DEFINITION. The PIT (spec/52_pit_pic_dma.md R610 to R628): control word, count writes and reads, latch,
the six modes clock by clock, GATE. Free values of counter c come from source c + 1 (log 4, log 25). -/

namespace Sys2Proof.Machine

/-! ## Counting -/

/-- A decimal digit's decrement, with the borrow it hands on (R625). -/
def bcdDigitDec (digit : BitVec 4) (borrow : Bool) : BitVec 4 × Bool :=
  if borrow then (if digit = 0#4 then (9#4, true) else (digit - 1#4, false)) else (digit, false)

/-- R625: the four-decade decrement; 0x0000 goes to 0x9999. -/
def bcdDec (v : Word) : Word :=
  let d0 := bcdDigitDec (v.extractLsb' 0 4) true
  let d1 := bcdDigitDec (v.extractLsb' 4 4) d0.2
  let d2 := bcdDigitDec (v.extractLsb' 8 4) d1.2
  let d3 := bcdDigitDec (v.extractLsb' 12 4) d2.2
  d3.1 ++ d2.1 ++ d1.1 ++ d0.1

/-- `dec` (R616). -/
def PitCounter.dec (c : PitCounter) (v : Word) : Word := if c.bcd then bcdDec v else v - 1#16

/-- A digit above 9 somewhere (R625). -/
def badBcd (v : Word) : Bool :=
  decide (9 < (v.extractLsb' 0 4).toNat) || decide (9 < (v.extractLsb' 4 4).toNat) ||
    decide (9 < (v.extractLsb' 8 4).toNat) || decide (9 < (v.extractLsb' 12 4).toNat)

/-- Whether `CR` is a count whose behaviour the spec leaves open: 1 in modes 2 and 3 (R615), a BCD digit above 9
(R625). -/
def PitCounter.countOpen (c : PitCounter) : Bool :=
  (decide (c.cr = 1#16) && (decide (c.mode = some .m2) || decide (c.mode = some .m3))) ||
    (c.bcd && badBcd c.cr)

/-- R626: GATE permits counting when high in modes 0, 2, 3, 4, and always in modes 1 and 5. -/
def PitCounter.gatePermits (c : PitCounter) : Bool :=
  match c.mode with
  | some .m1 => true
  | some .m5 => true
  | _ => c.gate

/-- Note a 0 to 1 transition of `out` since the counter was `old` (R591). -/
def PitCounter.noteRise (old c : PitCounter) : PitCounter :=
  { c with rose := old.rose || (!old.out && c.out) }

/-- The next free value of counter number `n`. -/
def PitCounter.free (c : PitCounter) (n : Nat) : Word := Config.freeWord (n + 1) c.draws

/-! ## One CLK (R616) -/

/-- `CE <- CR`: a new period, which runs on this count whatever is written meanwhile (R614). -/
def PitCounter.reload (c : PitCounter) : PitCounter := { c with ce := c.cr, first := true, openCount := c.countOpen }

/-- The CLK that loads `CE` after a count write: R616 to R621. -/
def PitCounter.load (c : PitCounter) : PitCounter :=
  let c := { c.reload with pendingLoad := false, running := true, armed := true }
  match c.mode with
  | some .m0 => { c with out := false }
  | _ => { c with out := true }

/-- The CLK after a rising GATE edge: R618, R619, R620, R623. A trigger before any full count acts on
nothing (log 25). -/
def PitCounter.trigger (c : PitCounter) : PitCounter :=
  let c := { c with gateEdge := false }
  if c.loaded then
    match c.mode with
    | some .m1 => { c.reload with out := false, running := true }
    | some .m2 => { c.reload with out := true, running := true }
    | some .m3 => { c.reload with out := true, running := true }
    | some .m5 => { c.reload with out := true, running := true, armed := true }
    | _ => c
  else c

/-- How far one CLK of mode 3 counts (R620): the first CLK of a period takes an odd count to an even one. -/
def PitCounter.squareStep (c : PitCounter) : Word :=
  let d := c.dec
  if c.first && bit c.ce 0 then (if c.out then d c.ce else d (d (d c.ce))) else d (d c.ce)

/-- A counting CLK in each mode (R617 to R623). -/
def PitCounter.count (c : PitCounter) : PitCounter :=
  match c.mode with
  | some .m0 =>
    let v := c.dec c.ce
    { c with ce := v, out := c.out || decide (v = 0#16) }
  | some .m1 =>
    let v := c.dec c.ce
    { c with ce := v, out := c.out || decide (v = 0#16) }
  | some .m2 =>
    if c.out then
      let v := c.dec c.ce
      { c with ce := v, out := decide (v ≠ 1#16) }
    else { c.reload with out := true }
  | some .m3 =>
    let v := c.squareStep
    if v = 0#16 then { c.reload with out := !c.out }
    else { c with ce := v, first := false }
  | some .m4 =>
    let v := c.dec c.ce
    let strobe := c.armed && decide (v = 0#16)
    { c with ce := v, out := !strobe, armed := c.armed && !strobe }
  | some .m5 =>
    let v := c.dec c.ce
    let strobe := c.armed && decide (v = 0#16)
    { c with ce := v, out := !strobe, armed := c.armed && !strobe }
  | none => c

/-- R621, R623: the strobe of modes 4 and 5 lasts one CLK, whatever GATE does meanwhile. -/
def PitCounter.endStrobe (c : PitCounter) : PitCounter :=
  match c.mode with
  | some .m4 => { c with out := true }
  | some .m5 => { c with out := true }
  | _ => c

/-- Whether this CLK does anything to the count. -/
def PitCounter.active (c : PitCounter) : Bool :=
  c.pendingLoad || (c.gateEdge && c.loaded) || (c.running && c.gatePermits)

/-- What one CLK does, in R616's order. Whether a period of an open count ends now, and so takes the next `CR`, is a
free value (log 25). -/
def PitCounter.advance (c : PitCounter) (n : Nat) : PitCounter :=
  if c.pendingLoad then c.load
  else if c.gateEdge then c.trigger
  else if c.running && c.gatePermits then
    if c.openCount then (if bit (c.free n) 0 then c.reload else c) else c.count
  else c

/-- `CE` and `out` while the count is one the spec leaves open: free values (log 25). -/
def PitCounter.freeRun (c : PitCounter) (n : Nat) : PitCounter :=
  { c with ce := Config.freeWord (n + 1) (c.draws + 1), out := bit (Config.freeWord (n + 1) (c.draws + 2)) 0,
           draws := c.draws + 3 }

/-- R616: one CLK of counter number `n`. An unprogrammed counter does not count (R611). -/
def PitCounter.clk (c : PitCounter) (n : Nat) : PitCounter :=
  match c.mode with
  | none => c
  | some _ =>
    let d := c.endStrobe.advance n
    PitCounter.noteRise c (if d.openCount && c.active then d.freeRun n else d)

/-- One reference clock of all three counters (R610). -/
def Pit.clk (p : Pit) : Pit :=
  { p with c0 := p.c0.clk 0, c1 := p.c1.clk 1, c2 := p.c2.clk 2 }

/-- One system tick (R582, R591): a reference clock whenever the divider is full. -/
def Pit.tick (p : Pit) : Pit :=
  if p.acc + 1 < Config.pitDiv then { p with acc := p.acc + 1 } else { p.clk with acc := 0 }

/-! ## GATE (R626) -/

/-- A new GATE level: a rising edge is noted; a low gate forces `out` high in modes 2 and 3 at once (R619,
R620). -/
def PitCounter.setGate (c : PitCounter) (g : Bool) : PitCounter :=
  let c' := { c with gate := g, gateEdge := c.gateEdge || (!c.gate && g) }
  match c.mode with
  | some .m2 => PitCounter.noteRise c { c' with out := c'.out || !g }
  | some .m3 => PitCounter.noteRise c { c' with out := c'.out || !g }
  | _ => c'

/-! ## Ports (R612) -/

/-- The mode field of a control word (R613): 6 means 2 and 7 means 3. -/
def pitModeOf (m : BitVec 3) : PitMode :=
  match m.toNat with
  | 0 => .m0 | 1 => .m1 | 2 => .m2 | 3 => .m3 | 4 => .m4 | 5 => .m5 | 6 => .m2 | _ => .m3

/-- R624: the counter latch command. What an unprogrammed counter latches is free (log 4). -/
def PitCounter.latchCount (c : PitCounter) (n : Nat) : PitCounter :=
  if c.latched then c
  else
    match c.mode with
    | some _ => { c with ol := c.ce, latched := true }
    | none => { c with ol := c.free n, latched := true, draws := c.draws + 1 }

/-- R613: a control word with RW not 0. `OL`, `latched` and `CE` are kept. A first control word makes no
edge (R611). -/
def PitCounter.program (c : PitCounter) (v : Byte) : PitCounter :=
  let m := pitModeOf (v.extractLsb' 1 3)
  let c' := { c with mode := some m, bcd := bit v 0, rw := v.extractLsb' 4 2, rdHi := false,
                     wrHi := false, loaded := false, pendingLoad := false, running := false,
                     gateEdge := false, first := false, armed := false, openCount := false,
                     out := decide (m ≠ .m0) }
  match c.mode with
  | some _ => PitCounter.noteRise c c'
  | none => c'

/-- A control word for counter number `n`: latch command or programming (R613, R624). -/
def PitCounter.control (c : PitCounter) (n : Nat) (v : Byte) : PitCounter :=
  if (v.extractLsb' 4 2 : BitVec 2) = 0#2 then c.latchCount n else c.program v

/-- R614, "count complete"; from now on the counter's output can request (R840 item 7, log 4). -/
def PitCounter.countComplete (c : PitCounter) : PitCounter :=
  let c := { c with loaded := true, counted := true }
  match c.mode with
  | some .m0 => { c with pendingLoad := true }
  | some .m4 => { c with pendingLoad := true }
  | some .m2 => { c with pendingLoad := c.pendingLoad || !c.running }
  | some .m3 => { c with pendingLoad := c.pendingLoad || !c.running }
  | _ => c

/-- R614: writing a count byte to counter number `n`. -/
def PitCounter.writeCount (c : PitCounter) (n : Nat) (v : Byte) : PitCounter :=
  match c.mode with
  | none =>
    { c with cr := c.free n, ce := Config.freeWord (n + 1) (c.draws + 1), draws := c.draws + 2 }
  | some m =>
    match c.rw.toNat with
    | 1 => PitCounter.countComplete { c with cr := word 0#8 v }
    | 2 => PitCounter.countComplete { c with cr := word v 0#8 }
    | _ =>
      if c.wrHi then PitCounter.countComplete { c with cr := setHi c.cr v, wrHi := false }
      else
        let c := { c with cr := setLo c.cr v, wrHi := true }
        if m = .m0 then { c with running := false, out := false } else c

/-- R622: "Reading latches the count": a read sequence that finds nothing latched latches `CE`. -/
def PitCounter.beginRead (c : PitCounter) : PitCounter :=
  if !c.latched && !c.rdHi then { c with ol := c.ce } else c

/-- R622: reading a count byte of counter number `n`. An unprogrammed counter reads any value (93 section
2.5); such a read leaves `latched` and `rdHi` as they are, so a latch survives into the programmed state (DESIGN CHOICE,
log 4: the spec gives the value read only). -/
def PitCounter.readCount (c : PitCounter) (n : Nat) : Byte × PitCounter :=
  match c.mode with
  | none => (loByte (c.free n), { c with draws := c.draws + 1 })
  | some _ =>
    let c := c.beginRead
    match c.rw.toNat with
    | 1 => (loByte c.ol, { c with latched := false })
    | 2 => (hiByte c.ol, { c with latched := false })
    | _ =>
      if c.rdHi then (hiByte c.ol, { c with rdHi := false, latched := false })
      else (loByte c.ol, { c with rdHi := true })

/-- R612: a write to port 0x40 + `r`. Counter select 3 is ignored (R613). -/
def Pit.write (p : Pit) (r : Nat) (v : Byte) : Pit :=
  match r with
  | 0 => { p with c0 := p.c0.writeCount 0 v }
  | 1 => { p with c1 := p.c1.writeCount 1 v }
  | 2 => { p with c2 := p.c2.writeCount 2 v }
  | _ =>
    match (v.extractLsb' 6 2 : BitVec 2).toNat with
    | 0 => { p with c0 := p.c0.control 0 v }
    | 1 => { p with c1 := p.c1.control 1 v }
    | 2 => { p with c2 := p.c2.control 2 v }
    | _ => p

/-- R612: a read of port 0x40 + `r`; the control register reads 0xFF. -/
def Pit.read (p : Pit) (r : Nat) : Byte × Pit :=
  match r with
  | 0 => let x := p.c0.readCount 0; (x.1, { p with c0 := x.2 })
  | 1 => let x := p.c1.readCount 1; (x.1, { p with c1 := x.2 })
  | 2 => let x := p.c2.readCount 2; (x.1, { p with c2 := x.2 })
  | _ => (0xFF#8, p)

/-- Forget the edges noted since the last line sampling (R591). -/
def Pit.clearRises (p : Pit) : Pit :=
  { p with c0 := { p.c0 with rose := false }, c1 := { p.c1 with rose := false },
           c2 := { p.c2 with rose := false } }

end Sys2Proof.Machine
end

