-- ==== Sys2Proof/Machine/Mem.lean ====
section
/-! DEFINITION. Sparse data in canonical form, physical addresses (spec/20_memory.md R71, R72) and the range
lookup of the router (R73, R93). -/

namespace Sys2Proof.Machine

/-! ## Sparse data -/

/-- The value at key `k`, or `d` where no entry names it. -/
def Sparse.get {α : Type} (d : α) (k : Nat) : Sparse α → α
  | [] => d
  | (k', v) :: rest => if k = k' then v else Sparse.get d k rest

/-- Write `v` at key `k`, keeping the canonical form: an entry equal to the default `d` is removed. -/
def Sparse.put {α : Type} [DecidableEq α] (d : α) (k : Nat) (v : α) : Sparse α → Sparse α
  | [] => if v = d then [] else [(k, v)]
  | (k', v') :: rest =>
    if k < k' then (if v = d then (k', v') :: rest else (k, v) :: (k', v') :: rest)
    else if k = k' then (if v = d then rest else (k, v) :: rest)
    else (k', v') :: Sparse.put d k v rest

/-- The canonical form above a bound: keys at least `lo` and strictly rising, no entry equal to `d`. -/
def Sparse.wfFrom {α : Type} [DecidableEq α] (d : α) : Nat → Sparse α → Bool
  | _, [] => true
  | lo, (k, v) :: rest => decide (lo ≤ k) && decide (v ≠ d) && Sparse.wfFrom d (k + 1) rest

/-- The canonical form: keys strictly rising, no entry equal to the default. -/
def Sparse.wf {α : Type} [DecidableEq α] (d : α) (m : Sparse α) : Bool := Sparse.wfFrom d 0 m

/-! ## The system's memory -/

/-- The byte RAM holds at a physical address (R38). -/
def Sys.ramByte (y : Sys) (a : Nat) : Byte := Sparse.get Config.powerOnByte a y.ram

/-- The byte the ROM images hold at a physical address (R38). -/
def Sys.romByte (y : Sys) (a : Nat) : Byte := Sparse.get Config.emptyRomByte a y.rom

/-- Store a byte of RAM (R80). -/
def Sys.putRam (y : Sys) (a : Nat) (b : Byte) : Sys :=
  { y with ram := Sparse.put Config.powerOnByte a b y.ram }

/-- Place a byte of a ROM image: the loader's act, not the CPU's (R80). -/
def Sys.putRom (y : Sys) (a : Nat) (b : Byte) : Sys :=
  { y with rom := Sparse.put Config.emptyRomByte a b y.rom }

/-- The canonical form of every memory of the machine: RAM, the ROM images, the font, the CGA's display
memory, the EGA/VGA planes and palette. -/
def Sys.memWf (y : Sys) : Bool :=
  Sparse.wf Config.powerOnByte y.ram && Sparse.wf Config.emptyRomByte y.rom && Sparse.wf 0#8 y.font
    && Sparse.wf Config.powerOnByte y.video.cga.vram
    && Sparse.wf Config.powerOnByte y.video.ega.planes.plane0 && Sparse.wf Config.powerOnByte y.video.ega.planes.plane1
    && Sparse.wf Config.powerOnByte y.video.ega.planes.plane2 && Sparse.wf Config.powerOnByte y.video.ega.planes.plane3
    && Sparse.wf 0#18 y.video.ega.dac.dac

/-- The canonical form of the machine's memories. -/
abbrev Memory.wf (s : State) : Bool := s.sys.memWf

/-! ## Addresses -/

/-- `phys(segval, off)` (R71): `(segval * 16 + off) mod 2^20`. -/
def phys (seg off : Word) : PhysAddr := (seg.setWidth 20 <<< 4) + off.setWidth 20

/-! ## Ranges -/

/-- Whether a number lies in `[base, base + len)`. -/
def inRange (base len a : Nat) : Bool := decide (base ≤ a) && decide (a < base + len)

/-- The range an address lies in (R73), or none for an unmapped address. -/
def findRange (a : Nat) : List MemRange → Option MemRange
  | [] => none
  | r :: rest => if inRange r.base r.len a then some r else findRange a rest

/-- The memory map (R73, R90): conventional memory, which is CONV_RAM_BYTES bytes of RAM from address 0 without wait
states (R7), then the ranges above it. -/
def Params.map (c : Params) : List MemRange :=
  match c.convRamBytes with
  | ⟨n, _⟩ => { base := 0, len := n, kind := .ram, device := .video, wait := 0 } :: c.memMap

/-- The kind of the range an address lies in. -/
def Params.kindAt (c : Params) (a : PhysAddr) : Option RangeKind :=
  (findRange a.toNat c.map).map MemRange.kind

/-- The device the MMIO range of an address delegates to (R73, R76). -/
def Params.mmioAt (c : Params) (a : PhysAddr) : Option MmioDevice :=
  (findRange a.toNat c.map).map MemRange.device

/-- The device that owns a port (R93), or none. -/
def findPort (p : Nat) : List PortRange → Option IoDevice
  | [] => none
  | r :: rest => if inRange r.base r.len p then some r.device else findPort p rest

/-- The device a port's access reaches (R94, R95). -/
def Params.deviceAt (c : Params) (port : Word) : Option IoDevice := findPort port.toNat c.ioMap

end Sys2Proof.Machine
end

