-- ==== Sys2Proof/Machine/Crtc.lean ====
section
/-! DEFINITION. The framebuffer (spec/53_crtc_video.md R750 to R752) and the MC6845's character clock
(R701, R702, R704). -/

namespace Sys2Proof.Machine

/-! ## Framebuffer -/

/-- R752: a buffer at a new size keeps what still fits. -/
def Frame.resize (f : Frame) (w h : Nat) : Frame :=
  if f.width = w ∧ f.height = h then f
  else
    { width := w, height := h,
      rows := (f.rows.filter (fun r => decide (r.1 < h))).map (fun r => (r.1, r.2.take w)) }

/-- The longest line a CRTC can have, in dots: 256 characters of 16. -/
def longestLine : Nat := 4096

/-- Dots at the beam. -/
def Framebuffer.push (fb : Framebuffer) (dots : List Dot) : Framebuffer :=
  { fb with line := (dots.take (longestLine - fb.x)).reverse ++ fb.line, x := fb.x + dots.length }

/-- R751, HSYNC_END: the dots since the last commit become row y, those beyond the buffer's width dropped; a short
line leaves the rest of the row unchanged. A row past the back buffer's height is dropped while `y` counts on (DESIGN
CHOICE, log 30: R751 speaks of the width only). -/
def Framebuffer.commit (fb : Framebuffer) : Framebuffer :=
  let dots := fb.line.reverse.take fb.back.width
  let old := Sparse.get [] fb.y fb.back.rows
  let back :=
    if fb.y < fb.back.height then
      { fb.back with rows := Sparse.put [] fb.y (dots ++ old.drop dots.length) fb.back.rows }
    else fb.back
  { fb with back := back, x := 0, y := fb.y + 1, line := [] }

/-- R752, VSYNC_START: front and back are exchanged, and resized when the CRTC's totals have changed. -/
def Framebuffer.swap (fb : Framebuffer) (w h : Nat) : Framebuffer :=
  { fb with front := fb.back.resize w h, back := fb.front.resize w h, y := 0 }

/-! ## MC6845 (R704) -/

/-- Display enable (R701). -/
def CrtcCounters.den (k : CrtcCounters) : Bool := k.hde && k.vde

/-- A 14-bit address register pair (R702): six bits high, eight low. -/
def crtcAddr (hi lo : Byte) : Word := word (hi &&& 0x3F#8) lo

/-- R704, new_frame: the start address is sampled here only. -/
def CrtcCounters.newFrame (k : CrtcCounters) (cr : Vector Byte 18) : CrtcCounters :=
  let start := crtcAddr cr[12] cr[13]
  { k with vcc := 0#7, ra := 0#5, inVta := false, vde := true, frame := k.frame + 1, maRow := start,
           ma := start }

/-- R704: the width of the vertical sync pulse counts scanlines; it ends after 16. -/
def CrtcCounters.vsyncCount (k : CrtcCounters) : CrtcCounters :=
  if k.vsync then
    let c := k.vsc + 1#5
    { k with vsc := c, vsync := decide (c ≠ 16#5) }
  else k

/-- R704: the end of a character row: the next row, vertical display end, vertical sync, vertical total. -/
def CrtcCounters.nextRow (k : CrtcCounters) (cr : Vector Byte 18) : CrtcCounters × Bool :=
  let v := k.vcc + 1#7
  let sync := decide (v = cr[7].setWidth 7)
  let k :=
    { k with ra := 0#5, vcc := v, maRow := (k.maRow + cr[1].setWidth 16) &&& 0x3FFF#16,
             vde := k.vde && decide (v ≠ cr[6].setWidth 7), vsync := k.vsync || sync,
             vsc := if sync then 0#5 else k.vsc }
  if v = cr[4].setWidth 7 + 1#7 then
    if cr[5].setWidth 5 = 0#5 then (k.newFrame cr, sync)
    else ({ k with inVta := true, vtac := 0#5 }, sync)
  else (k, sync)

/-- R704: the end of a scanline; the answer says whether VSYNC_START fired. -/
def CrtcCounters.endLine (k : CrtcCounters) (cr : Vector Byte 18) : CrtcCounters × Bool :=
  let k := CrtcCounters.vsyncCount { k with hcc := 0#8, hde := true }
  let r : CrtcCounters × Bool :=
    if k.inVta then
      let t := k.vtac + 1#5
      let k := { k with vtac := t }
      (if t = cr[5].setWidth 5 then k.newFrame cr else k, false)
    else if k.ra = cr[9].setWidth 5 then k.nextRow cr
    else ({ k with ra := k.ra + 1#5 }, false)
  ({ r.1 with ma := r.1.maRow }, r.2)

/-- What one character clock fired. -/
structure CrtcEvents where
  hsyncEnd : Bool
  vsyncStart : Bool
  deriving DecidableEq, Repr

/-- R704: one character clock of the counters, after the character has been emitted. -/
def CrtcCounters.clock (k : CrtcCounters) (cr : Vector Byte 18) : CrtcCounters × CrtcEvents :=
  let h := k.hcc + 1#8
  let k := { k with hcc := h, ma := (k.ma + 1#16) &&& 0x3FFF#16, hde := k.hde && decide (h ≠ cr[1]) }
  let s : CrtcCounters × Bool :=
    if h = cr[2] then ({ k with hsync := true, hsc := 0#4 }, false)
    else if k.hsync then
      let c := k.hsc + 1#4
      let ended := decide (c = cr[3].setWidth 4)
      ({ k with hsc := c, hsync := !ended }, ended)
    else (k, false)
  if h = cr[0] + 1#8 then
    let e := s.1.endLine cr
    (e.1, { hsyncEnd := s.2, vsyncStart := e.2 })
  else (s.1, { hsyncEnd := s.2, vsyncStart := false })

/-- Bits of a register that are storage (R702), by index; the light pen registers and the unlisted ones
have none. -/
def crtcMask (index : Nat) : Byte :=
  match index with
  | 3 => 0x0F#8 | 8 => 0x03#8
  | 4 => 0x7F#8 | 5 => 0x1F#8 | 6 => 0x7F#8 | 7 => 0x7F#8 | 9 => 0x1F#8 | 10 => 0x7F#8 | 11 => 0x1F#8
  | 12 => 0x3F#8 | 14 => 0x3F#8 | 16 => 0x00#8 | 17 => 0x00#8 | _ => 0xFF#8

/-- R702, R704: whether the cursor's blink mode and phase show it: bits 6:5 of CR10. It shows while the phase bit
is 1 (DESIGN CHOICE, log 47: the spec does not say which half shows). -/
def cursorPhase (cr10 : Byte) (frame : Nat) : Bool :=
  match (cr10.extractLsb' 5 2 : BitVec 2).toNat with
  | 0 => true
  | 1 => false
  | 2 => frame.testBit 3
  | _ => frame.testBit 4

/-- R704: whether the cursor shows at the current character and scanline. -/
def CrtcCounters.cursor (k : CrtcCounters) (cr : Vector Byte 18) : Bool :=
  decide (k.ma = crtcAddr cr[14] cr[15]) && decide ((cr[10].setWidth 5).toNat ≤ k.ra.toNat) &&
    decide (k.ra.toNat ≤ (cr[11].setWidth 5).toNat) && k.den && cursorPhase cr[10] k.frame

end Sys2Proof.Machine
end

