-- ==== Sys2Proof/Machine/Cga.lean ====
section
/-! DEFINITION. The CGA (spec/53_crtc_video.md R703, R720 to R725, R748): ports, status, display memory,
snow, and the dots of a character clock. The font is `Sys.font`, keyed by code * 32 + scanline (log 32). -/

namespace Sys2Proof.Machine

/-! ## Mode (R721) -/

/-- Hdots per character clock (R581, R721 bit 0). -/
def Cga.hdotsPerChar (g : Cga) : Nat := if bit g.mode 0 then 8 else 16

/-- 80-column text (R721). -/
def Cga.text80 (g : Cga) : Bool := bit g.mode 0 && !bit g.mode 1

/-! ## Dots (R725) -/

/-- A colour index as a dot. -/
def rgbi (c : BitVec 4) : Dot := .color (c.setWidth 18)

/-- The bits of a byte, most significant first, as dots of two colours. -/
def bitDots (fg bg : Dot) (b : Byte) : List Dot :=
  [7, 6, 5, 4, 3, 2, 1, 0].map fun i => if bit b i then fg else bg

/-- Every dot `k` hdots wide. -/
def widen (k : Nat) (ds : List Dot) : List Dot := ds.flatMap fun d => List.replicate k d

/-- The border colour, or blanking during a sync pulse. -/
def Cga.border (g : Cga) : Dot :=
  if g.crtc.hsync || g.crtc.vsync then .blank
  else if bit g.mode 1 && bit g.mode 4 then rgbi 0#4
  else rgbi (g.color.setWidth 4)

/-- R722: the display address of a character in text. -/
def Cga.textAddr (g : Cga) : Nat := (g.crtc.ma.toNat * 2) % 0x4000

/-- R722: the display address of a byte pair in graphics. -/
def Cga.graphicsAddr (g : Cga) : Nat :=
  (g.crtc.ma.toNat * 2) % 0x2000 + (if bit g.crtc.ra 0 then 0x2000 else 0)

/-- A byte of display memory. -/
def Cga.vramByte (g : Cga) (a : Nat) : Byte := Sparse.get Config.powerOnByte (a % 0x4000) g.vram

/-- R725, text: the glyph row in the character's colours, the cursor over it. A contended fetch shows the
snow byte (R748). -/
def Cga.textDots (g : Cga) (font : Sparse Byte) : List Dot :=
  let a := g.textAddr
  let c := if g.snow then g.snowChar else g.vramByte a
  let t := g.vramByte (a + 1)
  let fg := rgbi (t.extractLsb' 0 4)
  let bg := rgbi (if bit g.mode 5 then (t.extractLsb' 4 3 : BitVec 3).setWidth 4 else t.extractLsb' 4 4)
  let hidden := bit g.mode 5 && bit t 7 && g.crtc.frame.testBit 4
  let row := Sparse.get 0#8 (c.toNat * 32 + g.crtc.ra.toNat) font
  let fg' := if hidden then bg else fg
  let ds := if g.crtc.cursor g.cr then List.replicate 8 fg else bitDots fg' bg row
  if bit g.mode 0 then ds else widen 2 ds

/-- R723: the colour of a 2-bit pixel in 320 x 200. -/
def Cga.paletteColor (g : Cga) (v : BitVec 2) : BitVec 4 :=
  let hi : BitVec 4 := if bit g.color 4 then 8#4 else 0#4
  match v.toNat with
  | 0 => g.color.setWidth 4
  | 1 => hi + (if bit g.mode 2 || bit g.color 5 then 3#4 else 2#4)
  | 2 => hi + (if bit g.mode 2 then 4#4 else if bit g.color 5 then 5#4 else 4#4)
  | _ => hi + (if bit g.mode 2 || bit g.color 5 then 7#4 else 6#4)

/-- The four 2-bit pixels of a byte, most significant pair first. -/
def bitPairs (b : Byte) : List (BitVec 2) :=
  [b.extractLsb' 6 2, b.extractLsb' 4 2, b.extractLsb' 2 2, b.extractLsb' 0 2]

/-- R725, graphics: 320 x 200 in 2-bit pixels two hdots wide, or 640 x 200 in 1-bit pixels. -/
def Cga.graphicsDots (g : Cga) : List Dot :=
  let a := g.graphicsAddr
  let b0 := g.vramByte a
  let b1 := g.vramByte (a + 1)
  if bit g.mode 4 then
    let fg := rgbi (g.color.setWidth 4)
    bitDots fg (rgbi 0#4) b0 ++ bitDots fg (rgbi 0#4) b1
  else widen 2 ((bitPairs b0 ++ bitPairs b1).map fun v => rgbi (g.paletteColor v))

/-- R725: the dots of one character clock. With 8 hdots a character (mode bit 0) a byte pair's graphics show its first
8 hdots (DESIGN CHOICE, log 49: R725 gives 16). -/
def Cga.dots (g : Cga) (font : Sparse Byte) : List Dot :=
  let n := g.hdotsPerChar
  if !bit g.mode 3 then List.replicate n (rgbi 0#4)
  else if !g.crtc.den then List.replicate n g.border
  else if bit g.mode 1 then g.graphicsDots.take n
  else g.textDots font

/-! ## Clocking (R705) -/

/-- Dots per scanline and scanlines per frame under the CRTC's totals (R750). -/
def Cga.frameSize (g : Cga) : Nat × Nat :=
  ((g.cr[0].toNat + 1) * g.hdotsPerChar,
    ((g.cr[4].toNat % 128) + 1) * ((g.cr[9].toNat % 32) + 1) + g.cr[5].toNat % 32)

/-- One character clock: emit, count, commit a scanline, swap the buffers (R700, R704, R751, R752). -/
def Cga.clock (font : Sparse Byte) (x : Cga × Framebuffer) : Cga × Framebuffer :=
  let g := x.1
  let fb := x.2.push (g.dots font)
  let r := g.crtc.clock g.cr
  let g := { g with crtc := r.1, snow := false }
  let fb := if r.2.hsyncEnd then fb.commit else fb
  (g, if r.2.vsyncStart then fb.swap g.frameSize.1 g.frameSize.2 else fb)

/-- `n` character clocks. -/
def Cga.clocks (font : Sparse Byte) : Nat → Cga × Framebuffer → Cga × Framebuffer
  | 0, x => x
  | n + 1, x => Cga.clocks font n (Cga.clock font x)

/-- One system tick: three hdots, and the character clocks they complete (R581, R582, R705). -/
def Cga.tick (font : Sparse Byte) (g : Cga) (fb : Framebuffer) : Cga × Framebuffer :=
  let acc := g.crtc.cclkAcc + Config.cgaHdotsPerTick
  let n := g.hdotsPerChar
  let g := { g with hphase := g.hphase + BitVec.ofNat 4 Config.cgaHdotsPerTick,
                    crtc := { g.crtc with cclkAcc := acc % n } }
  Cga.clocks font (acc / n) (g, fb)

/-! ## CPU accesses -/

/-- R748: an access to display memory in 80-column text during active display. -/
def Cga.contend (g : Cga) (b : Byte) : Cga :=
  if g.text80 && g.crtc.den then { g with snow := true, snowChar := b } else g

/-- R722: a CPU read of display memory. -/
def Cga.readMem (g : Cga) (a : Nat) : Byte × Cga :=
  let b := g.vramByte a
  (b, g.contend b)

/-- R722: a CPU write of display memory. -/
def Cga.writeMem (g : Cga) (a : Nat) (b : Byte) : Cga :=
  Cga.contend { g with vram := Sparse.put Config.powerOnByte (a % 0x4000) b g.vram } b

/-- R724: the status register. -/
def Cga.status (g : Cga) : Byte :=
  0xF4#8 ||| bitAt (!g.crtc.den) 0 ||| bitAt g.lpTrigger 1 ||| bitAt g.crtc.vsync 3

/-- R702, R703: a read of the CRTC register selected: only 14 to 17 are readable. -/
def Cga.readCrtc (g : Cga) : Byte :=
  match g.index.toNat with
  | 14 => g.cr[14]
  | 15 => g.cr[15]
  | 16 => (g.lpLatch.extractLsb' 8 6 : BitVec 6).setWidth 8
  | 17 => g.lpLatch.extractLsb' 0 8
  | _ => 0xFF#8

/-- R702, R703: a write to the CRTC register selected; the read-only and unlisted ones are discarded. -/
def Cga.writeCrtc (g : Cga) (v : Byte) : Cga :=
  if g.index.toNat < 16 then
    { g with cr := g.cr.setIfInBounds g.index.toNat (v &&& crtcMask g.index.toNat) }
  else g

/-- R703: a read of port 0x3D0 + `r`. -/
def Cga.readPort (g : Cga) (r : BitVec 4) : Byte :=
  if !bit r 3 then (if bit r 0 then g.readCrtc else 0xFF#8)
  else if r = 10#4 then g.status
  else 0xFF#8

/-- R703: a write to port 0x3D0 + `r`. -/
def Cga.writePort (g : Cga) (r : BitVec 4) (v : Byte) : Cga :=
  if !bit r 3 then (if bit r 0 then g.writeCrtc v else { g with index := v.setWidth 5 })
  else
    match r.toNat with
    | 8 => { g with mode := v.setWidth 6 }
    | 9 => { g with color := v.setWidth 6 }
    | 11 => { g with lpTrigger := false }
    | 12 => { g with lpLatch := g.crtc.ma.setWidth 14, lpTrigger := true }
    | _ => g

/-- R748: CgaWait of the hdot phase. -/
def Cga.wait (g : Cga) (waits : List Nat) : Nat := waits.getD g.hphase.toNat 0

end Sys2Proof.Machine
end

