-- ==== Sys2Proof/Machine/Ega.lean ====
section
/-! DEFINITION. The EGA and VGA (spec/53_crtc_video.md R730 to R746): display memory with its read and write
modes, the register ports, the palette, the CRTC of R741, the dots of a character clock, the vertical
interrupt. `vga` says which of the two. What the rules leave to the reader is in log 29. Free values come
from source 6. -/

namespace Sys2Proof.Machine

/-! ## Display memory (R735 to R737) -/

/-- R733 bits 3:2 of GR6: the window's base and length. -/
def EgaRegs.window (r : EgaRegs) : Nat × Nat :=
  match (r.gr[6].extractLsb' 2 2 : BitVec 2).toNat with
  | 0 => (0xA0000, 0x20000)
  | 1 => (0xA0000, 0x10000)
  | 2 => (0xB0000, 0x08000)
  | _ => (0xB8000, 0x08000)

/-- Whether the adapter answers the bus at all: the VGA's subsystem enable, port 0x3C3 bit 0 (R740; PRESUMED, log 29:
the spec names the bit only). -/
def EgaRegs.enabled (vga : Bool) (r : EgaRegs) : Bool := !vga || r.vse

/-- R735: the offset of an address in the window, when the adapter answers it. -/
def EgaRegs.windowOffset (vga : Bool) (r : EgaRegs) (a : Nat) : Option Nat :=
  if r.enabled vga && bit r.misc 1 && inRange r.window.1 r.window.2 a then some (a - r.window.1) else none

/-- R735: chain 4 addressing, VGA only. It holds whatever SR4 bit 2 is, so SR4[3] = 1 with SR4[2] = 0 is chain 4 and not
odd/even (DESIGN CHOICE, log 29: R735 gives both conditions and no order). -/
def EgaRegs.chain4 (vga : Bool) (r : EgaRegs) : Bool := vga && bit r.sr[4] 3

/-- R735: odd/even addressing, where chain 4 is off (log 29). -/
def EgaRegs.oddEven (vga : Bool) (r : EgaRegs) : Bool := !r.chain4 vga && !bit r.sr[4] 2

/-- R735: the bit that replaces `o[0]` in odd/even addressing. Under GR6 bit 1 it is `o[16]` in the 128 KiB window and
`o[14]` in every other (DESIGN CHOICE, log 29: R735 writes `o[16]`/`o[14]` only). -/
def EgaRegs.pageBit (r : EgaRegs) (o : Nat) : Bool :=
  if bit r.gr[6] 1 then (if r.window.2 = 0x20000 then o.testBit 16 else o.testBit 14) else bit r.misc 5

/-- R732, SR4 bit 1: the bytes of a plane in use: without extended memory the planes hold 64 KiB together (log
29). -/
def EgaRegs.planeSize (r : EgaRegs) (size : Nat) : Nat := if bit r.sr[4] 1 then size else min size 0x4000

/-- R735: the plane offset of window offset `o`, within planes of `size` bytes. An offset past the end of a plane wraps
(DESIGN CHOICE, log 29: R735 does not say). -/
def EgaRegs.planeOffset (vga : Bool) (r : EgaRegs) (size o : Nat) : Nat :=
  let off :=
    if r.chain4 vga then o % 0x10000 / 4 * 4
    else if r.oddEven vga then o % 0x10000 / 2 * 2 + (if r.pageBit o then 1 else 0)
    else o % 0x10000
  off % r.planeSize size

/-- R735: the planes an access at window offset `o` reaches, before the map mask. -/
def EgaRegs.reached (vga : Bool) (r : EgaRegs) (o : Nat) : BitVec 4 :=
  if r.chain4 vga then BitVec.twoPow 4 (o % 4)
  else if r.oddEven vga then (if o.testBit 0 then 0b1010#4 else 0b0101#4)
  else 0b1111#4

/-- R733: the read map select, bits 1:0 on the VGA and bits 2:0 on the EGA. -/
def EgaRegs.readMap (vga : Bool) (r : EgaRegs) : BitVec 3 :=
  if vga then (r.gr[4].setWidth 2 : BitVec 2).setWidth 3 else r.gr[4].setWidth 3

/-- R735: the plane read mode 0 returns: the address's in chain 4, GR4 with bit 0 the address's in odd/even addressing,
GR4 in sequential addressing. GR5 bit 4 has no part in it: R735 ties odd/even addressing to SR4 bit 2 (log 29). -/
def EgaRegs.readPlane (vga : Bool) (r : EgaRegs) (o : Nat) : BitVec 3 :=
  if r.chain4 vga then BitVec.ofNat 3 (o % 4)
  else if r.oddEven vga then setBit (r.readMap vga) 0 (o.testBit 0)
  else r.readMap vga

/-- A plane by number. -/
def EgaPlanes.plane (m : EgaPlanes) (p : BitVec 2) : Sparse Byte :=
  match p.toNat with
  | 0 => m.plane0 | 1 => m.plane1 | 2 => m.plane2 | _ => m.plane3

/-- A byte of a plane. -/
def EgaPlanes.byte (m : EgaPlanes) (p : BitVec 2) (off : Nat) : Byte :=
  Sparse.get Config.powerOnByte off (m.plane p)

/-- A read latch by number. -/
def EgaPlanes.latch (m : EgaPlanes) (p : BitVec 2) : Byte :=
  match p.toNat with
  | 0 => m.latch0 | 1 => m.latch1 | 2 => m.latch2 | _ => m.latch3

/-- R736: a read loads all four latches. -/
def EgaPlanes.loadLatches (m : EgaPlanes) (off : Nat) : EgaPlanes :=
  { m with latch0 := m.byte 0#2 off, latch1 := m.byte 1#2 off, latch2 := m.byte 2#2 off,
           latch3 := m.byte 3#2 off }

/-- R736, read mode 1: one plane's bits that agree with the colour compare, all ones for a plane not
compared. -/
def compareMask (cares color : Bool) (latch : Byte) : Byte :=
  if cares then (if color then latch else ~~~latch) else 0xFF#8

/-- R736: the byte a read returns from loaded latches. Planes 4 to 7, which the EGA's read map can name, do not
exist (R79; log 29). -/
def EgaRegs.readValue (vga : Bool) (r : EgaRegs) (m : EgaPlanes) (o : Nat) : Byte :=
  if bit r.gr[5] 3 then
    compareMask (bit r.gr[7] 0) (bit r.gr[2] 0) m.latch0 &&&
      compareMask (bit r.gr[7] 1) (bit r.gr[2] 1) m.latch1 &&&
      compareMask (bit r.gr[7] 2) (bit r.gr[2] 2) m.latch2 &&&
      compareMask (bit r.gr[7] 3) (bit r.gr[2] 3) m.latch3
  else if bit (r.readPlane vga o) 2 then 0xFF#8
  else m.latch ((r.readPlane vga o).setWidth 2)

/-- R737: the function of GR3[4:3] with a latch. -/
def EgaRegs.alu (r : EgaRegs) (d l : Byte) : Byte :=
  match (r.gr[3].extractLsb' 3 2 : BitVec 2).toNat with
  | 0 => d | 1 => d &&& l | 2 => d ||| l | _ => d ^^^ l

/-- All ones or all zeros. -/
def fill (b : Bool) : Byte := if b then 0xFF#8 else 0x00#8

/-- R737: the byte the write mode gives plane `p` with latch `l`, from CPU byte `v`; `free` is what mode 3 of an EGA
writes, which R733 does not define. The EGA's test condition (GR5 bit 2) changes nothing (PRESUMED, log 29: R733 names
the bit only). -/
def EgaRegs.writeValue (vga : Bool) (r : EgaRegs) (p : Nat) (l v free : Byte) : Byte :=
  let rot := v.rotateRight (r.gr[3].toNat % 8)
  let mask := r.gr[8]
  match (r.gr[5].extractLsb' 0 2 : BitVec 2).toNat with
  | 0 =>
    let d := r.alu (if bit r.gr[1] p then fill (bit r.gr[0] p) else rot) l
    (d &&& mask) ||| (l &&& ~~~mask)
  | 1 => l
  | 2 =>
    let d := r.alu (fill (bit v p)) l
    (d &&& mask) ||| (l &&& ~~~mask)
  | _ =>
    if vga then
      let m := rot &&& mask
      (fill (bit r.gr[0] p) &&& m) ||| (l &&& ~~~m)
    else free

/-- Store a byte in a plane when the plane is selected. -/
def storePlane (selected : Bool) (off : Nat) (d : Byte) (p : Sparse Byte) : Sparse Byte :=
  if selected then Sparse.put Config.powerOnByte off d p else p

/-- R736: a CPU read at physical address `a`; outside the window nothing answers. -/
def Ega.readMem (vga : Bool) (size : Nat) (g : Ega) (a : Nat) : Byte × Ega :=
  match g.regs.windowOffset vga a with
  | none => (0xFF#8, g)
  | some o =>
    let m := g.planes.loadLatches (g.regs.planeOffset vga size o)
    (g.regs.readValue vga m o, { g with planes := m })

/-- R737: a CPU write at physical address `a`. -/
def Ega.writeMem (vga : Bool) (size : Nat) (g : Ega) (a : Nat) (v : Byte) : Ega :=
  match g.regs.windowOffset vga a with
  | none => g
  | some o =>
    let off := g.regs.planeOffset vga size o
    let sel := g.regs.reached vga o &&& g.regs.sr[2].setWidth 4
    let m := g.planes
    let w := fun p l => g.regs.writeValue vga p l v (loByte (Config.freeWord 6 (g.draws + p)))
    { g with
      planes :=
        { m with plane0 := storePlane (bit sel 0) off (w 0 m.latch0) m.plane0,
                 plane1 := storePlane (bit sel 1) off (w 1 m.latch1) m.plane1,
                 plane2 := storePlane (bit sel 2) off (w 2 m.latch2) m.plane2,
                 plane3 := storePlane (bit sel 3) off (w 3 m.latch3) m.plane3 },
      draws := g.draws + 4 }

/-! ## Palette (R744) -/

/-- R744: the byte a palette read returns for the current phase. -/
def VgaDac.readByte (d : VgaDac) : Byte :=
  let e := Sparse.get 0#18 d.ridx.toNat d.dac
  match d.phase.toNat with
  | 0 => (e.extractLsb' 12 6 : BitVec 6).setWidth 8
  | 1 => (e.extractLsb' 6 6 : BitVec 6).setWidth 8
  | _ => (e.extractLsb' 0 6 : BitVec 6).setWidth 8

/-- R744: a read of 0x3C9 advances the phase, and after blue the index. -/
def VgaDac.read (d : VgaDac) : Byte × VgaDac :=
  (d.readByte,
    if d.phase = 2#2 then { d with phase := 0#2, ridx := d.ridx + 1#8 }
    else { d with phase := d.phase + 1#2 })

/-- R744: a write of 0x3C9: red, green, then blue stores the entry and advances the index. The entry changes with
blue's write alone, so an unfinished triplet changes nothing (DESIGN CHOICE, log 29: R744 does not say when a component
takes effect). -/
def VgaDac.write (d : VgaDac) (v : Byte) : VgaDac :=
  let six : BitVec 6 := v.setWidth 6
  match d.phase.toNat with
  | 0 => { d with phase := 1#2, hold := six ++ (0#6 : BitVec 6) }
  | 1 => { d with phase := 2#2, hold := (d.hold.extractLsb' 6 6 : BitVec 6) ++ six }
  | _ =>
    { d with phase := 0#2, widx := d.widx + 1#8,
             dac := Sparse.put 0#18 d.widx.toNat (d.hold ++ six) d.dac }

/-! ## CRTC register fields (R741) -/

/-- Bit `i` of register `n` as a number scaled by `w`. -/
def EgaRegs.crBit (r : EgaRegs) (n i w : Nat) : Nat := if bit (r.cr.getD n 0#8) i then w else 0

/-- Vertical total, in scanlines minus 1 as the 6845's rows (R704). -/
def EgaRegs.vertTotal (vga : Bool) (r : EgaRegs) : Nat :=
  r.cr[6].toNat + r.crBit 7 0 0x100 + (if vga then r.crBit 7 5 0x200 else 0)

/-- Vertical display end. -/
def EgaRegs.vertDisplayEnd (vga : Bool) (r : EgaRegs) : Nat :=
  r.cr[18].toNat + r.crBit 7 1 0x100 + (if vga then r.crBit 7 6 0x200 else 0)

/-- Vertical retrace start. -/
def EgaRegs.vertRetraceStart (vga : Bool) (r : EgaRegs) : Nat :=
  r.cr[16].toNat + r.crBit 7 2 0x100 + (if vga then r.crBit 7 7 0x200 else 0)

/-- Start of vertical blanking. -/
def EgaRegs.vertBlankStart (vga : Bool) (r : EgaRegs) : Nat :=
  r.cr[21].toNat + r.crBit 7 3 0x100 + (if vga then r.crBit 9 5 0x200 else 0)

/-- Line compare. -/
def EgaRegs.lineCompare (vga : Bool) (r : EgaRegs) : Nat :=
  r.cr[24].toNat + r.crBit 7 4 0x100 + (if vga then r.crBit 9 6 0x200 else 0)

/-- Horizontal total in characters: EGA the register plus 2, VGA plus 5. -/
def EgaRegs.horizTotal (vga : Bool) (r : EgaRegs) : Nat := r.cr[0].toNat + (if vga then 5 else 2)

/-- End of horizontal blanking, in the low bits that are compared: five, and on the VGA a sixth, CR5 bit 7. -/
def EgaRegs.blankEnds (vga : Bool) (r : EgaRegs) (h : BitVec 9) : Bool :=
  decide ((h.setWidth 5 : BitVec 5) = r.cr[3].setWidth 5) && (!vga || bit h 5 == bit r.cr[5] 7)

/-- Dots per character (R732, SR1 bit 0). -/
def EgaRegs.dotsPerChar (r : EgaRegs) : Nat := if bit r.sr[1] 0 then 8 else 9

/-- Dots per scanline and scanlines per frame (R750), twice the vertical total's under CR17 hex bit 2. A dot is one of
the shift registers' 8 or 9 a character, whatever its clock (SR1 bit 3; DESIGN CHOICE, log 30). -/
def EgaRegs.frameSize (vga : Bool) (r : EgaRegs) : Nat × Nat :=
  (r.horizTotal vga * r.dotsPerChar, (r.vertTotal vga + 1) * (if bit r.cr[23] 2 then 2 else 1))

/-- The divisor of the character address: count by two (CR17 hex bit 3), count by four (CR14 hex bit 5). -/
def EgaRegs.countBy (vga : Bool) (r : EgaRegs) : Nat :=
  if vga && bit r.cr[20] 5 then 4 else if bit r.cr[23] 3 then 2 else 1

/-- The present or one of the last three values of a signal, `skew` characters ago. -/
def skewed (now : Bool) (past : BitVec 3) (skew : BitVec 2) : Bool :=
  if skew = 0#2 then now else bit past (skew.toNat - 1)

/-- Display enable (R701) with the skew of CR3 bits 6:5. -/
def EgaScan.den (s : EgaScan) (r : EgaRegs) : Bool :=
  skewed s.crtc.hde s.hdePast (r.cr[3].extractLsb' 5 2) && s.crtc.vde

/-- Horizontal retrace with the delay of CR5 bits 6:5. -/
def EgaScan.retrace (s : EgaScan) (r : EgaRegs) : Bool :=
  skewed s.crtc.hsync s.hsyncPast (r.cr[5].extractLsb' 5 2)

/-- The CRTC address of character `h` of the scanline: every character, or every second or fourth, advances it. -/
def EgaScan.charAddr (vga : Bool) (s : EgaScan) (r : EgaRegs) (h : Nat) : Word :=
  s.crtc.maRow + BitVec.ofNat 16 (h / r.countBy vga)

/-! ## Dots (R745) -/

/-- R741: the plane address of CRTC address `ma`, scanline `ra`: byte, word or doubleword mode, and the row
scan substituted for address bits 13 and 14. Word mode puts MA15 in bit 0, or MA13 with the address wrap bit CR17[5]
clear; doubleword mode puts MA15 and MA14 in bits 1:0 (PRESUMED, log 29: R741 names these bits only). -/
def EgaRegs.fetchAddr (vga : Bool) (r : EgaRegs) (size : Nat) (ma : Word) (ra : BitVec 5) : Nat :=
  let a : Word :=
    if vga && bit r.cr[20] 6 then (ma <<< 2) ||| (ma >>> 14)
    else if bit r.cr[23] 6 then ma
    else (ma <<< 1) ||| (if bit r.cr[23] 5 then ma >>> 15 else (ma >>> 13) &&& 1#16)
  let a := if bit r.cr[23] 0 then a else setBit a 13 (bit ra 0)
  let a := if bit r.cr[23] 1 then a else setBit a 14 (bit ra 1)
  a.toNat % r.planeSize size

/-- R732, SR1 bits 2 and 4: the characters between two loads of the shift registers. The EGA's SR1 bit 1, bandwidth,
has no effect (DESIGN CHOICE, log 29: R732 names the bit only). -/
def EgaRegs.loadEvery (vga : Bool) (r : EgaRegs) : Nat :=
  if vga && bit r.sr[1] 4 then 4 else if bit r.sr[1] 2 then 2 else 1

/-- R734: an overscan or border output. -/
def EgaRegs.overscan (vga : Bool) (r : EgaRegs) : Byte := if vga then r.ar[17] else r.ar[17] &&& 0x3F#8

/-- R734, R745: a 4-bit value through the plane enable and the palette; on the VGA with the upper index
bits of the colour select. -/
def EgaRegs.paletteOut (vga : Bool) (r : EgaRegs) (v : BitVec 4) : Byte :=
  let idx := v &&& r.ar[18].setWidth 4
  let p : BitVec 6 := (r.ar.getD idx.toNat 0#8).setWidth 6
  if vga then
    let low : BitVec 6 := if bit r.ar[16] 7 then (r.ar[20].setWidth 2 : BitVec 2) ++ (p.setWidth 4 : BitVec 4) else p
    (r.ar[20].extractLsb' 2 2 : BitVec 2) ++ low
  else p.setWidth 8

/-- R744, R745: an output as a dot: on the VGA the palette entry its masked index names. -/
def VgaDac.dotOf (vga : Bool) (d : VgaDac) (out : Byte) : Dot :=
  if vga then .color (Sparse.get 0#18 (out &&& d.pelMask).toNat d.dac) else .color (out.setWidth 18)

/-- R732, R745: the offset in plane 2 of a character's glyph row. PRESUMED, log 29: SR3 bits 1:0 with bit 4 (VGA)
select font A, bits 3:2 with bit 5 font B; the two bits choose a block of 16 KiB and the third bit its upper half;
without extended memory (SR4 bit 1) the font is block 0. -/
def EgaRegs.glyphAddr (vga : Bool) (r : EgaRegs) (code : Byte) (attr3 : Bool) (ra : BitVec 5) : Nat :=
  let sel : BitVec 2 := if attr3 then r.sr[3].extractLsb' 2 2 else r.sr[3].extractLsb' 0 2
  let half := vga && (if attr3 then bit r.sr[3] 5 else bit r.sr[3] 4)
  let block := if bit r.sr[4] 1 then sel.toNat * 0x4000 + (if half then 0x2000 else 0) else 0
  block + code.toNat * 32 + ra.toNat

/-- R741: the cursor at character `h`, as many characters late as CR0B hex bits 6:5 skew it. -/
def EgaScan.cursorAt (vga : Bool) (s : EgaScan) (r : EgaRegs) (h : Nat) : Bool :=
  let skew := (r.cr[11].extractLsb' 5 2 : BitVec 2).toNat
  decide (skew ≤ h) && decide (s.charAddr vga r (h - skew) = word r.cr[14] r.cr[15]) &&
    decide ((r.cr[10].setWidth 5 : BitVec 5).toNat ≤ s.crtc.ra.toNat) &&
    decide (s.crtc.ra.toNat ≤ (r.cr[11].setWidth 5 : BitVec 5).toNat) && !(vga && bit r.cr[10] 5)

/-- R745, text: the 4-bit values of the dots of character `h`. AR10 hex bit 0 set leaves out what the
attribute controller adds to text: blinking, underline, line graphics. Underlined are the attributes with bits 6:4 = 0
and 2:0 = 1 under monochrome emulation (PRESUMED, log 29: R741 gives the scanline only). The ninth dot of a 9-dot
character is the background but in line graphics, under the cursor and an underline too (DESIGN CHOICE, log 29: R734 says
only when it copies the eighth). -/
def Ega.textValues (vga : Bool) (size : Nat) (g : Ega) (h : Nat) : List (BitVec 4) :=
  let r := g.regs
  let ra := g.scan.crtc.ra
  let a := r.fetchAddr vga size (g.scan.charAddr vga r h) ra
  let code := g.planes.byte 0#2 a
  let attr := g.planes.byte 1#2 a
  let row := g.planes.byte 2#2 (r.glyphAddr vga code (bit attr 3) ra % size)
  let attributes := !bit r.ar[16] 0
  let blinkOn := attributes && bit r.ar[16] 3
  let fg : BitVec 4 := attr.extractLsb' 0 4
  let bg : BitVec 4 := if blinkOn then (attr.extractLsb' 4 3 : BitVec 3).setWidth 4 else attr.extractLsb' 4 4
  let hidden := blinkOn && bit attr 7 && g.scan.crtc.frame.testBit 4
  let underline :=
    attributes && bit r.ar[16] 1 && decide (attr &&& 0x77#8 = 0x01#8) && decide (ra = r.cr[20].setWidth 5)
  let row := if underline then 0xFF#8 else row
  let row := if hidden then 0x00#8 else row
  let row := if g.scan.cursorAt vga r h then 0xFF#8 else row
  let ds := [7, 6, 5, 4, 3, 2, 1, 0].map fun i => if bit row i then fg else bg
  let line9 :=
    attributes && bit r.ar[16] 2 && decide (0xC0 ≤ code.toNat) && decide (code.toNat ≤ 0xDF) && bit row 0
  if r.dotsPerChar = 9 then ds ++ [if line9 then fg else bg] else ds

/-- The byte plane `p`'s shift register shows at character `h`. Between two loads the registers are chained: `k`
characters after a load each shows what the `k`-th next one was loaded with (SR1 bits 2 and 4; log 29). -/
def Ega.shiftByte (vga : Bool) (size : Nat) (g : Ega) (h : Nat) (p : BitVec 2) : Byte :=
  let k := h % g.regs.loadEvery vga
  g.planes.byte (p + BitVec.ofNat 2 k)
    (g.regs.fetchAddr vga size (g.scan.charAddr vga g.regs (h - k)) g.scan.crtc.ra)

/-- R745, graphics: the 4-bit values of the dots of character `h`, planar or shift-register interleave. The
interleaved pixels are the four bit pairs of plane 0's byte, most significant first, then the four of plane 1's, one dot
each (PRESUMED, log 29: R745 says only that pairs of bits from planes 0 and 1 form 2-bit pixels). With 9 dots a
character the ninth has value 0 (DESIGN CHOICE, log 29: R745 does not say). -/
def Ega.graphicsValues (vga : Bool) (size : Nat) (g : Ega) (h : Nat) : List (BitVec 4) :=
  let r := g.regs
  let b0 := g.shiftByte vga size h 0#2
  let b1 := g.shiftByte vga size h 1#2
  let b2 := g.shiftByte vga size h 2#2
  let b3 := g.shiftByte vga size h 3#2
  let ds : List (BitVec 4) :=
    if bit r.gr[5] 5 then (bitPairs b0 ++ bitPairs b1).map fun v => v.setWidth 4
    else [7, 6, 5, 4, 3, 2, 1, 0].map fun i =>
      BitVec.ofBool (bit b3 i) ++ BitVec.ofBool (bit b2 i) ++ BitVec.ofBool (bit b1 i) ++
        BitVec.ofBool (bit b0 i)
  if r.dotsPerChar = 9 then ds ++ [0#4] else ds

/-- Text or graphics: GR6 bit 0 (R733); the EGA shows text only with its sequencer alphanumeric too (SR4 bit 0, R732;
PRESUMED, log 29: the spec names the bit only). -/
def EgaRegs.graphics (vga : Bool) (r : EgaRegs) : Bool := bit r.gr[6] 0 || (!vga && !bit r.sr[4] 0)

/-- The 4-bit values of character `h`: text or graphics. -/
def Ega.values (vga : Bool) (size : Nat) (g : Ega) (h : Nat) : List (BitVec 4) :=
  if g.regs.graphics vga then g.graphicsValues vga size h else g.textValues vga size h

/-- R734, AR10 hex bit 6: two 4-bit values in turn are one 8-bit pixel, two dots wide. -/
def pairPixels : List (BitVec 4) → List Byte
  | [] => []
  | [a] => [a ++ 0#4]
  | a :: b :: rest => (a ++ b) :: (a ++ b) :: pairPixels rest

/-- R745: the outputs of character `h`: 8-bit pixels name palette entries themselves, the bytes of the planes in
turn under GR5 bit 6, each two dots wide, else pairs of values under AR10 hex bit 6 (log 29). With 9 dots a character
the ninth of a 256-colour character is pixel 0 (DESIGN CHOICE, log 29: R745 does not say). -/
def Ega.outputs (vga : Bool) (size : Nat) (g : Ega) (h : Nat) : List Byte :=
  let r := g.regs
  if vga && bit r.gr[5] 6 then
    let px := [0#2, 1#2, 2#2, 3#2].flatMap fun p => [g.shiftByte vga size h p, g.shiftByte vga size h p]
    if r.dotsPerChar = 9 then px ++ [0#8] else px
  else if vga && bit r.ar[16] 6 then pairPixels (g.values vga size h)
  else (g.values vga size h).map (r.paletteOut vga)

/-- R734, R745: by how many dots the sampled panning value shifts the stream: the value modulo 8, or in 9-dot
characters the value plus 1 and none from 8 on (PRESUMED, log 29: the spec does not say how many). -/
def EgaRegs.panShift (r : EgaRegs) (pan : BitVec 4) : Nat :=
  if r.dotsPerChar = 9 then (if 8 ≤ pan.toNat then 0 else pan.toNat + 1) else pan.toNat % 8

/-- The outputs of the current character clock, panned (R734, R745): the shifted window over this character
and the next; the overscan colour outside display enable or while the palette is open to the CPU. -/
def Ega.charOutputs (vga : Bool) (size : Nat) (g : Ega) : List Byte :=
  let r := g.regs
  let n := r.dotsPerChar
  if g.scan.den r && bit r.acIndex 5 then
    let h := g.scan.hchar.toNat
    ((g.outputs vga size h ++ g.outputs vga size (h + 1)).drop (r.panShift g.scan.pan)).take n
  else List.replicate n (r.overscan vga)

/-- The screen is off: the VGA's SR1 bit 5, the EGA's driver disable (R732, R743). -/
def EgaRegs.screenOff (vga : Bool) (r : EgaRegs) : Bool := if vga then bit r.sr[1] 5 else bit r.misc 4

/-- The dots of the current character clock: the outputs, which outside display enable are the overscan colour (R745),
but blanking there during horizontal or vertical blanking and either retrace (DESIGN CHOICE, log 29: the spec names the
blanking registers and does not say when a dot is blanking). -/
def Ega.charDots (vga : Bool) (g : Ega) (outs : List Byte) : List Dot :=
  let blanked := !g.scan.den g.regs &&
    (g.scan.hblank || g.scan.vblank || g.scan.retrace g.regs || g.scan.crtc.vsync)
  if blanked then outs.map fun _ => .blank
  else if g.regs.screenOff vga then outs.map fun _ => .color 0#18
  else outs.map (g.dac.dotOf vga)

/-! ## Counting (R704 as R741 changes it) -/

/-- The first scanline of a frame: start address and preset row scan are sampled here. -/
def EgaScan.newFrame (vga : Bool) (s : EgaScan) (r : EgaRegs) : EgaScan :=
  let pan : Word := if vga then (r.cr[8].extractLsb' 5 2 : BitVec 2).setWidth 16 else 0#16
  { s with split := false, dblHalf := false,
           crtc := { s.crtc with vline := 0#10, ra := r.cr[8].setWidth 5, vde := true,
                                 frame := s.crtc.frame + 1, maRow := word r.cr[12] r.cr[13] + pan } }

/-- The next scanline's row address: the next scanline of the row (each twice under double scan), or the
next row, by the offset register. -/
def EgaScan.nextScan (vga : Bool) (s : EgaScan) (r : EgaRegs) : EgaScan :=
  if vga && bit r.cr[9] 7 && !s.dblHalf then { s with dblHalf := true }
  else
    let s := { s with dblHalf := false }
    if s.crtc.ra = r.cr[9].setWidth 5 then
      { s with crtc := { s.crtc with ra := 0#5, maRow := s.crtc.maRow + (r.cr[19].setWidth 16 <<< 1) } }
    else { s with crtc := { s.crtc with ra := s.crtc.ra + 1#5 } }

/-- The vertical events of scanline `n`: line compare, display end, blanking, retrace. The answer says
whether VSYNC_START fired. Display enable ends one scanline past the display end register (PRESUMED, log 29: the
last one displayed, as the horizontal register is "characters minus 1"; R741 says only that they are compared). At
the line compare the row scan counter is reset with the memory address counter, which R741 names (PRESUMED, log 29). -/
def EgaScan.verticalAt (vga : Bool) (s : EgaScan) (r : EgaRegs) (n : BitVec 10) : EgaScan × Bool :=
  let start := decide (n.toNat = r.vertRetraceStart vga)
  let stop := s.crtc.vsync && decide ((n.setWidth 4 : BitVec 4) = r.cr[17].setWidth 4)
  let unblank :=
    if vga then decide ((n.setWidth 8 : BitVec 8) = r.cr[22])
    else decide ((n.setWidth 5 : BitVec 5) = r.cr[22].setWidth 5)
  let s :=
    { s with vblank := if n.toNat = r.vertBlankStart vga then true else s.vblank && !unblank,
             crtc := { s.crtc with vde := s.crtc.vde && decide (n.toNat ≠ r.vertDisplayEnd vga + 1),
                                   vsync := start || (s.crtc.vsync && !stop) } }
  if n.toNat = r.lineCompare vga then
    ({ s with split := true, crtc := { s.crtc with maRow := 0#16, ra := 0#5 } }, start)
  else (s, start)

/-- One scanline of the vertical counter; the vertical total is the last scanline's number. -/
def EgaScan.countLine (vga : Bool) (s : EgaScan) (r : EgaRegs) : EgaScan × Bool :=
  let s :=
    if s.crtc.vline.toNat = r.vertTotal vga then s.newFrame vga r
    else EgaScan.nextScan vga { s with crtc := { s.crtc with vline := s.crtc.vline + 1#10 } } r
  s.verticalAt vga r s.crtc.vline

/-- The end of a scanline: the vertical counter (every second scanline under CR17 hex bit 2, horizontal retrace
select, which R741 only names: PRESUMED, log 29), then the panning value for the next scanline (R734, R741). -/
def EgaScan.endLine (vga : Bool) (s : EgaScan) (r : EgaRegs) : EgaScan × Bool :=
  let s := { s with hchar := 0#9, crtc := { s.crtc with hde := true } }
  let e : EgaScan × Bool :=
    if bit r.cr[23] 2 && !s.vHalf then ({ s with vHalf := true }, false)
    else EgaScan.countLine vga { s with vHalf := false } r
  let s := e.1
  ({ s with pan := if s.split && vga && bit r.ar[16] 5 then 0#4 else r.ar[19].setWidth 4,
            crtc := { s.crtc with ma := s.crtc.maRow } }, e.2)

/-- One character clock of the counters. HSYNC_END is where the delayed horizontal retrace ends. -/
def EgaScan.clock (vga : Bool) (s : EgaScan) (r : EgaRegs) : EgaScan × CrtcEvents :=
  let k := s.crtc
  let h := s.hchar + 1#9
  let start := decide (h.toNat = r.cr[4].toNat)
  let stop := decide ((h.setWidth 5 : BitVec 5) = r.cr[5].setWidth 5)
  let t :=
    { s with hchar := h,
             hdePast := (s.hdePast.setWidth 2 : BitVec 2) ++ BitVec.ofBool k.hde,
             hsyncPast := (s.hsyncPast.setWidth 2 : BitVec 2) ++ BitVec.ofBool k.hsync,
             hblank := if h.toNat = r.cr[2].toNat then true else s.hblank && !r.blankEnds vga h,
             crtc := { k with ma := s.charAddr vga r h.toNat,
                              hde := k.hde && decide (h.toNat ≠ r.cr[1].toNat + 1),
                              hsync := start || (k.hsync && !stop) } }
  let hsyncEnd := s.retrace r && !t.retrace r
  if h.toNat = r.horizTotal vga then
    let e := t.endLine vga r
    (e.1, { hsyncEnd := hsyncEnd, vsyncStart := e.2 })
  else (t, { hsyncEnd := hsyncEnd, vsyncStart := false })

/-- R746: at VSYNC_START the vertical interrupt is raised when CR11 hex bit 5 is 0. -/
def Ega.vsyncInterrupt (g : Ega) : Ega :=
  if bit g.regs.cr[17] 5 then g
  else { g with vintPending := true, vintRose := g.vintRose || !g.vintPending }

/-- Whether the sequencer and the CRTC run (R732 register 0, R741 register 17 hex bit 7). While they do not, every
counter, both retrace signals and display enable keep their present values, so input status 1 keeps its last reading
(DESIGN CHOICE, log 29: the spec says "both 1 to run" and "0 = hold syncs (reset)" only). -/
def EgaRegs.running (r : EgaRegs) : Bool := bit r.sr[0] 0 && bit r.sr[0] 1 && bit r.cr[23] 7

/-- One character clock: emit, count, commit, swap, interrupt. -/
def Ega.clock (vga : Bool) (size : Nat) (x : Ega × Framebuffer) : Ega × Framebuffer :=
  let g := x.1
  let outs := g.charOutputs vga size
  let fb := x.2.push (g.charDots vga outs)
  let r := g.scan.clock vga g.regs
  let g := { g with scan := { r.1 with lastOut := outs.getLast?.getD g.scan.lastOut } }
  let fb := if r.2.hsyncEnd then fb.commit else fb
  if r.2.vsyncStart then (g.vsyncInterrupt, fb.swap (g.regs.frameSize vga).1 (g.regs.frameSize vga).2)
  else (g, fb)

/-- `n` character clocks. -/
def Ega.clocks (vga : Bool) (size : Nat) : Nat → Ega × Framebuffer → Ega × Framebuffer
  | 0, x => x
  | n + 1, x => Ega.clocks vga size n (Ega.clock vga size x)

/-- The dot clock selected by misc[3:2] (R743), per system tick. -/
def Params.dotRatio (c : Params) (misc : Byte) : Ratio :=
  match (misc.extractLsb' 2 2 : BitVec 2).toNat with
  | 0 => c.dotRatio0 | 1 => c.dotRatio1 | 2 => c.dotRatio2 | _ => c.dotRatio3

/-- The parts of a dot that `cclkAcc` counts: one unit for all four clock selects, so that a change of the select
keeps what has been counted (R582). -/
def Params.dotUnit (c : Params) : Nat := c.dotRatio0.den * c.dotRatio1.den * c.dotRatio2.den * c.dotRatio3.den

/-- The parts of a dot in one system tick under a clock select. -/
def Params.dotStep (c : Params) (misc : Byte) : Nat := (c.dotRatio misc).num * (c.dotUnit / (c.dotRatio misc).den)

/-- One system tick: the rational accumulator of R582 and R730, in parts of a dot, and the character clocks it
completes. While the adapter does not run the accumulator takes no tick (DESIGN CHOICE, log 29). -/
def Ega.tick (vga : Bool) (c : Params) (g : Ega) (fb : Framebuffer) : Ega × Framebuffer :=
  if g.regs.running then
    let period := c.dotUnit * g.regs.dotsPerChar * (if bit g.regs.sr[1] 3 then 2 else 1)
    let acc := g.scan.crtc.cclkAcc + c.dotStep g.regs.misc
    let g := { g with scan := { g.scan with crtc := { g.scan.crtc with cclkAcc := acc % period } } }
    Ega.clocks vga c.planeBytes (acc / period) (g, fb)
  else (g, fb)

/-! ## Ports (R740) -/

/-- R742: input status 0. `misc[3:2]` = n selects switch n (DESIGN CHOICE, log 29). -/
def Ega.status0 (vga : Bool) (c : Params) (g : Ega) : Byte :=
  let sense := bit c.switches (g.regs.misc.extractLsb' 2 2 : BitVec 2).toNat
  bitAt sense 4 ||| bitAt g.vintPending 7 ||| (if vga then 0#8 else c.switches &&& 0x60#8)

/-- R742: the EGA's two diagnostic bits: the output bits AR12 hex bits 5:4 select, 0 and 2, 4 and 5, 1 and 3, 6 and
7 (PRESUMED, log 29: the spec does not say which). -/
def EgaScan.diagnostic (s : EgaScan) (sel : BitVec 2) : Byte :=
  match sel.toNat with
  | 0 => bitAt (bit s.lastOut 0) 4 ||| bitAt (bit s.lastOut 2) 5
  | 1 => bitAt (bit s.lastOut 4) 4 ||| bitAt (bit s.lastOut 5) 5
  | 2 => bitAt (bit s.lastOut 1) 4 ||| bitAt (bit s.lastOut 3) 5
  | _ => bitAt (bit s.lastOut 6) 4 ||| bitAt (bit s.lastOut 7) 5

/-- R742: input status 1. The EGA's light pen has never triggered and its switch is open, as on the CGA. -/
def Ega.status1 (vga : Bool) (g : Ega) : Byte :=
  bitAt (!g.scan.den g.regs) 0 ||| bitAt g.scan.crtc.vsync 3 |||
    (if vga then 0#8 else 0x04#8 ||| g.scan.diagnostic (g.regs.ar[18].extractLsb' 4 2))

/-- R740: port 0x3C0, index and data in turn. -/
def EgaRegs.acWrite (r : EgaRegs) (v : Byte) : EgaRegs :=
  let r' := { r with acFlipflop := !r.acFlipflop }
  if r.acFlipflop then { r' with ar := r.ar.setIfInBounds (r.acIndex.toNat % 32) v }
  else { r' with acIndex := v }

/-- R741, R746: a write to the selected CRTC register, ignored past the last (log 29); a VGA's registers 0 to 7 may be
write-protected; register 17 with bit 4 = 0 clears the vertical interrupt. -/
def Ega.crtcWrite (vga : Bool) (g : Ega) (v : Byte) : Ega :=
  let i := g.regs.crtcIndex.toNat
  if vga && bit g.regs.cr[17] 7 && decide (i < 8) then g
  else
    let g := { g with regs := { g.regs with cr := g.regs.cr.setIfInBounds i v } }
    if i = 17 && !bit v 4 then { g with vintPending := false } else g

/-- R740: a read of the selected CRTC register. On the EGA only registers 0x0C to 0x11 answer, the last two
with the light pen latch, which nothing has ever loaded: free. -/
def Ega.crtcRead (vga : Bool) (g : Ega) : Byte × Ega :=
  let i := g.regs.crtcIndex.toNat
  if vga then (g.regs.cr.getD i 0xFF#8, g)
  else if i = 16 ∨ i = 17 then (loByte (Config.freeWord 6 g.draws), { g with draws := g.draws + 1 })
  else if 12 ≤ i ∧ i ≤ 15 then (g.regs.cr.getD i 0xFF#8, g)
  else (0xFF#8, g)

/-- R740: whether a port 0x3Bx or 0x3Dx is the one `misc[0]` selects. -/
def EgaRegs.selects (r : EgaRegs) (port : Nat) : Bool :=
  if bit r.misc 0 then decide (0x3D0 ≤ port ∧ port < 0x3E0) else decide (0x3B0 ≤ port ∧ port < 0x3C0)

/-- R740: writes to ports 0x3C0 to 0x3CF, by the low digit. DESIGN CHOICE, log 29, of what R740 leaves open: the
sequencer's, graphics controller's and CRTC's index registers have 8 bits, a data write past the last register is
ignored and a read gives 0xFF, and the attribute index is taken modulo 32; a register keeps all 8 bits written. -/
def Ega.writeFixed (vga : Bool) (g : Ega) (r : Nat) (v : Byte) : Ega :=
  let q := g.regs
  match r with
  | 0 => { g with regs := q.acWrite v }
  | 2 => { g with regs := { q with misc := v } }
  | 3 => if vga then { g with regs := { q with vse := bit v 0 } } else g
  | 4 => { g with regs := { q with seqIndex := v } }
  | 5 => { g with regs := { q with sr := q.sr.setIfInBounds q.seqIndex.toNat v } }
  | 6 => if vga then { g with dac := { g.dac with pelMask := v } } else g
  | 7 => if vga then { g with dac := { g.dac with ridx := v, phase := 0#2, readMode := true } } else g
  | 8 => if vga then { g with dac := { g.dac with widx := v, phase := 0#2, readMode := false } } else g
  | 9 => if vga then { g with dac := g.dac.write v } else g
  | 10 => if vga then g else { g with regs := { q with gfxPos2 := v } }
  | 12 => if vga then g else { g with regs := { q with gfxPos1 := v } }
  | 14 => { g with regs := { q with gcIndex := v } }
  | 15 => { g with regs := { q with gr := q.gr.setIfInBounds q.gcIndex.toNat v } }
  | _ => g

/-- R740: writes to the CRTC group 0x3?4, 0x3?5, 0x3?A. -/
def Ega.writeGroup (vga : Bool) (g : Ega) (r : Nat) (v : Byte) : Ega :=
  match r with
  | 4 => { g with regs := { g.regs with crtcIndex := v } }
  | 5 => g.crtcWrite vga v
  | 10 => { g with regs := { g.regs with feature := v } }
  | _ => g

/-- Whether the adapter answers a port: all its ports, or on a VGA that is not enabled port 0x3C3 alone. -/
def EgaRegs.answers (vga : Bool) (r : EgaRegs) (port : Nat) : Bool := r.enabled vga || decide (port = 0x3C3)

/-- R740: a write to a port. -/
def Ega.writePort (vga : Bool) (g : Ega) (port : Nat) (v : Byte) : Ega :=
  if !g.regs.answers vga port then g
  else if 0x3C0 ≤ port ∧ port < 0x3D0 then g.writeFixed vga (port - 0x3C0) v
  else if g.regs.selects port then g.writeGroup vga (port % 16) v
  else g

/-- R740: reads of ports 0x3C0 to 0x3CF. On the EGA almost every register is write-only. -/
def Ega.readFixed (vga : Bool) (c : Params) (g : Ega) (r : Nat) : Byte × Ega :=
  let q := g.regs
  if r = 2 then (g.status0 vga c, g)
  else if vga then
    match r with
    | 0 => (q.acIndex, g)
    | 1 => (q.ar.getD (q.acIndex.toNat % 32) 0xFF#8, g)
    | 3 => (bitAt q.vse 0, g)
    | 4 => (q.seqIndex, g)
    | 5 => (q.sr.getD q.seqIndex.toNat 0xFF#8, g)
    | 6 => (g.dac.pelMask, g)
    | 7 => (if g.dac.readMode then 0#8 else 3#8, g)
    | 8 => (g.dac.widx, g)
    | 9 => let x := g.dac.read; (x.1, { g with dac := x.2 })
    | 10 => (q.feature, g)
    | 12 => (q.misc, g)
    | 14 => (q.gcIndex, g)
    | 15 => (q.gr.getD q.gcIndex.toNat 0xFF#8, g)
    | _ => (0xFF#8, g)
  else (0xFF#8, g)

/-- R740, R742: reads of the CRTC group; input status 1 resets the flip-flop of port 0x3C0. -/
def Ega.readGroup (vga : Bool) (g : Ega) (r : Nat) : Byte × Ega :=
  match r with
  | 4 => (if vga then g.regs.crtcIndex else 0xFF#8, g)
  | 5 => g.crtcRead vga
  | 10 => (g.status1 vga, { g with regs := { g.regs with acFlipflop := false } })
  | _ => (0xFF#8, g)

/-- R740: a read of a port. -/
def Ega.readPort (vga : Bool) (c : Params) (g : Ega) (port : Nat) : Byte × Ega :=
  if !g.regs.answers vga port then (0xFF#8, g)
  else if 0x3C0 ≤ port ∧ port < 0x3D0 then g.readFixed vga c (port - 0x3C0)
  else if g.regs.selects port then g.readGroup vga (port % 16)
  else (0xFF#8, g)

/-- What the host's peek sees at an address: the byte a read would return, with no latch loaded (R116). -/
def Ega.peek (vga : Bool) (size : Nat) (g : Ega) (a : Nat) : Byte := (g.readMem vga size a).1

end Sys2Proof.Machine
end

