-- ==== Sys2Proof/Machine/Video.lean ====
section
/-! DEFINITION. The video adapter installed (spec/53_crtc_video.md R700, R754): clocking, ports, display
memory, wait states and interrupt line of whichever adapter the parameters name. -/

namespace Sys2Proof.Machine

/-- R700, R705: one system tick of the adapter. -/
def Video.tick (c : Params) (font : Sparse Byte) (v : Video) : Video :=
  match c.videoKind with
  | .none => v
  | .cga => let x := v.cga.tick font v.fb; { v with cga := x.1, fb := x.2 }
  | .ega => let x := v.ega.tick false c v.fb; { v with ega := x.1, fb := x.2 }
  | .vga => let x := v.ega.tick true c v.fb; { v with ega := x.1, fb := x.2 }

/-- R76, R722, R736: `mmio_read`. With no adapter nothing answers (R79). -/
def Video.readMem (c : Params) (v : Video) (a : Nat) : Byte × Video :=
  match c.videoKind with
  | .none => (0xFF#8, v)
  | .cga => let x := v.cga.readMem a; (x.1, { v with cga := x.2 })
  | .ega => let x := v.ega.readMem false c.planeBytes a; (x.1, { v with ega := x.2 })
  | .vga => let x := v.ega.readMem true c.planeBytes a; (x.1, { v with ega := x.2 })

/-- R76, R722, R737: `mmio_write`. -/
def Video.writeMem (c : Params) (v : Video) (a : Nat) (b : Byte) : Video :=
  match c.videoKind with
  | .none => v
  | .cga => { v with cga := v.cga.writeMem a b }
  | .ega => { v with ega := v.ega.writeMem false c.planeBytes a b }
  | .vga => { v with ega := v.ega.writeMem true c.planeBytes a b }

/-- R703, R740: a read of a video port. -/
def Video.readPort (c : Params) (v : Video) (port : Word) : Byte × Video :=
  match c.videoKind with
  | .none => (0xFF#8, v)
  | .cga => (v.cga.readPort (port.setWidth 4), v)
  | .ega => let x := v.ega.readPort false c port.toNat; (x.1, { v with ega := x.2 })
  | .vga => let x := v.ega.readPort true c port.toNat; (x.1, { v with ega := x.2 })

/-- R703, R740: a write to a video port. -/
def Video.writePort (c : Params) (v : Video) (port : Word) (b : Byte) : Video :=
  match c.videoKind with
  | .none => v
  | .cga => { v with cga := v.cga.writePort (port.setWidth 4) b }
  | .ega => { v with ega := v.ega.writePort false port.toNat b }
  | .vga => { v with ega := v.ega.writePort true port.toNat b }

/-- R515, R748: the wait states the adapter adds to a display memory cycle at its T2. -/
def Video.wait (c : Params) (v : Video) : Nat :=
  match c.videoKind with
  | .cga => v.cga.wait c.cgaWait
  | _ => 0

/-- R746: the adapter's `irq_line()`, wired to IR2, and whether it rose (R591). -/
def Video.irq (c : Params) (v : Video) : Bool × Bool :=
  match c.videoKind with
  | .ega => (v.ega.vintPending, v.ega.vintRose)
  | .vga => (v.ega.vintPending, v.ega.vintRose)
  | _ => (false, false)

/-- Forget the edge noted since the last line sampling (R591). -/
def Video.clearRises (v : Video) : Video := { v with ega := { v.ega with vintRose := false } }

/-- What the host's peek sees in display memory (R76, R116). -/
def Video.peek (c : Params) (v : Video) (a : Nat) : Byte := (v.readMem c a).1

/-- What a host write to display memory changes (R116): the stored byte, without snow. An EGA or VGA window
is written as the CPU would write it. -/
def Video.poke (c : Params) (v : Video) (a : Nat) (b : Byte) : Video :=
  match c.videoKind with
  | .none => v
  | .cga => { v with cga := { v.cga with vram := Sparse.put Config.powerOnByte (a % 0x4000) b v.cga.vram } }
  | _ => v.writeMem c a b

/-- R830: the adapter's reset: its registers and counters; display memory, latches, the CRTC's registers on
the CGA and the palette keep what they hold (log 7), and so does the framebuffer with its beam (log 30). -/
def Video.hardReset (v : Video) : Video :=
  { cga := { Cga.reset with vram := v.cga.vram, cr := v.cga.cr, index := v.cga.index },
    ega := { Ega.reset with planes := v.ega.planes, dac := { VgaDac.reset with dac := v.ega.dac.dac },
                            draws := v.ega.draws },
    fb := v.fb }

end Sys2Proof.Machine
end

