-- ==== Sys2Proof/Machine/Bus.lean ====
section
/-! DEFINITION. The router (spec/20_memory.md R73 to R80, R93 to R96): what one byte access to memory, to a
port or to the PIC reads and changes; the external lines (R39); the NMI edge (R780). No access fails (R74). -/

namespace Sys2Proof.Machine

/-! ## External lines -/

/-- The lines before any input: no request, READY high, TEST asserted (R7). -/
def Lines.idle : Lines :=
  { irq := 0#8, nmi := false, test := true, drq := 0#4, dmaData := 0#8, readyWait := 0, portA := 0#8,
    portC := 0#8 }

/-- The lines at tick `t`: the last change not later than `t`. -/
def linesAt (t : Nat) : Lines → List (Nat × Lines) → Lines
  | l, [] => l
  | l, (t', l') :: rest => if t' ≤ t then linesAt t l' rest else l

/-- The external lines now (R39). -/
def Sys.lines (y : Sys) : Lines := linesAt y.ticks Lines.idle y.inputs

/-- Which IRQ lines rose after tick `t0` and not later than tick `t1` (R591), from level `prev`. -/
def irqRises (t0 t1 : Nat) : Byte → List (Nat × Lines) → Byte
  | _, [] => 0#8
  | prev, (t, l) :: rest =>
    if t ≤ t1 then
      (if t0 < t then ~~~prev &&& l.irq else 0#8) ||| irqRises t0 t1 l.irq rest
    else 0#8

/-- R780: the edge detector of the NMI input, `nmi_source and nmi_enable`. It looks at the line in every tick, so
that an edge inside a step is latched (R592, C5; log 48). -/
def Sys.detectNmi (y : Sys) : Sys :=
  let level := y.lines.nmi && y.nmiEnable
  { y with nmiLatched := y.nmiLatched || (level && !y.nmiLine), nmiLine := level }

/-! ## The refresh request -/

/-- A changed PIT: a rising edge of counter 1's output sets DREQ0 (R627, R672), unless refresh is disabled
(R672) or no full count has been written to the counter (R840 item 7, log 4). With refresh disabled channel 0's counters
so stand still too: R672 suppresses the setting of DREQ0 altogether, C7 says that the bus cost only is removed (DESIGN
CHOICE, log 53). -/
def Sys.setPit (y : Sys) (p : Pit) : Sys :=
  let rise := y.cfg.refreshEnabled && y.pit.c1.counted && !y.pit.c1.out && p.c1.out
  { y with pit := p, dma := if rise then { y.dma with dreq := setBit y.dma.dreq 0 true } else y.dma }

/-! ## Memory -/

/-- An access that a device out of scope sees (log 46). -/
def Sys.seen (y : Sys) (place : Config.ExtPlace) (wrote : Option Byte) : Sys :=
  { y with extAccesses := { place := place, wrote := wrote } :: y.extAccesses }

/-- R76: `mmio_read` of the device an address delegates to: the video adapter's own function, or that of a device
out of scope, which answers from what it has seen; a `reactive` one sees the read too (log 46). -/
def mmioRead (y : Sys) (a : PhysAddr) : Byte × Sys :=
  match y.cfg.mmioAt a with
  | some .video => let x := y.video.readMem y.cfg a.toNat; (x.1, { y with video := x.2 })
  | some (.external n) => (Config.extByte n y.extAccesses (.memory a), y)
  | some (.reactive n) => (Config.extByte n y.extAccesses (.memory a), y.seen (.memory a) none)
  | none => (0xFF#8, y)

/-- R76: `mmio_write`. -/
def mmioWrite (y : Sys) (a : PhysAddr) (b : Byte) : Sys :=
  match y.cfg.mmioAt a with
  | some .video => { y with video := y.video.writeMem y.cfg a.toNat b }
  | some (.external _) => y.seen (.memory a) (some b)
  | some (.reactive _) => y.seen (.memory a) (some b)
  | none => y

/-- R79: `BusRead`. -/
def busRead (y : Sys) (a : PhysAddr) : Byte × Sys :=
  match y.cfg.kindAt a with
  | some .ram => (y.ramByte a.toNat, y)
  | some .rom => (y.romByte a.toNat, y)
  | some .mmio => mmioRead y a
  | none => (0xFF#8, y)

/-- R80: `BusWrite`. -/
def busWrite (y : Sys) (a : PhysAddr) (b : Byte) : Sys :=
  match y.cfg.kindAt a with
  | some .ram => y.putRam a.toNat b
  | some .rom => y
  | some .mmio => mmioWrite y a b
  | none => y

/-- R677: the byte that a granted cycle of channel 1, 2 or 3 moves: from the device to memory in a write
transfer, from memory to the device in a read transfer. Channel 0, verify, cascade and the illegal type move
none (log 19). -/
def Sys.dmaMove (y : Sys) (c : BitVec 2) : Sys :=
  let x := y.dma.channel c
  if c = 0#2 || x.cascade then y
  else
    match (x.mode.extractLsb' 0 2 : BitVec 2).toNat with
    | 1 => busWrite y x.busAddr y.lines.dmaData
    | 2 => (busRead y x.busAddr).2
    | _ => y

/-! ## Ports -/

/-- R630, R627: port 0x62, the PPI's inputs with bit 5 the output of counter 2, which is free until counter
2 is programmed (R611). R627's "out AND bit 1 of port 0x61" is read as the speaker's alone: bit 5 is the counter's own
output (DESIGN CHOICE, log 27). -/
def Sys.readPortC (y : Sys) : Byte × Sys :=
  match y.pit.c2.mode with
  | some _ => (setBit y.lines.portC 5 y.pit.c2.out, y)
  | none =>
    (setBit y.lines.portC 5 (bit (y.pit.c2.free 2) 0),
      { y with pit := { y.pit with c2 := { y.pit.c2 with draws := y.pit.c2.draws + 1 } } })

/-- R94: `read_io` of the device that owns the port, 0xFF for an unowned port. Wherever the map puts a chip, the low bits
of the port number select its register, not the offset from the range's base (DESIGN CHOICE, log 10; R612 says it of the
PIT). A device out of scope answers from what
it has seen, and sees the read (log 46). -/
def portRead (y : Sys) (port : Word) : Byte × Sys :=
  match y.cfg.deviceAt port with
  | some .dma => let x := y.dma.read (port.setWidth 4); (x.1, { y with dma := x.2 })
  | some .dmaPage => (y.dma.readPage (port.setWidth 2), y)
  | some .pic => let x := y.pic.read (bit port 0); (x.1, { y with pic := x.2 })
  | some .pit => let x := y.pit.read (port.setWidth 2 : BitVec 2).toNat; (x.1, { y with pit := x.2 })
  | some .ppi =>
    match (port.setWidth 2 : BitVec 2).toNat with
    | 0 => (y.lines.portA, y)
    | 1 => (y.port61, y)
    | 2 => y.readPortC
    | _ => (0xFF#8, y)
  | some .nmiMask => (0xFF#8, y)
  | some .video => let x := y.video.readPort y.cfg port; (x.1, { y with video := x.2 })
  | some (.external n) => (Config.extByte n y.extAccesses (.port port), y.seen (.port port) none)
  | none => (0xFF#8, y)

/-- R630, R626: port 0x61: bit 0 is counter 2's GATE. -/
def Sys.writePort61 (y : Sys) (v : Byte) : Sys :=
  { y with port61 := v, pit := { y.pit with c2 := y.pit.c2.setGate (bit v 0) } }

/-- R95: `write_io` of the device that owns the port; a write to an unowned port is discarded. The register is selected
as in `portRead` (DESIGN CHOICE, log 10). -/
def portWrite (y : Sys) (port : Word) (v : Byte) : Sys :=
  match y.cfg.deviceAt port with
  | some .dma => { y with dma := y.dma.write (port.setWidth 4) v }
  | some .dmaPage => { y with dma := y.dma.writePage (port.setWidth 2) v }
  | some .pic => { y with pic := y.pic.write (bit port 0) v }
  | some .pit => y.setPit (y.pit.write (port.setWidth 2 : BitVec 2).toNat v)
  | some .ppi => if (port.setWidth 2 : BitVec 2) = 1#2 then y.writePort61 v else y
  | some .nmiMask => Sys.detectNmi { y with nmiEnable := bit v 7 }
  | some .video => { y with video := y.video.writePort y.cfg port v }
  | some (.external _) => y.seen (.port port) (some v)
  | none => y

/-! ## Interrupt acknowledge -/

/-- R646, R647: the pulse an IntAck cycle gives the PIC: the first unless one has been given; what the
first puts on the bus is any value (R785). -/
def intAckCycle (y : Sys) : Byte × Sys :=
  if y.pic.inInta then (y.pic.vector, { y with pic := y.pic.inta2 })
  else
    (loByte (Config.freeWord 4 y.pic.draws),
      { y with pic := Pic.inta1 { y.pic with draws := y.pic.draws + 1 } })

/-! ## One byte transfer -/

/-- R513: the effect of a bus cycle at its transfer instant; the byte read, or the byte written. -/
def transfer (y : Sys) (r : Request) : Byte × Sys :=
  match r.op with
  | .memRead => busRead y r.addr
  | .memWrite => (r.data, busWrite y r.addr r.data)
  | .ioRead => portRead y (r.addr.setWidth 16)
  | .ioWrite => (r.data, portWrite y (r.addr.setWidth 16) r.data)
  | .intAck => intAckCycle y
  | .codeFetch => busRead y r.addr
  | .passive => (r.data, y)
  | .haltAck => (r.data, y)

/-- R515: the wait states of a cycle, taken at its T2. -/
def waitStates (y : Sys) (op : BusOp) (a : PhysAddr) : Nat :=
  match op with
  | .memRead => memWait
  | .memWrite => memWait
  | .codeFetch => memWait
  | .ioRead => y.cfg.ioWait + ready
  | .ioWrite => y.cfg.ioWait + ready
  | .intAck => 0
  | .passive => 0
  | .haltAck => 0
where
  /-- R515 items 1 and 2, and item 4 for an address of no in-scope device. -/
  memWait : Nat :=
    y.cfg.cpuWait +
      match findRange a.toNat y.cfg.map with
      | some r =>
        r.wait +
          (if r.kind = .mmio then (if r.device = .video then y.video.wait y.cfg else y.lines.readyWait) else 0)
      | none => y.lines.readyWait
  /-- R515 item 4, for a port of no in-scope device. -/
  ready : Nat :=
    match y.cfg.deviceAt (a.setWidth 16) with
    | some .ppi => y.lines.readyWait
    | some (.external _) => y.lines.readyWait
    | none => y.lines.readyWait
    | _ => 0

end Sys2Proof.Machine
end

