-- ==== Sys2Proof/Machine/Biu.lean ====
section
/-! DEFINITION. The bus interface unit tick by tick (spec/50_biu_eu_sequencing.md R500 to R540) and the EU's
commands to it. A tick advances the devices that run from the clock, then does the BIU's phase action (R500);
its number is `ticks` before it ends (log 12). The devices move with every tick, which R591 makes equal to
the batch of R583 with the catch-up of R590 and the prediction of R593. An EU access runs its own bus cycle,
so a tick by itself writes memory only for a device's DMA transfer (R677). -/

namespace Sys2Proof.Machine

/-! ## Decisions (R521, R523, R676) -/

/-- R530: when a code fetch may start. -/
def Sys.fetchAllowed (y : Sys) : Bool :=
  !y.biu.suspended && !y.halted && decide (y.biu.queue.length < Config.queueCap)

/-- No transaction on the bus next tick. -/
def Biu.toIdle (b : Biu) : Biu := { b with phase := .idle, op := .passive, fromReset := false }

/-- No transaction next tick, and the first fetch from here on scheduled (R521 item 4, R531): T1 FETCH_START_DELAY + 1
ticks after the tick that decides. The reset schedules its fetch at once (R831): there the tick before `now` decided. -/
def Biu.schedule (b : Biu) (now : Nat) : Biu :=
  { b.toIdle with
      fetchSched := .scheduled (now + Config.fetchStartDelay + (if b.fromReset then 0 else 1)) }

/-- T1 of a code fetch next tick; the address is formed in T1 (R531). -/
def Biu.toFetch (b : Biu) : Biu := { b with phase := .t1, op := .codeFetch, fetchSched := .none, fromReset := false }

/-- T1 of the EU's request next tick; a scheduled fetch is cancelled (R534). A locked request locks the bus from its
T1 on (R36, log 14). -/
def Biu.toRequest (b : Biu) (r : Request) : Biu :=
  { b with phase := .t1, op := r.op, addr := r.addr, data := r.data, segSrc := r.segSrc, request := none,
           lock := b.lock || r.lock, fromReset := false,
           fetchSched := match b.fetchSched with
             | .none => .none
             | .scheduled _ => .aborted
             | .aborted => .aborted }

/-- R521 items 2 to 6: what the CPU starts next. `direct` says that the phase is T4, after which a fetch needs no
scheduling (item 3). HaltAck is entered from Idle alone, the one edge R511 has to it (log 36). -/
def Sys.decideCpu (y : Sys) (direct : Bool) : Sys :=
  match y.biu.request with
  | some r => { y with biu := y.biu.toRequest r }
  | none =>
    if y.fetchAllowed then
      if direct then { y with biu := y.biu.toFetch }
      else
        match y.biu.fetchSched with
        | .scheduled s =>
          if s ≤ y.ticks + 1 then { y with biu := y.biu.toFetch } else { y with biu := y.biu.toIdle }
        | _ => { y with biu := y.biu.schedule y.ticks }
    else if y.biu.haltReq && decide (y.biu.phase = .idle) then
      { y with biu := { y.biu with phase := .haltAck, op := .haltAck, haltReq := false } }
    else { y with biu := y.biu.toIdle }

/-- R521 item 1: DMA has the bus and nothing starts. A fetch that is allowed and not yet scheduled is scheduled
meanwhile, so that one that waited for the bus starts as soon as the hold ends (R531, R676; log 35). -/
def Sys.hold (y : Sys) : Sys :=
  match y.biu.request, y.biu.fetchSched with
  | some _, _ => { y with biu := y.biu.toIdle }
  | none, .scheduled _ => { y with biu := y.biu.toIdle }
  | none, _ => { y with biu := if y.fetchAllowed then y.biu.schedule y.ticks else y.biu.toIdle }

/-- R521 item 1, R523, R676: DMA holds the bus, or is granted it now unless `lock` is set; else the CPU
decides. In a hold's last tick the bus returns to the CPU, for its pending request or a fetch that is due; another
DMA request waits for the next decision (DESIGN CHOICE, log 35). -/
def Sys.decide (y : Sys) (afterCycle : Bool) : Sys :=
  match y.dma.busyLeft with
  | 0 =>
    match (if y.biu.lock then none else y.dma.winner) with
    | some c => let y := y.dmaMove c; Sys.hold { y with dma := y.dma.grant c }
    | none => y.decideCpu afterCycle
  | 1 => Sys.decideCpu { y with dma := { y.dma with busyLeft := 0 } } false
  | n + 2 => Sys.hold { y with dma := { y.dma with busyLeft := n + 1 } }

/-! ## Phase actions (R510, R511) -/

/-- The transfer of a code fetch at the end of its last T3 or Tw (R513, R531). PC counts the byte from here on (R26,
C9). The EU's own cycles transfer in `Sys.euFinish`. -/
def Sys.fetchTransfer (y : Sys) : Sys :=
  if y.biu.op = .codeFetch then
    let x := busRead y y.biu.addr
    { x.2 with biu := { x.2.biu with data := x.1, phase := .t4, pc := x.2.biu.pc + 1#16 } }
  else { y with biu := { y.biu with phase := .t4 } }

/-- T4 of a code fetch pushes its byte (R531, R532). -/
def Sys.fetchComplete (y : Sys) : Sys :=
  if y.biu.op = .codeFetch then
    { y with biu := { y.biu with queue := y.biu.queue ++ [{ byte := y.biu.data, age := y.ticks }] } }
  else y

/-- What T1 drives: a fetch's address from CS:PC (R510, R531). -/
def Biu.drive (b : Biu) (cs : Word) : Biu :=
  if b.op = .codeFetch then { b with phase := .t2, addr := phys cs b.pc, segSrc := some .cs }
  else { b with phase := .t2 }

/-- R510: the action of the current phase, and the phase that follows. -/
def Sys.phaseAction (y : Sys) (cs : Word) : Sys :=
  match y.biu.phase with
  | .idle => y.decide false
  | .t1 => { y with biu := y.biu.drive cs }
  | .t2 => { y with biu := { y.biu with phase := .t3, waitLeft := waitStates y y.biu.op y.biu.addr } }
  | .t3 => if y.biu.waitLeft = 0 then y.fetchTransfer else { y with biu := { y.biu with phase := .tw } }
  | .tw =>
    let y := { y with biu := { y.biu with waitLeft := y.biu.waitLeft - 1 } }
    if y.biu.waitLeft = 0 then y.fetchTransfer else y
  | .t4 => y.fetchComplete.decide true
  | .haltAck => { y with biu := y.biu.toIdle }

/-- The devices that run from the clock take one tick: PIT, then video (R587); the NMI input is looked at (R780). -/
def Sys.clockDevices (y : Sys) : Sys :=
  let y := y.setPit y.pit.tick
  Sys.detectNmi { y with video := y.video.tick y.cfg y.font }

/-- One system tick (R500, R580). -/
def Sys.tick (cs : Word) (y : Sys) : Sys :=
  let y := y.clockDevices.phaseAction cs
  { y with ticks := y.ticks + 1 }

/-- `n` system ticks. -/
def Sys.tickN (cs : Word) : Nat → Sys → Sys
  | 0, y => y
  | n + 1, y => Sys.tickN cs n (y.tick cs)

/-- Count one micro-operation, the EU waiting for nothing (R33, R550). -/
def Sys.microDone (y : Sys) : Sys := { y with mpc := y.mpc + 1, stall := .none }

/-! ## The EU's bus cycles (R520) -/

/-- The bus cycle in progress runs on until its T4 is next. -/
def Sys.runToT4 (cs : Word) (y : Sys) : Sys :=
  match y.biu.phase with
  | .t1 => let y := y.tickN cs 2; y.tickN cs (1 + y.biu.waitLeft)
  | .t2 => let y := y.tick cs; y.tickN cs (1 + y.biu.waitLeft)
  | .t3 => y.tickN cs (1 + y.biu.waitLeft)
  | .tw => y.tickN cs (max 1 y.biu.waitLeft)
  | _ => y

/-- The bus cycle in progress ends, its T4 included (R536). -/
def Sys.drain (cs : Word) (y : Sys) : Sys :=
  let y := y.runToT4 cs
  if y.biu.phase = .t4 then y.tick cs else y

/-- The pending request, if there is one, is started: its T1 is the next tick. -/
def Sys.startNow (y : Sys) : Sys :=
  match y.biu.request with
  | some r => { y with biu := y.biu.toRequest r }
  | none => y

/-- Tick until the posted request has been started, at most `fuel` ticks; then end the cycle in progress and start
it (log 34: no state of the spec waits longer). -/
def Sys.awaitStart (cs : Word) : Nat → Sys → Sys
  | 0, y =>
    match y.biu.request with
    | some _ => (y.drain cs).startNow
    | none => y
  | fuel + 1, y =>
    match y.biu.request with
    | some _ => Sys.awaitStart cs fuel (y.tick cs)
    | none => y

/-- R520: post a request; the answer's next tick is the request's T1. -/
def Sys.euBegin (cs : Word) (r : Request) (y : Sys) : Sys :=
  let y := { y with biu := { y.biu with request := some r }, stall := .busBusy }
  let y := y.runToT4 cs
  y.awaitStart cs (y.dma.busyLeft + Config.refreshBusTicks + 4)

/-- T1, T2, T3 and the wait ticks, with the transfer at the end of the last (R513); the next tick is T4. -/
def Sys.euFinish (cs : Word) (r : Request) (y : Sys) : Byte × Sys :=
  let y := y.tickN cs 2
  let y := y.tickN cs (1 + y.biu.waitLeft)
  let x := transfer y r
  (x.1, { x.2 with biu := { x.2.biu with data := x.1 } })

/-- One bus cycle of the EU up to its T4. -/
def Sys.euCycle (cs : Word) (r : Request) (y : Sys) : Byte × Sys := (y.euBegin cs r).euFinish cs r

/-- The T4 tick that ends the EU's access. -/
def Sys.euEnd (cs : Word) (y : Sys) : Sys := (y.tick cs).microDone

/-- A one-byte access. -/
def Sys.access1 (cs : Word) (r : Request) (y : Sys) : Byte × Sys :=
  let x := y.euCycle cs r
  (x.1, x.2.euEnd cs)

/-- A two-byte access: the second request is posted in the first's T4 (R514, R520). -/
def Sys.access2 (cs : Word) (r1 r2 : Request) (y : Sys) : Byte × Byte × Sys :=
  let x := y.euCycle cs r1
  let z := x.2.microDone.euCycle cs r2
  (x.1, z.1, z.2.euEnd cs)

/-! ## Internal ticks and commands -/

/-- A micro-operation with no bus activity (R550). -/
def Sys.internal (cs : Word) (n : Nat) (y : Sys) : Sys := (y.tickN cs n).microDone

/-- R537: SUSP, in `n` ticks, effective from the first (DESIGN CHOICE, log 11). -/
def Sys.susp (cs : Word) (n : Nat) (y : Sys) : Sys :=
  Sys.internal cs n { y with biu := { y.biu with suspended := true } }

/-- R537: CORR, in `n` ticks, effective from the first (DESIGN CHOICE, log 11). -/
def Sys.corr (cs ip : Word) (n : Nat) (y : Sys) : Sys :=
  Sys.internal cs n { y with biu := { y.biu with pc := ip } }

/-- R536: FLUSH, once the bus cycle in progress has ended; it takes effect in the last of its `n` ticks (DESIGN
CHOICE, log 11). -/
def Sys.flush (cs ip : Word) (n : Nat) (y : Sys) : Sys :=
  let y := (y.tickN cs (n - 1)).drain cs
  Sys.internal cs 1
    { y with biu := { y.biu with queue := [], fetchSched := .none, suspended := false, pc := ip } }

/-- R522, R550: HALT raises the halt request. -/
def Sys.halt (cs : Word) (y : Sys) : Sys :=
  Sys.internal cs 1 { y with halted := true, biu := { y.biu with haltReq := true } }

/-! ## Reading the queue (R533) -/

/-- The oldest byte, if it can be taken in this tick. -/
def Sys.takeByte (y : Sys) : Option (Byte × Sys) :=
  match y.biu.queue with
  | [] => none
  | q :: rest =>
    if q.age < y.ticks then some (q.byte, { y with biu := { y.biu with queue := rest } }) else none

/-- R533: QFETCH, retrying every tick, at most `fuel` of them. -/
def Sys.qfetch (cs : Word) : Nat → Sys → Option (Byte × Sys)
  | 0, _ => none
  | fuel + 1, y =>
    match y.takeByte with
    | some x => some (x.1, (x.2.tick cs).microDone)
    | none => Sys.qfetch cs fuel (Sys.tick cs { y with stall := .queueEmpty })

/-- The wait states the memory map can declare, all together. -/
def sumWaits : List MemRange → Nat
  | [] => 0
  | r :: rest => r.wait + sumWaits rest

/-- The longest READY can hold a cycle. -/
def sumReady : List (Nat × Lines) → Nat
  | [] => 0
  | (_, l) :: rest => l.readyWait + sumReady rest

/-- The longest a bus cycle can be held by wait states. -/
def Sys.waitBound (y : Sys) : Nat :=
  y.cfg.cpuWait + y.cfg.ioWait + sumWaits y.cfg.map + y.cfg.cgaWait.sum + sumReady y.inputs

/-- The model's bound on a queue stall: more than any cycle, hold and schedule together take (log 34). -/
def Sys.stallBound (y : Sys) : Nat := 64 + y.biu.waitLeft + y.dma.busyLeft + 2 * y.waitBound

end Sys2Proof.Machine
end

