-- ==== Sys2Proof/Machine/Ops.lean ====
section
/-! DEFINITION. The named operations every meaning is written with: register access (spec/10_state.md R20 to
R24), memory, port and stack access through the bus unit (20_memory.md R77, R78, R94, R95; 00_scope.md
section 6), writes of CS:IP (50_biu_eu_sequencing.md R536), free values, taking an interrupt (60_exceptions.md
R785, R790) and the return from one (44_control_transfer.md R433). -/

namespace Sys2Proof.Machine

/-! ## Registers -/

/-- `reg16[i]` (R150). -/
def State.reg16 (s : State) : Reg16 → Word
  | .ax => s.regs.ax | .cx => s.regs.cx | .dx => s.regs.dx | .bx => s.regs.bx
  | .sp => s.regs.sp | .bp => s.regs.bp | .si => s.regs.si | .di => s.regs.di

/-- The register file with `reg16[r]` written. -/
def Regs.set16 (g : Regs) (r : Reg16) (v : Word) : Regs :=
  match r with
  | .ax => { g with ax := v } | .cx => { g with cx := v } | .dx => { g with dx := v }
  | .bx => { g with bx := v } | .sp => { g with sp := v } | .bp => { g with bp := v }
  | .si => { g with si := v } | .di => { g with di := v }

/-- `reg16[r] <- v`. -/
def State.setReg16 (s : State) (r : Reg16) (v : Word) : State := { s with regs := s.regs.set16 r v }

/-- The 16-bit register a byte register is half of (R21, R151). -/
def parentReg : Reg8 → Reg16
  | .al => .ax | .ah => .ax | .cl => .cx | .ch => .cx | .dl => .dx | .dh => .dx | .bl => .bx | .bh => .bx

/-- Whether a byte register is the high half (R21). -/
def isHighHalf : Reg8 → Bool
  | .al => false | .cl => false | .dl => false | .bl => false
  | .ah => true | .ch => true | .dh => true | .bh => true

/-- `reg8[i]` (R21, R151). -/
def State.reg8 (s : State) (r : Reg8) : Byte := halfOf (isHighHalf r) (s.reg16 (parentReg r))

/-- `reg8[r] <- v`: only those 8 bits change (R21). -/
def State.setReg8 (s : State) (r : Reg8) (v : Byte) : State :=
  s.setReg16 (parentReg r) (setHalf (isHighHalf r) (s.reg16 (parentReg r)) v)

/-- `sreg[i]` (R152). -/
def State.sreg (s : State) : SReg → Word
  | .es => s.sregs.es | .cs => s.sregs.cs | .ss => s.sregs.ss | .ds => s.sregs.ds

/-- `sreg[r] <- v`, with no flush. -/
def State.setSreg (s : State) (r : SReg) (v : Word) : State :=
  match r with
  | .es => { s with sregs := { s.sregs with es := v } }
  | .cs => { s with sregs := { s.sregs with cs := v } }
  | .ss => { s with sregs := { s.sregs with ss := v } }
  | .ds => { s with sregs := { s.sregs with ds := v } }

/-- The value of a segment source; none is the segment value 0 of a vector read (R157). -/
def State.segValue (s : State) : Option SReg → Word
  | some r => s.sreg r
  | none => 0#16

/-! ## Free values -/

/-- The next free value of the CPU's source, number 0 (00_scope.md section 6; log 9). -/
def State.free (s : State) : Word := Config.freeWord 0 s.sys.draws

/-- The free value has been used: the next differs. -/
def State.drawn (s : State) : State := { s with sys := { s.sys with draws := s.sys.draws + 1 } }

/-! ## Flags as a word (R28) -/

/-- The 16-bit image: `(stored & 0x0FD5) | 0xF002` (R28). -/
def Flags.image (f : Flags) : Word :=
  0xF#4 ++ BitVec.ofBool f.of ++ BitVec.ofBool f.df ++ BitVec.ofBool f.ief ++ BitVec.ofBool f.tf ++
    BitVec.ofBool f.sf ++ BitVec.ofBool f.zf ++ 0#1 ++ BitVec.ofBool f.af ++ 0#1 ++ BitVec.ofBool f.pf ++
    1#1 ++ BitVec.ofBool f.cf

/-- The stored flags of a 16-bit value: the nine named bits are taken, the rest ignored (R28, R217). -/
def Flags.ofImage (v : Word) : Flags :=
  { cf := bit v 0, pf := bit v 2, af := bit v 4, zf := bit v 6, sf := bit v 7, tf := bit v 8,
    ief := bit v 9, df := bit v 10, of := bit v 11 }

/-! ## Micro-operations without bus activity (R550) -/

/-- What R552 gives a step no row of the parameter names: 1, and 0 for RNI; no gap between the INTA cycles (R785). -/
def EuStep.usual : EuStep → Nat
  | .rni => 0 | .intaGap => 0
  | .ea => 1 | .alu => 1 | .susp => 1 | .corr => 1 | .flush => 1

/-- R550: a BIU command takes at least one tick, RNI at most one. -/
def EuStep.bounded (k : EuStep) (n : Nat) : Nat :=
  match k with
  | .susp => max 1 n | .corr => max 1 n | .flush => max 1 n
  | .rni => min 1 n
  | .ea => n | .alu => n | .intaGap => n

/-- Whether an operand has the value asked for. -/
def State.hasOperand (s : State) : EuOperand → Bool
  | .reg r v => s.reg16 r = v
  | .flags v => s.flags.image = v
  | .opr v => s.eu.opr = v
  | .tmpa v => s.eu.tmpa = v
  | .tmpb v => s.eu.tmpb = v
  | .ea v => s.eu.ea = v

/-- Whether a row of EuCost counts for a step of kind `k` taken now. -/
def State.matchesCost (s : State) (k : EuStep) (r : EuCostRow) : Bool :=
  decide (r.instr = s.eu.opword ∧ r.step = k ∧ r.index = s.sys.mpc - s.eu.opIndex) && r.operands.all s.hasOperand

/-- `EuCost(instr, step)` (R552), with the operands (D19): the ticks of a step of kind `k` that the current instruction
takes now. -/
def State.euCost (s : State) (k : EuStep) : Nat :=
  k.bounded (((s.sys.cfg.euCost.find? (s.matchesCost k)).map EuCostRow.ticks).getD k.usual)

/-- `n` ticks of the EU alone. -/
def State.spend (s : State) (n : Nat) : State := { s with sys := s.sys.internal s.sregs.cs n }

/-- An ALU step (R552). -/
def State.internal (s : State) : State := s.spend (s.euCost .alu)

/-- An ALU step on two operands, which pass through the EU's temporaries (R33). -/
def State.aluStep (s : State) (a b : Word) : State :=
  State.internal { s with eu := { s.eu with tmpa := a, tmpb := b } }

/-! ## Memory and ports -/

/-- The request of one memory byte at `seg:off` (R71), locked in a LOCKed instruction (R36). -/
def State.memRequest (s : State) (op : BusOp) (seg : Option SReg) (off : Word) (b : Byte) : Request :=
  { op := op, addr := phys (s.segValue seg) off, data := b, segSrc := seg, lock := s.eu.pfx.lock }

/-- The request of one port byte. -/
def State.portRequest (s : State) (op : BusOp) (port : Word) (b : Byte) : Request :=
  { op := op, addr := port.setWidth 20, data := b, segSrc := none, lock := s.eu.pfx.lock }

/-- A one-byte access, with the byte into `opr` (R33, R550). -/
def State.readVia (s : State) (r : Request) : Byte × State :=
  let x := s.sys.access1 s.sregs.cs r
  (x.1, { s with sys := x.2, eu := { s.eu with opr := zext16 x.1 } })

/-- A two-byte access, low byte first, with the word into `opr`. -/
def State.readVia2 (s : State) (r1 r2 : Request) : Word × State :=
  let x := s.sys.access2 s.sregs.cs r1 r2
  let v := word x.2.1 x.1
  (v, { s with sys := x.2.2, eu := { s.eu with opr := v } })

/-- A one-byte write. -/
def State.writeVia (s : State) (r : Request) : State :=
  { s with sys := (s.sys.access1 s.sregs.cs r).2 }

/-- A two-byte write, low byte first. -/
def State.writeVia2 (s : State) (r1 r2 : Request) : State :=
  { s with sys := (s.sys.access2 s.sregs.cs r1 r2).2.2 }

/-- `MemRead(seg, off, 1)` (R77). -/
def State.read8 (s : State) (seg : Option SReg) (off : Word) : Byte × State :=
  s.readVia (s.memRequest .memRead seg off 0#8)

/-- `MemRead(seg, off, 2)` (R77): the offset of the high byte wraps (R72). -/
def State.read16 (s : State) (seg : Option SReg) (off : Word) : Word × State :=
  s.readVia2 (s.memRequest .memRead seg off 0#8) (s.memRequest .memRead seg (off + 1#16) 0#8)

/-- `MemWrite(seg, off, 1, v)` (R78). -/
def State.write8 (s : State) (seg : Option SReg) (off : Word) (v : Byte) : State :=
  s.writeVia (s.memRequest .memWrite seg off v)

/-- `MemWrite(seg, off, 2, v)` (R78). -/
def State.write16 (s : State) (seg : Option SReg) (off : Word) (v : Word) : State :=
  s.writeVia2 (s.memRequest .memWrite seg off (loByte v))
    (s.memRequest .memWrite seg (off + 1#16) (hiByte v))

/-- `IoRead(port, 1)` (R94). -/
def State.in8 (s : State) (port : Word) : Byte × State := s.readVia (s.portRequest .ioRead port 0#8)

/-- `IoRead(port, 2)` (R94). -/
def State.in16 (s : State) (port : Word) : Word × State :=
  s.readVia2 (s.portRequest .ioRead port 0#8) (s.portRequest .ioRead (port + 1#16) 0#8)

/-- `IoWrite(port, 1, v)` (R95). -/
def State.out8 (s : State) (port : Word) (v : Byte) : State := s.writeVia (s.portRequest .ioWrite port v)

/-- `IoWrite(port, 2, v)` (R95). -/
def State.out16 (s : State) (port : Word) (v : Word) : State :=
  s.writeVia2 (s.portRequest .ioWrite port (loByte v)) (s.portRequest .ioWrite (port + 1#16) (hiByte v))

/-! ## Stack (00_scope.md section 6, R89) -/

/-- `SP <- SP -_16 2`. -/
def State.decSp (s : State) : State := s.setReg16 .sp (s.regs.sp - 2#16)

/-- `SP <- SP +_16 k`. -/
def State.addSp (s : State) (k : Word) : State := s.setReg16 .sp (s.regs.sp + k)

/-- `push16(v)`. -/
def State.push16 (s : State) (v : Word) : State :=
  let s := s.decSp
  s.write16 (some .ss) s.regs.sp v

/-- `pop16()`. -/
def State.pop16 (s : State) : Word × State :=
  let x := s.read16 (some .ss) s.regs.sp
  (x.1, x.2.addSp 2#16)

/-! ## Writes of CS:IP (R436, R536, R537) -/

/-- SUSP. -/
def State.susp (s : State) : State := { s with sys := s.sys.susp s.sregs.cs (s.euCost .susp) }

/-- CORR. -/
def State.corr (s : State) : State := { s with sys := s.sys.corr s.sregs.cs s.ip (s.euCost .corr) }

/-- FLUSH at the present CS:IP. -/
def State.flush (s : State) : State := { s with sys := s.sys.flush s.sregs.cs s.ip (s.euCost .flush) }

/-- `pc <- o`: an absolute offset. -/
def State.jumpTo (s : State) (o : Word) : State :=
  let s := s.susp
  State.flush { s with ip := o }

/-- `pc <- o` after CORR: by an instruction that needs the architectural IP, a call or a relative transfer (R537). -/
def State.callTo (s : State) (o : Word) : State :=
  let s := s.susp.corr
  State.flush { s with ip := o }

/-- `pc <- IP +_16 d`. -/
def State.jumpBy (s : State) (d : Word) : State := s.callTo (s.ip + d)

/-- `pc <- (seg, o)`. -/
def State.jumpFar (s : State) (seg o : Word) : State :=
  let s := s.susp
  State.flush { s with sregs := { s.sregs with cs := seg }, ip := o }

/-- `pc <- (seg, o)` after CORR: a far call (R537). -/
def State.callFar (s : State) (seg o : Word) : State :=
  let s := s.susp.corr
  State.flush { s with sregs := { s.sregs with cs := seg }, ip := o }

/-- A segment register load with the inhibited boundary (R207, R215, R782); a load of CS flushes the queue
and leaves IP. -/
def State.loadSreg (s : State) (r : SReg) (v : Word) : State :=
  match r with
  | .cs => State.flush { s.susp.setSreg .cs v with intInhibit := true }
  | r => { s.setSreg r v with intInhibit := true }

/-! ## Taking an interrupt (R785, R790) -/

/-- `IF <- 0; TF <- 0`. -/
def State.maskFlags (s : State) : State := { s with flags := { s.flags with ief := false, tf := false } }

/-- R790: `Interrupt(n)`, pushing `retIp`. The one operation by which any interrupt, exception or software
interrupt is taken: vector read, FLAGS, CS and IP pushed, IF and TF cleared, CS:IP loaded, queue flushed. -/
def State.interrupt (s : State) (n : Byte) (retIp : Word) : State :=
  let s := s.susp
  let off : Word := zext16 n <<< 2
  let x := s.read16 none off
  let y := x.2.read16 none (off + 2#16)
  let s := y.2.corr
  let s := (s.push16 s.flags.image).maskFlags
  let s := s.push16 s.sregs.cs
  let s := s.push16 retIp
  State.flush { s with sregs := { s.sregs with cs := y.1 }, ip := x.1 }

/-- The request of an interrupt acknowledge cycle, which locks the bus (R785). T1 drives no address (R510); `addr` holds
0 and `seg_src` none from the cycle's start, `data` 0 until the transfer (DESIGN CHOICE, log 8: the spec is silent on the
latches' values). -/
def intAckRequest : Request := { op := .intAck, addr := 0#20, data := 0#8, segSrc := none, lock := true }

/-- R785: the gap between the INTA cycles, `n` ticks in which no code fetch starts; without one they run back to
back. -/
def Sys.intaGap (cs : Word) (n : Nat) (y : Sys) : Sys :=
  if n = 0 then y.microDone
  else
    let y := Sys.internal cs n (Sys.euEnd cs { y with biu := { y.biu with suspended := true } })
    { y with biu := { y.biu with suspended := false } }

/-- R785: the two INTA cycles with a gap of `n` ticks, `lock` set from the first cycle's T1 to the second's T4; the
type byte. -/
def Sys.intAck (cs : Word) (n : Nat) (y : Sys) : Byte × Sys :=
  let x := y.euCycle cs intAckRequest
  let z := (x.2.intaGap cs n).euCycle cs intAckRequest
  let y := z.2.euEnd cs
  (z.1, { y with biu := { y.biu with lock := false } })

/-- R775, R785: the entry of an external interrupt: acknowledge, then `Interrupt(type)`. -/
def State.externalInterrupt (s : State) : State :=
  let x := s.sys.intAck s.sregs.cs (s.euCost .intaGap)
  State.interrupt { s with sys := x.2 } x.1 s.ip

/-! ## Return from an interrupt (R433, R795) -/

/-- R433: IRET: IP, CS and FLAGS popped in that order. -/
def State.returnFromInterrupt (s : State) : State :=
  let x := s.pop16
  let y := x.2.pop16
  let z := y.2.pop16
  State.jumpFar { z.2 with flags := Flags.ofImage z.1 } y.1 x.1

end Sys2Proof.Machine
end

