-- ==== Sys2Proof/Machine/Flags.lean ====
section
/-! DEFINITION. Every result and flag computation of the instructions (spec/00_scope.md section 6,
41_arithmetic.md R260 to R282, 42_logic_shift.md R320 to R340, 44_control_transfer.md R406), on an N-bit
value for N = 8 or 16. A function takes the flags before and answers the result with the flags after; a flag
the spec leaves open is an argument, which the meaning supplies from the free source. -/

namespace Sys2Proof.Machine

variable {n : Nat}

/-! ## Add and subtract -/

/-- `SetSZP_N(r)`. -/
def Flags.setSZP (f : Flags) (r : BitVec n) : Flags :=
  { f with sf := r.msb, zf := decide (r = 0#n), pf := parity8 (r.setWidth 8) }

/-- R260: `Add_N(a, b, c)`. -/
def addN (f : Flags) (a b : BitVec n) (c : Bool) : BitVec n × Flags :=
  let r := a + b + BitVec.ofNat n c.toNat
  (r, { f.setSZP r with
          cf := decide (2 ^ n ≤ a.toNat + b.toNat + c.toNat),
          af := decide (15 < a.toNat % 16 + b.toNat % 16 + c.toNat),
          of := (a.msb == b.msb) && (r.msb != a.msb) })

/-- R261: `Sub_N(a, b, c)`. -/
def subN (f : Flags) (a b : BitVec n) (c : Bool) : BitVec n × Flags :=
  let r := a - b - BitVec.ofNat n c.toNat
  (r, { f.setSZP r with
          cf := decide (a.toNat < b.toNat + c.toNat),
          af := decide (a.toNat % 16 < b.toNat % 16 + c.toNat),
          of := (a.msb != b.msb) && (r.msb != a.msb) })

/-- R320: `Logic_N(r)`; AF is free. -/
def logicN (f : Flags) (r : BitVec n) (freeAf : Bool) : Flags :=
  { f.setSZP r with cf := false, of := false, af := freeAf }

/-! ## The two-operand operations (R262) -/

/-- The eight operations, in the order of the group-1 reg numbers (R171). -/
inductive AluOp where
  | add | or | adc | sbb | and | sub | xor | cmp
  deriving DecidableEq, Repr

/-- R263 to R267, R321 to R323: result and flags of one operation. -/
def AluOp.apply (op : AluOp) (f : Flags) (a b : BitVec n) (freeAf : Bool) : BitVec n × Flags :=
  match op with
  | .add => addN f a b false
  | .or => (a ||| b, logicN f (a ||| b) freeAf)
  | .adc => addN f a b f.cf
  | .sbb => subN f a b f.cf
  | .and => (a &&& b, logicN f (a &&& b) freeAf)
  | .sub => subN f a b false
  | .xor => (a ^^^ b, logicN f (a ^^^ b) freeAf)
  | .cmp => subN f a b false

/-- Whether an operation leaves AF free (R320). -/
def AluOp.drawsAf : AluOp → Bool
  | .or => true | .and => true | .xor => true
  | .add => false | .adc => false | .sbb => false | .sub => false | .cmp => false

/-- Whether an operation writes its destination: all but CMP (R262, R267). -/
def AluOp.writes : AluOp → Bool
  | .cmp => false
  | .add => true | .or => true | .adc => true | .sbb => true | .and => true | .sub => true | .xor => true

/-- R268, R269: INC keeps CF. -/
def incN (f : Flags) (a : BitVec n) : BitVec n × Flags :=
  let x := addN f a (BitVec.ofNat n 1) false
  (x.1, { x.2 with cf := f.cf })

/-- R270, R271: DEC keeps CF. -/
def decN (f : Flags) (a : BitVec n) : BitVec n × Flags :=
  let x := subN f a (BitVec.ofNat n 1) false
  (x.1, { x.2 with cf := f.cf })

/-- R272: NEG. -/
def negN (f : Flags) (a : BitVec n) : BitVec n × Flags := subN f 0#n a false

/-! ## Shifts and rotates (R331 to R337) -/

/-- The shifts and rotates of group 2 (R172), SETMO apart. -/
inductive ShiftOp where
  | rol | ror | rcl | rcr | shl | shr | sar
  deriving DecidableEq, Repr

/-- A vector moved left by one with `c` shifted in. -/
def shiftIn (x : BitVec n) (c : Bool) : BitVec n := (x <<< 1) ||| (BitVec.ofBool c).setWidth n

/-- A vector moved right by one with `c` shifted in at the top. -/
def shiftInTop (x : BitVec n) (c : Bool) : BitVec n :=
  (x >>> 1) ||| (if c then BitVec.twoPow n (n - 1) else 0#n)

/-- The second bit from the top. -/
def nextMsb (x : BitVec n) : Bool := x.getLsbD (n - 2)

/-- One step of R331 to R337, AF apart. -/
def ShiftOp.step (op : ShiftOp) (x : BitVec n × Flags) : BitVec n × Flags :=
  let v := x.1
  let f := x.2
  match op with
  | .rol =>
    let r := shiftIn v v.msb
    (r, { f with cf := v.msb, of := r.msb ^^ v.msb })
  | .ror =>
    let r := shiftInTop v (v.getLsbD 0)
    (r, { f with cf := v.getLsbD 0, of := r.msb ^^ nextMsb r })
  | .rcl =>
    let r := shiftIn v f.cf
    (r, { f with cf := v.msb, of := r.msb ^^ v.msb })
  | .rcr =>
    let r := shiftInTop v f.cf
    (r, { f with cf := v.getLsbD 0, of := r.msb ^^ nextMsb r })
  | .shl =>
    let r := shiftIn v false
    (r, { f.setSZP r with cf := v.msb, of := r.msb ^^ v.msb })
  | .shr =>
    let r := shiftInTop v false
    (r, { f.setSZP r with cf := v.getLsbD 0, of := v.msb })
  | .sar =>
    let r := shiftInTop v v.msb
    (r, { f.setSZP r with cf := v.getLsbD 0, of := false })

/-- R340: the step repeated; OF is the last step's (log 20). -/
def ShiftOp.repeated (op : ShiftOp) : Nat → BitVec n × Flags → BitVec n × Flags
  | 0, x => x
  | k + 1, x => ShiftOp.repeated op k (op.step x)

/-- Whether a shift leaves AF free; the rotates leave it unchanged (R331 to R337). -/
def ShiftOp.drawsAf : ShiftOp → Bool
  | .shl => true | .shr => true | .sar => true
  | .rol => false | .ror => false | .rcl => false | .rcr => false

/-- R330, R340: a shift by `count`: nothing changes when it is 0; else AF is free after a shift. -/
def ShiftOp.apply (op : ShiftOp) (f : Flags) (x : BitVec n) (count : Nat) (freeAf : Bool) : BitVec n × Flags :=
  let y := op.repeated count (x, f)
  if op.drawsAf && decide (count ≠ 0) then (y.1, { y.2 with af := freeAf }) else y

/-- R338: the flags SETMO sets. -/
def Flags.setmo (f : Flags) : Flags :=
  { f with cf := false, of := false, af := false, zf := false, sf := true, pf := true }

/-! ## Free flags -/

/-- Six free status flags, bits 0 to 5 of one free value: after DIV and IDIV (R275, R276, R771). -/
def Flags.freeStatus (f : Flags) (v : Word) : Flags :=
  { f with cf := bit v 0, pf := bit v 1, af := bit v 2, zf := bit v 3, sf := bit v 4, of := bit v 5 }

/-- R273, R274: after MUL and IMUL CF and OF tell whether the upper half matters; four flags are free. -/
def Flags.afterMul (f : Flags) (upper : Bool) (v : Word) : Flags :=
  { f with cf := upper, of := upper, pf := bit v 1, af := bit v 2, zf := bit v 3, sf := bit v 4 }

/-- R281, R282: AAM and AAD set SF, ZF and PF from AL; CF, OF and AF are free. -/
def Flags.afterAsciiMulDiv (f : Flags) (al : Byte) (v : Word) : Flags :=
  { f.setSZP al with cf := bit v 0, af := bit v 2, of := bit v 5 }

/-! ## Decimal adjust (R277 to R280) -/

/-- The low digit needs adjusting. -/
def lowDigitAdjust (f : Flags) (al : Byte) : Bool := decide (9 < al.toNat % 16) || f.af

/-- The high digit needs adjusting. -/
def highDigitAdjust (f : Flags) (al : Byte) : Bool := decide (0x99 < al.toNat) || f.cf

/-- Some pair of packed-BCD bytes, with or without a carry in, adds to this AL, AF and CF (R277). A digit
sum is 0 to 19: with AF the low digit kept is at most 3; with CF the high digit kept is at most 3, or 2 when
no carry came from below; without CF the high digit holds at least the carry from below. -/
def bcdSumPossible (f : Flags) (al : Byte) : Bool :=
  let lo := al.toNat % 16
  let hi := al.toNat / 16
  (!f.af || decide (lo ≤ 3)) &&
    (if f.cf then decide (hi ≤ (if f.af then 3 else 2)) else !f.af || decide (1 ≤ hi))

/-- Some pair of packed-BCD bytes, with or without a borrow in, subtracts to this AL, AF and CF (R278). A
digit difference is -10 to 9: with a borrow the digit kept is 6 to 15, without one 0 to 9. A borrow from the
low digit lowers the high difference's range by one. -/
def bcdDifferencePossible (f : Flags) (al : Byte) : Bool :=
  let lo := al.toNat % 16
  let hi := al.toNat / 16
  (if f.af then decide (6 ≤ lo) else decide (lo ≤ 9)) &&
    (if f.cf then decide ((if f.af then 6 else 7) ≤ hi) else decide (hi ≤ (if f.af then 8 else 9)))

/-- R277, R278: the adjusted AL and the flags, `sign` adding or subtracting; OF is free. -/
def decimalAdjust (subtract : Bool) (f : Flags) (al : Byte) (freeOf : Bool) : Byte × Flags :=
  let lo := lowDigitAdjust f al
  let hi := highDigitAdjust f al
  let d : Byte := (if lo then 0x06#8 else 0#8) + (if hi then 0x60#8 else 0#8)
  let r := if subtract then al - d else al + d
  (r, { f.setSZP r with af := lo, cf := hi, of := freeOf })

/-- DAA or DAS on inputs no packed-BCD operation produces: AL and CF are free (R277, R278; 93 section 2.1;
log 16). SF, ZF and PF follow the free AL. -/
def decimalAdjustOpen (f : Flags) (al : Byte) (v w : Word) : Byte × Flags :=
  let r := loByte w
  (r, { f.setSZP r with af := lowDigitAdjust f al, cf := bit v 0, of := bit v 5 })

/-- R279, R280: AAA and AAS: AX and the flags; OF, SF, ZF, PF are free. -/
def asciiAdjust (subtract : Bool) (f : Flags) (ax : Word) (v : Word) : Word × Flags :=
  let al := loByte ax
  let ah := hiByte ax
  let adj := lowDigitAdjust f al
  let al' := if adj then (if subtract then al - 6#8 else al + 6#8) else al
  let ah' := if adj then (if subtract then ah - 1#8 else ah + 1#8) else ah
  (word ah' (al' &&& 0x0F#8),
    { f with af := adj, cf := adj, pf := bit v 1, zf := bit v 3, sf := bit v 4, of := bit v 5 })

/-! ## Conditions (R406) -/

/-- The sixteen conditions, in the order of their numbers (R406). -/
inductive Cond where
  | o | no | b | nb | z | nz | be | a | s | ns | p | np | l | ge | le | g
  deriving DecidableEq, Repr

/-- R406: `cond(cc)`. -/
def Cond.holds (c : Cond) (f : Flags) : Bool :=
  match c with
  | .o => f.of
  | .no => !f.of
  | .b => f.cf
  | .nb => !f.cf
  | .z => f.zf
  | .nz => !f.zf
  | .be => f.cf || f.zf
  | .a => !f.cf && !f.zf
  | .s => f.sf
  | .ns => !f.sf
  | .p => f.pf
  | .np => !f.pf
  | .l => f.sf != f.of
  | .ge => f.sf == f.of
  | .le => f.zf || (f.sf != f.of)
  | .g => !f.zf && (f.sf == f.of)

end Sys2Proof.Machine
end

