-- ==== Sys2Proof/WellFormed.lean ====
section
/-! DEFINITION. Which instruction terms stand for bytes: the checks an encoding makes (30_encoding.md
R155, R176, R180). -/

namespace Sys2Proof

/-- A memory operand has an encoding unless it is mod 00 with base BP, whose code is the direct address
(R155). -/
def MemOp.wf : MemOp → Bool
  | .ind .bp => false
  | _ => true

/-- An r/m operand has an encoding when its memory operand has one. -/
def RM.wf {R : Type} : RM R → Bool
  | .reg _ => true
  | .mem m => m.wf

/-- The well-formed instructions: those some bytes decode to. The rows of LEA, LES, LDS and of the far
CALL and JMP through memory are split by the mod field (R180), so their operand has that mod. -/
def Instr.wf : Instr → Bool
  | .addEbGb rm _ => rm.wf
  | .addEwGw rm _ => rm.wf
  | .addGbEb _ rm => rm.wf
  | .addGwEw _ rm => rm.wf
  | .addAlIb _ => true
  | .addAxIw _ => true
  | .orEbGb rm _ => rm.wf
  | .orEwGw rm _ => rm.wf
  | .orGbEb _ rm => rm.wf
  | .orGwEw _ rm => rm.wf
  | .orAlIb _ => true
  | .orAxIw _ => true
  | .adcEbGb rm _ => rm.wf
  | .adcEwGw rm _ => rm.wf
  | .adcGbEb _ rm => rm.wf
  | .adcGwEw _ rm => rm.wf
  | .adcAlIb _ => true
  | .adcAxIw _ => true
  | .sbbEbGb rm _ => rm.wf
  | .sbbEwGw rm _ => rm.wf
  | .sbbGbEb _ rm => rm.wf
  | .sbbGwEw _ rm => rm.wf
  | .sbbAlIb _ => true
  | .sbbAxIw _ => true
  | .andEbGb rm _ => rm.wf
  | .andEwGw rm _ => rm.wf
  | .andGbEb _ rm => rm.wf
  | .andGwEw _ rm => rm.wf
  | .andAlIb _ => true
  | .andAxIw _ => true
  | .subEbGb rm _ => rm.wf
  | .subEwGw rm _ => rm.wf
  | .subGbEb _ rm => rm.wf
  | .subGwEw _ rm => rm.wf
  | .subAlIb _ => true
  | .subAxIw _ => true
  | .xorEbGb rm _ => rm.wf
  | .xorEwGw rm _ => rm.wf
  | .xorGbEb _ rm => rm.wf
  | .xorGwEw _ rm => rm.wf
  | .xorAlIb _ => true
  | .xorAxIw _ => true
  | .cmpEbGb rm _ => rm.wf
  | .cmpEwGw rm _ => rm.wf
  | .cmpGbEb _ rm => rm.wf
  | .cmpGwEw _ rm => rm.wf
  | .cmpAlIb _ => true
  | .cmpAxIw _ => true
  | .incReg16 _ => true
  | .decReg16 _ => true
  | .pushReg16 _ => true
  | .popReg16 _ => true
  | .joAlias _ => true
  | .jnoAlias _ => true
  | .jbAlias _ => true
  | .jnbAlias _ => true
  | .jzAlias _ => true
  | .jnzAlias _ => true
  | .jbeAlias _ => true
  | .jaAlias _ => true
  | .jsAlias _ => true
  | .jnsAlias _ => true
  | .jpAlias _ => true
  | .jnpAlias _ => true
  | .jlAlias _ => true
  | .jgeAlias _ => true
  | .jleAlias _ => true
  | .jgAlias _ => true
  | .jo _ => true
  | .jno _ => true
  | .jb _ => true
  | .jnb _ => true
  | .jz _ => true
  | .jnz _ => true
  | .jbe _ => true
  | .ja _ => true
  | .js _ => true
  | .jns _ => true
  | .jp _ => true
  | .jnp _ => true
  | .jl _ => true
  | .jge _ => true
  | .jle _ => true
  | .jg _ => true
  | .addEbIb rm _ => rm.wf
  | .orEbIb rm _ => rm.wf
  | .adcEbIb rm _ => rm.wf
  | .sbbEbIb rm _ => rm.wf
  | .andEbIb rm _ => rm.wf
  | .subEbIb rm _ => rm.wf
  | .xorEbIb rm _ => rm.wf
  | .cmpEbIb rm _ => rm.wf
  | .addEwIw rm _ => rm.wf
  | .orEwIw rm _ => rm.wf
  | .adcEwIw rm _ => rm.wf
  | .sbbEwIw rm _ => rm.wf
  | .andEwIw rm _ => rm.wf
  | .subEwIw rm _ => rm.wf
  | .xorEwIw rm _ => rm.wf
  | .cmpEwIw rm _ => rm.wf
  | .addEbIb82 rm _ => rm.wf
  | .orEbIb82 rm _ => rm.wf
  | .adcEbIb82 rm _ => rm.wf
  | .sbbEbIb82 rm _ => rm.wf
  | .andEbIb82 rm _ => rm.wf
  | .subEbIb82 rm _ => rm.wf
  | .xorEbIb82 rm _ => rm.wf
  | .cmpEbIb82 rm _ => rm.wf
  | .addEwIs rm _ => rm.wf
  | .orEwIs rm _ => rm.wf
  | .adcEwIs rm _ => rm.wf
  | .sbbEwIs rm _ => rm.wf
  | .andEwIs rm _ => rm.wf
  | .subEwIs rm _ => rm.wf
  | .xorEwIs rm _ => rm.wf
  | .cmpEwIs rm _ => rm.wf
  | .testEbGb rm _ => rm.wf
  | .testEwGw rm _ => rm.wf
  | .xchgGbEb _ rm => rm.wf
  | .xchgGwEw _ rm => rm.wf
  | .movEbGb rm _ => rm.wf
  | .movEwGw rm _ => rm.wf
  | .movGbEb _ rm => rm.wf
  | .movGwEw _ rm => rm.wf
  | .movEwSw rm _ _ => rm.wf
  | .leaM0 _ m => m.wf && m.mode == 0#2
  | .leaM1 _ m => m.wf && m.mode == 1#2
  | .leaM2 _ m => m.wf && m.mode == 2#2
  | .leaReg _ _ => true
  | .movSwEw _ _ rm => rm.wf
  | .popEw rm _ => rm.wf
  | .callFar _ _ => true
  | .movAlOb _ => true
  | .movAxOw _ => true
  | .movObAl _ => true
  | .movOwAx _ => true
  | .testAlIb _ => true
  | .testAxIw _ => true
  | .movReg8Ib _ _ => true
  | .movReg16Iw _ _ => true
  | .retIwAlias _ => true
  | .retIw _ => true
  | .lesM0 _ m => m.wf && m.mode == 0#2
  | .lesM1 _ m => m.wf && m.mode == 1#2
  | .lesM2 _ m => m.wf && m.mode == 2#2
  | .lesReg _ _ => true
  | .ldsM0 _ m => m.wf && m.mode == 0#2
  | .ldsM1 _ m => m.wf && m.mode == 1#2
  | .ldsM2 _ m => m.wf && m.mode == 2#2
  | .ldsReg _ _ => true
  | .movEbIb rm _ _ => rm.wf
  | .movEwIw rm _ _ => rm.wf
  | .retfIwAlias _ => true
  | .retfIw _ => true
  | .intIb _ => true
  | .rolEb1 rm => rm.wf
  | .rorEb1 rm => rm.wf
  | .rclEb1 rm => rm.wf
  | .rcrEb1 rm => rm.wf
  | .shlEb1 rm => rm.wf
  | .shrEb1 rm => rm.wf
  | .setmoEb1 rm => rm.wf
  | .sarEb1 rm => rm.wf
  | .rolEw1 rm => rm.wf
  | .rorEw1 rm => rm.wf
  | .rclEw1 rm => rm.wf
  | .rcrEw1 rm => rm.wf
  | .shlEw1 rm => rm.wf
  | .shrEw1 rm => rm.wf
  | .setmoEw1 rm => rm.wf
  | .sarEw1 rm => rm.wf
  | .rolEbCl rm => rm.wf
  | .rorEbCl rm => rm.wf
  | .rclEbCl rm => rm.wf
  | .rcrEbCl rm => rm.wf
  | .shlEbCl rm => rm.wf
  | .shrEbCl rm => rm.wf
  | .setmocEbCl rm => rm.wf
  | .sarEbCl rm => rm.wf
  | .rolEwCl rm => rm.wf
  | .rorEwCl rm => rm.wf
  | .rclEwCl rm => rm.wf
  | .rcrEwCl rm => rm.wf
  | .shlEwCl rm => rm.wf
  | .shrEwCl rm => rm.wf
  | .setmocEwCl rm => rm.wf
  | .sarEwCl rm => rm.wf
  | .aam _ => true
  | .aad _ => true
  | .esc _ _ rm => rm.wf
  | .loopnz _ => true
  | .loopz _ => true
  | .loop _ => true
  | .jcxz _ => true
  | .inAlIb _ => true
  | .inAxIb _ => true
  | .outIbAl _ => true
  | .outIbAx _ => true
  | .callRel16 _ => true
  | .jmpRel16 _ => true
  | .jmpFar _ _ => true
  | .jmpRel8 _ => true
  | .testEbIb rm _ => rm.wf
  | .testEbIbAlias rm _ => rm.wf
  | .notEb rm => rm.wf
  | .negEb rm => rm.wf
  | .mulEb rm => rm.wf
  | .imulEb rm => rm.wf
  | .divEb rm => rm.wf
  | .idivEb rm => rm.wf
  | .testEwIw rm _ => rm.wf
  | .testEwIwAlias rm _ => rm.wf
  | .notEw rm => rm.wf
  | .negEw rm => rm.wf
  | .mulEw rm => rm.wf
  | .imulEw rm => rm.wf
  | .divEw rm => rm.wf
  | .idivEw rm => rm.wf
  | .incEb rm => rm.wf
  | .decEb rm => rm.wf
  | .grp4op2 rm => rm.wf
  | .grp4op3 rm => rm.wf
  | .grp4op4 rm => rm.wf
  | .grp4op5 rm => rm.wf
  | .grp4op6 rm => rm.wf
  | .grp4op7 rm => rm.wf
  | .incEw rm => rm.wf
  | .decEw rm => rm.wf
  | .callEw rm => rm.wf
  | .jmpEw rm => rm.wf
  | .pushEw rm => rm.wf
  | .pushEwAlias rm => rm.wf
  | .callMpM0 m => m.wf && m.mode == 0#2
  | .callMpM1 m => m.wf && m.mode == 1#2
  | .callMpM2 m => m.wf && m.mode == 2#2
  | .callReg _ => true
  | .jmpMpM0 m => m.wf && m.mode == 0#2
  | .jmpMpM1 m => m.wf && m.mode == 1#2
  | .jmpMpM2 m => m.wf && m.mode == 2#2
  | .jmpReg _ => true
  | .pushEs => true
  | .pushCs => true
  | .pushSs => true
  | .pushDs => true
  | .popEs => true
  | .popCs => true
  | .popSs => true
  | .popDs => true
  | .segEs => true
  | .segCs => true
  | .segSs => true
  | .segDs => true
  | .daa => true
  | .das => true
  | .aaa => true
  | .aas => true
  | .nop => true
  | .xchgAxCx => true
  | .xchgAxDx => true
  | .xchgAxBx => true
  | .xchgAxSp => true
  | .xchgAxBp => true
  | .xchgAxSi => true
  | .xchgAxDi => true
  | .cbw => true
  | .cwd => true
  | .wait => true
  | .pushf => true
  | .popf => true
  | .sahf => true
  | .lahf => true
  | .movsb => true
  | .movsw => true
  | .cmpsb => true
  | .cmpsw => true
  | .stosb => true
  | .stosw => true
  | .lodsb => true
  | .lodsw => true
  | .scasb => true
  | .scasw => true
  | .retAlias => true
  | .ret => true
  | .retfAlias => true
  | .retf => true
  | .int3 => true
  | .into => true
  | .iret => true
  | .salc => true
  | .xlat => true
  | .inAlDx => true
  | .inAxDx => true
  | .outDxAl => true
  | .outDxAx => true
  | .lock => true
  | .lockAlias => true
  | .repne => true
  | .rep => true
  | .hlt => true
  | .cmc => true
  | .clc => true
  | .stc => true
  | .cli => true
  | .sti => true
  | .cld => true
  | .std => true

end Sys2Proof
end

