-- ==== Sys2Proof/Machine/Operands.lean ====
section
/-! DEFINITION. Operands (spec/30_encoding.md R155 to R164): effective address, segment selection, the r/m
operand read and written. -/

namespace Sys2Proof.Machine

/-- The base of an effective address (R156). -/
def State.eaBase (s : State) : EaBase → Word
  | .bxSi => s.regs.bx + s.regs.si
  | .bxDi => s.regs.bx + s.regs.di
  | .bpSi => s.regs.bp + s.regs.si
  | .bpDi => s.regs.bp + s.regs.di
  | .si => s.regs.si
  | .di => s.regs.di
  | .bp => s.regs.bp
  | .bx => s.regs.bx

/-- R156: the effective address, modulo 2^16. -/
def State.effAddr (s : State) : MemOp → Word
  | .direct off => off
  | .ind b => s.eaBase b
  | .ind8 b d => s.eaBase b + sext16 d
  | .ind16 b d => s.eaBase b + d

/-- R156: the default segment of a base. -/
def baseDefaultSeg : EaBase → SReg
  | .bpSi => .ss | .bpDi => .ss | .bp => .ss
  | .bxSi => .ds | .bxDi => .ds | .si => .ds | .di => .ds | .bx => .ds

/-- R156: the default segment of a memory operand. -/
def defaultSegOf : MemOp → SReg
  | .direct _ => .ds
  | .ind b => baseDefaultSeg b
  | .ind8 b _ => baseDefaultSeg b
  | .ind16 b _ => baseDefaultSeg b

/-- R157: `SegFor(default)`: the override of the prefix record, else the default. -/
def State.segFor (s : State) (default : SReg) : SReg := s.eu.pfx.seg.getD default

/-- The segment register of a memory operand (R156, R157). -/
def State.segOf (s : State) (m : MemOp) : SReg := s.segFor (defaultSegOf m)

/-! ## The r/m operand (R163, R164)

A memory operand is handled as a place, its segment register and effective address, so that a read followed
by a write uses the same address even if a register changed in between (R163). -/

/-- Where an r/m operand is: a register, or a segment register and an offset. -/
inductive Place (R : Type) where
  | reg (r : R)
  | mem (seg : SReg) (off : Word)
  deriving DecidableEq, Repr

/-- R163: the place of an r/m operand, computed once. -/
def State.place {R : Type} (s : State) : RM R → Place R
  | .reg r => .reg r
  | .mem m => .mem (s.segOf m) (s.effAddr m)

/-- `ReadRM(0)` (R163). -/
def State.readPlace8 (s : State) : Place Reg8 → Byte × State
  | .reg r => (s.reg8 r, s)
  | .mem seg off => s.read8 (some seg) off

/-- `ReadRM(1)` (R163). -/
def State.readPlace16 (s : State) : Place Reg16 → Word × State
  | .reg r => (s.reg16 r, s)
  | .mem seg off => s.read16 (some seg) off

/-- `WriteRM(0, v)` (R164). -/
def State.writePlace8 (s : State) (p : Place Reg8) (v : Byte) : State :=
  match p with
  | .reg r => s.setReg8 r v
  | .mem seg off => s.write8 (some seg) off v

/-- `WriteRM(1, v)` (R164). -/
def State.writePlace16 (s : State) (p : Place Reg16) (v : Word) : State :=
  match p with
  | .reg r => s.setReg16 r v
  | .mem seg off => s.write16 (some seg) off v

/-- `ReadRM(0)` of an operand. -/
def State.readRM8 (s : State) (rm : RM8) : Byte × State := s.readPlace8 (s.place rm)

/-- `ReadRM(1)` of an operand. -/
def State.readRM16 (s : State) (rm : RM16) : Word × State := s.readPlace16 (s.place rm)

/-- `WriteRM(0, v)` of an operand nothing has read. -/
def State.writeRM8 (s : State) (rm : RM8) (v : Byte) : State := s.writePlace8 (s.place rm) v

/-- `WriteRM(1, v)` of an operand nothing has read. -/
def State.writeRM16 (s : State) (rm : RM16) (v : Word) : State := s.writePlace16 (s.place rm) v

/-- A far pointer in memory: the offset word, then the segment word two above it (R228, R405). -/
def State.readFar (s : State) (m : MemOp) : Word × Word × State :=
  let seg := some (s.segOf m)
  let off := s.effAddr m
  let x := s.read16 seg off
  let y := x.2.read16 seg (off + 2#16)
  (x.1, y.1, y.2)

end Sys2Proof.Machine
end

