-- ==== Sys2Proof/Machine/AluForms.lean ====
section
/-! DEFINITION. The operand forms of the two-operand ALU instructions (spec/41_arithmetic.md R262), of TEST
(42_logic_shift.md R324 to R326) and of the one-operand read-modify-write instructions, each over one
operation. Both operands are read before anything is written; CMP and TEST write no destination. -/

namespace Sys2Proof.Machine

/-- An 8-bit operation's result and flags, its free AF taken when it has one (R262, R320). -/
def State.alu8 (s : State) (op : AluOp) (a b : Byte) : Byte × State :=
  let s := s.aluStep (zext16 a) (zext16 b)
  let x := op.apply s.flags a b (bit s.free 2)
  let s := if op.drawsAf then s.drawn else s
  (x.1, { s with flags := x.2 })

/-- A 16-bit operation's result and flags. -/
def State.alu16 (s : State) (op : AluOp) (a b : Word) : Word × State :=
  let s := s.aluStep a b
  let x := op.apply s.flags a b (bit s.free 2)
  let s := if op.drawsAf then s.drawn else s
  (x.1, { s with flags := x.2 })

/-- The operation on two 8-bit operands, the result to the place of the first unless it is CMP. -/
def State.aluTo8 (s : State) (op : AluOp) (p : Place Reg8) (a b : Byte) : State :=
  let x := s.alu8 op a b
  if op.writes then x.2.writePlace8 p x.1 else x.2

/-- The operation on two 16-bit operands. -/
def State.aluTo16 (s : State) (op : AluOp) (p : Place Reg16) (a b : Word) : State :=
  let x := s.alu16 op a b
  if op.writes then x.2.writePlace16 p x.1 else x.2

/-- R262: `op Eb, Gb`. -/
def aluEbGb (op : AluOp) (rm : RM8) (r : Reg8) (s : State) : State :=
  let p := s.place rm
  let x := s.readPlace8 p
  x.2.aluTo8 op p x.1 (x.2.reg8 r)

/-- R262: `op Ew, Gw`. -/
def aluEwGw (op : AluOp) (rm : RM16) (r : Reg16) (s : State) : State :=
  let p := s.place rm
  let x := s.readPlace16 p
  x.2.aluTo16 op p x.1 (x.2.reg16 r)

/-- R262: `op Gb, Eb`. -/
def aluGbEb (op : AluOp) (r : Reg8) (rm : RM8) (s : State) : State :=
  let x := s.readRM8 rm
  x.2.aluTo8 op (.reg r) (x.2.reg8 r) x.1

/-- R262: `op Gw, Ew`. -/
def aluGwEw (op : AluOp) (r : Reg16) (rm : RM16) (s : State) : State :=
  let x := s.readRM16 rm
  x.2.aluTo16 op (.reg r) (x.2.reg16 r) x.1

/-- R262: `op AL, Ib`. -/
def aluAlIb (op : AluOp) (imm : Byte) (s : State) : State := s.aluTo8 op (.reg .al) (s.reg8 .al) imm

/-- R262: `op AX, Iw`. -/
def aluAxIw (op : AluOp) (imm : Word) (s : State) : State := s.aluTo16 op (.reg .ax) s.regs.ax imm

/-- R262: `op Eb, Ib`. -/
def aluEbIb (op : AluOp) (rm : RM8) (imm : Byte) (s : State) : State :=
  let p := s.place rm
  let x := s.readPlace8 p
  x.2.aluTo8 op p x.1 imm

/-- R262: `op Ew, Iw`, and `op Ew, Is` with the immediate extended (R161). -/
def aluEwIw (op : AluOp) (rm : RM16) (imm : Word) (s : State) : State :=
  let p := s.place rm
  let x := s.readPlace16 p
  x.2.aluTo16 op p x.1 imm

/-- R324 to R326: TEST on 8-bit operands: AND's flags, nothing written. -/
def State.test8 (s : State) (a b : Byte) : State := (s.alu8 .and a b).2

/-- R324 to R326: TEST on 16-bit operands. -/
def State.test16 (s : State) (a b : Word) : State := (s.alu16 .and a b).2

/-- A read-modify-write of an 8-bit operand: read, compute result and flags in one ALU step, write. -/
def modifyEb (f : Flags → Byte → Byte × Flags) (rm : RM8) (s : State) : State :=
  let p := s.place rm
  let x := s.readPlace8 p
  let s := x.2.aluStep (zext16 x.1) 0#16
  let y := f s.flags x.1
  State.writePlace8 { s with flags := y.2 } p y.1

/-- A read-modify-write of a 16-bit operand. -/
def modifyEw (f : Flags → Word → Word × Flags) (rm : RM16) (s : State) : State :=
  let p := s.place rm
  let x := s.readPlace16 p
  let s := x.2.aluStep x.1 0#16
  let y := f s.flags x.1
  State.writePlace16 { s with flags := y.2 } p y.1

end Sys2Proof.Machine
end

