-- ==== Sys2Proof/Machine/Arithmetic.lean ====
section
/-! DEFINITION. The meanings of the arithmetic instructions (spec/41_arithmetic.md R263 to R286). -/

namespace Sys2Proof.Machine

/-! ## Multiply and divide (R273 to R276, R286) -/

/-- R286: with a repeat prefix the spec gives these instructions no meaning. -/
def unlessRepeated (s : State) (k : State → State) : Out :=
  match s.eu.pfx.rep with
  | .none => .next (k s)
  | .repne => .refused .repeatedMulDiv
  | .rep => .refused .repeatedMulDiv

/-- R273, w = 0: AX <- AL * operand. -/
def mulBy8 (d : Byte) (s : State) : State :=
  let s := s.aluStep s.regs.ax (zext16 d)
  let p : Word := zext16 (s.reg8 .al) * zext16 d
  State.drawn { s.setReg16 .ax p with flags := s.flags.afterMul (decide (hiByte p ≠ 0#8)) s.free }

/-- R273, w = 1: DX ++ AX <- AX * operand. -/
def mulBy16 (d : Word) (s : State) : State :=
  let s := s.aluStep s.regs.ax d
  let p : BitVec 32 := s.regs.ax.setWidth 32 * d.setWidth 32
  let hi : Word := p.extractLsb' 16 16
  State.drawn { (s.setReg16 .dx hi).setReg16 .ax (p.extractLsb' 0 16) with
    flags := s.flags.afterMul (decide (hi ≠ 0#16)) s.free }

/-- R274, w = 0: signed. -/
def imulBy8 (d : Byte) (s : State) : State :=
  let s := s.aluStep s.regs.ax (zext16 d)
  let p : Word := sext16 (s.reg8 .al) * sext16 d
  State.drawn { s.setReg16 .ax p with flags := s.flags.afterMul (decide (p ≠ sext16 (loByte p))) s.free }

/-- R274, w = 1: signed. -/
def imulBy16 (d : Word) (s : State) : State :=
  let s := s.aluStep s.regs.ax d
  let p : BitVec 32 := s.regs.ax.signExtend 32 * d.signExtend 32
  let lo : Word := p.extractLsb' 0 16
  State.drawn { (s.setReg16 .dx (p.extractLsb' 16 16)).setReg16 .ax lo with
    flags := s.flags.afterMul (decide (p ≠ lo.signExtend 32)) s.free }

/-- The six status flags free, as after a division (R275, R276). -/
def State.freeStatus (s : State) : State := State.drawn { s with flags := s.flags.freeStatus s.free }

/-- R771: a divide error: no result is written, the status flags are free, Interrupt(0) with the IP of the
next instruction. -/
def State.divideError (s : State) : State :=
  let s := s.freeStatus
  s.interrupt 0#8 s.ip

/-- R275, w = 0. -/
def divBy8 (d : Byte) (s : State) : State :=
  let s := s.aluStep s.regs.ax (zext16 d)
  let n := s.regs.ax.toNat
  if d = 0#8 ∨ 0xFF < n / d.toNat then s.divideError
  else (s.setReg16 .ax (word (BitVec.ofNat 8 (n % d.toNat)) (BitVec.ofNat 8 (n / d.toNat)))).freeStatus

/-- R275, w = 1. -/
def divBy16 (d : Word) (s : State) : State :=
  let s := s.aluStep s.regs.ax d
  let n := s.regs.dx.toNat * 0x10000 + s.regs.ax.toNat
  if d = 0#16 ∨ 0xFFFF < n / d.toNat then s.divideError
  else
    ((s.setReg16 .ax (BitVec.ofNat 16 (n / d.toNat))).setReg16 .dx (BitVec.ofNat 16 (n % d.toNat))).freeStatus

/-- R276, w = 0: the quotient is rounded toward zero and lies in -127 to 127. -/
def idivBy8 (d : Byte) (s : State) : State :=
  let s := s.aluStep s.regs.ax (zext16 d)
  let q := s.regs.ax.toInt.tdiv d.toInt
  let r := s.regs.ax.toInt.tmod d.toInt
  if d = 0#8 ∨ 127 < q ∨ q < -127 then s.divideError
  else (s.setReg16 .ax (word (BitVec.ofInt 8 r) (BitVec.ofInt 8 q))).freeStatus

/-- R276, w = 1: the quotient lies in -32767 to 32767. -/
def idivBy16 (d : Word) (s : State) : State :=
  let s := s.aluStep s.regs.ax d
  let n := (s.regs.dx ++ s.regs.ax : BitVec 32).toInt
  let q := n.tdiv d.toInt
  let r := n.tmod d.toInt
  if d = 0#16 ∨ 32767 < q ∨ q < -32767 then s.divideError
  else ((s.setReg16 .ax (BitVec.ofInt 16 q)).setReg16 .dx (BitVec.ofInt 16 r)).freeStatus

/-- An operation on an 8-bit r/m operand that only reads it. -/
def withEb (k : Byte → State → State) (rm : RM8) (s : State) : State :=
  let x := s.readRM8 rm
  k x.1 x.2

/-- An operation on a 16-bit r/m operand that only reads it. -/
def withEw (k : Word → State → State) (rm : RM16) (s : State) : State :=
  let x := s.readRM16 rm
  k x.1 x.2

/-! ## Decimal and ASCII adjust (R277 to R282) -/

/-- R277, R278: DAA and DAS; the result is free on inputs outside packed BCD (log 16). -/
def decimalAdjustAl (subtract : Bool) (s : State) : State :=
  let al := s.reg8 .al
  let s := s.aluStep (zext16 al) 0#16
  let possible := if subtract then bcdDifferencePossible s.flags al else bcdSumPossible s.flags al
  let x :=
    if possible then decimalAdjust subtract s.flags al (bit s.free 5)
    else decimalAdjustOpen s.flags al s.free s.drawn.free
  State.drawn (State.drawn { s.setReg8 .al x.1 with flags := x.2 })

/-- R279, R280: AAA and AAS. -/
def asciiAdjustAx (subtract : Bool) (s : State) : State :=
  let s := s.aluStep s.regs.ax 0#16
  let x := asciiAdjust subtract s.flags s.regs.ax s.free
  State.drawn { s.setReg16 .ax x.1 with flags := x.2 }

/-- R281: AAM. -/
def aamBy (b : Byte) (s : State) : State :=
  let s := s.aluStep s.regs.ax (zext16 b)
  if b = 0#8 then s.divideError
  else
    let n := (s.reg8 .al).toNat
    let al := BitVec.ofNat 8 (n % b.toNat)
    State.drawn { s.setReg16 .ax (word (BitVec.ofNat 8 (n / b.toNat)) al) with
      flags := s.flags.afterAsciiMulDiv al s.free }

/-- R282: AAD. -/
def aadBy (b : Byte) (s : State) : State :=
  let s := s.aluStep s.regs.ax (zext16 b)
  let al := s.reg8 .al + s.reg8 .ah * b
  State.drawn { s.setReg16 .ax (word 0#8 al) with flags := s.flags.afterAsciiMulDiv al s.free }

/-- R268, R270: INC or DEC of a 16-bit register: one ALU step. -/
def modifyReg16 (f : Flags → Word → Word × Flags) (r : Reg16) (s : State) : State :=
  let s := s.aluStep (s.reg16 r) 1#16
  let y := f s.flags (s.reg16 r)
  State.setReg16 { s with flags := y.2 } r y.1

/-! ## ADD (R263) -/

/-- ADD Eb,Gb (0000): R263. -/
def execAddEbGb (rm : RM8) (r : Reg8) (s : State) : Out :=
  .next (aluEbGb .add rm r s)

/-- ADD Ew,Gw (0100): R263. -/
def execAddEwGw (rm : RM16) (r : Reg16) (s : State) : Out :=
  .next (aluEwGw .add rm r s)

/-- ADD Gb,Eb (0200): R263. -/
def execAddGbEb (r : Reg8) (rm : RM8) (s : State) : Out :=
  .next (aluGbEb .add r rm s)

/-- ADD Gw,Ew (0300): R263. -/
def execAddGwEw (r : Reg16) (rm : RM16) (s : State) : Out :=
  .next (aluGwEw .add r rm s)

/-- ADD AL,Ib (0400): R263. -/
def execAddAlIb (imm : Byte) (s : State) : Out :=
  .next (aluAlIb .add imm s)

/-- ADD AX,Iw (0500): R263. -/
def execAddAxIw (imm : Word) (s : State) : Out :=
  .next (aluAxIw .add imm s)

/-- ADD Eb,Ib (8000): R263. -/
def execAddEbIb (rm : RM8) (imm : Byte) (s : State) : Out :=
  .next (aluEbIb .add rm imm s)

/-- ADD Ew,Iw (8100): R263. -/
def execAddEwIw (rm : RM16) (imm : Word) (s : State) : Out :=
  .next (aluEwIw .add rm imm s)

/-- ADD Eb,Ib (8200): R263. -/
def execAddEbIb82 (rm : RM8) (imm : Byte) (s : State) : Out :=
  .next (aluEbIb .add rm imm s)

/-- ADD Ew,Is (8300): R263. -/
def execAddEwIs (rm : RM16) (imm : Byte) (s : State) : Out :=
  .next (aluEwIw .add rm (sext16 imm) s)

/-! ## ADC (R264) -/

/-- ADC Eb,Gb (1000): R264. -/
def execAdcEbGb (rm : RM8) (r : Reg8) (s : State) : Out :=
  .next (aluEbGb .adc rm r s)

/-- ADC Ew,Gw (1100): R264. -/
def execAdcEwGw (rm : RM16) (r : Reg16) (s : State) : Out :=
  .next (aluEwGw .adc rm r s)

/-- ADC Gb,Eb (1200): R264. -/
def execAdcGbEb (r : Reg8) (rm : RM8) (s : State) : Out :=
  .next (aluGbEb .adc r rm s)

/-- ADC Gw,Ew (1300): R264. -/
def execAdcGwEw (r : Reg16) (rm : RM16) (s : State) : Out :=
  .next (aluGwEw .adc r rm s)

/-- ADC AL,Ib (1400): R264. -/
def execAdcAlIb (imm : Byte) (s : State) : Out :=
  .next (aluAlIb .adc imm s)

/-- ADC AX,Iw (1500): R264. -/
def execAdcAxIw (imm : Word) (s : State) : Out :=
  .next (aluAxIw .adc imm s)

/-- ADC Eb,Ib (8010): R264. -/
def execAdcEbIb (rm : RM8) (imm : Byte) (s : State) : Out :=
  .next (aluEbIb .adc rm imm s)

/-- ADC Ew,Iw (8110): R264. -/
def execAdcEwIw (rm : RM16) (imm : Word) (s : State) : Out :=
  .next (aluEwIw .adc rm imm s)

/-- ADC Eb,Ib (8210): R264. -/
def execAdcEbIb82 (rm : RM8) (imm : Byte) (s : State) : Out :=
  .next (aluEbIb .adc rm imm s)

/-- ADC Ew,Is (8310): R264. -/
def execAdcEwIs (rm : RM16) (imm : Byte) (s : State) : Out :=
  .next (aluEwIw .adc rm (sext16 imm) s)

/-! ## SUB (R265) -/

/-- SUB Eb,Gb (2800): R265. -/
def execSubEbGb (rm : RM8) (r : Reg8) (s : State) : Out :=
  .next (aluEbGb .sub rm r s)

/-- SUB Ew,Gw (2900): R265. -/
def execSubEwGw (rm : RM16) (r : Reg16) (s : State) : Out :=
  .next (aluEwGw .sub rm r s)

/-- SUB Gb,Eb (2A00): R265. -/
def execSubGbEb (r : Reg8) (rm : RM8) (s : State) : Out :=
  .next (aluGbEb .sub r rm s)

/-- SUB Gw,Ew (2B00): R265. -/
def execSubGwEw (r : Reg16) (rm : RM16) (s : State) : Out :=
  .next (aluGwEw .sub r rm s)

/-- SUB AL,Ib (2C00): R265. -/
def execSubAlIb (imm : Byte) (s : State) : Out :=
  .next (aluAlIb .sub imm s)

/-- SUB AX,Iw (2D00): R265. -/
def execSubAxIw (imm : Word) (s : State) : Out :=
  .next (aluAxIw .sub imm s)

/-- SUB Eb,Ib (8028): R265. -/
def execSubEbIb (rm : RM8) (imm : Byte) (s : State) : Out :=
  .next (aluEbIb .sub rm imm s)

/-- SUB Ew,Iw (8128): R265. -/
def execSubEwIw (rm : RM16) (imm : Word) (s : State) : Out :=
  .next (aluEwIw .sub rm imm s)

/-- SUB Eb,Ib (8228): R265. -/
def execSubEbIb82 (rm : RM8) (imm : Byte) (s : State) : Out :=
  .next (aluEbIb .sub rm imm s)

/-- SUB Ew,Is (8328): R265. -/
def execSubEwIs (rm : RM16) (imm : Byte) (s : State) : Out :=
  .next (aluEwIw .sub rm (sext16 imm) s)

/-! ## SBB (R266) -/

/-- SBB Eb,Gb (1800): R266. -/
def execSbbEbGb (rm : RM8) (r : Reg8) (s : State) : Out :=
  .next (aluEbGb .sbb rm r s)

/-- SBB Ew,Gw (1900): R266. -/
def execSbbEwGw (rm : RM16) (r : Reg16) (s : State) : Out :=
  .next (aluEwGw .sbb rm r s)

/-- SBB Gb,Eb (1A00): R266. -/
def execSbbGbEb (r : Reg8) (rm : RM8) (s : State) : Out :=
  .next (aluGbEb .sbb r rm s)

/-- SBB Gw,Ew (1B00): R266. -/
def execSbbGwEw (r : Reg16) (rm : RM16) (s : State) : Out :=
  .next (aluGwEw .sbb r rm s)

/-- SBB AL,Ib (1C00): R266. -/
def execSbbAlIb (imm : Byte) (s : State) : Out :=
  .next (aluAlIb .sbb imm s)

/-- SBB AX,Iw (1D00): R266. -/
def execSbbAxIw (imm : Word) (s : State) : Out :=
  .next (aluAxIw .sbb imm s)

/-- SBB Eb,Ib (8018): R266. -/
def execSbbEbIb (rm : RM8) (imm : Byte) (s : State) : Out :=
  .next (aluEbIb .sbb rm imm s)

/-- SBB Ew,Iw (8118): R266. -/
def execSbbEwIw (rm : RM16) (imm : Word) (s : State) : Out :=
  .next (aluEwIw .sbb rm imm s)

/-- SBB Eb,Ib (8218): R266. -/
def execSbbEbIb82 (rm : RM8) (imm : Byte) (s : State) : Out :=
  .next (aluEbIb .sbb rm imm s)

/-- SBB Ew,Is (8318): R266. -/
def execSbbEwIs (rm : RM16) (imm : Byte) (s : State) : Out :=
  .next (aluEwIw .sbb rm (sext16 imm) s)

/-! ## CMP (R267) -/

/-- CMP Eb,Gb (3800): R267. -/
def execCmpEbGb (rm : RM8) (r : Reg8) (s : State) : Out :=
  .next (aluEbGb .cmp rm r s)

/-- CMP Ew,Gw (3900): R267. -/
def execCmpEwGw (rm : RM16) (r : Reg16) (s : State) : Out :=
  .next (aluEwGw .cmp rm r s)

/-- CMP Gb,Eb (3A00): R267. -/
def execCmpGbEb (r : Reg8) (rm : RM8) (s : State) : Out :=
  .next (aluGbEb .cmp r rm s)

/-- CMP Gw,Ew (3B00): R267. -/
def execCmpGwEw (r : Reg16) (rm : RM16) (s : State) : Out :=
  .next (aluGwEw .cmp r rm s)

/-- CMP AL,Ib (3C00): R267. -/
def execCmpAlIb (imm : Byte) (s : State) : Out :=
  .next (aluAlIb .cmp imm s)

/-- CMP AX,Iw (3D00): R267. -/
def execCmpAxIw (imm : Word) (s : State) : Out :=
  .next (aluAxIw .cmp imm s)

/-- CMP Eb,Ib (8038): R267. -/
def execCmpEbIb (rm : RM8) (imm : Byte) (s : State) : Out :=
  .next (aluEbIb .cmp rm imm s)

/-- CMP Ew,Iw (8138): R267. -/
def execCmpEwIw (rm : RM16) (imm : Word) (s : State) : Out :=
  .next (aluEwIw .cmp rm imm s)

/-- CMP Eb,Ib (8238): R267. -/
def execCmpEbIb82 (rm : RM8) (imm : Byte) (s : State) : Out :=
  .next (aluEbIb .cmp rm imm s)

/-- CMP Ew,Is (8338): R267. -/
def execCmpEwIs (rm : RM16) (imm : Byte) (s : State) : Out :=
  .next (aluEwIw .cmp rm (sext16 imm) s)

/-! ## Increment, decrement, negate (R268 to R272) -/

/-- INC reg16 (4000): R268. -/
def execIncReg16 (r : Reg16) (s : State) : Out :=
  .next (modifyReg16 incN r s)

/-- DEC reg16 (4800): R270. -/
def execDecReg16 (r : Reg16) (s : State) : Out :=
  .next (modifyReg16 decN r s)

/-- INC Eb (FE00): R269. -/
def execIncEb (rm : RM8) (s : State) : Out :=
  .next (modifyEb incN rm s)

/-- INC Ew (FF00): R269. -/
def execIncEw (rm : RM16) (s : State) : Out :=
  .next (modifyEw incN rm s)

/-- DEC Eb (FE08): R271. -/
def execDecEb (rm : RM8) (s : State) : Out :=
  .next (modifyEb decN rm s)

/-- DEC Ew (FF08): R271. -/
def execDecEw (rm : RM16) (s : State) : Out :=
  .next (modifyEw decN rm s)

/-- NEG Eb (F618): R272. -/
def execNegEb (rm : RM8) (s : State) : Out :=
  .next (modifyEb negN rm s)

/-- NEG Ew (F718): R272. -/
def execNegEw (rm : RM16) (s : State) : Out :=
  .next (modifyEw negN rm s)

/-! ## Multiply, divide -/

/-- MUL Eb (F620): R273. -/
def execMulEb (rm : RM8) (s : State) : Out :=
  unlessRepeated s (withEb mulBy8 rm)

/-- MUL Ew (F720): R273. -/
def execMulEw (rm : RM16) (s : State) : Out :=
  unlessRepeated s (withEw mulBy16 rm)

/-- IMUL Eb (F628): R274. -/
def execImulEb (rm : RM8) (s : State) : Out :=
  unlessRepeated s (withEb imulBy8 rm)

/-- IMUL Ew (F728): R274. -/
def execImulEw (rm : RM16) (s : State) : Out :=
  unlessRepeated s (withEw imulBy16 rm)

/-- DIV Eb (F630): R275. -/
def execDivEb (rm : RM8) (s : State) : Out :=
  unlessRepeated s (withEb divBy8 rm)

/-- DIV Ew (F730): R275. -/
def execDivEw (rm : RM16) (s : State) : Out :=
  unlessRepeated s (withEw divBy16 rm)

/-- IDIV Eb (F638): R276. -/
def execIdivEb (rm : RM8) (s : State) : Out :=
  unlessRepeated s (withEb idivBy8 rm)

/-- IDIV Ew (F738): R276. -/
def execIdivEw (rm : RM16) (s : State) : Out :=
  unlessRepeated s (withEw idivBy16 rm)

/-! ## Adjust -/

/-- DAA  (2700): R277. -/
def execDaa (s : State) : Out :=
  .next (decimalAdjustAl false s)

/-- DAS  (2F00): R278. -/
def execDas (s : State) : Out :=
  .next (decimalAdjustAl true s)

/-- AAA  (3700): R279. -/
def execAaa (s : State) : Out :=
  .next (asciiAdjustAx false s)

/-- AAS  (3F00): R280. -/
def execAas (s : State) : Out :=
  .next (asciiAdjustAx true s)

/-- AAM Ib (D400): R281. -/
def execAam (imm : Byte) (s : State) : Out :=
  .next (aamBy imm s)

/-- AAD Ib (D500): R282. -/
def execAad (imm : Byte) (s : State) : Out :=
  .next (aadBy imm s)

/-! ## Sign extension (R283, R284) -/

/-- CBW  (9800): R283. -/
def execCbw (s : State) : Out :=
  .next (s.internal.setReg16 .ax (sext16 (s.reg8 .al)))

/-- CWD  (9900): R284. -/
def execCwd (s : State) : Out :=
  .next (s.internal.setReg16 .dx (if s.regs.ax.msb then 0xFFFF#16 else 0x0000#16))

end Sys2Proof.Machine
end

