-- ==== Sys2Proof/Machine/ControlTransfer.lean ====
section
/-! DEFINITION. The meanings of the control transfer instructions (spec/44_control_transfer.md R400 to R436).
IP already holds the offset of the next instruction (R400). -/

namespace Sys2Proof.Machine

/-! ## Shared operations -/

/-- R406: a transfer by a sign-extended byte when a condition holds; otherwise nothing happens. -/
def jumpIf (c : Bool) (rel : Byte) (s : State) : State := if c then s.jumpBy (sext16 rel) else s

/-- R425 to R427: CX counts down, then a transfer when CX is not 0 and `c` holds. The count and the test are no ALU step
and cost no EuCost ticks (DESIGN CHOICE, log 11: R550 does not say which results are ALU steps). -/
def loopIf (c : Bool) (rel : Byte) (s : State) : State :=
  let s := s.setReg16 .cx (s.regs.cx - 1#16)
  jumpIf (decide (s.regs.cx ≠ 0#16) && c) rel s

/-- R415, R416: a near return releasing `k` bytes. -/
def returnNear (k : Word) (s : State) : State :=
  let x := s.pop16
  (x.2.addSp k).jumpTo x.1

/-- R417, R418: a far return releasing `k` bytes. -/
def returnFar (k : Word) (s : State) : State :=
  let x := s.pop16
  let y := x.2.pop16
  (y.2.addSp k).jumpFar y.1 x.1

/-- R412, R413: CS then IP pushed, and the far transfer. -/
def callFarTo (seg off : Word) (s : State) : State :=
  let s := (s.push16 s.sregs.cs)
  (s.push16 s.ip).callFar seg off

/-- R413: a far call through memory. -/
def callThrough (m : MemOp) (s : State) : State :=
  let x := s.readFar m
  callFarTo x.2.1 x.1 x.2.2

/-- R405: a far jump through memory. -/
def jumpThrough (m : MemOp) (s : State) : State :=
  let x := s.readFar m
  x.2.2.jumpFar x.2.1 x.1

/-! ## Jumps (R401 to R405, R486) -/

/-- JMP Jb (EB00): R401. -/
def execJmpRel8 (rel : Byte) (s : State) : Out :=
  .next (s.jumpBy (sext16 rel))

/-- JMP Jw (E900): R402. -/
def execJmpRel16 (rel : Word) (s : State) : Out :=
  .next (s.jumpBy rel)

/-- JMP Ap (EA00): R403. -/
def execJmpFar (off : Word) (seg : Word) (s : State) : Out :=
  .next (s.jumpFar seg off)

/-- JMP Ew (FF20): R404. -/
def execJmpEw (rm : RM16) (s : State) : Out :=
  let x := s.readRM16 rm
  .next (x.2.jumpTo x.1)

/-- JMP Mp (FF28): R405. -/
def execJmpMpM0 (m : MemOp) (s : State) : Out :=
  .next (jumpThrough m s)

/-- JMP Mp (FF68): R405. -/
def execJmpMpM1 (m : MemOp) (s : State) : Out :=
  .next (jumpThrough m s)

/-- JMP Mp (FFA8): R405. -/
def execJmpMpM2 (m : MemOp) (s : State) : Out :=
  .next (jumpThrough m s)

/-- JMP reg (mod=3) (FFE8): R486. -/
def execJmpReg (_r2 : Reg16) (_s : State) : Out :=
  .refused .farPointerInRegister

/-! ## Conditional jumps (R406) -/

/-- JO Jb (7000): R406. -/
def execJo (rel : Byte) (s : State) : Out :=
  .next (jumpIf (Cond.o.holds s.flags) rel s)

/-- JNO Jb (7100): R406. -/
def execJno (rel : Byte) (s : State) : Out :=
  .next (jumpIf (Cond.no.holds s.flags) rel s)

/-- JB Jb (7200): R406. -/
def execJb (rel : Byte) (s : State) : Out :=
  .next (jumpIf (Cond.b.holds s.flags) rel s)

/-- JNB Jb (7300): R406. -/
def execJnb (rel : Byte) (s : State) : Out :=
  .next (jumpIf (Cond.nb.holds s.flags) rel s)

/-- JZ Jb (7400): R406. -/
def execJz (rel : Byte) (s : State) : Out :=
  .next (jumpIf (Cond.z.holds s.flags) rel s)

/-- JNZ Jb (7500): R406. -/
def execJnz (rel : Byte) (s : State) : Out :=
  .next (jumpIf (Cond.nz.holds s.flags) rel s)

/-- JBE Jb (7600): R406. -/
def execJbe (rel : Byte) (s : State) : Out :=
  .next (jumpIf (Cond.be.holds s.flags) rel s)

/-- JA Jb (7700): R406. -/
def execJa (rel : Byte) (s : State) : Out :=
  .next (jumpIf (Cond.a.holds s.flags) rel s)

/-- JS Jb (7800): R406. -/
def execJs (rel : Byte) (s : State) : Out :=
  .next (jumpIf (Cond.s.holds s.flags) rel s)

/-- JNS Jb (7900): R406. -/
def execJns (rel : Byte) (s : State) : Out :=
  .next (jumpIf (Cond.ns.holds s.flags) rel s)

/-- JP Jb (7A00): R406. -/
def execJp (rel : Byte) (s : State) : Out :=
  .next (jumpIf (Cond.p.holds s.flags) rel s)

/-- JNP Jb (7B00): R406. -/
def execJnp (rel : Byte) (s : State) : Out :=
  .next (jumpIf (Cond.np.holds s.flags) rel s)

/-- JL Jb (7C00): R406. -/
def execJl (rel : Byte) (s : State) : Out :=
  .next (jumpIf (Cond.l.holds s.flags) rel s)

/-- JGE Jb (7D00): R406. -/
def execJge (rel : Byte) (s : State) : Out :=
  .next (jumpIf (Cond.ge.holds s.flags) rel s)

/-- JLE Jb (7E00): R406. -/
def execJle (rel : Byte) (s : State) : Out :=
  .next (jumpIf (Cond.le.holds s.flags) rel s)

/-- JG Jb (7F00): R406. -/
def execJg (rel : Byte) (s : State) : Out :=
  .next (jumpIf (Cond.g.holds s.flags) rel s)

/-- JO Jb (6000): R406. -/
def execJoAlias (rel : Byte) (s : State) : Out :=
  .next (jumpIf (Cond.o.holds s.flags) rel s)

/-- JNO Jb (6100): R406. -/
def execJnoAlias (rel : Byte) (s : State) : Out :=
  .next (jumpIf (Cond.no.holds s.flags) rel s)

/-- JB Jb (6200): R406. -/
def execJbAlias (rel : Byte) (s : State) : Out :=
  .next (jumpIf (Cond.b.holds s.flags) rel s)

/-- JNB Jb (6300): R406. -/
def execJnbAlias (rel : Byte) (s : State) : Out :=
  .next (jumpIf (Cond.nb.holds s.flags) rel s)

/-- JZ Jb (6400): R406. -/
def execJzAlias (rel : Byte) (s : State) : Out :=
  .next (jumpIf (Cond.z.holds s.flags) rel s)

/-- JNZ Jb (6500): R406. -/
def execJnzAlias (rel : Byte) (s : State) : Out :=
  .next (jumpIf (Cond.nz.holds s.flags) rel s)

/-- JBE Jb (6600): R406. -/
def execJbeAlias (rel : Byte) (s : State) : Out :=
  .next (jumpIf (Cond.be.holds s.flags) rel s)

/-- JA Jb (6700): R406. -/
def execJaAlias (rel : Byte) (s : State) : Out :=
  .next (jumpIf (Cond.a.holds s.flags) rel s)

/-- JS Jb (6800): R406. -/
def execJsAlias (rel : Byte) (s : State) : Out :=
  .next (jumpIf (Cond.s.holds s.flags) rel s)

/-- JNS Jb (6900): R406. -/
def execJnsAlias (rel : Byte) (s : State) : Out :=
  .next (jumpIf (Cond.ns.holds s.flags) rel s)

/-- JP Jb (6A00): R406. -/
def execJpAlias (rel : Byte) (s : State) : Out :=
  .next (jumpIf (Cond.p.holds s.flags) rel s)

/-- JNP Jb (6B00): R406. -/
def execJnpAlias (rel : Byte) (s : State) : Out :=
  .next (jumpIf (Cond.np.holds s.flags) rel s)

/-- JL Jb (6C00): R406. -/
def execJlAlias (rel : Byte) (s : State) : Out :=
  .next (jumpIf (Cond.l.holds s.flags) rel s)

/-- JGE Jb (6D00): R406. -/
def execJgeAlias (rel : Byte) (s : State) : Out :=
  .next (jumpIf (Cond.ge.holds s.flags) rel s)

/-- JLE Jb (6E00): R406. -/
def execJleAlias (rel : Byte) (s : State) : Out :=
  .next (jumpIf (Cond.le.holds s.flags) rel s)

/-- JG Jb (6F00): R406. -/
def execJgAlias (rel : Byte) (s : State) : Out :=
  .next (jumpIf (Cond.g.holds s.flags) rel s)

/-! ## Calls and returns (R410 to R418, R486) -/

/-- CALL Jw (E800): R410. -/
def execCallRel16 (rel : Word) (s : State) : Out :=
  .next ((s.push16 s.ip).jumpBy rel)

/-- CALL Ew (FF10): R411. -/
def execCallEw (rm : RM16) (s : State) : Out :=
  let x := s.readRM16 rm
  .next ((x.2.push16 x.2.ip).callTo x.1)

/-- CALL Ap (9A00): R412. -/
def execCallFar (off : Word) (seg : Word) (s : State) : Out :=
  .next (callFarTo seg off s)

/-- CALL Mp (FF18): R413. -/
def execCallMpM0 (m : MemOp) (s : State) : Out :=
  .next (callThrough m s)

/-- CALL Mp (FF58): R413. -/
def execCallMpM1 (m : MemOp) (s : State) : Out :=
  .next (callThrough m s)

/-- CALL Mp (FF98): R413. -/
def execCallMpM2 (m : MemOp) (s : State) : Out :=
  .next (callThrough m s)

/-- CALL reg (mod=3) (FFD8): R486. -/
def execCallReg (_r2 : Reg16) (_s : State) : Out :=
  .refused .farPointerInRegister

/-- RET  (C300): R415. -/
def execRet (s : State) : Out :=
  .next (returnNear 0#16 s)

/-- RET Iw (C200): R416. -/
def execRetIw (imm : Word) (s : State) : Out :=
  .next (returnNear imm s)

/-- RETF  (CB00): R417. -/
def execRetf (s : State) : Out :=
  .next (returnFar 0#16 s)

/-- RETF Iw (CA00): R418. -/
def execRetfIw (imm : Word) (s : State) : Out :=
  .next (returnFar imm s)

/-- RET  (C100): R415. -/
def execRetAlias (s : State) : Out :=
  .next (returnNear 0#16 s)

/-- RET Iw (C000): R416. -/
def execRetIwAlias (imm : Word) (s : State) : Out :=
  .next (returnNear imm s)

/-- RETF  (C900): R417. -/
def execRetfAlias (s : State) : Out :=
  .next (returnFar 0#16 s)

/-- RETF Iw (C800): R418. -/
def execRetfIwAlias (imm : Word) (s : State) : Out :=
  .next (returnFar imm s)

/-! ## Loops (R425 to R428) -/

/-- LOOP Jb (E200): R425. -/
def execLoop (rel : Byte) (s : State) : Out :=
  .next (loopIf true rel s)

/-- LOOPZ Jb (E100): R426. -/
def execLoopz (rel : Byte) (s : State) : Out :=
  .next (loopIf s.flags.zf rel s)

/-- LOOPNZ Jb (E000): R427. -/
def execLoopnz (rel : Byte) (s : State) : Out :=
  .next (loopIf (!s.flags.zf) rel s)

/-- JCXZ Jb (E300): R428. -/
def execJcxz (rel : Byte) (s : State) : Out :=
  .next (jumpIf (decide (s.regs.cx = 0#16)) rel s)

/-! ## Software interrupts and return (R430 to R433) -/

/-- INT Ib (CD00): R430. -/
def execIntIb (imm : Byte) (s : State) : Out :=
  .next (s.interrupt imm s.ip)

/-- INT3  (CC00): R431. -/
def execInt3 (s : State) : Out :=
  .next (s.interrupt 3#8 s.ip)

/-- INTO  (CE00): R432. -/
def execInto (s : State) : Out :=
  .next (if s.flags.of then s.interrupt 4#8 s.ip else s)

/-- IRET  (CF00): R433. -/
def execIret (s : State) : Out :=
  .next s.returnFromInterrupt

end Sys2Proof.Machine
end

