-- ==== Sys2Proof/Machine/DataTransfer.lean ====
section
/-! DEFINITION. The meanings of the data transfer instructions (spec/40_data_transfer.md R201 to R229). -/

namespace Sys2Proof.Machine

/-! ## Shared operations -/

/-- R215: POP of a segment register. -/
def popSreg (r : SReg) (s : State) : State :=
  let x := s.pop16
  x.2.loadSreg r x.1

/-- R219: XCHG AX, reg16. -/
def xchgAx (r : Reg16) (s : State) : State :=
  (s.setReg16 .ax (s.reg16 r)).setReg16 r s.regs.ax

/-- R218: XCHG with an 8-bit r/m operand. -/
def xchgEb (r : Reg8) (rm : RM8) (s : State) : State :=
  let p := s.place rm
  let x := s.readPlace8 p
  (x.2.writePlace8 p (x.2.reg8 r)).setReg8 r x.1

/-- R218: XCHG with a 16-bit r/m operand. -/
def xchgEw (r : Reg16) (rm : RM16) (s : State) : State :=
  let p := s.place rm
  let x := s.readPlace16 p
  (x.2.writePlace16 p (x.2.reg16 r)).setReg16 r x.1

/-- R214: POP of an r/m operand whose address is formed first. -/
def popRM (rm : RM16) (s : State) : State :=
  let p := s.place rm
  let x := s.pop16
  x.2.writePlace16 p x.1

/-- R222, R223: IN AL. -/
def inAl (port : Word) (s : State) : State :=
  let x := s.in8 port
  x.2.setReg8 .al x.1

/-- R222, R223: IN AX. -/
def inAx (port : Word) (s : State) : State :=
  let x := s.in16 port
  x.2.setReg16 .ax x.1

/-- R228, R229: a far pointer into a register and a segment register, with no inhibited boundary. -/
def loadFar (sr : SReg) (r : Reg16) (m : MemOp) (s : State) : State :=
  let x := s.readFar m
  (x.2.2.setReg16 r x.1).setSreg sr x.2.1

/-- R220: LAHF's byte, the low half of the flags image (R28). -/
def Flags.lowByte (f : Flags) : Byte := loByte f.image

/-- R221: SAHF takes bits 7, 6, 4, 2 and 0. -/
def Flags.setLowByte (f : Flags) (b : Byte) : Flags :=
  { f with sf := bit b 7, zf := bit b 6, af := bit b 4, pf := bit b 2, cf := bit b 0 }

/-! ## MOV (R201 to R208) -/

/-- MOV Eb,Gb (8800): R201. -/
def execMovEbGb (rm : RM8) (r : Reg8) (s : State) : Out :=
  .next (s.writeRM8 rm (s.reg8 r))

/-- MOV Ew,Gw (8900): R201. -/
def execMovEwGw (rm : RM16) (r : Reg16) (s : State) : Out :=
  .next (s.writeRM16 rm (s.reg16 r))

/-- MOV Gb,Eb (8A00): R202. -/
def execMovGbEb (r : Reg8) (rm : RM8) (s : State) : Out :=
  let x := s.readRM8 rm
  .next (x.2.setReg8 r x.1)

/-- MOV Gw,Ew (8B00): R202. -/
def execMovGwEw (r : Reg16) (rm : RM16) (s : State) : Out :=
  let x := s.readRM16 rm
  .next (x.2.setReg16 r x.1)

/-- MOV Eb,Ib (C600): R203. -/
def execMovEbIb (rm : RM8) (_ignored : BitVec 3) (imm : Byte) (s : State) : Out :=
  .next (s.writeRM8 rm imm)

/-- MOV Ew,Iw (C700): R203. -/
def execMovEwIw (rm : RM16) (_ignored : BitVec 3) (imm : Word) (s : State) : Out :=
  .next (s.writeRM16 rm imm)

/-- MOV reg8,Ib (B000): R204. -/
def execMovReg8Ib (r : Reg8) (imm : Byte) (s : State) : Out :=
  .next (s.setReg8 r imm)

/-- MOV reg16,Iw (B800): R204. -/
def execMovReg16Iw (r : Reg16) (imm : Word) (s : State) : Out :=
  .next (s.setReg16 r imm)

/-- MOV AL,Ob (A000): R205. -/
def execMovAlOb (off : Word) (s : State) : Out :=
  let x := s.read8 (some (s.segFor .ds)) off
  .next (x.2.setReg8 .al x.1)

/-- MOV AX,Ow (A100): R205. -/
def execMovAxOw (off : Word) (s : State) : Out :=
  let x := s.read16 (some (s.segFor .ds)) off
  .next (x.2.setReg16 .ax x.1)

/-- MOV Ob,AL (A200): R206. -/
def execMovObAl (off : Word) (s : State) : Out :=
  .next (s.write8 (some (s.segFor .ds)) off (s.reg8 .al))

/-- MOV Ow,AX (A300): R206. -/
def execMovOwAx (off : Word) (s : State) : Out :=
  .next (s.write16 (some (s.segFor .ds)) off s.regs.ax)

/-- MOV Sw,Ew (8E00): R207. -/
def execMovSwEw (sr : SReg) (_bit5 : Bool) (rm : RM16) (s : State) : Out :=
  let x := s.readRM16 rm
  .next (x.2.loadSreg sr x.1)

/-- MOV Ew,Sw (8C00): R208. -/
def execMovEwSw (rm : RM16) (sr : SReg) (_bit5 : Bool) (s : State) : Out :=
  .next (s.writeRM16 rm (s.sreg sr))

/-! ## Stack (R210 to R217) -/

/-- PUSH reg16 (5000): R210. -/
def execPushReg16 (r : Reg16) (s : State) : Out :=
  let s := s.decSp
  .next (s.write16 (some .ss) s.regs.sp (s.reg16 r))

/-- PUSH Ew (FF30): R211. -/
def execPushEw (rm : RM16) (s : State) : Out :=
  let x := s.readRM16 rm
  .next (x.2.push16 x.1)

/-- PUSH Ew (FF38): R211. -/
def execPushEwAlias (rm : RM16) (s : State) : Out :=
  let x := s.readRM16 rm
  .next (x.2.push16 x.1)

/-- PUSH ES (0600): R212. -/
def execPushEs (s : State) : Out :=
  .next (s.push16 s.sregs.es)

/-- PUSH CS (0E00): R212. -/
def execPushCs (s : State) : Out :=
  .next (s.push16 s.sregs.cs)

/-- PUSH SS (1600): R212. -/
def execPushSs (s : State) : Out :=
  .next (s.push16 s.sregs.ss)

/-- PUSH DS (1E00): R212. -/
def execPushDs (s : State) : Out :=
  .next (s.push16 s.sregs.ds)

/-- POP reg16 (5800): R213. -/
def execPopReg16 (r : Reg16) (s : State) : Out :=
  let x := s.pop16
  .next (x.2.setReg16 r x.1)

/-- POP Ew (8F00): R214. -/
def execPopEw (rm : RM16) (_ignored : BitVec 3) (s : State) : Out :=
  .next (popRM rm s)

/-- POP ES (0700): R215. -/
def execPopEs (s : State) : Out :=
  .next (popSreg .es s)

/-- POP CS (0F00): R215. -/
def execPopCs (s : State) : Out :=
  .next (popSreg .cs s)

/-- POP SS (1700): R215. -/
def execPopSs (s : State) : Out :=
  .next (popSreg .ss s)

/-- POP DS (1F00): R215. -/
def execPopDs (s : State) : Out :=
  .next (popSreg .ds s)

/-- PUSHF  (9C00): R216. -/
def execPushf (s : State) : Out :=
  .next (s.push16 s.flags.image)

/-- POPF  (9D00): R217. -/
def execPopf (s : State) : Out :=
  let x := s.pop16
  .next { x.2 with flags := Flags.ofImage x.1 }

/-! ## Exchange, flag bytes (R218 to R221) -/

/-- XCHG Gb,Eb (8600): R218. -/
def execXchgGbEb (r : Reg8) (rm : RM8) (s : State) : Out :=
  .next (xchgEb r rm s)

/-- XCHG Gw,Ew (8700): R218. -/
def execXchgGwEw (r : Reg16) (rm : RM16) (s : State) : Out :=
  .next (xchgEw r rm s)

/-- XCHG AX,CX (9100): R219. -/
def execXchgAxCx (s : State) : Out :=
  .next (xchgAx .cx s)

/-- XCHG AX,DX (9200): R219. -/
def execXchgAxDx (s : State) : Out :=
  .next (xchgAx .dx s)

/-- XCHG AX,BX (9300): R219. -/
def execXchgAxBx (s : State) : Out :=
  .next (xchgAx .bx s)

/-- XCHG AX,SP (9400): R219. -/
def execXchgAxSp (s : State) : Out :=
  .next (xchgAx .sp s)

/-- XCHG AX,BP (9500): R219. -/
def execXchgAxBp (s : State) : Out :=
  .next (xchgAx .bp s)

/-- XCHG AX,SI (9600): R219. -/
def execXchgAxSi (s : State) : Out :=
  .next (xchgAx .si s)

/-- XCHG AX,DI (9700): R219. -/
def execXchgAxDi (s : State) : Out :=
  .next (xchgAx .di s)

/-- LAHF  (9F00): R220. -/
def execLahf (s : State) : Out :=
  .next (s.setReg8 .ah s.flags.lowByte)

/-- SAHF  (9E00): R221. -/
def execSahf (s : State) : Out :=
  .next { s with flags := s.flags.setLowByte (s.reg8 .ah) }

/-! ## Input and output (R222 to R225) -/

/-- IN AL,Ib (E400): R222. -/
def execInAlIb (port : Byte) (s : State) : Out :=
  .next (inAl (zext16 port) s)

/-- IN AX,Ib (E500): R222. -/
def execInAxIb (port : Byte) (s : State) : Out :=
  .next (inAx (zext16 port) s)

/-- IN AL,DX (EC00): R223. -/
def execInAlDx (s : State) : Out :=
  .next (inAl s.regs.dx s)

/-- IN AX,DX (ED00): R223. -/
def execInAxDx (s : State) : Out :=
  .next (inAx s.regs.dx s)

/-- OUT Ib,AL (E600): R224. -/
def execOutIbAl (port : Byte) (s : State) : Out :=
  .next (s.out8 (zext16 port) (s.reg8 .al))

/-- OUT Ib,AX (E700): R224. -/
def execOutIbAx (port : Byte) (s : State) : Out :=
  .next (s.out16 (zext16 port) s.regs.ax)

/-- OUT DX,AL (EE00): R225. -/
def execOutDxAl (s : State) : Out :=
  .next (s.out8 s.regs.dx (s.reg8 .al))

/-- OUT DX,AX (EF00): R225. -/
def execOutDxAx (s : State) : Out :=
  .next (s.out16 s.regs.dx s.regs.ax)

/-! ## Table look-up, address loads (R226 to R229, R487) -/

/-- XLAT  (D700): R226. -/
def execXlat (s : State) : Out :=
  let x := s.read8 (some (s.segFor .ds)) (s.regs.bx + zext16 (s.reg8 .al))
  .next (x.2.setReg8 .al x.1)

/-- LEA Gw,M (8D00): R227. -/
def execLeaM0 (r : Reg16) (m : MemOp) (s : State) : Out :=
  .next (s.setReg16 r (s.effAddr m))

/-- LEA Gw,M (8D40): R227. -/
def execLeaM1 (r : Reg16) (m : MemOp) (s : State) : Out :=
  .next (s.setReg16 r (s.effAddr m))

/-- LEA Gw,M (8D80): R227. -/
def execLeaM2 (r : Reg16) (m : MemOp) (s : State) : Out :=
  .next (s.setReg16 r (s.effAddr m))

/-- LDS Gw,Mp (C500): R228. -/
def execLdsM0 (r : Reg16) (m : MemOp) (s : State) : Out :=
  .next (loadFar .ds r m s)

/-- LDS Gw,Mp (C540): R228. -/
def execLdsM1 (r : Reg16) (m : MemOp) (s : State) : Out :=
  .next (loadFar .ds r m s)

/-- LDS Gw,Mp (C580): R228. -/
def execLdsM2 (r : Reg16) (m : MemOp) (s : State) : Out :=
  .next (loadFar .ds r m s)

/-- LES Gw,Mp (C400): R229. -/
def execLesM0 (r : Reg16) (m : MemOp) (s : State) : Out :=
  .next (loadFar .es r m s)

/-- LES Gw,Mp (C440): R229. -/
def execLesM1 (r : Reg16) (m : MemOp) (s : State) : Out :=
  .next (loadFar .es r m s)

/-- LES Gw,Mp (C480): R229. -/
def execLesM2 (r : Reg16) (m : MemOp) (s : State) : Out :=
  .next (loadFar .es r m s)

/-- LEA Gw,reg (mod=3) (8DC0): R487. -/
def execLeaReg (_r : Reg16) (_r2 : Reg16) (_s : State) : Out :=
  .refused .addressOfRegister

/-- LDS Gw,reg (mod=3) (C5C0): R487. -/
def execLdsReg (_r : Reg16) (_r2 : Reg16) (_s : State) : Out :=
  .refused .addressOfRegister

/-- LES Gw,reg (mod=3) (C4C0): R487. -/
def execLesReg (_r : Reg16) (_r2 : Reg16) (_s : State) : Out :=
  .refused .addressOfRegister

end Sys2Proof.Machine
end

