-- ==== Sys2Proof/Machine/LogicShift.lean ====
section
/-! DEFINITION. The meanings of the logic, shift and rotate instructions (spec/42_logic_shift.md R320 to
R340). -/

namespace Sys2Proof.Machine

/-! ## Shared operations -/

/-- R327: NOT changes no flag. -/
def notN {n : Nat} (f : Flags) (a : BitVec n) : BitVec n × Flags := (~~~a, f)

/-- R340: the EU steps of a shift by `count`: one for each single-bit step (R854), EuCost ticks each. -/
def State.shiftSteps (s : State) (count : Nat) : State :=
  s.spend (count * s.euCost .alu)

/-- R330, R340: a shift of an 8-bit operand by `count`: read, shift, write back, also when the count is 0
(log 21). -/
def shiftEb (op : ShiftOp) (rm : RM8) (count : Nat) (s : State) : State :=
  let p := s.place rm
  let x := s.readPlace8 p
  let s := x.2.shiftSteps count
  let y := op.apply s.flags x.1 count (bit s.free 2)
  let s := if op.drawsAf && decide (count ≠ 0) then s.drawn else s
  State.writePlace8 { s with flags := y.2 } p y.1

/-- R330, R340: a shift of a 16-bit operand by `count`. -/
def shiftEw (op : ShiftOp) (rm : RM16) (count : Nat) (s : State) : State :=
  let p := s.place rm
  let x := s.readPlace16 p
  let s := x.2.shiftSteps count
  let y := op.apply s.flags x.1 count (bit s.free 2)
  let s := if op.drawsAf && decide (count ≠ 0) then s.drawn else s
  State.writePlace16 { s with flags := y.2 } p y.1

/-- R340: the count in CL, unmasked. -/
def State.clCount (s : State) : Nat := (s.reg8 .cl).toNat

/-- R338: SETMO of an 8-bit operand: all ones; the operand is only written. -/
def setmoEb (rm : RM8) (s : State) : State :=
  let p := s.place rm
  let s := s.internal
  State.writePlace8 { s with flags := s.flags.setmo } p 0xFF#8

/-- R338: SETMO of a 16-bit operand. -/
def setmoEw (rm : RM16) (s : State) : State :=
  let p := s.place rm
  let s := s.internal
  State.writePlace16 { s with flags := s.flags.setmo } p 0xFFFF#16

/-! ## AND (R321) -/

/-- AND Eb,Gb (2000): R321. -/
def execAndEbGb (rm : RM8) (r : Reg8) (s : State) : Out :=
  .next (aluEbGb .and rm r s)

/-- AND Ew,Gw (2100): R321. -/
def execAndEwGw (rm : RM16) (r : Reg16) (s : State) : Out :=
  .next (aluEwGw .and rm r s)

/-- AND Gb,Eb (2200): R321. -/
def execAndGbEb (r : Reg8) (rm : RM8) (s : State) : Out :=
  .next (aluGbEb .and r rm s)

/-- AND Gw,Ew (2300): R321. -/
def execAndGwEw (r : Reg16) (rm : RM16) (s : State) : Out :=
  .next (aluGwEw .and r rm s)

/-- AND AL,Ib (2400): R321. -/
def execAndAlIb (imm : Byte) (s : State) : Out :=
  .next (aluAlIb .and imm s)

/-- AND AX,Iw (2500): R321. -/
def execAndAxIw (imm : Word) (s : State) : Out :=
  .next (aluAxIw .and imm s)

/-- AND Eb,Ib (8020): R321. -/
def execAndEbIb (rm : RM8) (imm : Byte) (s : State) : Out :=
  .next (aluEbIb .and rm imm s)

/-- AND Ew,Iw (8120): R321. -/
def execAndEwIw (rm : RM16) (imm : Word) (s : State) : Out :=
  .next (aluEwIw .and rm imm s)

/-- AND Eb,Ib (8220): R321. -/
def execAndEbIb82 (rm : RM8) (imm : Byte) (s : State) : Out :=
  .next (aluEbIb .and rm imm s)

/-- AND Ew,Is (8320): R321. -/
def execAndEwIs (rm : RM16) (imm : Byte) (s : State) : Out :=
  .next (aluEwIw .and rm (sext16 imm) s)

/-! ## OR (R322) -/

/-- OR Eb,Gb (0800): R322. -/
def execOrEbGb (rm : RM8) (r : Reg8) (s : State) : Out :=
  .next (aluEbGb .or rm r s)

/-- OR Ew,Gw (0900): R322. -/
def execOrEwGw (rm : RM16) (r : Reg16) (s : State) : Out :=
  .next (aluEwGw .or rm r s)

/-- OR Gb,Eb (0A00): R322. -/
def execOrGbEb (r : Reg8) (rm : RM8) (s : State) : Out :=
  .next (aluGbEb .or r rm s)

/-- OR Gw,Ew (0B00): R322. -/
def execOrGwEw (r : Reg16) (rm : RM16) (s : State) : Out :=
  .next (aluGwEw .or r rm s)

/-- OR AL,Ib (0C00): R322. -/
def execOrAlIb (imm : Byte) (s : State) : Out :=
  .next (aluAlIb .or imm s)

/-- OR AX,Iw (0D00): R322. -/
def execOrAxIw (imm : Word) (s : State) : Out :=
  .next (aluAxIw .or imm s)

/-- OR Eb,Ib (8008): R322. -/
def execOrEbIb (rm : RM8) (imm : Byte) (s : State) : Out :=
  .next (aluEbIb .or rm imm s)

/-- OR Ew,Iw (8108): R322. -/
def execOrEwIw (rm : RM16) (imm : Word) (s : State) : Out :=
  .next (aluEwIw .or rm imm s)

/-- OR Eb,Ib (8208): R322. -/
def execOrEbIb82 (rm : RM8) (imm : Byte) (s : State) : Out :=
  .next (aluEbIb .or rm imm s)

/-- OR Ew,Is (8308): R322. -/
def execOrEwIs (rm : RM16) (imm : Byte) (s : State) : Out :=
  .next (aluEwIw .or rm (sext16 imm) s)

/-! ## XOR (R323) -/

/-- XOR Eb,Gb (3000): R323. -/
def execXorEbGb (rm : RM8) (r : Reg8) (s : State) : Out :=
  .next (aluEbGb .xor rm r s)

/-- XOR Ew,Gw (3100): R323. -/
def execXorEwGw (rm : RM16) (r : Reg16) (s : State) : Out :=
  .next (aluEwGw .xor rm r s)

/-- XOR Gb,Eb (3200): R323. -/
def execXorGbEb (r : Reg8) (rm : RM8) (s : State) : Out :=
  .next (aluGbEb .xor r rm s)

/-- XOR Gw,Ew (3300): R323. -/
def execXorGwEw (r : Reg16) (rm : RM16) (s : State) : Out :=
  .next (aluGwEw .xor r rm s)

/-- XOR AL,Ib (3400): R323. -/
def execXorAlIb (imm : Byte) (s : State) : Out :=
  .next (aluAlIb .xor imm s)

/-- XOR AX,Iw (3500): R323. -/
def execXorAxIw (imm : Word) (s : State) : Out :=
  .next (aluAxIw .xor imm s)

/-- XOR Eb,Ib (8030): R323. -/
def execXorEbIb (rm : RM8) (imm : Byte) (s : State) : Out :=
  .next (aluEbIb .xor rm imm s)

/-- XOR Ew,Iw (8130): R323. -/
def execXorEwIw (rm : RM16) (imm : Word) (s : State) : Out :=
  .next (aluEwIw .xor rm imm s)

/-- XOR Eb,Ib (8230): R323. -/
def execXorEbIb82 (rm : RM8) (imm : Byte) (s : State) : Out :=
  .next (aluEbIb .xor rm imm s)

/-- XOR Ew,Is (8330): R323. -/
def execXorEwIs (rm : RM16) (imm : Byte) (s : State) : Out :=
  .next (aluEwIw .xor rm (sext16 imm) s)

/-! ## TEST (R324 to R326) -/

/-- TEST Eb,Gb (8400): R324. -/
def execTestEbGb (rm : RM8) (r : Reg8) (s : State) : Out :=
  let x := s.readRM8 rm
  .next (x.2.test8 x.1 (x.2.reg8 r))

/-- TEST Ew,Gw (8500): R324. -/
def execTestEwGw (rm : RM16) (r : Reg16) (s : State) : Out :=
  let x := s.readRM16 rm
  .next (x.2.test16 x.1 (x.2.reg16 r))

/-- TEST AL,Ib (A800): R325. -/
def execTestAlIb (imm : Byte) (s : State) : Out :=
  .next (s.test8 (s.reg8 .al) imm)

/-- TEST AX,Iw (A900): R325. -/
def execTestAxIw (imm : Word) (s : State) : Out :=
  .next (s.test16 s.regs.ax imm)

/-- TEST Eb,Ib (F600): R326. -/
def execTestEbIb (rm : RM8) (imm : Byte) (s : State) : Out :=
  let x := s.readRM8 rm
  .next (x.2.test8 x.1 imm)

/-- TEST Ew,Iw (F700): R326. -/
def execTestEwIw (rm : RM16) (imm : Word) (s : State) : Out :=
  let x := s.readRM16 rm
  .next (x.2.test16 x.1 imm)

/-- TEST Eb,Ib (F608): R326. -/
def execTestEbIbAlias (rm : RM8) (imm : Byte) (s : State) : Out :=
  let x := s.readRM8 rm
  .next (x.2.test8 x.1 imm)

/-- TEST Ew,Iw (F708): R326. -/
def execTestEwIwAlias (rm : RM16) (imm : Word) (s : State) : Out :=
  let x := s.readRM16 rm
  .next (x.2.test16 x.1 imm)

/-! ## NOT (R327) -/

/-- NOT Eb (F610): R327. -/
def execNotEb (rm : RM8) (s : State) : Out :=
  .next (modifyEb notN rm s)

/-- NOT Ew (F710): R327. -/
def execNotEw (rm : RM16) (s : State) : Out :=
  .next (modifyEw notN rm s)

/-! ## Shifts and rotates (R330 to R337, R340) -/

/-- ROL Eb,1 (D000): R331. -/
def execRolEb1 (rm : RM8) (s : State) : Out :=
  .next (shiftEb .rol rm 1 s)

/-- ROL Ew,1 (D100): R331. -/
def execRolEw1 (rm : RM16) (s : State) : Out :=
  .next (shiftEw .rol rm 1 s)

/-- ROL Eb,CL (D200): R331. -/
def execRolEbCl (rm : RM8) (s : State) : Out :=
  .next (shiftEb .rol rm s.clCount s)

/-- ROL Ew,CL (D300): R331. -/
def execRolEwCl (rm : RM16) (s : State) : Out :=
  .next (shiftEw .rol rm s.clCount s)

/-- ROR Eb,1 (D008): R332. -/
def execRorEb1 (rm : RM8) (s : State) : Out :=
  .next (shiftEb .ror rm 1 s)

/-- ROR Ew,1 (D108): R332. -/
def execRorEw1 (rm : RM16) (s : State) : Out :=
  .next (shiftEw .ror rm 1 s)

/-- ROR Eb,CL (D208): R332. -/
def execRorEbCl (rm : RM8) (s : State) : Out :=
  .next (shiftEb .ror rm s.clCount s)

/-- ROR Ew,CL (D308): R332. -/
def execRorEwCl (rm : RM16) (s : State) : Out :=
  .next (shiftEw .ror rm s.clCount s)

/-- RCL Eb,1 (D010): R333. -/
def execRclEb1 (rm : RM8) (s : State) : Out :=
  .next (shiftEb .rcl rm 1 s)

/-- RCL Ew,1 (D110): R333. -/
def execRclEw1 (rm : RM16) (s : State) : Out :=
  .next (shiftEw .rcl rm 1 s)

/-- RCL Eb,CL (D210): R333. -/
def execRclEbCl (rm : RM8) (s : State) : Out :=
  .next (shiftEb .rcl rm s.clCount s)

/-- RCL Ew,CL (D310): R333. -/
def execRclEwCl (rm : RM16) (s : State) : Out :=
  .next (shiftEw .rcl rm s.clCount s)

/-- RCR Eb,1 (D018): R334. -/
def execRcrEb1 (rm : RM8) (s : State) : Out :=
  .next (shiftEb .rcr rm 1 s)

/-- RCR Ew,1 (D118): R334. -/
def execRcrEw1 (rm : RM16) (s : State) : Out :=
  .next (shiftEw .rcr rm 1 s)

/-- RCR Eb,CL (D218): R334. -/
def execRcrEbCl (rm : RM8) (s : State) : Out :=
  .next (shiftEb .rcr rm s.clCount s)

/-- RCR Ew,CL (D318): R334. -/
def execRcrEwCl (rm : RM16) (s : State) : Out :=
  .next (shiftEw .rcr rm s.clCount s)

/-- SHL Eb,1 (D020): R335. -/
def execShlEb1 (rm : RM8) (s : State) : Out :=
  .next (shiftEb .shl rm 1 s)

/-- SHL Ew,1 (D120): R335. -/
def execShlEw1 (rm : RM16) (s : State) : Out :=
  .next (shiftEw .shl rm 1 s)

/-- SHL Eb,CL (D220): R335. -/
def execShlEbCl (rm : RM8) (s : State) : Out :=
  .next (shiftEb .shl rm s.clCount s)

/-- SHL Ew,CL (D320): R335. -/
def execShlEwCl (rm : RM16) (s : State) : Out :=
  .next (shiftEw .shl rm s.clCount s)

/-- SHR Eb,1 (D028): R336. -/
def execShrEb1 (rm : RM8) (s : State) : Out :=
  .next (shiftEb .shr rm 1 s)

/-- SHR Ew,1 (D128): R336. -/
def execShrEw1 (rm : RM16) (s : State) : Out :=
  .next (shiftEw .shr rm 1 s)

/-- SHR Eb,CL (D228): R336. -/
def execShrEbCl (rm : RM8) (s : State) : Out :=
  .next (shiftEb .shr rm s.clCount s)

/-- SHR Ew,CL (D328): R336. -/
def execShrEwCl (rm : RM16) (s : State) : Out :=
  .next (shiftEw .shr rm s.clCount s)

/-- SAR Eb,1 (D038): R337. -/
def execSarEb1 (rm : RM8) (s : State) : Out :=
  .next (shiftEb .sar rm 1 s)

/-- SAR Ew,1 (D138): R337. -/
def execSarEw1 (rm : RM16) (s : State) : Out :=
  .next (shiftEw .sar rm 1 s)

/-- SAR Eb,CL (D238): R337. -/
def execSarEbCl (rm : RM8) (s : State) : Out :=
  .next (shiftEb .sar rm s.clCount s)

/-- SAR Ew,CL (D338): R337. -/
def execSarEwCl (rm : RM16) (s : State) : Out :=
  .next (shiftEw .sar rm s.clCount s)

/-! ## SETMO, SETMOC (R338) -/

/-- SETMO Eb,1 (D030): R338. -/
def execSetmoEb1 (rm : RM8) (s : State) : Out :=
  .next (setmoEb rm s)

/-- SETMO Ew,1 (D130): R338. -/
def execSetmoEw1 (rm : RM16) (s : State) : Out :=
  .next (setmoEw rm s)

/-- SETMOC Eb,CL (D230): R338. -/
def execSetmocEbCl (rm : RM8) (s : State) : Out :=
  .next (if s.clCount = 0 then s else setmoEb rm s)

/-- SETMOC Ew,CL (D330): R338. -/
def execSetmocEwCl (rm : RM16) (s : State) : Out :=
  .next (if s.clCount = 0 then s else setmoEw rm s)

end Sys2Proof.Machine
end

