-- ==== Sys2Proof/Machine/ProcessorControl.lean ====
section
/-! DEFINITION. The meanings of the processor control instructions and of the prefix bytes (spec/
45_processor_control.md R460 to R487, 30_encoding.md R134). A prefix byte's meaning is what it does to the
prefix record; `Machine.runInstr` goes on to the byte after it within the same step. -/

namespace Sys2Proof.Machine

/-! ## Shared operations -/

/-- R479: a segment override; the last one wins (R134). -/
def overrideSeg (r : SReg) (s : State) : State :=
  { s with eu := { s.eu with pfx := { s.eu.pfx with seg := some r } } }

/-- R380, R134: a repeat prefix; the last one wins. -/
def setRepPrefix (r : Rep) (s : State) : State :=
  { s with eu := { s.eu with pfx := { s.eu.pfx with rep := r } } }

/-- R478: LOCK: the record's flag, and the bus lock for the instruction that follows (log 14). -/
def lockBus (s : State) : State :=
  { s with eu := { s.eu with pfx := { s.eu.pfx with lock := true } },
           sys := { s.sys with biu := { s.sys.biu with lock := true } } }

/-- R476: one poll of the TEST pin: asserted, WAIT ends, in one tick at least (R583); else the EU stays in WAIT for a
step of one tick, as a halted CPU (93_implementation_defined.md 2.3; log 22). -/
def waitPoll (s : State) : State :=
  if s.sys.lines.test then State.spend { s with waitTpr := false } (max 1 (s.euCost .alu))
  else { s with waitTpr := true, sys := s.sys.internal s.sregs.cs 1 }

/-- R477: the operand read of ESC, a word, discarded. -/
def escape (rm : RM16) (s : State) : State :=
  match rm with
  | .reg _ => s
  | .mem m => (s.read16 (some (s.segOf m)) (s.effAddr m)).2

/-! ## Flag instructions (R460 to R466) -/

/-- CLC  (F800): R460. -/
def execClc (s : State) : Out :=
  .next { s with flags := { s.flags with cf := false } }

/-- STC  (F900): R461. -/
def execStc (s : State) : Out :=
  .next { s with flags := { s.flags with cf := true } }

/-- CMC  (F500): R462. -/
def execCmc (s : State) : Out :=
  .next { s with flags := { s.flags with cf := !s.flags.cf } }

/-- CLD  (FC00): R463. -/
def execCld (s : State) : Out :=
  .next { s with flags := { s.flags with df := false } }

/-- STD  (FD00): R464. -/
def execStd (s : State) : Out :=
  .next { s with flags := { s.flags with df := true } }

/-- CLI  (FA00): R465. -/
def execCli (s : State) : Out :=
  .next { s with flags := { s.flags with ief := false } }

/-- STI  (FB00): R466. -/
def execSti (s : State) : Out :=
  .next { s with flags := { s.flags with ief := true }, intInhibit := true }

/-! ## NOP, SALC, HLT, WAIT, ESC (R470 to R477) -/

/-- NOP  (9000): R470. -/
def execNop (s : State) : Out :=
  .next s

/-- SALC  (D600): R471. -/
def execSalc (s : State) : Out :=
  .next (s.setReg8 .al (if s.flags.cf then 0xFF#8 else 0x00#8))

/-- HLT  (F400): R475. -/
def execHlt (s : State) : Out :=
  .next { s with sys := s.sys.halt s.sregs.cs }

/-- WAIT  (9B00): R476. -/
def execWait (s : State) : Out :=
  .next (waitPoll s)

/-- ESC opcode[2:0],E (D800): R477. -/
def execEsc (_op : BitVec 3) (_reg : BitVec 3) (rm : RM16) (s : State) : Out :=
  .next (escape rm s)

/-! ## Prefixes (R134, R135, R478, R479) -/

/-- SEG ES: (2600): R479. -/
def execSegEs (s : State) : Out :=
  .next (overrideSeg .es s)

/-- SEG CS: (2E00): R479. -/
def execSegCs (s : State) : Out :=
  .next (overrideSeg .cs s)

/-- SEG SS: (3600): R479. -/
def execSegSs (s : State) : Out :=
  .next (overrideSeg .ss s)

/-- SEG DS: (3E00): R479. -/
def execSegDs (s : State) : Out :=
  .next (overrideSeg .ds s)

/-- LOCK  (F000): R478. -/
def execLock (s : State) : Out :=
  .next (lockBus s)

/-- LOCK  (F100): R478. -/
def execLockAlias (s : State) : Out :=
  .next (lockBus s)

/-- REPNE  (F200): R380. -/
def execRepne (s : State) : Out :=
  .next (setRepPrefix .repne s)

/-- REP  (F300): R380. -/
def execRep (s : State) : Out :=
  .next (setRepPrefix .rep s)

/-! ## Group 4 with reg 2 to 7 (R485) -/

/-- GRP4_2 Eb (FE10): R485. -/
def execGrp4op2 (_rm : RM8) (_s : State) : Out :=
  .refused .group4NotFixed

/-- GRP4_3 Eb (FE18): R485. -/
def execGrp4op3 (_rm : RM8) (_s : State) : Out :=
  .refused .group4NotFixed

/-- GRP4_4 Eb (FE20): R485. -/
def execGrp4op4 (_rm : RM8) (_s : State) : Out :=
  .refused .group4NotFixed

/-- GRP4_5 Eb (FE28): R485. -/
def execGrp4op5 (_rm : RM8) (_s : State) : Out :=
  .refused .group4NotFixed

/-- GRP4_6 Eb (FE30): R485. -/
def execGrp4op6 (_rm : RM8) (_s : State) : Out :=
  .refused .group4NotFixed

/-- GRP4_7 Eb (FE38): R485. -/
def execGrp4op7 (_rm : RM8) (_s : State) : Out :=
  .refused .group4NotFixed

end Sys2Proof.Machine
end

