-- ==== Sys2Proof/Machine/StringOps.lean ====
section
/-! DEFINITION. The meanings of the string instructions and of their repetition (spec/43_string.md R370 to
R385). A meaning is one instruction step: one iteration, after which `repActive` says whether the instruction
goes on. -/

namespace Sys2Proof.Machine

/-- R370: what a pointer moves by after an element of `n` bytes. -/
def State.delta (s : State) (n : Word) : Word := if s.flags.df then 0#16 - n else n

/-- Move SI past an element. -/
def State.stepSi (s : State) (n : Word) : State := s.setReg16 .si (s.regs.si + s.delta n)

/-- Move DI past an element. -/
def State.stepDi (s : State) (n : Word) : State := s.setReg16 .di (s.regs.di + s.delta n)

/-- The source segment of a string instruction: DS or the override (R157, R370). -/
def State.sourceSeg (s : State) : Option SReg := some (s.segFor .ds)

/-- The flags of `a - b` on bytes, in one ALU step (R372, R373). -/
def State.compare8 (s : State) (a b : Byte) : State :=
  let s := s.aluStep (zext16 a) (zext16 b)
  { s with flags := (subN s.flags a b false).2 }

/-- The flags of `a - b` on words. -/
def State.compare16 (s : State) (a b : Word) : State :=
  let s := s.aluStep a b
  { s with flags := (subN s.flags a b false).2 }

/-- R371: one MOVSB. -/
def movsb (s : State) : State :=
  let x := s.read8 s.sourceSeg s.regs.si
  ((x.2.write8 (some .es) x.2.regs.di x.1).stepSi 1#16).stepDi 1#16

/-- R371: one MOVSW. -/
def movsw (s : State) : State :=
  let x := s.read16 s.sourceSeg s.regs.si
  ((x.2.write16 (some .es) x.2.regs.di x.1).stepSi 2#16).stepDi 2#16

/-- R372: one CMPSB. -/
def cmpsb (s : State) : State :=
  let x := s.read8 s.sourceSeg s.regs.si
  let y := x.2.read8 (some .es) x.2.regs.di
  ((y.2.compare8 x.1 y.1).stepSi 1#16).stepDi 1#16

/-- R372: one CMPSW. -/
def cmpsw (s : State) : State :=
  let x := s.read16 s.sourceSeg s.regs.si
  let y := x.2.read16 (some .es) x.2.regs.di
  ((y.2.compare16 x.1 y.1).stepSi 2#16).stepDi 2#16

/-- R373: one SCASB. -/
def scasb (s : State) : State :=
  let y := s.read8 (some .es) s.regs.di
  (y.2.compare8 (y.2.reg8 .al) y.1).stepDi 1#16

/-- R373: one SCASW. -/
def scasw (s : State) : State :=
  let y := s.read16 (some .es) s.regs.di
  (y.2.compare16 y.2.regs.ax y.1).stepDi 2#16

/-- R374: one LODSB. -/
def lodsb (s : State) : State :=
  let x := s.read8 s.sourceSeg s.regs.si
  (x.2.setReg8 .al x.1).stepSi 1#16

/-- R374: one LODSW. -/
def lodsw (s : State) : State :=
  let x := s.read16 s.sourceSeg s.regs.si
  (x.2.setReg16 .ax x.1).stepSi 2#16

/-- R375: one STOSB. -/
def stosb (s : State) : State := (s.write8 (some .es) s.regs.di (s.reg8 .al)).stepDi 1#16

/-- R375: one STOSW. -/
def stosw (s : State) : State := (s.write16 (some .es) s.regs.di s.regs.ax).stepDi 2#16

/-- Whether the repetition ends or goes on at this boundary. -/
def State.setRep (s : State) (active : Bool) : State := { s with eu := { s.eu with repActive := active } }

/-- R380: an iteration's ZF ends a repeated CMPS or SCAS: REP goes on while ZF = 1, REPNE while ZF = 0. -/
def Rep.stopsOn (r : Rep) (zf : Bool) : Bool :=
  match r with
  | .none => false
  | .repne => zf
  | .rep => !zf

/-- R380, R384: one step of a string instruction: one iteration when unprefixed; else one iteration counted
by CX. `compares` marks CMPS and SCAS, whose ZF is examined. -/
def stringStep (compares : Bool) (iteration : State → State) (s : State) : State :=
  match s.eu.pfx.rep with
  | .none => (iteration s).setRep false
  | r =>
    if s.regs.cx = 0#16 then s.setRep false
    else
      let s := iteration s
      let s := s.setReg16 .cx (s.regs.cx - 1#16)
      s.setRep (!(compares && Rep.stopsOn r s.flags.zf) && decide (s.regs.cx ≠ 0#16))

/-- MOVSB (A400): R371, R380. -/
def execMovsb (s : State) : Out :=
  .next (stringStep false movsb s)

/-- MOVSW (A500): R371, R380. -/
def execMovsw (s : State) : Out :=
  .next (stringStep false movsw s)

/-- CMPSB (A600): R372, R380. -/
def execCmpsb (s : State) : Out :=
  .next (stringStep true cmpsb s)

/-- CMPSW (A700): R372, R380. -/
def execCmpsw (s : State) : Out :=
  .next (stringStep true cmpsw s)

/-- SCASB (AE00): R373, R380. -/
def execScasb (s : State) : Out :=
  .next (stringStep true scasb s)

/-- SCASW (AF00): R373, R380. -/
def execScasw (s : State) : Out :=
  .next (stringStep true scasw s)

/-- LODSB (AC00): R374, R380. -/
def execLodsb (s : State) : Out :=
  .next (stringStep false lodsb s)

/-- LODSW (AD00): R374, R380. -/
def execLodsw (s : State) : Out :=
  .next (stringStep false lodsw s)

/-- STOSB (AA00): R375, R380. -/
def execStosb (s : State) : Out :=
  .next (stringStep false stosb s)

/-- STOSW (AB00): R375, R380. -/
def execStosw (s : State) : Out :=
  .next (stringStep false stosw s)

end Sys2Proof.Machine
end

