-- ==== Sys2Proof/Machine/Dispatch.lean ====
section
/-! DEFINITION. What each instruction does: one arm per constructor of `Instr`, one direct call of its
meaning. -/

namespace Sys2Proof.Machine

def exec (i : Instr) (s : State) : Host.Outcome State Fault Refusal :=
  match i with
  | .addEbGb rm r => Sys2Proof.Machine.execAddEbGb rm r s
  | .addEwGw rm r => Sys2Proof.Machine.execAddEwGw rm r s
  | .addGbEb r rm => Sys2Proof.Machine.execAddGbEb r rm s
  | .addGwEw r rm => Sys2Proof.Machine.execAddGwEw r rm s
  | .addAlIb imm => Sys2Proof.Machine.execAddAlIb imm s
  | .addAxIw imm => Sys2Proof.Machine.execAddAxIw imm s
  | .orEbGb rm r => Sys2Proof.Machine.execOrEbGb rm r s
  | .orEwGw rm r => Sys2Proof.Machine.execOrEwGw rm r s
  | .orGbEb r rm => Sys2Proof.Machine.execOrGbEb r rm s
  | .orGwEw r rm => Sys2Proof.Machine.execOrGwEw r rm s
  | .orAlIb imm => Sys2Proof.Machine.execOrAlIb imm s
  | .orAxIw imm => Sys2Proof.Machine.execOrAxIw imm s
  | .adcEbGb rm r => Sys2Proof.Machine.execAdcEbGb rm r s
  | .adcEwGw rm r => Sys2Proof.Machine.execAdcEwGw rm r s
  | .adcGbEb r rm => Sys2Proof.Machine.execAdcGbEb r rm s
  | .adcGwEw r rm => Sys2Proof.Machine.execAdcGwEw r rm s
  | .adcAlIb imm => Sys2Proof.Machine.execAdcAlIb imm s
  | .adcAxIw imm => Sys2Proof.Machine.execAdcAxIw imm s
  | .sbbEbGb rm r => Sys2Proof.Machine.execSbbEbGb rm r s
  | .sbbEwGw rm r => Sys2Proof.Machine.execSbbEwGw rm r s
  | .sbbGbEb r rm => Sys2Proof.Machine.execSbbGbEb r rm s
  | .sbbGwEw r rm => Sys2Proof.Machine.execSbbGwEw r rm s
  | .sbbAlIb imm => Sys2Proof.Machine.execSbbAlIb imm s
  | .sbbAxIw imm => Sys2Proof.Machine.execSbbAxIw imm s
  | .andEbGb rm r => Sys2Proof.Machine.execAndEbGb rm r s
  | .andEwGw rm r => Sys2Proof.Machine.execAndEwGw rm r s
  | .andGbEb r rm => Sys2Proof.Machine.execAndGbEb r rm s
  | .andGwEw r rm => Sys2Proof.Machine.execAndGwEw r rm s
  | .andAlIb imm => Sys2Proof.Machine.execAndAlIb imm s
  | .andAxIw imm => Sys2Proof.Machine.execAndAxIw imm s
  | .subEbGb rm r => Sys2Proof.Machine.execSubEbGb rm r s
  | .subEwGw rm r => Sys2Proof.Machine.execSubEwGw rm r s
  | .subGbEb r rm => Sys2Proof.Machine.execSubGbEb r rm s
  | .subGwEw r rm => Sys2Proof.Machine.execSubGwEw r rm s
  | .subAlIb imm => Sys2Proof.Machine.execSubAlIb imm s
  | .subAxIw imm => Sys2Proof.Machine.execSubAxIw imm s
  | .xorEbGb rm r => Sys2Proof.Machine.execXorEbGb rm r s
  | .xorEwGw rm r => Sys2Proof.Machine.execXorEwGw rm r s
  | .xorGbEb r rm => Sys2Proof.Machine.execXorGbEb r rm s
  | .xorGwEw r rm => Sys2Proof.Machine.execXorGwEw r rm s
  | .xorAlIb imm => Sys2Proof.Machine.execXorAlIb imm s
  | .xorAxIw imm => Sys2Proof.Machine.execXorAxIw imm s
  | .cmpEbGb rm r => Sys2Proof.Machine.execCmpEbGb rm r s
  | .cmpEwGw rm r => Sys2Proof.Machine.execCmpEwGw rm r s
  | .cmpGbEb r rm => Sys2Proof.Machine.execCmpGbEb r rm s
  | .cmpGwEw r rm => Sys2Proof.Machine.execCmpGwEw r rm s
  | .cmpAlIb imm => Sys2Proof.Machine.execCmpAlIb imm s
  | .cmpAxIw imm => Sys2Proof.Machine.execCmpAxIw imm s
  | .incReg16 r => Sys2Proof.Machine.execIncReg16 r s
  | .decReg16 r => Sys2Proof.Machine.execDecReg16 r s
  | .pushReg16 r => Sys2Proof.Machine.execPushReg16 r s
  | .popReg16 r => Sys2Proof.Machine.execPopReg16 r s
  | .joAlias rel => Sys2Proof.Machine.execJoAlias rel s
  | .jnoAlias rel => Sys2Proof.Machine.execJnoAlias rel s
  | .jbAlias rel => Sys2Proof.Machine.execJbAlias rel s
  | .jnbAlias rel => Sys2Proof.Machine.execJnbAlias rel s
  | .jzAlias rel => Sys2Proof.Machine.execJzAlias rel s
  | .jnzAlias rel => Sys2Proof.Machine.execJnzAlias rel s
  | .jbeAlias rel => Sys2Proof.Machine.execJbeAlias rel s
  | .jaAlias rel => Sys2Proof.Machine.execJaAlias rel s
  | .jsAlias rel => Sys2Proof.Machine.execJsAlias rel s
  | .jnsAlias rel => Sys2Proof.Machine.execJnsAlias rel s
  | .jpAlias rel => Sys2Proof.Machine.execJpAlias rel s
  | .jnpAlias rel => Sys2Proof.Machine.execJnpAlias rel s
  | .jlAlias rel => Sys2Proof.Machine.execJlAlias rel s
  | .jgeAlias rel => Sys2Proof.Machine.execJgeAlias rel s
  | .jleAlias rel => Sys2Proof.Machine.execJleAlias rel s
  | .jgAlias rel => Sys2Proof.Machine.execJgAlias rel s
  | .jo rel => Sys2Proof.Machine.execJo rel s
  | .jno rel => Sys2Proof.Machine.execJno rel s
  | .jb rel => Sys2Proof.Machine.execJb rel s
  | .jnb rel => Sys2Proof.Machine.execJnb rel s
  | .jz rel => Sys2Proof.Machine.execJz rel s
  | .jnz rel => Sys2Proof.Machine.execJnz rel s
  | .jbe rel => Sys2Proof.Machine.execJbe rel s
  | .ja rel => Sys2Proof.Machine.execJa rel s
  | .js rel => Sys2Proof.Machine.execJs rel s
  | .jns rel => Sys2Proof.Machine.execJns rel s
  | .jp rel => Sys2Proof.Machine.execJp rel s
  | .jnp rel => Sys2Proof.Machine.execJnp rel s
  | .jl rel => Sys2Proof.Machine.execJl rel s
  | .jge rel => Sys2Proof.Machine.execJge rel s
  | .jle rel => Sys2Proof.Machine.execJle rel s
  | .jg rel => Sys2Proof.Machine.execJg rel s
  | .addEbIb rm imm => Sys2Proof.Machine.execAddEbIb rm imm s
  | .orEbIb rm imm => Sys2Proof.Machine.execOrEbIb rm imm s
  | .adcEbIb rm imm => Sys2Proof.Machine.execAdcEbIb rm imm s
  | .sbbEbIb rm imm => Sys2Proof.Machine.execSbbEbIb rm imm s
  | .andEbIb rm imm => Sys2Proof.Machine.execAndEbIb rm imm s
  | .subEbIb rm imm => Sys2Proof.Machine.execSubEbIb rm imm s
  | .xorEbIb rm imm => Sys2Proof.Machine.execXorEbIb rm imm s
  | .cmpEbIb rm imm => Sys2Proof.Machine.execCmpEbIb rm imm s
  | .addEwIw rm imm => Sys2Proof.Machine.execAddEwIw rm imm s
  | .orEwIw rm imm => Sys2Proof.Machine.execOrEwIw rm imm s
  | .adcEwIw rm imm => Sys2Proof.Machine.execAdcEwIw rm imm s
  | .sbbEwIw rm imm => Sys2Proof.Machine.execSbbEwIw rm imm s
  | .andEwIw rm imm => Sys2Proof.Machine.execAndEwIw rm imm s
  | .subEwIw rm imm => Sys2Proof.Machine.execSubEwIw rm imm s
  | .xorEwIw rm imm => Sys2Proof.Machine.execXorEwIw rm imm s
  | .cmpEwIw rm imm => Sys2Proof.Machine.execCmpEwIw rm imm s
  | .addEbIb82 rm imm => Sys2Proof.Machine.execAddEbIb82 rm imm s
  | .orEbIb82 rm imm => Sys2Proof.Machine.execOrEbIb82 rm imm s
  | .adcEbIb82 rm imm => Sys2Proof.Machine.execAdcEbIb82 rm imm s
  | .sbbEbIb82 rm imm => Sys2Proof.Machine.execSbbEbIb82 rm imm s
  | .andEbIb82 rm imm => Sys2Proof.Machine.execAndEbIb82 rm imm s
  | .subEbIb82 rm imm => Sys2Proof.Machine.execSubEbIb82 rm imm s
  | .xorEbIb82 rm imm => Sys2Proof.Machine.execXorEbIb82 rm imm s
  | .cmpEbIb82 rm imm => Sys2Proof.Machine.execCmpEbIb82 rm imm s
  | .addEwIs rm imm => Sys2Proof.Machine.execAddEwIs rm imm s
  | .orEwIs rm imm => Sys2Proof.Machine.execOrEwIs rm imm s
  | .adcEwIs rm imm => Sys2Proof.Machine.execAdcEwIs rm imm s
  | .sbbEwIs rm imm => Sys2Proof.Machine.execSbbEwIs rm imm s
  | .andEwIs rm imm => Sys2Proof.Machine.execAndEwIs rm imm s
  | .subEwIs rm imm => Sys2Proof.Machine.execSubEwIs rm imm s
  | .xorEwIs rm imm => Sys2Proof.Machine.execXorEwIs rm imm s
  | .cmpEwIs rm imm => Sys2Proof.Machine.execCmpEwIs rm imm s
  | .testEbGb rm r => Sys2Proof.Machine.execTestEbGb rm r s
  | .testEwGw rm r => Sys2Proof.Machine.execTestEwGw rm r s
  | .xchgGbEb r rm => Sys2Proof.Machine.execXchgGbEb r rm s
  | .xchgGwEw r rm => Sys2Proof.Machine.execXchgGwEw r rm s
  | .movEbGb rm r => Sys2Proof.Machine.execMovEbGb rm r s
  | .movEwGw rm r => Sys2Proof.Machine.execMovEwGw rm r s
  | .movGbEb r rm => Sys2Proof.Machine.execMovGbEb r rm s
  | .movGwEw r rm => Sys2Proof.Machine.execMovGwEw r rm s
  | .movEwSw rm sr bit5 => Sys2Proof.Machine.execMovEwSw rm sr bit5 s
  | .leaM0 r m => Sys2Proof.Machine.execLeaM0 r m s
  | .leaM1 r m => Sys2Proof.Machine.execLeaM1 r m s
  | .leaM2 r m => Sys2Proof.Machine.execLeaM2 r m s
  | .leaReg r r2 => Sys2Proof.Machine.execLeaReg r r2 s
  | .movSwEw sr bit5 rm => Sys2Proof.Machine.execMovSwEw sr bit5 rm s
  | .popEw rm ignored => Sys2Proof.Machine.execPopEw rm ignored s
  | .callFar off seg => Sys2Proof.Machine.execCallFar off seg s
  | .movAlOb off => Sys2Proof.Machine.execMovAlOb off s
  | .movAxOw off => Sys2Proof.Machine.execMovAxOw off s
  | .movObAl off => Sys2Proof.Machine.execMovObAl off s
  | .movOwAx off => Sys2Proof.Machine.execMovOwAx off s
  | .testAlIb imm => Sys2Proof.Machine.execTestAlIb imm s
  | .testAxIw imm => Sys2Proof.Machine.execTestAxIw imm s
  | .movReg8Ib r imm => Sys2Proof.Machine.execMovReg8Ib r imm s
  | .movReg16Iw r imm => Sys2Proof.Machine.execMovReg16Iw r imm s
  | .retIwAlias imm => Sys2Proof.Machine.execRetIwAlias imm s
  | .retIw imm => Sys2Proof.Machine.execRetIw imm s
  | .lesM0 r m => Sys2Proof.Machine.execLesM0 r m s
  | .lesM1 r m => Sys2Proof.Machine.execLesM1 r m s
  | .lesM2 r m => Sys2Proof.Machine.execLesM2 r m s
  | .lesReg r r2 => Sys2Proof.Machine.execLesReg r r2 s
  | .ldsM0 r m => Sys2Proof.Machine.execLdsM0 r m s
  | .ldsM1 r m => Sys2Proof.Machine.execLdsM1 r m s
  | .ldsM2 r m => Sys2Proof.Machine.execLdsM2 r m s
  | .ldsReg r r2 => Sys2Proof.Machine.execLdsReg r r2 s
  | .movEbIb rm ignored imm => Sys2Proof.Machine.execMovEbIb rm ignored imm s
  | .movEwIw rm ignored imm => Sys2Proof.Machine.execMovEwIw rm ignored imm s
  | .retfIwAlias imm => Sys2Proof.Machine.execRetfIwAlias imm s
  | .retfIw imm => Sys2Proof.Machine.execRetfIw imm s
  | .intIb imm => Sys2Proof.Machine.execIntIb imm s
  | .rolEb1 rm => Sys2Proof.Machine.execRolEb1 rm s
  | .rorEb1 rm => Sys2Proof.Machine.execRorEb1 rm s
  | .rclEb1 rm => Sys2Proof.Machine.execRclEb1 rm s
  | .rcrEb1 rm => Sys2Proof.Machine.execRcrEb1 rm s
  | .shlEb1 rm => Sys2Proof.Machine.execShlEb1 rm s
  | .shrEb1 rm => Sys2Proof.Machine.execShrEb1 rm s
  | .setmoEb1 rm => Sys2Proof.Machine.execSetmoEb1 rm s
  | .sarEb1 rm => Sys2Proof.Machine.execSarEb1 rm s
  | .rolEw1 rm => Sys2Proof.Machine.execRolEw1 rm s
  | .rorEw1 rm => Sys2Proof.Machine.execRorEw1 rm s
  | .rclEw1 rm => Sys2Proof.Machine.execRclEw1 rm s
  | .rcrEw1 rm => Sys2Proof.Machine.execRcrEw1 rm s
  | .shlEw1 rm => Sys2Proof.Machine.execShlEw1 rm s
  | .shrEw1 rm => Sys2Proof.Machine.execShrEw1 rm s
  | .setmoEw1 rm => Sys2Proof.Machine.execSetmoEw1 rm s
  | .sarEw1 rm => Sys2Proof.Machine.execSarEw1 rm s
  | .rolEbCl rm => Sys2Proof.Machine.execRolEbCl rm s
  | .rorEbCl rm => Sys2Proof.Machine.execRorEbCl rm s
  | .rclEbCl rm => Sys2Proof.Machine.execRclEbCl rm s
  | .rcrEbCl rm => Sys2Proof.Machine.execRcrEbCl rm s
  | .shlEbCl rm => Sys2Proof.Machine.execShlEbCl rm s
  | .shrEbCl rm => Sys2Proof.Machine.execShrEbCl rm s
  | .setmocEbCl rm => Sys2Proof.Machine.execSetmocEbCl rm s
  | .sarEbCl rm => Sys2Proof.Machine.execSarEbCl rm s
  | .rolEwCl rm => Sys2Proof.Machine.execRolEwCl rm s
  | .rorEwCl rm => Sys2Proof.Machine.execRorEwCl rm s
  | .rclEwCl rm => Sys2Proof.Machine.execRclEwCl rm s
  | .rcrEwCl rm => Sys2Proof.Machine.execRcrEwCl rm s
  | .shlEwCl rm => Sys2Proof.Machine.execShlEwCl rm s
  | .shrEwCl rm => Sys2Proof.Machine.execShrEwCl rm s
  | .setmocEwCl rm => Sys2Proof.Machine.execSetmocEwCl rm s
  | .sarEwCl rm => Sys2Proof.Machine.execSarEwCl rm s
  | .aam imm => Sys2Proof.Machine.execAam imm s
  | .aad imm => Sys2Proof.Machine.execAad imm s
  | .esc op reg rm => Sys2Proof.Machine.execEsc op reg rm s
  | .loopnz rel => Sys2Proof.Machine.execLoopnz rel s
  | .loopz rel => Sys2Proof.Machine.execLoopz rel s
  | .loop rel => Sys2Proof.Machine.execLoop rel s
  | .jcxz rel => Sys2Proof.Machine.execJcxz rel s
  | .inAlIb port => Sys2Proof.Machine.execInAlIb port s
  | .inAxIb port => Sys2Proof.Machine.execInAxIb port s
  | .outIbAl port => Sys2Proof.Machine.execOutIbAl port s
  | .outIbAx port => Sys2Proof.Machine.execOutIbAx port s
  | .callRel16 rel => Sys2Proof.Machine.execCallRel16 rel s
  | .jmpRel16 rel => Sys2Proof.Machine.execJmpRel16 rel s
  | .jmpFar off seg => Sys2Proof.Machine.execJmpFar off seg s
  | .jmpRel8 rel => Sys2Proof.Machine.execJmpRel8 rel s
  | .testEbIb rm imm => Sys2Proof.Machine.execTestEbIb rm imm s
  | .testEbIbAlias rm imm => Sys2Proof.Machine.execTestEbIbAlias rm imm s
  | .notEb rm => Sys2Proof.Machine.execNotEb rm s
  | .negEb rm => Sys2Proof.Machine.execNegEb rm s
  | .mulEb rm => Sys2Proof.Machine.execMulEb rm s
  | .imulEb rm => Sys2Proof.Machine.execImulEb rm s
  | .divEb rm => Sys2Proof.Machine.execDivEb rm s
  | .idivEb rm => Sys2Proof.Machine.execIdivEb rm s
  | .testEwIw rm imm => Sys2Proof.Machine.execTestEwIw rm imm s
  | .testEwIwAlias rm imm => Sys2Proof.Machine.execTestEwIwAlias rm imm s
  | .notEw rm => Sys2Proof.Machine.execNotEw rm s
  | .negEw rm => Sys2Proof.Machine.execNegEw rm s
  | .mulEw rm => Sys2Proof.Machine.execMulEw rm s
  | .imulEw rm => Sys2Proof.Machine.execImulEw rm s
  | .divEw rm => Sys2Proof.Machine.execDivEw rm s
  | .idivEw rm => Sys2Proof.Machine.execIdivEw rm s
  | .incEb rm => Sys2Proof.Machine.execIncEb rm s
  | .decEb rm => Sys2Proof.Machine.execDecEb rm s
  | .grp4op2 rm => Sys2Proof.Machine.execGrp4op2 rm s
  | .grp4op3 rm => Sys2Proof.Machine.execGrp4op3 rm s
  | .grp4op4 rm => Sys2Proof.Machine.execGrp4op4 rm s
  | .grp4op5 rm => Sys2Proof.Machine.execGrp4op5 rm s
  | .grp4op6 rm => Sys2Proof.Machine.execGrp4op6 rm s
  | .grp4op7 rm => Sys2Proof.Machine.execGrp4op7 rm s
  | .incEw rm => Sys2Proof.Machine.execIncEw rm s
  | .decEw rm => Sys2Proof.Machine.execDecEw rm s
  | .callEw rm => Sys2Proof.Machine.execCallEw rm s
  | .jmpEw rm => Sys2Proof.Machine.execJmpEw rm s
  | .pushEw rm => Sys2Proof.Machine.execPushEw rm s
  | .pushEwAlias rm => Sys2Proof.Machine.execPushEwAlias rm s
  | .callMpM0 m => Sys2Proof.Machine.execCallMpM0 m s
  | .callMpM1 m => Sys2Proof.Machine.execCallMpM1 m s
  | .callMpM2 m => Sys2Proof.Machine.execCallMpM2 m s
  | .callReg r2 => Sys2Proof.Machine.execCallReg r2 s
  | .jmpMpM0 m => Sys2Proof.Machine.execJmpMpM0 m s
  | .jmpMpM1 m => Sys2Proof.Machine.execJmpMpM1 m s
  | .jmpMpM2 m => Sys2Proof.Machine.execJmpMpM2 m s
  | .jmpReg r2 => Sys2Proof.Machine.execJmpReg r2 s
  | .pushEs => Sys2Proof.Machine.execPushEs s
  | .pushCs => Sys2Proof.Machine.execPushCs s
  | .pushSs => Sys2Proof.Machine.execPushSs s
  | .pushDs => Sys2Proof.Machine.execPushDs s
  | .popEs => Sys2Proof.Machine.execPopEs s
  | .popCs => Sys2Proof.Machine.execPopCs s
  | .popSs => Sys2Proof.Machine.execPopSs s
  | .popDs => Sys2Proof.Machine.execPopDs s
  | .segEs => Sys2Proof.Machine.execSegEs s
  | .segCs => Sys2Proof.Machine.execSegCs s
  | .segSs => Sys2Proof.Machine.execSegSs s
  | .segDs => Sys2Proof.Machine.execSegDs s
  | .daa => Sys2Proof.Machine.execDaa s
  | .das => Sys2Proof.Machine.execDas s
  | .aaa => Sys2Proof.Machine.execAaa s
  | .aas => Sys2Proof.Machine.execAas s
  | .nop => Sys2Proof.Machine.execNop s
  | .xchgAxCx => Sys2Proof.Machine.execXchgAxCx s
  | .xchgAxDx => Sys2Proof.Machine.execXchgAxDx s
  | .xchgAxBx => Sys2Proof.Machine.execXchgAxBx s
  | .xchgAxSp => Sys2Proof.Machine.execXchgAxSp s
  | .xchgAxBp => Sys2Proof.Machine.execXchgAxBp s
  | .xchgAxSi => Sys2Proof.Machine.execXchgAxSi s
  | .xchgAxDi => Sys2Proof.Machine.execXchgAxDi s
  | .cbw => Sys2Proof.Machine.execCbw s
  | .cwd => Sys2Proof.Machine.execCwd s
  | .wait => Sys2Proof.Machine.execWait s
  | .pushf => Sys2Proof.Machine.execPushf s
  | .popf => Sys2Proof.Machine.execPopf s
  | .sahf => Sys2Proof.Machine.execSahf s
  | .lahf => Sys2Proof.Machine.execLahf s
  | .movsb => Sys2Proof.Machine.execMovsb s
  | .movsw => Sys2Proof.Machine.execMovsw s
  | .cmpsb => Sys2Proof.Machine.execCmpsb s
  | .cmpsw => Sys2Proof.Machine.execCmpsw s
  | .stosb => Sys2Proof.Machine.execStosb s
  | .stosw => Sys2Proof.Machine.execStosw s
  | .lodsb => Sys2Proof.Machine.execLodsb s
  | .lodsw => Sys2Proof.Machine.execLodsw s
  | .scasb => Sys2Proof.Machine.execScasb s
  | .scasw => Sys2Proof.Machine.execScasw s
  | .retAlias => Sys2Proof.Machine.execRetAlias s
  | .ret => Sys2Proof.Machine.execRet s
  | .retfAlias => Sys2Proof.Machine.execRetfAlias s
  | .retf => Sys2Proof.Machine.execRetf s
  | .int3 => Sys2Proof.Machine.execInt3 s
  | .into => Sys2Proof.Machine.execInto s
  | .iret => Sys2Proof.Machine.execIret s
  | .salc => Sys2Proof.Machine.execSalc s
  | .xlat => Sys2Proof.Machine.execXlat s
  | .inAlDx => Sys2Proof.Machine.execInAlDx s
  | .inAxDx => Sys2Proof.Machine.execInAxDx s
  | .outDxAl => Sys2Proof.Machine.execOutDxAl s
  | .outDxAx => Sys2Proof.Machine.execOutDxAx s
  | .lock => Sys2Proof.Machine.execLock s
  | .lockAlias => Sys2Proof.Machine.execLockAlias s
  | .repne => Sys2Proof.Machine.execRepne s
  | .rep => Sys2Proof.Machine.execRep s
  | .hlt => Sys2Proof.Machine.execHlt s
  | .cmc => Sys2Proof.Machine.execCmc s
  | .clc => Sys2Proof.Machine.execClc s
  | .stc => Sys2Proof.Machine.execStc s
  | .cli => Sys2Proof.Machine.execCli s
  | .sti => Sys2Proof.Machine.execSti s
  | .cld => Sys2Proof.Machine.execCld s
  | .std => Sys2Proof.Machine.execStd s

end Sys2Proof.Machine
end

