-- ==== Sys2Proof/Machine/Scheduler.lean ====
section
/-! DEFINITION. The boundary test, the entry step and the end of a step (spec/60_exceptions.md R775 to R783;
51_clock_scheduler.md R583 to R592). -/

namespace Sys2Proof.Machine

/-! ## The boundary test (R775) -/

/-- What can be due at a boundary (R775). -/
inductive Event where
  | nmi | intr | trap
  deriving DecidableEq, Repr

/-- R775, R776: the event due. An inhibited boundary has none (R782), nor has a place among the prefix bytes of an
instruction, which is no boundary (R134). -/
def State.dueEvent (s : State) : Option Event :=
  if s.intInhibit || s.eu.prefixing then none
  else if s.sys.nmiLatched then some .nmi
  else if s.sys.intrPending && s.flags.ief then some .intr
  else if s.trapLatched then some .trap
  else none

/-- What the test itself changes: the inhibition is spent, the latch of the event taken is cleared. -/
def State.afterTest (s : State) : State :=
  match s.dueEvent with
  | some .nmi => { s with sys := { s.sys with nmiLatched := false } }
  | some .intr => s
  | some .trap => { s with trapLatched := false }
  | none => { s with intInhibit := false }

/-- R383, R476: IP at which an interrupted instruction resumes: an interrupted repeated string instruction's
last prefix byte, which is two before IP since its opcode is one byte; an interrupted WAIT's first byte. -/
def State.resumeIp (s : State) : Word :=
  if s.eu.repActive then s.ip - 2#16 else if s.waitTpr then s.eu.start else s.ip

/-- R775: an event ends a halt, a WAIT and a repetition. A halt request the bus unit has not yet acknowledged stays,
so that its HaltAck runs when the bus is next idle (DESIGN CHOICE, log 45: R475 and R522 do not say). -/
def State.wake (s : State) : State :=
  { s with ip := s.resumeIp, waitTpr := false,
           eu := { s.eu with instr := none, pfx := Pfx.empty, repActive := false, opword := none, opIndex := 0 },
           sys := { s.sys with halted := false, mpc := 0 } }

/-- R775: the interrupt entry step. -/
def State.enterEvent (s : State) (e : Event) : State :=
  let s := s.wake
  match e with
  | .nmi => s.interrupt 2#8 s.ip
  | .intr => s.externalInterrupt
  | .trap => s.interrupt 1#8 s.ip

/-- R783: the single-step latch is loaded at the start of every step that is not an entry step. -/
def State.loadTrapLatch (s : State) : State := { s with trapLatched := s.flags.tf }

/-- R586: one halted step: one tick, with no instruction current. -/
def State.haltedStep (s : State) : State :=
  { s with eu := { s.eu with instr := none }, sys := s.sys.tick s.sregs.cs }

/-- What begins an instruction: where it starts, no prefix yet, no micro-operation yet. -/
def State.beginInstr (s : State) : State :=
  { s with eu := { s.eu with instr := none, pfx := Pfx.empty, start := s.ip, repActive := false, opword := none,
                             opIndex := 0, startTick := s.sys.ticks },
           sys := { s.sys with mpc := 0 } }

/-- What goes on with a repetition or a WAIT. A LOCKed WAIT still executes, so the bus is locked (R36); a LOCKed
repetition locks it again from the iteration's first bus cycle, so that DMA may be granted before (R385, R859). -/
def State.beginIteration (s : State) : State :=
  { s with eu := { s.eu with opIndex := 0 },
           sys := { s.sys with mpc := 0, biu := { s.sys.biu with lock := s.waitTpr && s.eu.pfx.lock } } }

/-- The tick a step's samplings count from: the first of the instruction it goes on with (R130), else the present
one. -/
def State.stepStart (s : State) : Nat := if s.eu.prefixing then s.eu.startTick else s.sys.ticks

/-! ## The end of a step (R583 step 4, R588) -/

/-- R588: the eight levels: IR0 the PIT, IR2 the adapter's interrupt, the others external. DESIGN CHOICE, log 28: an
external device on IR2 is joined to the adapter by an OR, of which R588 does not speak. -/
def Sys.irqLevels (y : Sys) : Byte :=
  let v := (y.video.irq y.cfg).1
  let ext := y.lines.irq
  setBit (setBit ext 0 y.pit.c0.out) 2 (v || bit ext 2)

/-- R591: which lines rose during the step that began at tick `t0`. -/
def Sys.irqRose (y : Sys) (t0 : Nat) : Byte :=
  let ext := irqRises t0 y.ticks 0#8 y.inputs
  setBit (setBit ext 0 y.pit.c0.rose) 2 ((y.video.irq y.cfg).2 || bit ext 2)

/-- R840 item 7: counter 0 makes no request until a full count has been written to it (log 4). -/
def Sys.irqQuiet (y : Sys) : Byte := bitAt (!y.pit.c0.counted) 0

/-- R588: line sampling after the step that began at tick `t0`. -/
def Sys.sampleLines (y : Sys) (t0 : Nat) : Sys :=
  let p := y.pic.sample y.irqLevels (y.irqRose t0) y.irqQuiet
  Sys.detectNmi
    { y with pic := p, intrPending := p.intr, dma := y.dma.present y.lines.drq, pit := y.pit.clearRises,
             video := y.video.clearRises }

/-- The EU after a step: an instruction that is not going on is no longer current, and its prefixes are
spent. -/
def Eu.settle (u : Eu) (waiting : Bool) : Eu :=
  if u.repActive || waiting then u else { u with instr := none, pfx := Pfx.empty }

/-- R550: RNI, at the end of every step but a halted one and one that stays in WAIT (R552). -/
def State.retire (s : State) : State :=
  if s.waitTpr || (s.sys.halted && s.eu.instr.isNone) then s else s.spend (s.euCost .rni)

/-- R583, R807: the end of a step that began at tick `t0`: `lock` is dropped, the lines are sampled. -/
def State.endStep (s : State) (t0 : Nat) : State :=
  { s with eu := s.eu.settle s.waitTpr,
           sys := Sys.sampleLines { s.sys with biu := { s.sys.biu with lock := false } } t0 }

end Sys2Proof.Machine
end

