-- ==== Sys2Proof/Decode.lean ====
section
/-! DEFINITION. Bytes to instructions and back (30_encoding.md): `decode`, total on any bytes, and after
it `encode`, both written from the spec's tables R150 to R177. One call decodes one `Instr`; a run of
prefix bytes (R134) is several calls, made inside one instruction step by `Machine.runInstr`. No byte
value is refused (R190: "Every byte sequence decodes to some instruction"); the one rejection is that the
bytes end before the instruction does. -/

namespace Sys2Proof

/-! ## Register numbers -/

/-- R150. -/
def Reg16.ofNum (n : BitVec 3) : Reg16 :=
  match n.toNat with
  | 0 => .ax | 1 => .cx | 2 => .dx | 3 => .bx | 4 => .sp | 5 => .bp | 6 => .si | _ => .di

/-- R150, the other way. -/
def Reg16.num : Reg16 → BitVec 3
  | .ax => 0#3 | .cx => 1#3 | .dx => 2#3 | .bx => 3#3 | .sp => 4#3 | .bp => 5#3 | .si => 6#3 | .di => 7#3

/-- R151. -/
def Reg8.ofNum (n : BitVec 3) : Reg8 :=
  match n.toNat with
  | 0 => .al | 1 => .cl | 2 => .dl | 3 => .bl | 4 => .ah | 5 => .ch | 6 => .dh | _ => .bh

/-- R151, the other way. -/
def Reg8.num : Reg8 → BitVec 3
  | .al => 0#3 | .cl => 1#3 | .dl => 2#3 | .bl => 3#3 | .ah => 4#3 | .ch => 5#3 | .dh => 6#3 | .bh => 7#3

/-- R152. -/
def SReg.ofNum (n : BitVec 2) : SReg :=
  match n.toNat with
  | 0 => .es | 1 => .cs | 2 => .ss | _ => .ds

/-- R152, the other way. -/
def SReg.num : SReg → BitVec 2
  | .es => 0#2 | .cs => 1#2 | .ss => 2#2 | .ds => 3#2

/-- R156: the base the r/m field names. -/
def EaBase.ofNum (n : BitVec 3) : EaBase :=
  match n.toNat with
  | 0 => .bxSi | 1 => .bxDi | 2 => .bpSi | 3 => .bpDi | 4 => .si | 5 => .di | 6 => .bp | _ => .bx

/-- R156, the other way. -/
def EaBase.num : EaBase → BitVec 3
  | .bxSi => 0#3 | .bxDi => 1#3 | .bpSi => 2#3 | .bpDi => 3#3
  | .si => 4#3 | .di => 5#3 | .bp => 6#3 | .bx => 7#3

/-- The reg field of 0x8C and 0x8E: `sreg[reg[1:0]]` with bit 2 ignored (R152). -/
def sregField (sr : SReg) (bit5 : Bool) : BitVec 3 := BitVec.ofBool bit5 ++ sr.num

/-! ## Byte order inside an instruction (R160) -/

/-- A word from its two bytes, low byte first. -/
def wordOf (lo hi : Byte) : Word := hi ++ lo

/-- The bytes of a word, low byte first. -/
def wordBytes (v : Word) : List Byte := [v.extractLsb' 0 8, v.extractLsb' 8 8]

/-- An opcode byte with a register number in bits 2:0 (R140). -/
def opReg (op : Byte) (r : BitVec 3) : Byte := op ||| r.setWidth 8

/-! ## The ModRM byte (R141) -/

/-- R141: mod in bits 7:6. -/
def modField (b : Byte) : BitVec 2 := b.extractLsb' 6 2

/-- R141: reg in bits 5:3. -/
def regField (b : Byte) : BitVec 3 := b.extractLsb' 3 3

/-- R141: r/m in bits 2:0. -/
def rmField (b : Byte) : BitVec 3 := b.extractLsb' 0 3

/-- R141: a ModRM byte from its three fields. -/
def modrmByte (md : BitVec 2) (reg rm : BitVec 3) : Byte := md ++ reg ++ rm

/-- R155: how many displacement bytes follow a ModRM byte. -/
def dispLen (b : Byte) : Nat :=
  match (modField b).toNat with
  | 0 => if rmField b = 6#3 then 2 else 0
  | 1 => 1
  | 2 => 2
  | _ => 0

/-- R155, R156: the r/m operand a ModRM byte and the bytes after it name, with the bytes left. -/
def parseRM {R : Type} (regOf : BitVec 3 → R) (b : Byte) (rest : List Byte) : Option (RM R × List Byte) :=
  match (modField b).toNat with
  | 0 =>
    if rmField b = 6#3 then
      match rest with
      | lo :: hi :: rest => some (.mem (.direct (wordOf lo hi)), rest)
      | _ => none
    else some (.mem (.ind (EaBase.ofNum (rmField b))), rest)
  | 1 =>
    match rest with
    | d :: rest => some (.mem (.ind8 (EaBase.ofNum (rmField b)) d), rest)
    | _ => none
  | 2 =>
    match rest with
    | lo :: hi :: rest => some (.mem (.ind16 (EaBase.ofNum (rmField b)) (wordOf lo hi)), rest)
    | _ => none
  | _ => some (.reg (regOf (rmField b)), rest)

/-! ## Operand shapes: the formats of R165 -/

/-- What follows an opcode byte (R165), and the instruction the operands make. -/
inductive Shape where
  /-- NP, REG, SREG, PREFIX: nothing follows. -/
  | np (i : Instr)
  /-- IMM8, ACC_IMM8, REG_IMM8, REL8. -/
  | imm8 (k : Byte → Instr)
  /-- IMM16, ACC_IMM16, REG_IMM16, MOFFS, REL16. -/
  | imm16 (k : Word → Instr)
  /-- PTR16_16. -/
  | far (k : Word → Word → Instr)
  /-- MODRM with an 8-bit r/m operand. -/
  | modrm8 (k : BitVec 3 → RM8 → Instr)
  /-- MODRM with a 16-bit r/m operand. -/
  | modrm16 (k : BitVec 3 → RM16 → Instr)
  /-- MODRM_IMM8 with an 8-bit r/m operand. -/
  | modrm8i8 (k : BitVec 3 → RM8 → Byte → Instr)
  /-- MODRM_IMM16. -/
  | modrm16i16 (k : BitVec 3 → RM16 → Word → Instr)
  /-- MODRM_SIMM8. -/
  | modrm16i8 (k : BitVec 3 → RM16 → Byte → Instr)
  /-- Opcode 0xF6: an immediate byte only when reg is 0 or 1 (R173). -/
  | group3Eb
  /-- Opcode 0xF7: an immediate word only when reg is 0 or 1 (R173). -/
  | group3Ew

/-! ## Groups (R171 to R175) and the rows split by mod (R180) -/

/-- R171, opcode 0x80. -/
def group1EbIb (reg : Nat) (rm : RM8) (imm : Byte) : Instr :=
  match reg with
  | 0 => .addEbIb rm imm
  | 1 => .orEbIb rm imm
  | 2 => .adcEbIb rm imm
  | 3 => .sbbEbIb rm imm
  | 4 => .andEbIb rm imm
  | 5 => .subEbIb rm imm
  | 6 => .xorEbIb rm imm
  | _ => .cmpEbIb rm imm

/-- R171, opcode 0x81. -/
def group1EwIw (reg : Nat) (rm : RM16) (imm : Word) : Instr :=
  match reg with
  | 0 => .addEwIw rm imm
  | 1 => .orEwIw rm imm
  | 2 => .adcEwIw rm imm
  | 3 => .sbbEwIw rm imm
  | 4 => .andEwIw rm imm
  | 5 => .subEwIw rm imm
  | 6 => .xorEwIw rm imm
  | _ => .cmpEwIw rm imm

/-- R171, opcode 0x82: as 0x80. -/
def group1EbIb82 (reg : Nat) (rm : RM8) (imm : Byte) : Instr :=
  match reg with
  | 0 => .addEbIb82 rm imm
  | 1 => .orEbIb82 rm imm
  | 2 => .adcEbIb82 rm imm
  | 3 => .sbbEbIb82 rm imm
  | 4 => .andEbIb82 rm imm
  | 5 => .subEbIb82 rm imm
  | 6 => .xorEbIb82 rm imm
  | _ => .cmpEbIb82 rm imm

/-- R171, opcode 0x83: the immediate is sign-extended by the meaning. -/
def group1EwIs (reg : Nat) (rm : RM16) (imm : Byte) : Instr :=
  match reg with
  | 0 => .addEwIs rm imm
  | 1 => .orEwIs rm imm
  | 2 => .adcEwIs rm imm
  | 3 => .sbbEwIs rm imm
  | 4 => .andEwIs rm imm
  | 5 => .subEwIs rm imm
  | 6 => .xorEwIs rm imm
  | _ => .cmpEwIs rm imm

/-- R172, opcode 0xD0. -/
def group2Eb1 (reg : Nat) (rm : RM8) : Instr :=
  match reg with
  | 0 => .rolEb1 rm
  | 1 => .rorEb1 rm
  | 2 => .rclEb1 rm
  | 3 => .rcrEb1 rm
  | 4 => .shlEb1 rm
  | 5 => .shrEb1 rm
  | 6 => .setmoEb1 rm
  | _ => .sarEb1 rm

/-- R172, opcode 0xD1. -/
def group2Ew1 (reg : Nat) (rm : RM16) : Instr :=
  match reg with
  | 0 => .rolEw1 rm
  | 1 => .rorEw1 rm
  | 2 => .rclEw1 rm
  | 3 => .rcrEw1 rm
  | 4 => .shlEw1 rm
  | 5 => .shrEw1 rm
  | 6 => .setmoEw1 rm
  | _ => .sarEw1 rm

/-- R172, opcode 0xD2. -/
def group2EbCl (reg : Nat) (rm : RM8) : Instr :=
  match reg with
  | 0 => .rolEbCl rm
  | 1 => .rorEbCl rm
  | 2 => .rclEbCl rm
  | 3 => .rcrEbCl rm
  | 4 => .shlEbCl rm
  | 5 => .shrEbCl rm
  | 6 => .setmocEbCl rm
  | _ => .sarEbCl rm

/-- R172, opcode 0xD3. -/
def group2EwCl (reg : Nat) (rm : RM16) : Instr :=
  match reg with
  | 0 => .rolEwCl rm
  | 1 => .rorEwCl rm
  | 2 => .rclEwCl rm
  | 3 => .rcrEwCl rm
  | 4 => .shlEwCl rm
  | 5 => .shrEwCl rm
  | 6 => .setmocEwCl rm
  | _ => .sarEwCl rm

/-- R173, opcode 0xF6 with reg 2 to 7. -/
def group3EbOp (reg : Nat) (rm : RM8) : Instr :=
  match reg with
  | 2 => .notEb rm
  | 3 => .negEb rm
  | 4 => .mulEb rm
  | 5 => .imulEb rm
  | 6 => .divEb rm
  | _ => .idivEb rm

/-- R173, opcode 0xF7 with reg 2 to 7. -/
def group3EwOp (reg : Nat) (rm : RM16) : Instr :=
  match reg with
  | 2 => .notEw rm
  | 3 => .negEw rm
  | 4 => .mulEw rm
  | 5 => .imulEw rm
  | 6 => .divEw rm
  | _ => .idivEw rm

/-- R174, opcode 0xFE. -/
def group4 (reg : Nat) (rm : RM8) : Instr :=
  match reg with
  | 0 => .incEb rm
  | 1 => .decEb rm
  | 2 => .grp4op2 rm
  | 3 => .grp4op3 rm
  | 4 => .grp4op4 rm
  | 5 => .grp4op5 rm
  | 6 => .grp4op6 rm
  | _ => .grp4op7 rm

/-- R176, R180: opcode 0x8D by its mod field. -/
def byModLea (r : Reg16) : RM16 → Instr
  | .reg r2 => .leaReg r r2
  | .mem m =>
    match m.mode.toNat with
    | 0 => .leaM0 r m
    | 1 => .leaM1 r m
    | _ => .leaM2 r m

/-- R176, R180: opcode 0xC4 by its mod field. -/
def byModLes (r : Reg16) : RM16 → Instr
  | .reg r2 => .lesReg r r2
  | .mem m =>
    match m.mode.toNat with
    | 0 => .lesM0 r m
    | 1 => .lesM1 r m
    | _ => .lesM2 r m

/-- R176, R180: opcode 0xC5 by its mod field. -/
def byModLds (r : Reg16) : RM16 → Instr
  | .reg r2 => .ldsReg r r2
  | .mem m =>
    match m.mode.toNat with
    | 0 => .ldsM0 r m
    | 1 => .ldsM1 r m
    | _ => .ldsM2 r m

/-- R175, R180: opcode 0xFF /3 by its mod field. -/
def byModCall : RM16 → Instr
  | .reg r2 => .callReg r2
  | .mem m =>
    match m.mode.toNat with
    | 0 => .callMpM0 m
    | 1 => .callMpM1 m
    | _ => .callMpM2 m

/-- R175, R180: opcode 0xFF /5 by its mod field. -/
def byModJmp : RM16 → Instr
  | .reg r2 => .jmpReg r2
  | .mem m =>
    match m.mode.toNat with
    | 0 => .jmpMpM0 m
    | 1 => .jmpMpM1 m
    | _ => .jmpMpM2 m

/-- R175, opcode 0xFF. -/
def group5 (reg : Nat) (rm : RM16) : Instr :=
  match reg with
  | 0 => .incEw rm
  | 1 => .decEw rm
  | 2 => .callEw rm
  | 3 => byModCall rm
  | 4 => .jmpEw rm
  | 5 => byModJmp rm
  | 6 => .pushEw rm
  | _ => .pushEwAlias rm

/-! ## The first-byte opcode map (R170), eight opcodes a row -/

/-- R170, opcodes 0x00 to 0x07. -/
def opRow00 (lo : BitVec 3) : Shape :=
  match lo.toNat with
  | 0 => .modrm8 fun reg rm => .addEbGb rm (Reg8.ofNum reg)
  | 1 => .modrm16 fun reg rm => .addEwGw rm (Reg16.ofNum reg)
  | 2 => .modrm8 fun reg rm => .addGbEb (Reg8.ofNum reg) rm
  | 3 => .modrm16 fun reg rm => .addGwEw (Reg16.ofNum reg) rm
  | 4 => .imm8 fun x => .addAlIb x
  | 5 => .imm16 fun x => .addAxIw x
  | 6 => .np .pushEs
  | _ => .np .popEs

/-- R170, opcodes 0x08 to 0x0F. -/
def opRow08 (lo : BitVec 3) : Shape :=
  match lo.toNat with
  | 0 => .modrm8 fun reg rm => .orEbGb rm (Reg8.ofNum reg)
  | 1 => .modrm16 fun reg rm => .orEwGw rm (Reg16.ofNum reg)
  | 2 => .modrm8 fun reg rm => .orGbEb (Reg8.ofNum reg) rm
  | 3 => .modrm16 fun reg rm => .orGwEw (Reg16.ofNum reg) rm
  | 4 => .imm8 fun x => .orAlIb x
  | 5 => .imm16 fun x => .orAxIw x
  | 6 => .np .pushCs
  | _ => .np .popCs

/-- R170, opcodes 0x10 to 0x17. -/
def opRow10 (lo : BitVec 3) : Shape :=
  match lo.toNat with
  | 0 => .modrm8 fun reg rm => .adcEbGb rm (Reg8.ofNum reg)
  | 1 => .modrm16 fun reg rm => .adcEwGw rm (Reg16.ofNum reg)
  | 2 => .modrm8 fun reg rm => .adcGbEb (Reg8.ofNum reg) rm
  | 3 => .modrm16 fun reg rm => .adcGwEw (Reg16.ofNum reg) rm
  | 4 => .imm8 fun x => .adcAlIb x
  | 5 => .imm16 fun x => .adcAxIw x
  | 6 => .np .pushSs
  | _ => .np .popSs

/-- R170, opcodes 0x18 to 0x1F. -/
def opRow18 (lo : BitVec 3) : Shape :=
  match lo.toNat with
  | 0 => .modrm8 fun reg rm => .sbbEbGb rm (Reg8.ofNum reg)
  | 1 => .modrm16 fun reg rm => .sbbEwGw rm (Reg16.ofNum reg)
  | 2 => .modrm8 fun reg rm => .sbbGbEb (Reg8.ofNum reg) rm
  | 3 => .modrm16 fun reg rm => .sbbGwEw (Reg16.ofNum reg) rm
  | 4 => .imm8 fun x => .sbbAlIb x
  | 5 => .imm16 fun x => .sbbAxIw x
  | 6 => .np .pushDs
  | _ => .np .popDs

/-- R170, opcodes 0x20 to 0x27. -/
def opRow20 (lo : BitVec 3) : Shape :=
  match lo.toNat with
  | 0 => .modrm8 fun reg rm => .andEbGb rm (Reg8.ofNum reg)
  | 1 => .modrm16 fun reg rm => .andEwGw rm (Reg16.ofNum reg)
  | 2 => .modrm8 fun reg rm => .andGbEb (Reg8.ofNum reg) rm
  | 3 => .modrm16 fun reg rm => .andGwEw (Reg16.ofNum reg) rm
  | 4 => .imm8 fun x => .andAlIb x
  | 5 => .imm16 fun x => .andAxIw x
  | 6 => .np .segEs
  | _ => .np .daa

/-- R170, opcodes 0x28 to 0x2F. -/
def opRow28 (lo : BitVec 3) : Shape :=
  match lo.toNat with
  | 0 => .modrm8 fun reg rm => .subEbGb rm (Reg8.ofNum reg)
  | 1 => .modrm16 fun reg rm => .subEwGw rm (Reg16.ofNum reg)
  | 2 => .modrm8 fun reg rm => .subGbEb (Reg8.ofNum reg) rm
  | 3 => .modrm16 fun reg rm => .subGwEw (Reg16.ofNum reg) rm
  | 4 => .imm8 fun x => .subAlIb x
  | 5 => .imm16 fun x => .subAxIw x
  | 6 => .np .segCs
  | _ => .np .das

/-- R170, opcodes 0x30 to 0x37. -/
def opRow30 (lo : BitVec 3) : Shape :=
  match lo.toNat with
  | 0 => .modrm8 fun reg rm => .xorEbGb rm (Reg8.ofNum reg)
  | 1 => .modrm16 fun reg rm => .xorEwGw rm (Reg16.ofNum reg)
  | 2 => .modrm8 fun reg rm => .xorGbEb (Reg8.ofNum reg) rm
  | 3 => .modrm16 fun reg rm => .xorGwEw (Reg16.ofNum reg) rm
  | 4 => .imm8 fun x => .xorAlIb x
  | 5 => .imm16 fun x => .xorAxIw x
  | 6 => .np .segSs
  | _ => .np .aaa

/-- R170, opcodes 0x38 to 0x3F. -/
def opRow38 (lo : BitVec 3) : Shape :=
  match lo.toNat with
  | 0 => .modrm8 fun reg rm => .cmpEbGb rm (Reg8.ofNum reg)
  | 1 => .modrm16 fun reg rm => .cmpEwGw rm (Reg16.ofNum reg)
  | 2 => .modrm8 fun reg rm => .cmpGbEb (Reg8.ofNum reg) rm
  | 3 => .modrm16 fun reg rm => .cmpGwEw (Reg16.ofNum reg) rm
  | 4 => .imm8 fun x => .cmpAlIb x
  | 5 => .imm16 fun x => .cmpAxIw x
  | 6 => .np .segDs
  | _ => .np .aas

/-- R170, opcodes 0x40 to 0x47. -/
def opRow40 (lo : BitVec 3) : Shape :=
  .np (.incReg16 (Reg16.ofNum lo))

/-- R170, opcodes 0x48 to 0x4F. -/
def opRow48 (lo : BitVec 3) : Shape :=
  .np (.decReg16 (Reg16.ofNum lo))

/-- R170, opcodes 0x50 to 0x57. -/
def opRow50 (lo : BitVec 3) : Shape :=
  .np (.pushReg16 (Reg16.ofNum lo))

/-- R170, opcodes 0x58 to 0x5F. -/
def opRow58 (lo : BitVec 3) : Shape :=
  .np (.popReg16 (Reg16.ofNum lo))

/-- R170, opcodes 0x60 to 0x67. -/
def opRow60 (lo : BitVec 3) : Shape :=
  match lo.toNat with
  | 0 => .imm8 fun x => .joAlias x
  | 1 => .imm8 fun x => .jnoAlias x
  | 2 => .imm8 fun x => .jbAlias x
  | 3 => .imm8 fun x => .jnbAlias x
  | 4 => .imm8 fun x => .jzAlias x
  | 5 => .imm8 fun x => .jnzAlias x
  | 6 => .imm8 fun x => .jbeAlias x
  | _ => .imm8 fun x => .jaAlias x

/-- R170, opcodes 0x68 to 0x6F. -/
def opRow68 (lo : BitVec 3) : Shape :=
  match lo.toNat with
  | 0 => .imm8 fun x => .jsAlias x
  | 1 => .imm8 fun x => .jnsAlias x
  | 2 => .imm8 fun x => .jpAlias x
  | 3 => .imm8 fun x => .jnpAlias x
  | 4 => .imm8 fun x => .jlAlias x
  | 5 => .imm8 fun x => .jgeAlias x
  | 6 => .imm8 fun x => .jleAlias x
  | _ => .imm8 fun x => .jgAlias x

/-- R170, opcodes 0x70 to 0x77. -/
def opRow70 (lo : BitVec 3) : Shape :=
  match lo.toNat with
  | 0 => .imm8 fun x => .jo x
  | 1 => .imm8 fun x => .jno x
  | 2 => .imm8 fun x => .jb x
  | 3 => .imm8 fun x => .jnb x
  | 4 => .imm8 fun x => .jz x
  | 5 => .imm8 fun x => .jnz x
  | 6 => .imm8 fun x => .jbe x
  | _ => .imm8 fun x => .ja x

/-- R170, opcodes 0x78 to 0x7F. -/
def opRow78 (lo : BitVec 3) : Shape :=
  match lo.toNat with
  | 0 => .imm8 fun x => .js x
  | 1 => .imm8 fun x => .jns x
  | 2 => .imm8 fun x => .jp x
  | 3 => .imm8 fun x => .jnp x
  | 4 => .imm8 fun x => .jl x
  | 5 => .imm8 fun x => .jge x
  | 6 => .imm8 fun x => .jle x
  | _ => .imm8 fun x => .jg x

/-- R170, opcodes 0x80 to 0x87. -/
def opRow80 (lo : BitVec 3) : Shape :=
  match lo.toNat with
  | 0 => .modrm8i8 fun reg rm imm => group1EbIb reg.toNat rm imm
  | 1 => .modrm16i16 fun reg rm imm => group1EwIw reg.toNat rm imm
  | 2 => .modrm8i8 fun reg rm imm => group1EbIb82 reg.toNat rm imm
  | 3 => .modrm16i8 fun reg rm imm => group1EwIs reg.toNat rm imm
  | 4 => .modrm8 fun reg rm => .testEbGb rm (Reg8.ofNum reg)
  | 5 => .modrm16 fun reg rm => .testEwGw rm (Reg16.ofNum reg)
  | 6 => .modrm8 fun reg rm => .xchgGbEb (Reg8.ofNum reg) rm
  | _ => .modrm16 fun reg rm => .xchgGwEw (Reg16.ofNum reg) rm

/-- R170, opcodes 0x88 to 0x8F. -/
def opRow88 (lo : BitVec 3) : Shape :=
  match lo.toNat with
  | 0 => .modrm8 fun reg rm => .movEbGb rm (Reg8.ofNum reg)
  | 1 => .modrm16 fun reg rm => .movEwGw rm (Reg16.ofNum reg)
  | 2 => .modrm8 fun reg rm => .movGbEb (Reg8.ofNum reg) rm
  | 3 => .modrm16 fun reg rm => .movGwEw (Reg16.ofNum reg) rm
  | 4 => .modrm16 fun reg rm => .movEwSw rm (SReg.ofNum (reg.extractLsb' 0 2)) (reg.getLsbD 2)
  | 5 => .modrm16 fun reg rm => byModLea (Reg16.ofNum reg) rm
  | 6 => .modrm16 fun reg rm => .movSwEw (SReg.ofNum (reg.extractLsb' 0 2)) (reg.getLsbD 2) rm
  | _ => .modrm16 fun reg rm => .popEw rm reg

/-- R170, opcodes 0x90 to 0x97. -/
def opRow90 (lo : BitVec 3) : Shape :=
  match lo.toNat with
  | 0 => .np .nop
  | 1 => .np .xchgAxCx
  | 2 => .np .xchgAxDx
  | 3 => .np .xchgAxBx
  | 4 => .np .xchgAxSp
  | 5 => .np .xchgAxBp
  | 6 => .np .xchgAxSi
  | _ => .np .xchgAxDi

/-- R170, opcodes 0x98 to 0x9F. -/
def opRow98 (lo : BitVec 3) : Shape :=
  match lo.toNat with
  | 0 => .np .cbw
  | 1 => .np .cwd
  | 2 => .far fun off seg => .callFar off seg
  | 3 => .np .wait
  | 4 => .np .pushf
  | 5 => .np .popf
  | 6 => .np .sahf
  | _ => .np .lahf

/-- R170, opcodes 0xA0 to 0xA7. -/
def opRowA0 (lo : BitVec 3) : Shape :=
  match lo.toNat with
  | 0 => .imm16 fun x => .movAlOb x
  | 1 => .imm16 fun x => .movAxOw x
  | 2 => .imm16 fun x => .movObAl x
  | 3 => .imm16 fun x => .movOwAx x
  | 4 => .np .movsb
  | 5 => .np .movsw
  | 6 => .np .cmpsb
  | _ => .np .cmpsw

/-- R170, opcodes 0xA8 to 0xAF. -/
def opRowA8 (lo : BitVec 3) : Shape :=
  match lo.toNat with
  | 0 => .imm8 fun x => .testAlIb x
  | 1 => .imm16 fun x => .testAxIw x
  | 2 => .np .stosb
  | 3 => .np .stosw
  | 4 => .np .lodsb
  | 5 => .np .lodsw
  | 6 => .np .scasb
  | _ => .np .scasw

/-- R170, opcodes 0xB0 to 0xB7. -/
def opRowB0 (lo : BitVec 3) : Shape :=
  .imm8 fun x => .movReg8Ib (Reg8.ofNum lo) x

/-- R170, opcodes 0xB8 to 0xBF. -/
def opRowB8 (lo : BitVec 3) : Shape :=
  .imm16 fun x => .movReg16Iw (Reg16.ofNum lo) x

/-- R170, opcodes 0xC0 to 0xC7. -/
def opRowC0 (lo : BitVec 3) : Shape :=
  match lo.toNat with
  | 0 => .imm16 fun x => .retIwAlias x
  | 1 => .np .retAlias
  | 2 => .imm16 fun x => .retIw x
  | 3 => .np .ret
  | 4 => .modrm16 fun reg rm => byModLes (Reg16.ofNum reg) rm
  | 5 => .modrm16 fun reg rm => byModLds (Reg16.ofNum reg) rm
  | 6 => .modrm8i8 fun reg rm imm => .movEbIb rm reg imm
  | _ => .modrm16i16 fun reg rm imm => .movEwIw rm reg imm

/-- R170, opcodes 0xC8 to 0xCF. -/
def opRowC8 (lo : BitVec 3) : Shape :=
  match lo.toNat with
  | 0 => .imm16 fun x => .retfIwAlias x
  | 1 => .np .retfAlias
  | 2 => .imm16 fun x => .retfIw x
  | 3 => .np .retf
  | 4 => .np .int3
  | 5 => .imm8 fun x => .intIb x
  | 6 => .np .into
  | _ => .np .iret

/-- R170, opcodes 0xD0 to 0xD7. -/
def opRowD0 (lo : BitVec 3) : Shape :=
  match lo.toNat with
  | 0 => .modrm8 fun reg rm => group2Eb1 reg.toNat rm
  | 1 => .modrm16 fun reg rm => group2Ew1 reg.toNat rm
  | 2 => .modrm8 fun reg rm => group2EbCl reg.toNat rm
  | 3 => .modrm16 fun reg rm => group2EwCl reg.toNat rm
  | 4 => .imm8 fun x => .aam x
  | 5 => .imm8 fun x => .aad x
  | 6 => .np .salc
  | _ => .np .xlat

/-- R170, opcodes 0xD8 to 0xDF. -/
def opRowD8 (lo : BitVec 3) : Shape :=
  .modrm16 fun reg rm => .esc lo reg rm

/-- R170, opcodes 0xE0 to 0xE7. -/
def opRowE0 (lo : BitVec 3) : Shape :=
  match lo.toNat with
  | 0 => .imm8 fun x => .loopnz x
  | 1 => .imm8 fun x => .loopz x
  | 2 => .imm8 fun x => .loop x
  | 3 => .imm8 fun x => .jcxz x
  | 4 => .imm8 fun x => .inAlIb x
  | 5 => .imm8 fun x => .inAxIb x
  | 6 => .imm8 fun x => .outIbAl x
  | _ => .imm8 fun x => .outIbAx x

/-- R170, opcodes 0xE8 to 0xEF. -/
def opRowE8 (lo : BitVec 3) : Shape :=
  match lo.toNat with
  | 0 => .imm16 fun x => .callRel16 x
  | 1 => .imm16 fun x => .jmpRel16 x
  | 2 => .far fun off seg => .jmpFar off seg
  | 3 => .imm8 fun x => .jmpRel8 x
  | 4 => .np .inAlDx
  | 5 => .np .inAxDx
  | 6 => .np .outDxAl
  | _ => .np .outDxAx

/-- R170, opcodes 0xF0 to 0xF7. -/
def opRowF0 (lo : BitVec 3) : Shape :=
  match lo.toNat with
  | 0 => .np .lock
  | 1 => .np .lockAlias
  | 2 => .np .repne
  | 3 => .np .rep
  | 4 => .np .hlt
  | 5 => .np .cmc
  | 6 => .group3Eb
  | _ => .group3Ew

/-- R170, opcodes 0xF8 to 0xFF. -/
def opRowF8 (lo : BitVec 3) : Shape :=
  match lo.toNat with
  | 0 => .np .clc
  | 1 => .np .stc
  | 2 => .np .cli
  | 3 => .np .sti
  | 4 => .np .cld
  | 5 => .np .std
  | 6 => .modrm8 fun reg rm => group4 reg.toNat rm
  | _ => .modrm16 fun reg rm => group5 reg.toNat rm

/-- R132, R170: the shape of every one of the 256 opcode bytes. -/
def shapeOf (b : Byte) : Shape :=
  let lo : BitVec 3 := b.extractLsb' 0 3
  match (b.extractLsb' 3 5 : BitVec 5).toNat with
  | 0 => opRow00 lo
  | 1 => opRow08 lo
  | 2 => opRow10 lo
  | 3 => opRow18 lo
  | 4 => opRow20 lo
  | 5 => opRow28 lo
  | 6 => opRow30 lo
  | 7 => opRow38 lo
  | 8 => opRow40 lo
  | 9 => opRow48 lo
  | 10 => opRow50 lo
  | 11 => opRow58 lo
  | 12 => opRow60 lo
  | 13 => opRow68 lo
  | 14 => opRow70 lo
  | 15 => opRow78 lo
  | 16 => opRow80 lo
  | 17 => opRow88 lo
  | 18 => opRow90 lo
  | 19 => opRow98 lo
  | 20 => opRowA0 lo
  | 21 => opRowA8 lo
  | 22 => opRowB0 lo
  | 23 => opRowB8 lo
  | 24 => opRowC0 lo
  | 25 => opRowC8 lo
  | 26 => opRowD0 lo
  | 27 => opRowD8 lo
  | 28 => opRowE0 lo
  | 29 => opRowE8 lo
  | 30 => opRowF0 lo
  | _ => opRowF8 lo

/-! ## Decoding -/

/-- What decoding some bytes gives: an instruction with the bytes left over, or the rejection that they
end too soon. -/
inductive DecodeResult where
  | ok (i : Instr) (rest : List Byte)
  /-- The bytes end inside the instruction. -/
  | truncated
  deriving DecidableEq, Repr

/-- Whether a ModRM byte follows the opcode (R165). -/
def Shape.hasModRM : Shape → Bool
  | .np _ | .imm8 _ | .imm16 _ | .far _ => false
  | _ => true

/-- How many immediate bytes the format has (R165, R185), given the ModRM reg field. -/
def Shape.immLen (reg : BitVec 3) : Shape → Nat
  | .np _ | .modrm8 _ | .modrm16 _ => 0
  | .imm8 _ | .modrm8i8 _ | .modrm16i8 _ => 1
  | .imm16 _ | .modrm16i16 _ => 2
  | .far _ => 4
  | .group3Eb => if reg.toNat < 2 then 1 else 0
  | .group3Ew => if reg.toNat < 2 then 2 else 0

/-- Take one immediate byte (R160). -/
def takeImm8 (k : Byte → Instr) : List Byte → DecodeResult
  | x :: rest => .ok (k x) rest
  | [] => .truncated

/-- Take one immediate word, low byte first (R160). -/
def takeImm16 (k : Word → Instr) : List Byte → DecodeResult
  | lo :: hi :: rest => .ok (k (wordOf lo hi)) rest
  | _ => .truncated

/-- Take a ModRM operand and go on with the bytes after it. -/
def takeRM {R : Type} (regOf : BitVec 3 → R) (k : BitVec 3 → RM R → List Byte → DecodeResult) :
    List Byte → DecodeResult
  | [] => .truncated
  | b :: rest =>
    match parseRM regOf b rest with
    | some (rm, rest) => k (regField b) rm rest
    | none => .truncated

/-- Decode what follows an opcode byte of the given shape (R130, R165). -/
def Shape.decode : Shape → List Byte → DecodeResult
  | .np i, bs => .ok i bs
  | .imm8 k, bs => takeImm8 k bs
  | .imm16 k, bs => takeImm16 k bs
  | .far k, bs =>
    match bs with
    | a :: b :: c :: d :: rest => .ok (k (wordOf a b) (wordOf c d)) rest
    | _ => .truncated
  | .modrm8 k, bs => takeRM Reg8.ofNum (fun reg rm rest => .ok (k reg rm) rest) bs
  | .modrm16 k, bs => takeRM Reg16.ofNum (fun reg rm rest => .ok (k reg rm) rest) bs
  | .modrm8i8 k, bs => takeRM Reg8.ofNum (fun reg rm rest => takeImm8 (k reg rm) rest) bs
  | .modrm16i16 k, bs => takeRM Reg16.ofNum (fun reg rm rest => takeImm16 (k reg rm) rest) bs
  | .modrm16i8 k, bs => takeRM Reg16.ofNum (fun reg rm rest => takeImm8 (k reg rm) rest) bs
  | .group3Eb, bs =>
    takeRM Reg8.ofNum (fun reg rm rest =>
      match reg.toNat with
      | 0 => takeImm8 (fun imm => .testEbIb rm imm) rest
      | 1 => takeImm8 (fun imm => .testEbIbAlias rm imm) rest
      | n => .ok (group3EbOp n rm) rest) bs
  | .group3Ew, bs =>
    takeRM Reg16.ofNum (fun reg rm rest =>
      match reg.toNat with
      | 0 => takeImm16 (fun imm => .testEwIw rm imm) rest
      | 1 => takeImm16 (fun imm => .testEwIwAlias rm imm) rest
      | n => .ok (group3EwOp n rm) rest) bs

/-- Decode one instruction (R132): total, and every opcode byte selects a row (R190). -/
def decode : List Byte → DecodeResult
  | [] => .truncated
  | b :: rest => (shapeOf b).decode rest

/-! ## Encoding -/

/-- The ModRM byte and displacement of a memory operand under a reg field (R141, R155). -/
def MemOp.encode (m : MemOp) (reg : BitVec 3) : List Byte :=
  match m with
  | .direct off => modrmByte 0#2 reg 6#3 :: wordBytes off
  | .ind b => [modrmByte 0#2 reg b.num]
  | .ind8 b d => [modrmByte 1#2 reg b.num, d]
  | .ind16 b d => modrmByte 2#2 reg b.num :: wordBytes d

/-- The ModRM byte and displacement of an 8-bit r/m operand. -/
def RM.encode8 (rm : RM8) (reg : BitVec 3) : List Byte :=
  match rm with
  | .reg r => [modrmByte 3#2 reg r.num]
  | .mem m => m.encode reg

/-- The ModRM byte and displacement of a 16-bit r/m operand. -/
def RM.encode16 (rm : RM16) (reg : BitVec 3) : List Byte :=
  match rm with
  | .reg r => [modrmByte 3#2 reg r.num]
  | .mem m => m.encode reg

/-- The bytes of an instruction, in memory order (R130, R170 to R177). -/
def encode : Instr → List Byte
  | .addEbGb rm r => 0x00#8 :: rm.encode8 r.num
  | .addEwGw rm r => 0x01#8 :: rm.encode16 r.num
  | .addGbEb r rm => 0x02#8 :: rm.encode8 r.num
  | .addGwEw r rm => 0x03#8 :: rm.encode16 r.num
  | .addAlIb imm => [0x04#8, imm]
  | .addAxIw imm => 0x05#8 :: wordBytes imm
  | .orEbGb rm r => 0x08#8 :: rm.encode8 r.num
  | .orEwGw rm r => 0x09#8 :: rm.encode16 r.num
  | .orGbEb r rm => 0x0A#8 :: rm.encode8 r.num
  | .orGwEw r rm => 0x0B#8 :: rm.encode16 r.num
  | .orAlIb imm => [0x0C#8, imm]
  | .orAxIw imm => 0x0D#8 :: wordBytes imm
  | .adcEbGb rm r => 0x10#8 :: rm.encode8 r.num
  | .adcEwGw rm r => 0x11#8 :: rm.encode16 r.num
  | .adcGbEb r rm => 0x12#8 :: rm.encode8 r.num
  | .adcGwEw r rm => 0x13#8 :: rm.encode16 r.num
  | .adcAlIb imm => [0x14#8, imm]
  | .adcAxIw imm => 0x15#8 :: wordBytes imm
  | .sbbEbGb rm r => 0x18#8 :: rm.encode8 r.num
  | .sbbEwGw rm r => 0x19#8 :: rm.encode16 r.num
  | .sbbGbEb r rm => 0x1A#8 :: rm.encode8 r.num
  | .sbbGwEw r rm => 0x1B#8 :: rm.encode16 r.num
  | .sbbAlIb imm => [0x1C#8, imm]
  | .sbbAxIw imm => 0x1D#8 :: wordBytes imm
  | .andEbGb rm r => 0x20#8 :: rm.encode8 r.num
  | .andEwGw rm r => 0x21#8 :: rm.encode16 r.num
  | .andGbEb r rm => 0x22#8 :: rm.encode8 r.num
  | .andGwEw r rm => 0x23#8 :: rm.encode16 r.num
  | .andAlIb imm => [0x24#8, imm]
  | .andAxIw imm => 0x25#8 :: wordBytes imm
  | .subEbGb rm r => 0x28#8 :: rm.encode8 r.num
  | .subEwGw rm r => 0x29#8 :: rm.encode16 r.num
  | .subGbEb r rm => 0x2A#8 :: rm.encode8 r.num
  | .subGwEw r rm => 0x2B#8 :: rm.encode16 r.num
  | .subAlIb imm => [0x2C#8, imm]
  | .subAxIw imm => 0x2D#8 :: wordBytes imm
  | .xorEbGb rm r => 0x30#8 :: rm.encode8 r.num
  | .xorEwGw rm r => 0x31#8 :: rm.encode16 r.num
  | .xorGbEb r rm => 0x32#8 :: rm.encode8 r.num
  | .xorGwEw r rm => 0x33#8 :: rm.encode16 r.num
  | .xorAlIb imm => [0x34#8, imm]
  | .xorAxIw imm => 0x35#8 :: wordBytes imm
  | .cmpEbGb rm r => 0x38#8 :: rm.encode8 r.num
  | .cmpEwGw rm r => 0x39#8 :: rm.encode16 r.num
  | .cmpGbEb r rm => 0x3A#8 :: rm.encode8 r.num
  | .cmpGwEw r rm => 0x3B#8 :: rm.encode16 r.num
  | .cmpAlIb imm => [0x3C#8, imm]
  | .cmpAxIw imm => 0x3D#8 :: wordBytes imm
  | .incReg16 r => [opReg 0x40#8 r.num]
  | .decReg16 r => [opReg 0x48#8 r.num]
  | .pushReg16 r => [opReg 0x50#8 r.num]
  | .popReg16 r => [opReg 0x58#8 r.num]
  | .joAlias rel => [0x60#8, rel]
  | .jnoAlias rel => [0x61#8, rel]
  | .jbAlias rel => [0x62#8, rel]
  | .jnbAlias rel => [0x63#8, rel]
  | .jzAlias rel => [0x64#8, rel]
  | .jnzAlias rel => [0x65#8, rel]
  | .jbeAlias rel => [0x66#8, rel]
  | .jaAlias rel => [0x67#8, rel]
  | .jsAlias rel => [0x68#8, rel]
  | .jnsAlias rel => [0x69#8, rel]
  | .jpAlias rel => [0x6A#8, rel]
  | .jnpAlias rel => [0x6B#8, rel]
  | .jlAlias rel => [0x6C#8, rel]
  | .jgeAlias rel => [0x6D#8, rel]
  | .jleAlias rel => [0x6E#8, rel]
  | .jgAlias rel => [0x6F#8, rel]
  | .jo rel => [0x70#8, rel]
  | .jno rel => [0x71#8, rel]
  | .jb rel => [0x72#8, rel]
  | .jnb rel => [0x73#8, rel]
  | .jz rel => [0x74#8, rel]
  | .jnz rel => [0x75#8, rel]
  | .jbe rel => [0x76#8, rel]
  | .ja rel => [0x77#8, rel]
  | .js rel => [0x78#8, rel]
  | .jns rel => [0x79#8, rel]
  | .jp rel => [0x7A#8, rel]
  | .jnp rel => [0x7B#8, rel]
  | .jl rel => [0x7C#8, rel]
  | .jge rel => [0x7D#8, rel]
  | .jle rel => [0x7E#8, rel]
  | .jg rel => [0x7F#8, rel]
  | .addEbIb rm imm => 0x80#8 :: (rm.encode8 0#3 ++ [imm])
  | .orEbIb rm imm => 0x80#8 :: (rm.encode8 1#3 ++ [imm])
  | .adcEbIb rm imm => 0x80#8 :: (rm.encode8 2#3 ++ [imm])
  | .sbbEbIb rm imm => 0x80#8 :: (rm.encode8 3#3 ++ [imm])
  | .andEbIb rm imm => 0x80#8 :: (rm.encode8 4#3 ++ [imm])
  | .subEbIb rm imm => 0x80#8 :: (rm.encode8 5#3 ++ [imm])
  | .xorEbIb rm imm => 0x80#8 :: (rm.encode8 6#3 ++ [imm])
  | .cmpEbIb rm imm => 0x80#8 :: (rm.encode8 7#3 ++ [imm])
  | .addEwIw rm imm => 0x81#8 :: (rm.encode16 0#3 ++ wordBytes imm)
  | .orEwIw rm imm => 0x81#8 :: (rm.encode16 1#3 ++ wordBytes imm)
  | .adcEwIw rm imm => 0x81#8 :: (rm.encode16 2#3 ++ wordBytes imm)
  | .sbbEwIw rm imm => 0x81#8 :: (rm.encode16 3#3 ++ wordBytes imm)
  | .andEwIw rm imm => 0x81#8 :: (rm.encode16 4#3 ++ wordBytes imm)
  | .subEwIw rm imm => 0x81#8 :: (rm.encode16 5#3 ++ wordBytes imm)
  | .xorEwIw rm imm => 0x81#8 :: (rm.encode16 6#3 ++ wordBytes imm)
  | .cmpEwIw rm imm => 0x81#8 :: (rm.encode16 7#3 ++ wordBytes imm)
  | .addEbIb82 rm imm => 0x82#8 :: (rm.encode8 0#3 ++ [imm])
  | .orEbIb82 rm imm => 0x82#8 :: (rm.encode8 1#3 ++ [imm])
  | .adcEbIb82 rm imm => 0x82#8 :: (rm.encode8 2#3 ++ [imm])
  | .sbbEbIb82 rm imm => 0x82#8 :: (rm.encode8 3#3 ++ [imm])
  | .andEbIb82 rm imm => 0x82#8 :: (rm.encode8 4#3 ++ [imm])
  | .subEbIb82 rm imm => 0x82#8 :: (rm.encode8 5#3 ++ [imm])
  | .xorEbIb82 rm imm => 0x82#8 :: (rm.encode8 6#3 ++ [imm])
  | .cmpEbIb82 rm imm => 0x82#8 :: (rm.encode8 7#3 ++ [imm])
  | .addEwIs rm imm => 0x83#8 :: (rm.encode16 0#3 ++ [imm])
  | .orEwIs rm imm => 0x83#8 :: (rm.encode16 1#3 ++ [imm])
  | .adcEwIs rm imm => 0x83#8 :: (rm.encode16 2#3 ++ [imm])
  | .sbbEwIs rm imm => 0x83#8 :: (rm.encode16 3#3 ++ [imm])
  | .andEwIs rm imm => 0x83#8 :: (rm.encode16 4#3 ++ [imm])
  | .subEwIs rm imm => 0x83#8 :: (rm.encode16 5#3 ++ [imm])
  | .xorEwIs rm imm => 0x83#8 :: (rm.encode16 6#3 ++ [imm])
  | .cmpEwIs rm imm => 0x83#8 :: (rm.encode16 7#3 ++ [imm])
  | .testEbGb rm r => 0x84#8 :: rm.encode8 r.num
  | .testEwGw rm r => 0x85#8 :: rm.encode16 r.num
  | .xchgGbEb r rm => 0x86#8 :: rm.encode8 r.num
  | .xchgGwEw r rm => 0x87#8 :: rm.encode16 r.num
  | .movEbGb rm r => 0x88#8 :: rm.encode8 r.num
  | .movEwGw rm r => 0x89#8 :: rm.encode16 r.num
  | .movGbEb r rm => 0x8A#8 :: rm.encode8 r.num
  | .movGwEw r rm => 0x8B#8 :: rm.encode16 r.num
  | .movEwSw rm sr bit5 => 0x8C#8 :: rm.encode16 (sregField sr bit5)
  | .leaM0 r m => 0x8D#8 :: m.encode r.num
  | .leaM1 r m => 0x8D#8 :: m.encode r.num
  | .leaM2 r m => 0x8D#8 :: m.encode r.num
  | .leaReg r r2 => 0x8D#8 :: [modrmByte 3#2 r.num r2.num]
  | .movSwEw sr bit5 rm => 0x8E#8 :: rm.encode16 (sregField sr bit5)
  | .popEw rm ignored => 0x8F#8 :: rm.encode16 ignored
  | .callFar off seg => 0x9A#8 :: (wordBytes off ++ wordBytes seg)
  | .movAlOb off => 0xA0#8 :: wordBytes off
  | .movAxOw off => 0xA1#8 :: wordBytes off
  | .movObAl off => 0xA2#8 :: wordBytes off
  | .movOwAx off => 0xA3#8 :: wordBytes off
  | .testAlIb imm => [0xA8#8, imm]
  | .testAxIw imm => 0xA9#8 :: wordBytes imm
  | .movReg8Ib r imm => [opReg 0xB0#8 r.num, imm]
  | .movReg16Iw r imm => opReg 0xB8#8 r.num :: wordBytes imm
  | .retIwAlias imm => 0xC0#8 :: wordBytes imm
  | .retIw imm => 0xC2#8 :: wordBytes imm
  | .lesM0 r m => 0xC4#8 :: m.encode r.num
  | .lesM1 r m => 0xC4#8 :: m.encode r.num
  | .lesM2 r m => 0xC4#8 :: m.encode r.num
  | .lesReg r r2 => 0xC4#8 :: [modrmByte 3#2 r.num r2.num]
  | .ldsM0 r m => 0xC5#8 :: m.encode r.num
  | .ldsM1 r m => 0xC5#8 :: m.encode r.num
  | .ldsM2 r m => 0xC5#8 :: m.encode r.num
  | .ldsReg r r2 => 0xC5#8 :: [modrmByte 3#2 r.num r2.num]
  | .movEbIb rm ignored imm => 0xC6#8 :: (rm.encode8 ignored ++ [imm])
  | .movEwIw rm ignored imm => 0xC7#8 :: (rm.encode16 ignored ++ wordBytes imm)
  | .retfIwAlias imm => 0xC8#8 :: wordBytes imm
  | .retfIw imm => 0xCA#8 :: wordBytes imm
  | .intIb imm => [0xCD#8, imm]
  | .rolEb1 rm => 0xD0#8 :: rm.encode8 0#3
  | .rorEb1 rm => 0xD0#8 :: rm.encode8 1#3
  | .rclEb1 rm => 0xD0#8 :: rm.encode8 2#3
  | .rcrEb1 rm => 0xD0#8 :: rm.encode8 3#3
  | .shlEb1 rm => 0xD0#8 :: rm.encode8 4#3
  | .shrEb1 rm => 0xD0#8 :: rm.encode8 5#3
  | .setmoEb1 rm => 0xD0#8 :: rm.encode8 6#3
  | .sarEb1 rm => 0xD0#8 :: rm.encode8 7#3
  | .rolEw1 rm => 0xD1#8 :: rm.encode16 0#3
  | .rorEw1 rm => 0xD1#8 :: rm.encode16 1#3
  | .rclEw1 rm => 0xD1#8 :: rm.encode16 2#3
  | .rcrEw1 rm => 0xD1#8 :: rm.encode16 3#3
  | .shlEw1 rm => 0xD1#8 :: rm.encode16 4#3
  | .shrEw1 rm => 0xD1#8 :: rm.encode16 5#3
  | .setmoEw1 rm => 0xD1#8 :: rm.encode16 6#3
  | .sarEw1 rm => 0xD1#8 :: rm.encode16 7#3
  | .rolEbCl rm => 0xD2#8 :: rm.encode8 0#3
  | .rorEbCl rm => 0xD2#8 :: rm.encode8 1#3
  | .rclEbCl rm => 0xD2#8 :: rm.encode8 2#3
  | .rcrEbCl rm => 0xD2#8 :: rm.encode8 3#3
  | .shlEbCl rm => 0xD2#8 :: rm.encode8 4#3
  | .shrEbCl rm => 0xD2#8 :: rm.encode8 5#3
  | .setmocEbCl rm => 0xD2#8 :: rm.encode8 6#3
  | .sarEbCl rm => 0xD2#8 :: rm.encode8 7#3
  | .rolEwCl rm => 0xD3#8 :: rm.encode16 0#3
  | .rorEwCl rm => 0xD3#8 :: rm.encode16 1#3
  | .rclEwCl rm => 0xD3#8 :: rm.encode16 2#3
  | .rcrEwCl rm => 0xD3#8 :: rm.encode16 3#3
  | .shlEwCl rm => 0xD3#8 :: rm.encode16 4#3
  | .shrEwCl rm => 0xD3#8 :: rm.encode16 5#3
  | .setmocEwCl rm => 0xD3#8 :: rm.encode16 6#3
  | .sarEwCl rm => 0xD3#8 :: rm.encode16 7#3
  | .aam imm => [0xD4#8, imm]
  | .aad imm => [0xD5#8, imm]
  | .esc op reg rm => opReg 0xD8#8 op :: rm.encode16 reg
  | .loopnz rel => [0xE0#8, rel]
  | .loopz rel => [0xE1#8, rel]
  | .loop rel => [0xE2#8, rel]
  | .jcxz rel => [0xE3#8, rel]
  | .inAlIb port => [0xE4#8, port]
  | .inAxIb port => [0xE5#8, port]
  | .outIbAl port => [0xE6#8, port]
  | .outIbAx port => [0xE7#8, port]
  | .callRel16 rel => 0xE8#8 :: wordBytes rel
  | .jmpRel16 rel => 0xE9#8 :: wordBytes rel
  | .jmpFar off seg => 0xEA#8 :: (wordBytes off ++ wordBytes seg)
  | .jmpRel8 rel => [0xEB#8, rel]
  | .testEbIb rm imm => 0xF6#8 :: (rm.encode8 0#3 ++ [imm])
  | .testEbIbAlias rm imm => 0xF6#8 :: (rm.encode8 1#3 ++ [imm])
  | .notEb rm => 0xF6#8 :: rm.encode8 2#3
  | .negEb rm => 0xF6#8 :: rm.encode8 3#3
  | .mulEb rm => 0xF6#8 :: rm.encode8 4#3
  | .imulEb rm => 0xF6#8 :: rm.encode8 5#3
  | .divEb rm => 0xF6#8 :: rm.encode8 6#3
  | .idivEb rm => 0xF6#8 :: rm.encode8 7#3
  | .testEwIw rm imm => 0xF7#8 :: (rm.encode16 0#3 ++ wordBytes imm)
  | .testEwIwAlias rm imm => 0xF7#8 :: (rm.encode16 1#3 ++ wordBytes imm)
  | .notEw rm => 0xF7#8 :: rm.encode16 2#3
  | .negEw rm => 0xF7#8 :: rm.encode16 3#3
  | .mulEw rm => 0xF7#8 :: rm.encode16 4#3
  | .imulEw rm => 0xF7#8 :: rm.encode16 5#3
  | .divEw rm => 0xF7#8 :: rm.encode16 6#3
  | .idivEw rm => 0xF7#8 :: rm.encode16 7#3
  | .incEb rm => 0xFE#8 :: rm.encode8 0#3
  | .decEb rm => 0xFE#8 :: rm.encode8 1#3
  | .grp4op2 rm => 0xFE#8 :: rm.encode8 2#3
  | .grp4op3 rm => 0xFE#8 :: rm.encode8 3#3
  | .grp4op4 rm => 0xFE#8 :: rm.encode8 4#3
  | .grp4op5 rm => 0xFE#8 :: rm.encode8 5#3
  | .grp4op6 rm => 0xFE#8 :: rm.encode8 6#3
  | .grp4op7 rm => 0xFE#8 :: rm.encode8 7#3
  | .incEw rm => 0xFF#8 :: rm.encode16 0#3
  | .decEw rm => 0xFF#8 :: rm.encode16 1#3
  | .callEw rm => 0xFF#8 :: rm.encode16 2#3
  | .jmpEw rm => 0xFF#8 :: rm.encode16 4#3
  | .pushEw rm => 0xFF#8 :: rm.encode16 6#3
  | .pushEwAlias rm => 0xFF#8 :: rm.encode16 7#3
  | .callMpM0 m => 0xFF#8 :: m.encode 3#3
  | .callMpM1 m => 0xFF#8 :: m.encode 3#3
  | .callMpM2 m => 0xFF#8 :: m.encode 3#3
  | .callReg r2 => 0xFF#8 :: [modrmByte 3#2 3#3 r2.num]
  | .jmpMpM0 m => 0xFF#8 :: m.encode 5#3
  | .jmpMpM1 m => 0xFF#8 :: m.encode 5#3
  | .jmpMpM2 m => 0xFF#8 :: m.encode 5#3
  | .jmpReg r2 => 0xFF#8 :: [modrmByte 3#2 5#3 r2.num]
  | .pushEs => [0x06#8]
  | .pushCs => [0x0E#8]
  | .pushSs => [0x16#8]
  | .pushDs => [0x1E#8]
  | .popEs => [0x07#8]
  | .popCs => [0x0F#8]
  | .popSs => [0x17#8]
  | .popDs => [0x1F#8]
  | .segEs => [0x26#8]
  | .segCs => [0x2E#8]
  | .segSs => [0x36#8]
  | .segDs => [0x3E#8]
  | .daa => [0x27#8]
  | .das => [0x2F#8]
  | .aaa => [0x37#8]
  | .aas => [0x3F#8]
  | .nop => [0x90#8]
  | .xchgAxCx => [0x91#8]
  | .xchgAxDx => [0x92#8]
  | .xchgAxBx => [0x93#8]
  | .xchgAxSp => [0x94#8]
  | .xchgAxBp => [0x95#8]
  | .xchgAxSi => [0x96#8]
  | .xchgAxDi => [0x97#8]
  | .cbw => [0x98#8]
  | .cwd => [0x99#8]
  | .wait => [0x9B#8]
  | .pushf => [0x9C#8]
  | .popf => [0x9D#8]
  | .sahf => [0x9E#8]
  | .lahf => [0x9F#8]
  | .movsb => [0xA4#8]
  | .movsw => [0xA5#8]
  | .cmpsb => [0xA6#8]
  | .cmpsw => [0xA7#8]
  | .stosb => [0xAA#8]
  | .stosw => [0xAB#8]
  | .lodsb => [0xAC#8]
  | .lodsw => [0xAD#8]
  | .scasb => [0xAE#8]
  | .scasw => [0xAF#8]
  | .retAlias => [0xC1#8]
  | .ret => [0xC3#8]
  | .retfAlias => [0xC9#8]
  | .retf => [0xCB#8]
  | .int3 => [0xCC#8]
  | .into => [0xCE#8]
  | .iret => [0xCF#8]
  | .salc => [0xD6#8]
  | .xlat => [0xD7#8]
  | .inAlDx => [0xEC#8]
  | .inAxDx => [0xED#8]
  | .outDxAl => [0xEE#8]
  | .outDxAx => [0xEF#8]
  | .lock => [0xF0#8]
  | .lockAlias => [0xF1#8]
  | .repne => [0xF2#8]
  | .rep => [0xF3#8]
  | .hlt => [0xF4#8]
  | .cmc => [0xF5#8]
  | .clc => [0xF8#8]
  | .stc => [0xF9#8]
  | .cli => [0xFA#8]
  | .sti => [0xFB#8]
  | .cld => [0xFC#8]
  | .std => [0xFD#8]

/-! ## The host's reading of a table word -/

/-- Byte `n` of a number. -/
def byteAt (w n : Nat) : Byte := BitVec.ofNat 8 (w >>> (8 * n))

/-- The bytes of an instruction whose bits spec/opcode_table.json numbers `w`, `nbits` bits long. The
table's word is W = b0 * 256 + b1 (R180): the first byte is bits 15:8 of a 16-bit word, so a 16-bit word
is stored high byte first; a single last byte stands for itself. -/
def tableBytes (nbits w : Nat) : List Byte :=
  match nbits / 8 with
  | 0 => []
  | 1 => [byteAt w 0]
  | 2 => [byteAt w 1, byteAt w 0]
  | 3 => [byteAt w 1, byteAt w 0, byteAt w 2]
  | _ => [byteAt w 1, byteAt w 0, byteAt w 3, byteAt w 2]

/-- The bytes the host's word stands for, with zeros after them up to the longest instruction (R130: six
bytes without prefixes; two more so that a prefix row's word holds a whole instruction). -/
def tableWordBytes (nbits w : Nat) : List Byte :=
  (tableBytes nbits w ++ [0, 0, 0, 0, 0, 0, 0, 0]).take 8

/-- The instruction the decoder reads from a word numbered as spec/opcode_table.json numbers it. -/
def decodeTableWord (nbits w : Nat) : Option Instr :=
  if nbits < 8 then none
  else
    match decode (tableWordBytes nbits w) with
    | .ok i _ => some i
    | .truncated => none

end Sys2Proof
end

