-- ==== Sys2Proof/Machine/Sequencer.lean ====
section
/-! DEFINITION. Fetching an instruction's bytes through the prefetch queue and decoding them (spec/
30_encoding.md R131, R185; 50_biu_eu_sequencing.md R551). -/

namespace Sys2Proof.Machine

/-- R131: `FetchByte()`: the queue's oldest byte; IP advances by one. -/
def State.fetchByte (s : State) : Option (Byte × State) :=
  match s.sys.qfetch s.sregs.cs s.sys.stallBound with
  | some x => some (x.1, { s with sys := x.2, ip := s.ip + 1#16 })
  | none => none

/-- `n` instruction bytes in ascending order, after those already taken. -/
def State.fetchBytes : Nat → List Byte → State → Option (List Byte × State)
  | 0, got, s => some (got, s)
  | n + 1, got, s =>
    match s.fetchByte with
    | some x => State.fetchBytes n (got ++ [x.1]) x.2
    | none => none

/-- What EuCost is looked up by, once the opcode byte is known (R552): it is micro-operation 0. -/
def State.beginOpcode (s : State) (b : Byte) : State :=
  { s with eu := { s.eu with opword := some (word 0#8 b), opIndex := s.sys.mpc - 1 } }

/-- The ModRM byte beside it. -/
def State.noteModRM (s : State) (b : Byte) : State :=
  { s with eu := { s.eu with opword := s.eu.opword.map fun w => word b (loByte w) } }

/-- R551: the EA step after the displacement, when the ModRM byte names memory: the address goes to the EA
latch (R33). -/
def State.eaStep (s : State) (modrm : Byte) (disp : List Byte) : State :=
  match parseRM Reg16.ofNum modrm disp with
  | some (.mem m, _) => State.spend { s with eu := { s.eu with ea := s.effAddr m } } (s.euCost .ea)
  | _ => s

/-- R551, R155: the ModRM byte and the displacement, with the EA step. The answer's list ends with them; its
reg field tells a group-3 opcode's immediate (R173). -/
def State.fetchModRM (s : State) (got : List Byte) : Option (BitVec 3 × List Byte × State) :=
  match s.fetchByte with
  | none => none
  | some x =>
    match State.fetchBytes (dispLen x.1) [] (x.2.noteModRM x.1) with
    | none => none
    | some y => some (regField x.1, got ++ [x.1] ++ y.1, y.2.eaStep x.1 y.1)

/-- The bytes of one instruction, prefixes apart, in the order R551 takes them: every immediate before the
instruction's own operations, where R326's pseudocode, like others, reads the r/m operand before `FetchByte()` of the
immediate (DESIGN CHOICE, log 50). -/
def State.fetchCode (s : State) : Option (List Byte × State) :=
  match s.fetchByte with
  | none => none
  | some x =>
    let sh := shapeOf x.1
    let s := x.2.beginOpcode x.1
    if sh.hasModRM then
      match s.fetchModRM [x.1] with
      | none => none
      | some y => State.fetchBytes (sh.immLen y.1) y.2.1 y.2.2
    else State.fetchBytes (sh.immLen 0#3) [x.1] s

/-- R132: fetch and decode one instruction. -/
def State.fetchInstr (s : State) : Option (Instr × State) :=
  match s.fetchCode with
  | none => none
  | some x =>
    match decode x.1 with
    | .ok i _ => some (i, x.2)
    | .truncated => none

end Sys2Proof.Machine
end

