-- ==== Sys2Proof/Machine/Run.lean ====
section
/-! DEFINITION. The instruction step and the machine step (spec/51_clock_scheduler.md R583, R585), and placing
bytes where the next step fetches. -/

namespace Sys2Proof.Machine

/-- R135: the prefix bytes. -/
def isPrefixByte : Instr → Bool
  | .segEs => true | .segCs => true | .segSs => true | .segDs => true
  | .lock => true | .lockAlias => true | .repne => true | .rep => true
  | _ => false

/-- The instruction just decoded becomes the current one (R33). -/
def State.setInstr (s : State) (i : Instr) : State := { s with eu := { s.eu with instr := some i } }

/-- R585 item 4, R130, R134: fetch, decode and execute one instruction, its prefixes included. After `fuel` prefix
bytes the step ends among them, and the next goes on (log 13). -/
def runInstr : Nat → State → Out
  | 0, s => .next { s with eu := { s.eu with prefixing := true } }
  | fuel + 1, s =>
    match s.fetchInstr with
    | none => .fault .fetchStarved
    | some (i, s) =>
      if isPrefixByte i then
        match exec i (s.setInstr i) with
        | .next t => runInstr fuel t
        | .fault r => .fault r
        | .refused r => .refused r
      else exec i (s.setInstr i)

/-- The prefix bytes one step takes at most: a whole code segment of them. -/
def prefixBound : Nat := 65536

/-- R585 items 2 to 4: a step without an event. -/
def normalStep (s : State) : Out :=
  if s.sys.halted then .next s.loadTrapLatch.haltedStep
  else if s.eu.prefixing then runInstr prefixBound { s with eu := { s.eu with prefixing := false } }
  else
    let s := s.loadTrapLatch
    match (if s.eu.repActive || s.waitTpr then s.eu.instr else none) with
    | some i => exec i s.beginIteration
    | none => runInstr prefixBound s.beginInstr

/-- R585: `cpu_step`. -/
def cpuStep (s : State) : Out :=
  match s.dueEvent with
  | some e => .next (s.afterTest.enterEvent e)
  | none => normalStep s.afterTest

/-- R583: what ends the step after the CPU's part: nothing among the prefix bytes of an instruction, which is no
boundary (R134). -/
def State.finish (t0 : Nat) (t : State) : State := if t.eu.prefixing then t else t.retire.endStep t0

/-- R583: `machine_step`. -/
def machineStep (s : State) : Out :=
  match cpuStep s with
  | .next t => .next (t.finish s.stepStart)
  | .fault r => .fault r
  | .refused r => .refused r

/-! ## Placing code (log 33) -/

/-- What the host's peek sees at an address (R116). -/
def peekByte (y : Sys) (a : PhysAddr) : Byte := (busRead y a).1

/-- A byte of an MMIO range changed with no bus cycle (R116): display memory; a device out of scope keeps what it
has. -/
def pokeMmio (y : Sys) (a : PhysAddr) (b : Byte) : Sys :=
  match y.cfg.mmioAt a with
  | some .video => { y with video := y.video.poke y.cfg a.toNat b }
  | some (.external _) => y
  | some (.reactive _) => y
  | none => y

/-- Change the byte an address holds, whatever kind of range it lies in. -/
def storeByte (y : Sys) (a : PhysAddr) (b : Byte) : Sys :=
  match y.cfg.kindAt a with
  | some .ram => y.putRam a.toNat b
  | some .rom => y.putRom a.toNat b
  | some .mmio => pokeMmio y a b
  | none => y

/-- Make an address read as `b`; where nothing can hold the byte, a RAM range of that one address does: it lies above
conventional memory, which holds any byte. -/
def placeByte (y : Sys) (a : PhysAddr) (b : Byte) : Sys :=
  let z := storeByte y a b
  if peekByte z a = b then z
  else
    let r : MemRange := { base := a.toNat, len := 1, kind := .ram, device := .video, wait := 0 }
    Sys.putRam { y with cfg := { y.cfg with memMap := r :: y.cfg.memMap } } a.toNat b

/-- Place bytes at ascending offsets of the code segment. -/
def placeCode (cs : Word) : Word → List Byte → Sys → Sys
  | _, [], y => y
  | ip, b :: rest, y => placeCode cs (ip + 1#16) rest (placeByte y (phys cs ip) b)

/-- The bus unit idle with an empty queue, about to fetch at `ip`. -/
def Biu.restart (ip : Word) : Biu := { Biu.reset with pc := ip }

/-- The machine with nothing due and nothing in progress, so that the next step begins an instruction at
CS:IP. -/
def State.readyToFetch (s : State) : State :=
  { s with trapLatched := false, waitTpr := false,
           eu := { s.eu with instr := none, pfx := Pfx.empty, repActive := false, prefixing := false },
           sys := { s.sys with halted := false, nmiLatched := false, intrPending := false,
                               biu := Biu.restart s.ip, dma := { s.sys.dma with busyLeft := 0 } } }

/-- `readyToFetch` with bytes placed at CS:IP. -/
def State.withCode (s : State) (bs : List Byte) : State :=
  let s := s.readyToFetch
  { s with sys := placeCode s.sregs.cs s.ip bs s.sys }

end Sys2Proof.Machine
end

