-- ==== Sys2Proof/Machine/Step.lean ====
section
/-! DEFINITION. One step of the machine, and the state whose next step runs a given word. -/

namespace Sys2Proof.Machine

/-- One step: an interrupt entry, one instruction, one iteration of a repeated string instruction, one poll
of WAIT, or one halted tick, with the devices' time and the line sampling (R583, R585). -/
def step (s : State) : Host.Outcome State Fault Refusal := machineStep s

/-- `s` with the instruction of a table word stored where `step` fetches next (log 33). -/
def State.withFetchWord (s : State) (nbits w : Nat) : State := s.withCode (tableWordBytes nbits w)

end Sys2Proof.Machine
end

