-- ==== Sys2Proof/Machine/Boundary.lean ====
section
/-! DEFINITION. The machine boundary: what the host calls between two steps (spec/51_clock_scheduler.md R595,
70_reset_and_hazards.md R830, 20_memory.md R116, 53_crtc_video.md R750). `step_instruction()` is `step`. -/

namespace Sys2Proof.Machine

/-! ## reset() (R830) -/

/-- R40: the general registers after a reset are unspecified: eight free values from number `n`. -/
def Regs.unspecified (n : Nat) : Regs :=
  { ax := Config.freeWord 0 n, cx := Config.freeWord 0 (n + 1), dx := Config.freeWord 0 (n + 2),
    bx := Config.freeWord 0 (n + 3), sp := Config.freeWord 0 (n + 4), bp := Config.freeWord 0 (n + 5),
    si := Config.freeWord 0 (n + 6), di := Config.freeWord 0 (n + 7) }

/-- R830 on the platform: the DMA controller, the NMI mask, port 0x61 and the adapter are reset; the PIT, the
PIC, RAM and `ticks` are not. Port 0x61's bit 0 is counter 2's GATE (R626). A device out
of scope sees nothing of it: what it has seen stays, and its answers go on (DESIGN CHOICE, log 46: R830's list does not
name such devices). -/
def Sys.hostReset (y : Sys) : Sys :=
  { y with mpc := 0, stall := .none, halted := false, nmiLatched := false, nmiLine := false,
           nmiEnable := false, intrPending := false, biu := Biu.reset, port61 := 0#8,
           pit := { y.pit with c2 := y.pit.c2.setGate false }, dma := y.dma.masterClear,
           video := y.video.hardReset, draws := y.draws + 8 }

/-- R830: `reset()`, between two steps. -/
def State.hostReset (s : State) : State :=
  { s with regs := Regs.unspecified s.sys.draws, sregs := SRegs.reset, ip := 0#16, flags := Flags.reset,
           eu := Eu.reset, trapLatched := false, intInhibit := false, waitTpr := false,
           sys := s.sys.hostReset }

/-! ## Running (R595) -/

/-- Steps while the tick counter is below `limit`, at most `fuel` of them. -/
def runUntil (limit : Nat) : Nat → State → Out
  | 0, s => .next s
  | fuel + 1, s =>
    if s.sys.ticks < limit then
      match machineStep s with
      | .next t => runUntil limit fuel t
      | .fault r => .fault r
      | .refused r => .refused r
    else .next s

/-- R595: `run_for(t)`. Each step takes at least one tick, so `t` steps are enough. -/
def runFor (t : Nat) (s : State) : Out := runUntil (s.sys.ticks + t) t s

/-- The time since construction in microseconds, by CPU_HZ (R7), on which no rule's state change depends. -/
def State.microseconds (s : State) : Nat := s.sys.ticks * 1000000 / s.sys.cfg.cpuHz

/-! ## The host's memory access (R116) -/

/-- The address `k` bytes above `a`, modulo 2^20 (DESIGN CHOICE, log 44: R116 does not say what lies past 0xFFFFF). -/
def hostAddr (a : PhysAddr) (k : Nat) : PhysAddr := a + BitVec.ofNat 20 k

/-- R116: `read_memory(addr, n)`, by the peek path. -/
def Sys.readMemory (y : Sys) (a : PhysAddr) (n : Nat) : List Byte :=
  (List.range n).map fun k => peekByte y (hostAddr a k)

/-- R116: one byte of `write_memory`: ROM and unmapped addresses keep what they read as. -/
def Sys.hostWrite (y : Sys) (a : PhysAddr) (b : Byte) : Sys :=
  match y.cfg.kindAt a with
  | some .ram => y.putRam a.toNat b
  | some .mmio => pokeMmio y a b
  | some .rom => y
  | none => y

/-- R116: `write_memory(addr, bytes)`, at addresses modulo 2^20 as `hostAddr` (log 44). -/
def Sys.writeMemory (y : Sys) (a : PhysAddr) : List Byte → Sys
  | [] => y
  | b :: rest => Sys.writeMemory (y.hostWrite a b) (a + 1#20) rest

/-! ## The frame (R750, R753) -/

/-- What `read_frame()` answers: the front buffer with its dimensions, and the aperture rectangle. -/
structure FrameAnswer where
  frame : Frame
  x : Nat
  y : Nat
  width : Nat
  height : Nat
  deriving DecidableEq, Repr

/-- R750: `read_frame()`. -/
def State.readFrame (s : State) : FrameAnswer :=
  let f := s.sys.video.fb.front
  match s.sys.cfg.aperture with
  | .full => { frame := f, x := 0, y := 0, width := f.width, height := f.height }
  | .rect x y w h => { frame := f, x := x, y := y, width := w, height := h }

end Sys2Proof.Machine
end

