-- ==== Sys2Proof/Safety.lean ====
section
/-! DEFINITION. The terms claims are stated in: what memory reads as, what an instruction leaves alone while the
clock runs on, which bytes it stores, and the invariant of a run. -/

namespace Sys2Proof.Machine

/-! ## Memory as an instruction sees it -/

/-- The byte a read of `seg:off` returns (R71, R79). -/
def State.byteAt (s : State) (seg off : Word) : Byte := peekByte s.sys (phys seg off)

/-- The word a read of `seg:off` returns: low byte first, the offset wrapping (R72, R77, R81). -/
def State.wordAt (s : State) (seg off : Word) : Word := word (s.byteAt seg (off + 1#16)) (s.byteAt seg off)

/-- The segment value of a memory operand: its default segment, or the override's (R156, R157). -/
def State.segValueOf (s : State) (m : MemOp) : Word := s.sreg (s.segOf m)

/-- The value of an 8-bit r/m operand (R163). -/
def State.operand8 (s : State) : RM8 → Byte
  | .reg r => s.reg8 r
  | .mem m => s.byteAt (s.segValueOf m) (s.effAddr m)

/-- The value of a 16-bit r/m operand (R163). -/
def State.operand16 (s : State) : RM16 → Word
  | .reg r => s.reg16 r
  | .mem m => s.wordAt (s.segValueOf m) (s.effAddr m)

/-! ## What the clock moves

Every instruction takes ticks, and a tick moves the bus unit, the PIT's counting elements and outputs, DMA channel
0 (its address, count, status, mask and request line), the CRTC's counters and the beam, the adapter's vertical
interrupt, and the NMI latch with its edge detector. `Sys.still` is the system with exactly those parts blanked, so
that `z.still = y.still` says that nothing else differs: no byte of memory, no other device register, no parameter. -/

/-- A counter without what a CLK moves; mode, reload value, latch and toggles stay. -/
def PitCounter.still (c : PitCounter) : PitCounter :=
  { c with ce := 0#16, pendingLoad := false, running := false, gateEdge := false, out := false,
           first := false, armed := false, openCount := false, rose := false, draws := 0 }

/-- The PIT without what its clock moves. -/
def Pit.still (p : Pit) : Pit := { c0 := p.c0.still, c1 := p.c1.still, c2 := p.c2.still, acc := 0 }

/-- The DMA controller without what a refresh cycle moves. -/
def Dma.still (d : Dma) : Dma :=
  { d with ch0 := { d.ch0 with curAddr := 0#16, curCount := 0#16 }, tc := setBit d.tc 0 false,
           mask := setBit d.mask 0 false,
           dreq := setBit d.dreq 0 false, busyLeft := 0, rotLow := 0#2 }

/-- The CGA without its counters and its snow. -/
def Cga.still (g : Cga) : Cga :=
  { g with crtc := CrtcCounters.reset, snowChar := 0#8, snow := false, hphase := 0#4 }

/-- The planes without the read latches, which any read of the window loads, a code fetch's too. -/
def EgaPlanes.still (m : EgaPlanes) : EgaPlanes :=
  { m with latch0 := 0#8, latch1 := 0#8, latch2 := 0#8, latch3 := 0#8 }

/-- The EGA or VGA without its counters, its read latches and its vertical interrupt. -/
def Ega.still (g : Ega) : Ega :=
  { g with planes := g.planes.still, scan := EgaScan.reset, vintPending := false, vintRose := false }

/-- The video subsystem without what its clock moves. -/
def Video.still (v : Video) : Video := { cga := v.cga.still, ega := v.ega.still, fb := Framebuffer.reset }

/-- The system without what a tick moves, the EU's counters and the number of free values taken. -/
def Sys.still (y : Sys) : Sys :=
  { y with ticks := 0, mpc := 0, stall := .none, nmiLatched := false, nmiLine := false, biu := Biu.reset, pit := y.pit.still, dma := y.dma.still,
           video := y.video.still, draws := 0 }

/-- No range's device out of scope is one that a read may change (R76, log 46). -/
def Params.readsPlain (c : Params) : Bool :=
  c.memMap.all fun r => match r.device with
    | .reactive _ => false
    | .video => true
    | .external _ => true

/-- Nothing but the CPU changes memory. No device's DMA transfer is pending: channels 1 to 3 do not ask for the bus
(R676, R101, R677); and no device out of scope changes when it is read, be it by a code fetch (log 46). -/
def Sys.Quiet (y : Sys) : Prop :=
  y.dma.wants 1#2 = false ∧ y.dma.wants 2#2 = false ∧ y.dma.wants 3#2 = false ∧ y.cfg.readsPlain = true

/-- What a statement about memory assumes: canonical memories, and nothing but the CPU that changes memory. -/
structure State.Steady (s : State) : Prop where
  memory : Memory.wf s = true
  quiet : s.sys.Quiet

/-! ## Memory after an instruction -/

/-- Nothing but the clock's work differs, and every address reads as before. -/
structure Unchanged (y z : Sys) : Prop where
  rest : z.still = y.still
  bytes : ∀ a, peekByte z a = peekByte y a

/-- The byte at `a` after stores in order, from what it was. -/
def lastStore (a : PhysAddr) : Byte → List (PhysAddr × Byte) → Byte
  | old, [] => old
  | old, (b, v) :: rest => lastStore a (if a = b then v else old) rest

/-- What `a` reads as after stores: only RAM takes a store (R80). Display memory is not spoken of here. -/
def storedByte (y : Sys) (l : List (PhysAddr × Byte)) (a : PhysAddr) : Byte :=
  match y.cfg.kindAt a with
  | some .ram => lastStore a (peekByte y a) l
  | _ => peekByte y a

/-- The video subsystem without its memory: what a store to the window can change. -/
def Video.noMemory (v : Video) : Video :=
  { v with cga := { v.cga with vram := [] },
           ega := { v.ega with planes := EgaPlanes.reset, draws := 0 } }

/-- The system without its RAM, display memory and the devices out of scope. -/
def Sys.noMemory (y : Sys) : Sys := { y with ram := [], video := y.video.noMemory, extAccesses := [] }

/-- The bytes stored are exactly those listed, in order: every address outside the MMIO ranges reads as before but
for them, their devices are as before unless one of them lies there, and nothing else differs. -/
structure Stores (y z : Sys) (l : List (PhysAddr × Byte)) : Prop where
  rest : z.still.noMemory = y.still.noMemory
  bytes : ∀ a, y.cfg.kindAt a ≠ some .mmio → peekByte z a = storedByte y l a
  display : (∀ p ∈ l, y.cfg.kindAt p.1 ≠ some .mmio) →
    z.video.still = y.video.still ∧ z.extAccesses = y.extAccesses

/-- The byte store of `v` at `seg:off` (R78). -/
def store8 (seg off : Word) (v : Byte) : List (PhysAddr × Byte) := [(phys seg off, v)]

/-- The word store of `v` at `seg:off`: low byte first, the offset wrapping (R72, R78). -/
def store16 (seg off v : Word) : List (PhysAddr × Byte) :=
  [(phys seg off, loByte v), (phys seg (off + 1#16), hiByte v)]

/-- The segment value of a string source, of XLAT and of a direct offset: DS or the override (R157). -/
def State.dataSeg (s : State) : Word := s.sreg (s.segFor .ds)

/-- The general registers after an 8-bit r/m operand is written. -/
def State.regsAfter8 (s : State) (v : Byte) : RM8 → Regs
  | .reg r => (s.setReg8 r v).regs
  | .mem _ => s.regs

/-- The general registers after a 16-bit r/m operand is written. -/
def State.regsAfter16 (s : State) (v : Word) : RM16 → Regs
  | .reg r => s.regs.set16 r v
  | .mem _ => s.regs

/-- An 8-bit r/m operand has been given the value `v`: the bytes of memory it names, and no others (R164). A
register operand stores nothing. -/
def Wrote8 (s t : State) (v : Byte) : RM8 → Prop
  | .reg _ => Unchanged s.sys t.sys
  | .mem m => Stores s.sys t.sys (store8 (s.segValueOf m) (s.effAddr m) v)

/-- A 16-bit r/m operand has been given the value `v` (R164). -/
def Wrote16 (s t : State) (v : Word) : RM16 → Prop
  | .reg _ => Unchanged s.sys t.sys
  | .mem m => Stores s.sys t.sys (store16 (s.segValueOf m) (s.effAddr m) v)

/-! ## Completion -/

/-- Executing `i` at `s` answers a next state, of which `P` holds. -/
def Completes (i : Instr) (s : State) (P : State → Prop) : Prop := ∃ t, exec i s = .next t ∧ P t

/-! ## The CPU after an instruction -/

/-- The latches of the boundary test and the current instruction with its prefixes are as before. -/
structure SameControl (s t : State) : Prop where
  trap : t.trapLatched = s.trapLatched
  inhibit : t.intInhibit = s.intInhibit
  waiting : t.waitTpr = s.waitTpr
  instr : t.eu.instr = s.eu.instr
  prefixes : t.eu.pfx = s.eu.pfx
  repeating : t.eu.repActive = s.eu.repActive
  start : t.eu.start = s.eu.start
  prefixing : t.eu.prefixing = s.eu.prefixing

/-- An instruction that goes on to the next one: registers `g`, flags `f`, CS:IP and the other segment
registers as before. -/
structure Ran (s t : State) (g : Regs) (f : Flags) : Prop where
  regs : t.regs = g
  flags : t.flags = f
  sregs : t.sregs = s.sregs
  ip : t.ip = s.ip
  control : SameControl s t

/-- Only flags have changed. -/
def Kept (s t : State) (f : Flags) : Prop := Ran s t s.regs f ∧ Unchanged s.sys t.sys

/-- The r/m operand has the value `v` and the flags are `f`; nothing else has changed (R164). -/
def Put8 (s t : State) (rm : RM8) (v : Byte) (f : Flags) : Prop := Ran s t (s.regsAfter8 v rm) f ∧ Wrote8 s t v rm

/-- The same of a 16-bit operand. -/
def Put16 (s t : State) (rm : RM16) (v : Word) (f : Flags) : Prop := Ran s t (s.regsAfter16 v rm) f ∧ Wrote16 s t v rm

/-- What an 8-bit operation leaves behind: its flags, and its result in the place `rm` unless it is CMP. AF is
any value where the operation leaves it free (R262, R320). -/
def AluDone8 (op : AluOp) (s t : State) (rm : RM8) (a b : Byte) : Prop :=
  ∃ af, if op.writes then Put8 s t rm (op.apply s.flags a b af).1 (op.apply s.flags a b af).2
    else Kept s t (op.apply s.flags a b af).2

/-- What a 16-bit operation leaves behind. -/
def AluDone16 (op : AluOp) (s t : State) (rm : RM16) (a b : Word) : Prop :=
  ∃ af, if op.writes then Put16 s t rm (op.apply s.flags a b af).1 (op.apply s.flags a b af).2
    else Kept s t (op.apply s.flags a b af).2

/-- TF, IF and DF are the same: what the status flags' rules never touch (R27). -/
def SameControlFlags (f g : Flags) : Prop := g.tf = f.tf ∧ g.ief = f.ief ∧ g.df = f.df

/-- Memory holds the same bytes: every address outside the display window reads as before, and display memory is
as it was (a video register can change how the window reads it). -/
structure SameMemory (y z : Sys) : Prop where
  bytes : ∀ a, y.cfg.kindAt a ≠ some .mmio → peekByte z a = peekByte y a
  cga : z.video.cga.vram = y.video.cga.vram
  planes : z.video.ega.planes.still = y.video.ega.planes.still

/-- A read of `port` during an instruction: `v` is what the port's device answers then, and only the device's own
reaction to the read is left behind (R94). -/
def PortRead (y z : Sys) (port : Word) (v : Byte) : Prop :=
  ∃ w, w.still = y.still ∧ v = (portRead w port).1 ∧ z.still = (portRead w port).2.still ∧ SameMemory y z

/-- A write of `v` to `port` during an instruction: only the device's reaction is left behind (R95), unless it
is a DMA transfer that the write lets start. -/
def PortWrote (y z : Sys) (port : Word) (v : Byte) : Prop :=
  ∃ w, w.still = y.still ∧
    ((portWrite w port v).Quiet → z.still = (portWrite w port v).still ∧ SameMemory y z)

/-- An instruction that has transferred control to `seg:off`: the prefetch queue is empty and fetching goes on
there (R436, R536). -/
structure Transferred (s t : State) (g : Regs) (f : Flags) (seg off : Word) : Prop where
  regs : t.regs = g
  flags : t.flags = f
  sregs : t.sregs = { s.sregs with cs := seg }
  ip : t.ip = off
  queue : t.sys.biu.queue = []
  pc : t.sys.biu.pc = off
  resumed : t.sys.biu.suspended = false
  control : SameControl s t

/-- A segment register loaded with `v`: the next boundary is inhibited (R782), and a load of CS empties the queue
and fetches on at IP (R207, R215). -/
structure SegLoaded (s t : State) (g : Regs) (r : SReg) (v : Word) : Prop where
  ran : Ran { s.setSreg r v with intInhibit := true } t g s.flags
  flushed : r = .cs → t.sys.biu.queue = [] ∧ t.sys.biu.pc = s.ip ∧ t.sys.biu.suspended = false

/-- R790: the three words an interrupt pushes. -/
def pushedFrame (ss sp : Word) (f : Flags) (cs ip : Word) : List (PhysAddr × Byte) :=
  store16 ss (sp - 2#16) f.image ++ store16 ss (sp - 4#16) cs ++ store16 ss (sp - 6#16) ip

/-- R790: interrupt type `n` taken with return address `ip` and FLAGS `f`. -/
def Entered (s t : State) (n : Byte) (f : Flags) (ip : Word) : Prop :=
  Transferred s t { s.regs with sp := s.regs.sp - 6#16 } { f with ief := false, tf := false }
    (s.wordAt 0#16 (BitVec.ofNat 16 (4 * n.toNat + 2))) (s.wordAt 0#16 (BitVec.ofNat 16 (4 * n.toNat))) ∧
  Stores s.sys t.sys (pushedFrame s.sregs.ss s.regs.sp f s.sregs.cs ip)

/-! ## The invariant of a run -/

/-- A bus cycle is in progress. -/
def Biu.inCycle (b : Biu) : Bool :=
  match b.phase with
  | .t1 => true | .t2 => true | .t3 => true | .tw => true | .t4 => true
  | .idle => false | .haltAck => false

/-- A code fetch has driven its address and has not yet read its byte. -/
def Biu.addressed (b : Biu) : Bool :=
  match b.phase with
  | .t2 => true | .t3 => true | .tw => true
  | .t1 => false | .t4 => false | .idle => false | .haltAck => false

/-- The bus unit between micro-operations: the queue within its capacity, with room for a fetch in progress
(R31, R530); no byte younger than the clock (R532); a fetch's address the one R531 gives; a schedule no
further off than FETCH_START_DELAY (R531); Tw only while wait states are left (R510). -/
structure BusOk (cs : Word) (y : Sys) : Prop where
  capacity : y.biu.queue.length ≤ Config.queueCap
  room : y.biu.inCycle = true → y.biu.op = .codeFetch → y.biu.queue.length < Config.queueCap
  ages : ∀ q ∈ y.biu.queue, q.age < y.ticks
  address : y.biu.addressed = true → y.biu.op = .codeFetch → y.biu.addr = phys cs y.biu.pc
  schedule : ∀ n, y.biu.fetchSched = .scheduled n → n ≤ y.ticks + Config.fetchStartDelay
  waiting : y.biu.phase = .tw → y.biu.waitLeft ≠ 0

/-- R26: the bytes fetched ahead of IP: those in the queue, and the one of a code fetch past its T3. -/
def Biu.ahead (b : Biu) : Nat := b.queue.length + (if b.phase = .t4 ∧ b.op = .codeFetch then 1 else 0)

/-- R26: the fetch pointer is IP plus the bytes fetched ahead. -/
def Sys.PcOk (y : Sys) (ip : Word) : Prop := y.biu.pc = ip + BitVec.ofNat 16 y.biu.ahead

/-- The EU has no request on the bus, no fetch is suspended and no bus cycle but a fetch is in progress. -/
structure Sys.Settled (y : Sys) : Prop where
  request : y.biu.request = none
  suspended : y.biu.suspended = false
  fetching : y.biu.inCycle = true → y.biu.op = .codeFetch

/-- What holds at every boundary of a run: canonical memories, the bus unit in order, PC as R26 says. -/
structure State.Inv (s : State) : Prop where
  memory : Memory.wf s = true
  bus : BusOk s.sregs.cs s.sys
  pc : s.sys.PcOk s.ip
  settled : s.sys.Settled

/-! ## The instruction at CS:IP -/

/-- The `k`-th instruction byte ahead of CS:IP (R110, R111): a byte of the queue, the byte of a fetch in its
T4, or what memory holds. -/
def Sys.codeByte (y : Sys) (cs ip : Word) (k : Nat) : Byte :=
  match y.biu.queue[k]? with
  | some q => q.byte
  | none =>
    if k = y.biu.queue.length ∧ y.biu.phase = .t4 ∧ y.biu.op = .codeFetch then y.biu.data
    else peekByte y (phys cs (ip + BitVec.ofNat 16 k))

/-- The `k`-th instruction byte ahead. -/
def State.codeByte (s : State) (k : Nat) : Byte := s.sys.codeByte s.sregs.cs s.ip k

/-- The next `n` instruction bytes. -/
def State.codeBytes (s : State) (n : Nat) : List Byte := (List.range n).map s.codeByte

/-- A step that neither enters an interrupt nor goes on with a halt, a WAIT or a repetition: it begins a new
instruction (R585 item 4). -/
structure State.Begins (s : State) : Prop where
  event : s.dueEvent = none
  notPrefixing : s.eu.prefixing = false
  running : s.sys.halted = false
  notRepeating : s.eu.repActive = false
  notWaiting : s.waitTpr = false

end Sys2Proof.Machine
end

