-- ==== Sys2Proof/Certificates/Slice0/Obligations.lean ====
section
/-! DEFINITION. What the provers are to prove of this machine. First the tables that say which constructors are the
forms of one operation; then one `Obligations.<Name>` per statement. `State.Steady` is what a statement about
memory assumes, `Sys.Quiet` what of the system: no device's DMA transfer pending, and no device out of scope that a
read changes; `Completes i s P` says that executing `i` at `s` answers a next state with `P`. A register or a
flag that a statement does not name is one its `Ran`, `Put`, `Kept` or `Transferred` says is unchanged. -/

namespace Sys2Proof.Machine

/-! ## The forms of an operation -/

/-- R262: the ten encodings of a two-operand operation. -/
structure AluForms where
  ebGb : RM8 → Reg8 → Instr
  ewGw : RM16 → Reg16 → Instr
  gbEb : Reg8 → RM8 → Instr
  gwEw : Reg16 → RM16 → Instr
  alIb : Byte → Instr
  axIw : Word → Instr
  ebIb : RM8 → Byte → Instr
  ebIb82 : RM8 → Byte → Instr
  ewIw : RM16 → Word → Instr
  ewIs : RM16 → Byte → Instr

/-- The forms of each operation. -/
def aluForms : AluOp → AluForms
  | .add => ⟨.addEbGb, .addEwGw, .addGbEb, .addGwEw, .addAlIb, .addAxIw, .addEbIb, .addEbIb82, .addEwIw, .addEwIs⟩
  | .or => ⟨.orEbGb, .orEwGw, .orGbEb, .orGwEw, .orAlIb, .orAxIw, .orEbIb, .orEbIb82, .orEwIw, .orEwIs⟩
  | .adc => ⟨.adcEbGb, .adcEwGw, .adcGbEb, .adcGwEw, .adcAlIb, .adcAxIw, .adcEbIb, .adcEbIb82, .adcEwIw, .adcEwIs⟩
  | .sbb => ⟨.sbbEbGb, .sbbEwGw, .sbbGbEb, .sbbGwEw, .sbbAlIb, .sbbAxIw, .sbbEbIb, .sbbEbIb82, .sbbEwIw, .sbbEwIs⟩
  | .and => ⟨.andEbGb, .andEwGw, .andGbEb, .andGwEw, .andAlIb, .andAxIw, .andEbIb, .andEbIb82, .andEwIw, .andEwIs⟩
  | .sub => ⟨.subEbGb, .subEwGw, .subGbEb, .subGwEw, .subAlIb, .subAxIw, .subEbIb, .subEbIb82, .subEwIw, .subEwIs⟩
  | .xor => ⟨.xorEbGb, .xorEwGw, .xorGbEb, .xorGwEw, .xorAlIb, .xorAxIw, .xorEbIb, .xorEbIb82, .xorEwIw, .xorEwIs⟩
  | .cmp => ⟨.cmpEbGb, .cmpEwGw, .cmpGbEb, .cmpGwEw, .cmpAlIb, .cmpAxIw, .cmpEbIb, .cmpEbIb82, .cmpEwIw, .cmpEwIs⟩

/-- R330: the four encodings of a shift or rotate. -/
structure ShiftForms where
  eb1 : RM8 → Instr
  ew1 : RM16 → Instr
  ebCl : RM8 → Instr
  ewCl : RM16 → Instr

/-- The forms of each shift. -/
def shiftForms : ShiftOp → ShiftForms
  | .rol => ⟨.rolEb1, .rolEw1, .rolEbCl, .rolEwCl⟩
  | .ror => ⟨.rorEb1, .rorEw1, .rorEbCl, .rorEwCl⟩
  | .rcl => ⟨.rclEb1, .rclEw1, .rclEbCl, .rclEwCl⟩
  | .rcr => ⟨.rcrEb1, .rcrEw1, .rcrEbCl, .rcrEwCl⟩
  | .shl => ⟨.shlEb1, .shlEw1, .shlEbCl, .shlEwCl⟩
  | .shr => ⟨.shrEb1, .shrEw1, .shrEbCl, .shrEwCl⟩
  | .sar => ⟨.sarEb1, .sarEw1, .sarEbCl, .sarEwCl⟩

/-- R406: the conditional jump of each condition, and its alias at 0x60 (R191). -/
def jccForms : Cond → (Byte → Instr) × (Byte → Instr)
  | .o => (.jo, .joAlias)
  | .no => (.jno, .jnoAlias)
  | .b => (.jb, .jbAlias)
  | .nb => (.jnb, .jnbAlias)
  | .z => (.jz, .jzAlias)
  | .nz => (.jnz, .jnzAlias)
  | .be => (.jbe, .jbeAlias)
  | .a => (.ja, .jaAlias)
  | .s => (.js, .jsAlias)
  | .ns => (.jns, .jnsAlias)
  | .p => (.jp, .jpAlias)
  | .np => (.jnp, .jnpAlias)
  | .l => (.jl, .jlAlias)
  | .ge => (.jge, .jgeAlias)
  | .le => (.jle, .jleAlias)
  | .g => (.jg, .jgAlias)

/-- R406: the number `cc` of a condition. -/
def Cond.number : Cond → Byte
  | .o => 0x0#8
  | .no => 0x1#8
  | .b => 0x2#8
  | .nb => 0x3#8
  | .z => 0x4#8
  | .nz => 0x5#8
  | .be => 0x6#8
  | .a => 0x7#8
  | .s => 0x8#8
  | .ns => 0x9#8
  | .p => 0xA#8
  | .np => 0xB#8
  | .l => 0xC#8
  | .ge => 0xD#8
  | .le => 0xE#8
  | .g => 0xF#8

/-- R370: the string operations. -/
inductive StringOp where
  | movs | cmps | scas | lods | stos
  deriving DecidableEq, Repr

/-- The instruction of a string operation on bytes (`wide` false) or words. -/
def StringOp.instr : StringOp → Bool → Instr
  | .movs, false => .movsb | .movs, true => .movsw
  | .cmps, false => .cmpsb | .cmps, true => .cmpsw
  | .scas, false => .scasb | .scas, true => .scasw
  | .lods, false => .lodsb | .lods, true => .lodsw
  | .stos, false => .stosb | .stos, true => .stosw

/-- The opcode of a string operation (R371 to R375). -/
def StringOp.opcode : StringOp → Bool → Byte
  | .movs, false => 0xA4#8 | .movs, true => 0xA5#8
  | .cmps, false => 0xA6#8 | .cmps, true => 0xA7#8
  | .scas, false => 0xAE#8 | .scas, true => 0xAF#8
  | .lods, false => 0xAC#8 | .lods, true => 0xAD#8
  | .stos, false => 0xAA#8 | .stos, true => 0xAB#8

/-- The element at an address: a byte, or a word low byte first (R370). -/
def State.element (s : State) (wide : Bool) (seg off : Word) : Word :=
  if wide then s.wordAt seg off else zext16 (s.byteAt seg off)

/-- How far a pointer moves after an element (R370): down when DF is set. -/
def State.stride (s : State) (wide : Bool) : Word :=
  if s.flags.df then (if wide then 0xFFFE#16 else 0xFFFF#16) else (if wide then 2#16 else 1#16)

/-- The registers after one element: SI moves but for SCAS and STOS, DI but for LODS, and LODS loads the
accumulator (R371 to R375). -/
def StringOp.regs (o : StringOp) (wide : Bool) (s : State) : Regs :=
  let si := s.regs.si + s.stride wide
  let di := s.regs.di + s.stride wide
  match o with
  | .movs => { s.regs with si := si, di := di }
  | .cmps => { s.regs with si := si, di := di }
  | .scas => { s.regs with di := di }
  | .lods =>
    let v := s.element wide s.dataSeg s.regs.si
    { s.regs with si := si, ax := if wide then v else setLo s.regs.ax (loByte v) }
  | .stos => { s.regs with di := di }

/-- The flags of a comparison of two elements (R261). -/
def compareFlags (f : Flags) (wide : Bool) (a b : Word) : Flags :=
  if wide then (subN f a b false).2 else (subN f (loByte a) (loByte b) false).2

/-- The flags after one element: CMPS compares source with destination, SCAS the accumulator with the
destination (R372, R373). -/
def StringOp.flags (o : StringOp) (wide : Bool) (s : State) : Flags :=
  match o with
  | .movs => s.flags
  | .cmps => compareFlags s.flags wide (s.element wide s.dataSeg s.regs.si) (s.element wide s.sregs.es s.regs.di)
  | .scas => compareFlags s.flags wide s.regs.ax (s.element wide s.sregs.es s.regs.di)
  | .lods => s.flags
  | .stos => s.flags

/-- The bytes one element stores at ES:DI (R371, R375). -/
def StringOp.stores (o : StringOp) (wide : Bool) (s : State) : List (PhysAddr × Byte) :=
  let v := match o with
    | .movs => some (s.element wide s.dataSeg s.regs.si)
    | .stos => some s.regs.ax
    | .cmps => none | .scas => none | .lods => none
  match v with
  | none => []
  | some v => if wide then store16 s.sregs.es s.regs.di v else store8 s.sregs.es s.regs.di (loByte v)

/-- Whether a repeated operation ends on ZF (R380). -/
def StringOp.compares : StringOp → Bool
  | .cmps => true | .scas => true
  | .movs => false | .lods => false | .stos => false

/-- Instructions to which the spec gives no effect (R485, R486, R487). -/
def isStop : Instr → Bool
  | .grp4op2 _ => true | .grp4op3 _ => true | .grp4op4 _ => true
  | .grp4op5 _ => true | .grp4op6 _ => true | .grp4op7 _ => true
  | .callReg _ => true | .jmpReg _ => true
  | .leaReg _ _ => true | .lesReg _ _ => true | .ldsReg _ _ => true
  | _ => false

/-- MUL, IMUL, DIV and IDIV (R286). -/
def isMulDiv : Instr → Bool
  | .mulEb _ => true | .mulEw _ => true | .imulEb _ => true | .imulEw _ => true
  | .divEb _ => true | .divEw _ => true | .idivEb _ => true | .idivEw _ => true
  | _ => false

/-! ## Arithmetic in numbers -/

/-- Even parity of the low eight bits (R27). -/
def evenParity {n : Nat} (r : BitVec n) : Bool := ((List.range 8).filter fun i => r.getLsbD i).length % 2 == 0

/-- SF, ZF and PF are those of the result `r`, and TF, IF and DF are as before. -/
structure ResultFlags {n : Nat} (f g : Flags) (r : BitVec n) : Prop where
  sign : g.sf = r.msb
  zero : g.zf = true ↔ r.toNat = 0
  parity : g.pf = evenParity r
  control : SameControlFlags f g

/-- R260 on `n` bits, the carries as numbers: CF is unsigned overflow, OF signed overflow. -/
def AddRule (n : Nat) : Prop :=
  ∀ (f : Flags) (a b : BitVec n) (c : Bool),
    let r := (addN f a b c).1
    let g := (addN f a b c).2
    r.toNat = (a.toNat + b.toNat + c.toNat) % 2 ^ n ∧ ResultFlags f g r ∧
    g.cf = decide (2 ^ n ≤ a.toNat + b.toNat + c.toNat) ∧
    g.af = decide (15 < a.toNat % 16 + b.toNat % 16 + c.toNat) ∧
    (g.of = true ↔ a.msb = b.msb ∧ r.msb ≠ a.msb) ∧
    (g.of = true ↔ a.toInt + b.toInt + c.toNat < -(2 ^ (n - 1)) ∨ 2 ^ (n - 1) ≤ a.toInt + b.toInt + c.toNat)

/-- R261 on `n` bits. -/
def SubRule (n : Nat) : Prop :=
  ∀ (f : Flags) (a b : BitVec n) (c : Bool),
    let r := (subN f a b c).1
    let g := (subN f a b c).2
    (r.toNat : Int) = ((a.toNat : Int) - b.toNat - c.toNat) % 2 ^ n ∧ ResultFlags f g r ∧
    g.cf = decide (a.toNat < b.toNat + c.toNat) ∧
    g.af = decide (a.toNat % 16 < b.toNat % 16 + c.toNat) ∧
    (g.of = true ↔ a.msb ≠ b.msb ∧ r.msb ≠ a.msb) ∧
    (g.of = true ↔ a.toInt - b.toInt - c.toNat < -(2 ^ (n - 1)) ∨ 2 ^ (n - 1) ≤ a.toInt - b.toInt - c.toNat)

/-- R320: SF, ZF and PF are those of the result `r`, CF and OF are clear, AF is the free value `af`. -/
structure LogicFlags {n : Nat} (f g : Flags) (r : BitVec n) (af : Bool) : Prop where
  result : ResultFlags f g r
  carry : g.cf = false
  overflow : g.of = false
  aux : g.af = af

/-- R320 on `n` bits. -/
def LogicRule (n : Nat) : Prop := ∀ (f : Flags) (r : BitVec n) (af : Bool), LogicFlags f (logicN f r af) r af

/-- R263 to R267, R321 to R323 on `n` bits: what each operation computes, and that CMP alone writes nothing. -/
def AluRule (n : Nat) : Prop :=
  ∀ (f : Flags) (a b : BitVec n) (af : Bool),
    (let Apply (op : AluOp) : BitVec n × Flags := op.apply f a b af
     let Logical (op : AluOp) (r : BitVec n) := (Apply op).1 = r ∧ LogicFlags f (Apply op).2 r af
     Apply .add = addN f a b false ∧ Apply .adc = addN f a b f.cf ∧
     Apply .sub = subN f a b false ∧ Apply .sbb = subN f a b f.cf ∧ Apply .cmp = subN f a b false ∧
     Logical .and (a &&& b) ∧ Logical .or (a ||| b) ∧ Logical .xor (a ^^^ b) ∧
     ∀ op : AluOp, op.writes = false ↔ op = .cmp)

/-- One step of a rotate leaves SF, ZF, PF, AF and the control flags (R331 to R334). -/
def RotateFlags (f g : Flags) : Prop :=
  g.sf = f.sf ∧ g.zf = f.zf ∧ g.pf = f.pf ∧ g.af = f.af ∧ SameControlFlags f g

/-- R331 to R337 on `n` bits: what one step of each shift does, AF of SHL, SHR and SAR apart; R340: a shift by more is
its step repeated. -/
def ShiftRule (n : Nat) : Prop :=
  ∀ (f : Flags) (v : BitVec n),
    (let x := ShiftOp.rol.step (v, f)
     x.1 = v.rotateLeft 1 ∧ x.2.cf = v.msb ∧ x.2.of = (x.1.msb ^^ v.msb) ∧ RotateFlags f x.2) ∧
    (let x := ShiftOp.ror.step (v, f)
     x.1 = v.rotateRight 1 ∧ x.2.cf = v.getLsbD 0 ∧ x.2.of = (x.1.msb ^^ x.1.getLsbD (n - 2)) ∧ RotateFlags f x.2) ∧
    (let x := ShiftOp.rcl.step (v, f)
     x.1.toNat + 2 ^ n * x.2.cf.toNat = 2 * v.toNat + f.cf.toNat ∧ x.2.of = (x.1.msb ^^ v.msb) ∧ RotateFlags f x.2) ∧
    (let x := ShiftOp.rcr.step (v, f)
     2 * x.1.toNat + x.2.cf.toNat = v.toNat + 2 ^ n * f.cf.toNat ∧ x.2.of = (x.1.msb ^^ x.1.getLsbD (n - 2)) ∧
      RotateFlags f x.2) ∧
    (let x := ShiftOp.shl.step (v, f)
     x.1.toNat + 2 ^ n * x.2.cf.toNat = 2 * v.toNat ∧ x.2.of = (x.1.msb ^^ v.msb) ∧ ResultFlags f x.2 x.1) ∧
    (let x := ShiftOp.shr.step (v, f)
     2 * x.1.toNat + x.2.cf.toNat = v.toNat ∧ x.2.of = v.msb ∧ ResultFlags f x.2 x.1) ∧
    (let x := ShiftOp.sar.step (v, f)
     2 * x.1.toInt + x.2.cf.toNat = v.toInt ∧ x.2.of = false ∧ ResultFlags f x.2 x.1) ∧
    (∀ (op : ShiftOp) (k : Nat), op.repeated 0 (v, f) = (v, f) ∧
      op.repeated (k + 1) (v, f) = op.repeated k (op.step (v, f)))

/-! ## Addresses in numbers -/

/-- The r/m number of a base (R156). -/
def baseNumber : EaBase → Byte
  | .bxSi => 0#8 | .bxDi => 1#8 | .bpSi => 2#8 | .bpDi => 3#8
  | .si => 4#8 | .di => 5#8 | .bp => 6#8 | .bx => 7#8

/-- The base of R156's table, before the sum wraps. -/
def baseSum (g : Regs) : EaBase → Int
  | .bxSi => g.bx.toNat + g.si.toNat | .bxDi => g.bx.toNat + g.di.toNat
  | .bpSi => g.bp.toNat + g.si.toNat | .bpDi => g.bp.toNat + g.di.toNat
  | .si => g.si.toNat | .di => g.di.toNat | .bp => g.bp.toNat | .bx => g.bx.toNat

/-- R156: the effective address before it wraps: the displacement byte is signed. -/
def memSum (g : Regs) : MemOp → Int
  | .direct off => off.toNat
  | .ind b => baseSum g b
  | .ind8 b d => baseSum g b + d.toInt
  | .ind16 b d => baseSum g b + d.toNat

/-- R156: whether BP is among the base registers, so that the default segment is SS. -/
def usesBp : MemOp → Bool
  | .direct _ => false
  | .ind b => decide (b = .bp ∨ b = .bpSi ∨ b = .bpDi)
  | .ind8 b _ => decide (b = .bp ∨ b = .bpSi ∨ b = .bpDi)
  | .ind16 b _ => decide (b = .bp ∨ b = .bpSi ∨ b = .bpDi)

/-- R157: the segment value of an access that admits an override: the prefix's register, or else the default. -/
def overridden (s : State) (default : Word) : Word :=
  match s.eu.pfx.seg with
  | none => default
  | some .es => s.sregs.es
  | some .cs => s.sregs.cs
  | some .ss => s.sregs.ss
  | some .ds => s.sregs.ds

/-! ## Registers -/

/-- R150. -/
def number16 : Reg16 → Byte
  | .ax => 0#8 | .cx => 1#8 | .dx => 2#8 | .bx => 3#8 | .sp => 4#8 | .bp => 5#8 | .si => 6#8 | .di => 7#8
/-- R151. -/
def number8 : Reg8 → Byte
  | .al => 0#8 | .cl => 1#8 | .dl => 2#8 | .bl => 3#8 | .ah => 4#8 | .ch => 5#8 | .dh => 6#8 | .bh => 7#8
/-- R152, in the reg field of a ModRM byte. -/
def regFieldOf : SReg → Byte
  | .es => 0x00#8 | .cs => 0x08#8 | .ss => 0x10#8 | .ds => 0x18#8

/-- R20, R21: the registers by name: a byte register is a half of its word register, and a write changes the register
written, with the word register a byte belongs to, and no other. -/
def RegisterRule (s : State) : Prop :=
  (s.reg16 .ax = s.regs.ax ∧ s.reg16 .cx = s.regs.cx ∧ s.reg16 .dx = s.regs.dx ∧ s.reg16 .bx = s.regs.bx ∧
   s.reg16 .sp = s.regs.sp ∧ s.reg16 .bp = s.regs.bp ∧ s.reg16 .si = s.regs.si ∧ s.reg16 .di = s.regs.di) ∧
  (s.regs.ax = s.reg8 .ah ++ s.reg8 .al ∧ s.regs.cx = s.reg8 .ch ++ s.reg8 .cl ∧
   s.regs.dx = s.reg8 .dh ++ s.reg8 .dl ∧ s.regs.bx = s.reg8 .bh ++ s.reg8 .bl) ∧
  (∀ (r q : Reg16) (v : Word), (s.setReg16 r v).reg16 q = if q = r then v else s.reg16 q) ∧
  (∀ (r q : Reg8) (v : Byte), (s.setReg8 r v).reg8 q = if q = r then v else s.reg8 q) ∧
  (∀ (r : Reg8) (v : Byte), (s.setReg8 r v).regs.sp = s.regs.sp ∧ (s.setReg8 r v).regs.bp = s.regs.bp ∧
    (s.setReg8 r v).regs.si = s.regs.si ∧ (s.setReg8 r v).regs.di = s.regs.di)

/-- The packed-BCD byte of a number below 100 (R277). -/
def bcd (n : Nat) : Byte := BitVec.ofNat 8 (n / 10 * 16 + n % 10)

/-! ## A step -/

/-- What a step makes of a meaning's answer: a next state gets the end of the step that began at tick `t0`. -/
def ended (t0 : Nat) : Out → Out
  | .next t => .next (t.finish t0)
  | .fault r => .fault r
  | .refused r => .refused r

/-- The state in which an instruction of `n` bytes runs, its bytes taken from the queue: registers, flags and
memory as they were, IP past the bytes, no prefix, the single-step latch loaded from TF (R134, R25, R783). -/
structure Fetched (s u : State) (i : Instr) (n : Nat) : Prop where
  regs : u.regs = s.regs
  flags : u.flags = s.flags
  sregs : u.sregs = s.sregs
  ip : u.ip = s.ip + BitVec.ofNat 16 n
  instr : u.eu.instr = some i
  prefixes : u.eu.pfx = Pfx.empty
  repeating : u.eu.repActive = false
  start : u.eu.start = s.ip
  trap : u.trapLatched = s.flags.tf
  inhibit : u.intInhibit = false
  notWaiting : u.waitTpr = false
  memory : Unchanged s.sys u.sys
  inv : u.Inv

/-- The state after an interrupt's entry step: entered with return address `ip`, memory as the pushes leave it, no
halt, WAIT or repetition left. -/
structure EnteredStep (s t : State) (n : Byte) (ip : Word) : Prop where
  regs : t.regs = { s.regs with sp := s.regs.sp - 6#16 }
  flags : t.flags = { s.flags with ief := false, tf := false }
  sregs : t.sregs = { s.sregs with cs := s.wordAt 0#16 (BitVec.ofNat 16 (4 * n.toNat + 2)) }
  newIp : t.ip = s.wordAt 0#16 (BitVec.ofNat 16 (4 * n.toNat))
  bytes : ∀ a, s.sys.cfg.kindAt a ≠ some .mmio →
    peekByte t.sys a = storedByte s.sys (pushedFrame s.sregs.ss s.regs.sp s.flags s.sregs.cs ip) a
  running : t.sys.halted = false
  notRepeating : t.eu.repActive = false
  notWaiting : t.waitTpr = false

/-- The level the PIC acknowledges: the requested one of highest priority, level 7 when none is (R646, R654). -/
def Pic.ackLevel (p : Pic) : BitVec 3 := (p.highest p.irr).getD 7#3

end Sys2Proof.Machine

open Sys2Proof Sys2Proof.Machine

/-! ## Encoding -/

/-- R130, R141, R155, R170 to R177: the encoder's bytes decode to the instruction they encode, every operand at
every value. -/
def Obligations.EncodedInstructionsDecode : Prop :=
  ∀ (i : Instr), i.wf = true → ∀ rest : List Byte, decode (encode i ++ rest) = .ok i rest

/-- R132, R190: what a decoder reads is well-formed, and its encoding is the bytes that were read. -/
def Obligations.DecodedBytesAreTheEncoding : Prop :=
  ∀ (bs : List Byte) (i : Instr) (rest : List Byte), decode bs = .ok i rest → i.wf = true ∧ encode i ++ rest = bs

/-- R190, R130: six bytes always hold an instruction, of one to six bytes. -/
def Obligations.SixBytesDecode : Prop :=
  ∀ bs : List Byte, 6 ≤ bs.length →
    ∃ i rest, decode bs = .ok i rest ∧ rest.length < bs.length ∧ bs.length ≤ rest.length + 6

/-- Words written out from the encodings of the spec's rules decode to their instructions. -/
def Obligations.WrittenWordsDecode : Prop :=
  decode [0x01#8, 0xD8#8] = .ok (.addEwGw (.reg .ax) .bx) [] ∧
  decode [0xF7#8, 0xD8#8] = .ok (.negEw (.reg .ax)) [] ∧
  decode [0xD0#8, 0xE8#8] = .ok (.shrEb1 (.reg .al)) [] ∧
  decode [0x8D#8, 0x5C#8, 0x04#8] = .ok (.leaM1 .bx (.ind8 .si 4#8)) [] ∧
  decode [0xFF#8, 0x36#8, 0x00#8, 0x10#8] = .ok (.pushEw (.mem (.direct 0x1000#16))) [] ∧
  decode [0xEA#8, 0x5B#8, 0xE0#8, 0x00#8, 0xF0#8] = .ok (.jmpFar 0xE05B#16 0xF000#16) [] ∧
  decode [0xF3#8, 0xA4#8] = .ok .rep [0xA4#8] ∧
  decode [0xCD#8, 0x21#8] = .ok (.intIb 0x21#8) [] ∧
  decode [0x81#8] = .truncated

/-! ## The step -/

/-- R585 item 4, R131, R134: at a boundary with no event due and no halt, WAIT or repetition to go on with, a step
takes the bytes of the instruction at CS:IP and runs it. A prefix byte goes on to the byte after it. -/
def Obligations.StepRunsTheDecodedInstruction : Prop :=
  ∀ (s : State) (i : Instr) (rest : List Byte), s.Inv → s.Begins → s.sys.Quiet →
    decode (s.codeBytes 6) = .ok i rest →
    ∃ u, Fetched s u i (6 - rest.length) ∧
      (isPrefixByte i = false → step s = ended s.sys.ticks (exec i u)) ∧
      (isPrefixByte i = true → ∃ v, exec i u = .next v ∧ step s = ended s.sys.ticks (runInstr 65535 v))

/-- R134, R382: inside a step, the bytes after a prefix byte are taken and run in the same way, with the prefixes
kept. -/
def Obligations.PrefixedInstructionRuns : Prop :=
  ∀ (n : Nat) (s : State) (i : Instr) (rest : List Byte), s.Inv → s.sys.halted = false → s.sys.Quiet →
    decode (s.codeBytes 6) = .ok i rest →
    ∃ u : State, u.regs = s.regs ∧ u.flags = s.flags ∧ u.sregs = s.sregs ∧
      u.ip = s.ip + BitVec.ofNat 16 (6 - rest.length) ∧ u.eu.pfx = s.eu.pfx ∧ u.eu.instr = some i ∧
      Unchanged s.sys u.sys ∧
      (isPrefixByte i = false → runInstr (n + 1) s = exec i u) ∧
      (isPrefixByte i = true → ∃ v, exec i u = .next v ∧ v.Inv ∧ runInstr (n + 1) s = runInstr n v)

/-- R380, R476, R585: a repetition or a WAIT that is not over goes on with the same instruction and prefixes,
fetching nothing. R130, R134: a step that ended among the prefix bytes of an instruction goes on with the bytes after
them, nothing lost, as part of the step that began the instruction. That a step can end there is the model's choice
(log 13, DESIGN CHOICE: after a whole code segment of prefix bytes): R585 makes the prefixes and their instruction one
step. -/
def Obligations.StepGoesOnWithItsInstruction : Prop :=
  (∀ (s : State) (i : Instr), s.dueEvent = none → s.eu.prefixing = false → s.sys.halted = false →
    s.eu.instr = some i → (s.eu.repActive = true ∨ s.waitTpr = true) →
    ∃ u : State, u.regs = s.regs ∧ u.flags = s.flags ∧ u.sregs = s.sregs ∧ u.ip = s.ip ∧
      u.eu = { s.eu with opIndex := 0 } ∧ u.waitTpr = s.waitTpr ∧ u.trapLatched = s.flags.tf ∧
      Unchanged s.sys u.sys ∧ step s = ended s.sys.ticks (exec i u)) ∧
  (∀ s : State, s.eu.prefixing = true → s.sys.halted = false →
    step s = ended s.eu.startTick
      (runInstr 65536 { s with intInhibit := false, eu := { s.eu with prefixing := false } }))

/-- R26, R31, R37, R530: every step keeps the invariant of a run: memories in canonical form, the queue within four
bytes, PC = IP plus the bytes fetched ahead (those queued, and the one in its T4), no request left on the bus. -/
def Obligations.StepKeepsTheInvariant : Prop :=
  ∀ s t : State, s.Inv → step s = .next t → t.Inv

/-- The invariant holds at reset. -/
def Obligations.ResetMeetsTheInvariant : Prop := State.reset.Inv

/-- R190, R772: "The CPU never 'fails'": from a state that meets the invariant no step ends in a fault; the model's
one fault is the want of an instruction byte (the stop of log 34). -/
def Obligations.StepNeverFaults : Prop :=
  ∀ (s : State) (f : Fault), s.Inv → step s ≠ .fault f

/-- R190: every instruction but the eleven rows to which the spec gives no effect completes, in every state, MUL and
DIV without a repeat prefix (R286). That MOV CS, POP CS, SETMO, SETMOC and PUSH SP through 0xFF run is the model's
choice (log 15): 93_implementation_defined.md 2.2 treats them as refused. -/
def Obligations.EveryOtherInstructionCompletes : Prop :=
  ∀ (i : Instr) (s : State), isStop i = false → (isMulDiv i = true → s.eu.pfx.rep = .none) →
    ∃ t, exec i s = .next t

/-- R485, R486, R487, R286: the encodings whose effect the spec does not fix are refused, and so are MUL, IMUL, DIV and
IDIV with a repeat prefix. -/
def Obligations.UnfixedEncodingsAreRefused : Prop :=
  ∀ s : State,
    (∀ rm : RM8, exec (.grp4op2 rm) s = .refused .group4NotFixed ∧ exec (.grp4op3 rm) s = .refused .group4NotFixed ∧
      exec (.grp4op4 rm) s = .refused .group4NotFixed ∧ exec (.grp4op5 rm) s = .refused .group4NotFixed ∧
      exec (.grp4op6 rm) s = .refused .group4NotFixed ∧ exec (.grp4op7 rm) s = .refused .group4NotFixed) ∧
    (∀ r : Reg16, exec (.callReg r) s = .refused .farPointerInRegister ∧
      exec (.jmpReg r) s = .refused .farPointerInRegister) ∧
    (∀ r r2 : Reg16, exec (.leaReg r r2) s = .refused .addressOfRegister ∧
      exec (.lesReg r r2) s = .refused .addressOfRegister ∧ exec (.ldsReg r r2) s = .refused .addressOfRegister) ∧
    (∀ i, isMulDiv i = true → s.eu.pfx.rep ≠ .none → exec i s = .refused .repeatedMulDiv)

/-! ## Arithmetic and logic -/

/-- R262 to R267, R320 to R323: the byte forms of ADD, OR, ADC, SBB, AND, SUB, XOR and CMP, and what each operation is
on bytes. -/
def Obligations.ByteAluForms : Prop :=
  AluRule 8 ∧
  ∀ (op : AluOp) (s : State), s.Steady →
    (∀ rm r, Completes ((aluForms op).ebGb rm r) s fun t => AluDone8 op s t rm (s.operand8 rm) (s.reg8 r)) ∧
    (∀ r rm, Completes ((aluForms op).gbEb r rm) s fun t => AluDone8 op s t (.reg r) (s.reg8 r) (s.operand8 rm)) ∧
    (∀ imm, Completes ((aluForms op).alIb imm) s fun t => AluDone8 op s t (.reg .al) (s.reg8 .al) imm) ∧
    (∀ rm imm, Completes ((aluForms op).ebIb rm imm) s fun t => AluDone8 op s t rm (s.operand8 rm) imm) ∧
    (∀ rm imm, Completes ((aluForms op).ebIb82 rm imm) s fun t => AluDone8 op s t rm (s.operand8 rm) imm)

/-- R262 to R267, R320 to R323: the word forms, the immediate byte of 0x83 sign-extended (R161), and what each operation
is on words. -/
def Obligations.WordAluForms : Prop :=
  AluRule 16 ∧
  ∀ (op : AluOp) (s : State), s.Steady →
    (∀ rm r, Completes ((aluForms op).ewGw rm r) s fun t => AluDone16 op s t rm (s.operand16 rm) (s.reg16 r)) ∧
    (∀ r rm, Completes ((aluForms op).gwEw r rm) s fun t => AluDone16 op s t (.reg r) (s.reg16 r) (s.operand16 rm)) ∧
    (∀ imm, Completes ((aluForms op).axIw imm) s fun t => AluDone16 op s t (.reg .ax) s.regs.ax imm) ∧
    (∀ rm imm, Completes ((aluForms op).ewIw rm imm) s fun t => AluDone16 op s t rm (s.operand16 rm) imm) ∧
    (∀ rm (imm : Byte), Completes ((aluForms op).ewIs rm imm) s fun t =>
      AluDone16 op s t rm (s.operand16 rm) (imm.signExtend 16))

/-- R260: addition with carry on 8 and 16 bits. -/
def Obligations.AdditionRule : Prop := AddRule 8 ∧ AddRule 16

/-- R261: subtraction with borrow on 8 and 16 bits. -/
def Obligations.SubtractionRule : Prop := SubRule 8 ∧ SubRule 16

/-- R268 to R272, R327: INC, DEC, NEG and NOT. INC and DEC keep CF, NOT keeps every flag. -/
def Obligations.IncDecNegNot : Prop :=
  ∀ s : State, s.Steady →
    (∀ rm, let a := s.operand8 rm
      Completes (.incEb rm) s (fun t => Put8 s t rm (a + 1#8) { (addN s.flags a 1#8 false).2 with cf := s.flags.cf }) ∧
      Completes (.decEb rm) s (fun t => Put8 s t rm (a - 1#8) { (subN s.flags a 1#8 false).2 with cf := s.flags.cf }) ∧
      Completes (.negEb rm) s (fun t => Put8 s t rm (-a) (subN s.flags 0#8 a false).2) ∧
      Completes (.notEb rm) s (fun t => Put8 s t rm (0xFF#8 - a) s.flags)) ∧
    (∀ rm, let a := s.operand16 rm
      Completes (.incEw rm) s (fun t => Put16 s t rm (a + 1#16) { (addN s.flags a 1#16 false).2 with cf := s.flags.cf }) ∧
      Completes (.decEw rm) s (fun t => Put16 s t rm (a - 1#16) { (subN s.flags a 1#16 false).2 with cf := s.flags.cf }) ∧
      Completes (.negEw rm) s (fun t => Put16 s t rm (-a) (subN s.flags 0#16 a false).2) ∧
      Completes (.notEw rm) s (fun t => Put16 s t rm (0xFFFF#16 - a) s.flags)) ∧
    (∀ r, let a := s.reg16 r
      Completes (.incReg16 r) s (fun t =>
        Put16 s t (.reg r) (a + 1#16) { (addN s.flags a 1#16 false).2 with cf := s.flags.cf }) ∧
      Completes (.decReg16 r) s (fun t =>
        Put16 s t (.reg r) (a - 1#16) { (subN s.flags a 1#16 false).2 with cf := s.flags.cf }))

/-- R320, R324 to R326: TEST sets the flags of AND, AF any value, and writes nothing. -/
def Obligations.TestForms : Prop :=
  (LogicRule 8 ∧ LogicRule 16) ∧
  ∀ s : State, s.Steady →
    (∀ rm r, Completes (.testEbGb rm r) s fun t => ∃ af, Kept s t (logicN s.flags (s.operand8 rm &&& s.reg8 r) af)) ∧
    (∀ rm r, Completes (.testEwGw rm r) s fun t => ∃ af, Kept s t (logicN s.flags (s.operand16 rm &&& s.reg16 r) af)) ∧
    (∀ imm, Completes (.testAlIb imm) s fun t => ∃ af, Kept s t (logicN s.flags (s.reg8 .al &&& imm) af)) ∧
    (∀ imm, Completes (.testAxIw imm) s fun t => ∃ af, Kept s t (logicN s.flags (s.regs.ax &&& imm) af)) ∧
    (∀ rm imm, Completes (.testEbIb rm imm) s fun t => ∃ af, Kept s t (logicN s.flags (s.operand8 rm &&& imm) af)) ∧
    (∀ rm imm, Completes (.testEbIbAlias rm imm) s fun t => ∃ af, Kept s t (logicN s.flags (s.operand8 rm &&& imm) af)) ∧
    (∀ rm imm, Completes (.testEwIw rm imm) s fun t => ∃ af, Kept s t (logicN s.flags (s.operand16 rm &&& imm) af)) ∧
    (∀ rm imm, Completes (.testEwIwAlias rm imm) s fun t => ∃ af, Kept s t (logicN s.flags (s.operand16 rm &&& imm) af))

/-- R273, R274: MUL and IMUL give the whole product; CF and OF say whether it fits the lower half; SF, ZF, AF and PF
are any value. -/
def Obligations.Multiplication : Prop :=
  ∀ s : State, s.Steady → s.eu.pfx.rep = .none →
    (∀ rm, Completes (.mulEb rm) s fun t => ∃ f p, Put16 s t (.reg .ax) p f ∧ SameControlFlags s.flags f ∧
      p.toNat = (s.reg8 .al).toNat * (s.operand8 rm).toNat ∧
      f.cf = decide (0xFF < p.toNat) ∧ f.of = decide (0xFF < p.toNat)) ∧
    (∀ rm, Completes (.imulEb rm) s fun t => ∃ f p, Put16 s t (.reg .ax) p f ∧ SameControlFlags s.flags f ∧
      p.toInt = (s.reg8 .al).toInt * (s.operand8 rm).toInt ∧
      f.cf = decide (p.toInt < -0x80 ∨ 0x7F < p.toInt) ∧ f.of = decide (p.toInt < -0x80 ∨ 0x7F < p.toInt)) ∧
    (∀ rm, Completes (.mulEw rm) s fun t => ∃ f hi lo,
      Ran s t { s.regs with ax := lo, dx := hi } f ∧ Unchanged s.sys t.sys ∧ SameControlFlags s.flags f ∧
      hi.toNat * 0x10000 + lo.toNat = s.regs.ax.toNat * (s.operand16 rm).toNat ∧
      f.cf = decide (hi ≠ 0#16) ∧ f.of = decide (hi ≠ 0#16)) ∧
    (∀ rm, Completes (.imulEw rm) s fun t => ∃ f hi lo,
      Ran s t { s.regs with ax := lo, dx := hi } f ∧ Unchanged s.sys t.sys ∧ SameControlFlags s.flags f ∧
      (let p := s.regs.ax.toInt * (s.operand16 rm).toInt
       (hi ++ lo : BitVec 32).toInt = p ∧ f.cf = decide (p < -0x8000 ∨ 0x7FFF < p) ∧
       f.of = decide (p < -0x8000 ∨ 0x7FFF < p)))

/-- R275, R276, R285: DIV and IDIV where the divisor is not zero and the quotient fits: the quotient rounded toward
zero and its remainder; the status flags are any value. -/
def Obligations.Division : Prop :=
  ∀ s : State, s.Steady → s.eu.pfx.rep = .none →
    (∀ rm, let d := (s.operand8 rm).toNat
      d ≠ 0 → s.regs.ax.toNat / d ≤ 0xFF →
      Completes (.divEb rm) s fun t => ∃ f q r, Put16 s t (.reg .ax) (word r q) f ∧ SameControlFlags s.flags f ∧
        q.toNat = s.regs.ax.toNat / d ∧ r.toNat = s.regs.ax.toNat % d) ∧
    (∀ rm, let d := (s.operand16 rm).toNat
      let n := s.regs.dx.toNat * 0x10000 + s.regs.ax.toNat
      d ≠ 0 → n / d ≤ 0xFFFF →
      Completes (.divEw rm) s fun t => ∃ f q r, Ran s t { s.regs with ax := q, dx := r } f ∧
        Unchanged s.sys t.sys ∧ SameControlFlags s.flags f ∧ q.toNat = n / d ∧ r.toNat = n % d) ∧
    (∀ rm, let d := (s.operand8 rm).toInt
      let n := s.regs.ax.toInt
      d ≠ 0 → n.tdiv d ≤ 127 → -127 ≤ n.tdiv d →
      Completes (.idivEb rm) s fun t => ∃ f q r, Put16 s t (.reg .ax) (word r q) f ∧ SameControlFlags s.flags f ∧
        q.toInt = n.tdiv d ∧ r.toInt = n - q.toInt * d) ∧
    (∀ rm, let d := (s.operand16 rm).toInt
      let n := (s.regs.dx ++ s.regs.ax : BitVec 32).toInt
      d ≠ 0 → n.tdiv d ≤ 32767 → -32767 ≤ n.tdiv d →
      Completes (.idivEw rm) s fun t => ∃ f q r, Ran s t { s.regs with ax := q, dx := r } f ∧
        Unchanged s.sys t.sys ∧ SameControlFlags s.flags f ∧ q.toInt = n.tdiv d ∧ r.toInt = n - q.toInt * d)

/-- R771, R275, R276, R281: a zero divisor, a quotient that does not fit and AAM 0 take interrupt 0, with the next
instruction's IP pushed, AX and DX unchanged and the pushed status flags any value. -/
def Obligations.DivideErrors : Prop :=
  ∀ s : State, s.Steady →
    (let DivideError (t : State) := ∃ f, SameControlFlags s.flags f ∧ Entered s t 0#8 f s.ip
     (s.eu.pfx.rep = .none →
      (∀ rm, let d := (s.operand8 rm).toNat
        d = 0 ∨ 0xFF < s.regs.ax.toNat / d → Completes (.divEb rm) s DivideError) ∧
      (∀ rm, let d := (s.operand16 rm).toNat
        d = 0 ∨ 0xFFFF < (s.regs.dx.toNat * 0x10000 + s.regs.ax.toNat) / d → Completes (.divEw rm) s DivideError) ∧
      (∀ rm, let d := (s.operand8 rm).toInt
        let q := s.regs.ax.toInt.tdiv d
        d = 0 ∨ 127 < q ∨ q < -127 → Completes (.idivEb rm) s DivideError) ∧
      (∀ rm, let d := (s.operand16 rm).toInt
        let q := (s.regs.dx ++ s.regs.ax : BitVec 32).toInt.tdiv d
        d = 0 ∨ 32767 < q ∨ q < -32767 → Completes (.idivEw rm) s DivideError)) ∧
     Completes (.aam 0#8) s DivideError)

/-- R277, R278 in numbers: 6 is added or subtracted when the low digit of AL is above 9 or AF is 1, 0x60 when AL is above
0x99 or CF is 1; AF and CF say which, SF, ZF and PF are the new AL's, OF is the value `o`, the control flags are kept. -/
def DecimalAdjustRule (subtract : Bool) : Prop :=
  ∀ (f : Flags) (al : Byte) (o : Bool),
    let y := decimalAdjust subtract f al o
    let low := 9 < al.toNat % 16 ∨ f.af = true
    let high := 0x99 < al.toNat ∨ f.cf = true
    let d := (if low then 6 else 0) + (if high then 0x60 else 0)
    y.1.toNat = (if subtract then al.toNat + 256 - d else al.toNat + d) % 256 ∧ ResultFlags f y.2 y.1 ∧
    (y.2.af = true ↔ low) ∧ (y.2.cf = true ↔ high) ∧ y.2.of = o

/-- On inputs outside packed BCD, with a free AL (log 16): SF, ZF and PF are that AL's, AF is the rule's, the control flags
are kept. -/
def DecimalAdjustOpenRule : Prop :=
  ∀ (f : Flags) (al : Byte) (v w : Word),
    let y := decimalAdjustOpen f al v w
    ResultFlags f y.2 y.1 ∧ (y.2.af = true ↔ 9 < al.toNat % 16 ∨ f.af = true)

/-- R277, R278: DAA and DAS: the adjusted AL with its flags, OF any value, and what these are in numbers. On inputs that
no packed-BCD sum or difference gives, AL and CF are any value, SF, ZF and PF follow that AL and AF is the rule's: which
inputs those are, and that AF is fixed there, is the model's reading (log 16). -/
def Obligations.DecimalAdjustForms : Prop :=
  DecimalAdjustRule false ∧ DecimalAdjustRule true ∧ DecimalAdjustOpenRule ∧
  ∀ s : State, s.Steady →
    (let al := s.reg8 .al
     (Completes .daa s fun t => ∃ (v : Bool) (w : Word × Word),
       let x := if bcdSumPossible s.flags al then decimalAdjust false s.flags al v
         else decimalAdjustOpen s.flags al w.1 w.2
       Put8 s t (.reg .al) x.1 x.2) ∧
     (Completes .das s fun t => ∃ (v : Bool) (w : Word × Word),
       let x := if bcdDifferencePossible s.flags al then decimalAdjust true s.flags al v
         else decimalAdjustOpen s.flags al w.1 w.2
       Put8 s t (.reg .al) x.1 x.2))

/-- R277, R278: after ADD or ADC of packed-BCD bytes DAA gives the decimal sum with its carry, after SUB or SBB DAS
the decimal difference with its borrow. -/
def Obligations.DecimalAdjustGivesDecimal : Prop :=
  ∀ (f : Flags) (a b : Nat) (c o : Bool), a < 100 → b < 100 →
    (let x := addN f (bcd a) (bcd b) c
     let y := decimalAdjust false x.2 x.1 o
     bcdSumPossible x.2 x.1 = true ∧ y.1 = bcd ((a + b + c.toNat) % 100) ∧ y.2.cf = decide (100 ≤ a + b + c.toNat)) ∧
    (let x := subN f (bcd a) (bcd b) c
     let y := decimalAdjust true x.2 x.1 o
     bcdDifferencePossible x.2 x.1 = true ∧ y.1 = bcd ((a + 100 - b - c.toNat) % 100) ∧
      y.2.cf = decide (a < b + c.toNat))

/-- R279 to R282: AAA and AAS: AL by 6 and AH by 1 when the low digit needs it, AL's high digit cleared, AF = CF; OF,
SF, ZF and PF any value. AAM divides AL by its immediate, AAD multiplies AH by it; SF, ZF and PF are AL's; CF, OF and
AF are any value. -/
def Obligations.AsciiAdjustForms : Prop :=
  ∀ s : State, s.Steady →
    (let al := s.reg8 .al
     let ah := s.reg8 .ah
     let adjust := 9 < al.toNat % 16 ∨ s.flags.af = true
     (adjust →
      (Completes .aaa s fun t => ∃ f, Put16 s t (.reg .ax) (word (ah + 1#8) ((al + 6#8) &&& 0x0F#8)) f ∧
        f.af = true ∧ f.cf = true ∧ SameControlFlags s.flags f) ∧
      (Completes .aas s fun t => ∃ f, Put16 s t (.reg .ax) (word (ah - 1#8) ((al - 6#8) &&& 0x0F#8)) f ∧
        f.af = true ∧ f.cf = true ∧ SameControlFlags s.flags f)) ∧
     (¬adjust →
      (Completes .aaa s fun t => ∃ f, Put16 s t (.reg .ax) (word ah (al &&& 0x0F#8)) f ∧
        f.af = false ∧ f.cf = false ∧ SameControlFlags s.flags f) ∧
      (Completes .aas s fun t => ∃ f, Put16 s t (.reg .ax) (word ah (al &&& 0x0F#8)) f ∧
        f.af = false ∧ f.cf = false ∧ SameControlFlags s.flags f)) ∧
     (∀ b : Byte,
      (b ≠ 0#8 → Completes (.aam b) s fun t => ∃ f q r, Put16 s t (.reg .ax) (word q r) f ∧
        q.toNat = al.toNat / b.toNat ∧ r.toNat = al.toNat % b.toNat ∧ ResultFlags s.flags f r) ∧
      (Completes (.aad b) s fun t => ∃ f r, Put16 s t (.reg .ax) (word 0#8 r) f ∧
        r.toNat = (al.toNat + ah.toNat * b.toNat) % 256 ∧ ResultFlags s.flags f r)))

/-- R283, R284: CBW and CWD: their encodings and effects, no flag changed. -/
def Obligations.SignExtension : Prop :=
  (∀ rest, decode (0x98#8 :: rest) = .ok .cbw rest ∧ decode (0x99#8 :: rest) = .ok .cwd rest) ∧
  ∀ s : State, s.Steady →
    (Completes .cbw s fun t => Put8 s t (.reg .ah) (if (s.reg8 .al).msb then 0xFF#8 else 0x00#8) s.flags) ∧
    (Completes .cwd s fun t => Put16 s t (.reg .dx) (if s.regs.ax.msb then 0xFFFF#16 else 0x0000#16) s.flags)

/-! ## Shifts and rotates -/

/-- R330, R340: the forms of the shifts and rotates: the step repeated once, or as often as CL says; with CL = 0
nothing changes. AF of SHL, SHR and SAR is any value. OF after a count other than 1 is the last step's: the model's
choice of R340's two offers (log 20, DESIGN CHOICE; 93_implementation_defined.md 2.1 also lets OF be any value). -/
def Obligations.ShiftForms : Prop :=
  ∀ (op : ShiftOp) (s : State), s.Steady →
    (let Shifted8 (rm : RM8) (count : Nat) (t : State) := ∃ af,
       let y := op.repeated count (s.operand8 rm, s.flags)
       Put8 s t rm y.1 (if op.drawsAf = true ∧ count ≠ 0 then { y.2 with af := af } else y.2)
     let Shifted16 (rm : RM16) (count : Nat) (t : State) := ∃ af,
       let y := op.repeated count (s.operand16 rm, s.flags)
       Put16 s t rm y.1 (if op.drawsAf = true ∧ count ≠ 0 then { y.2 with af := af } else y.2)
     let cl := (s.reg8 .cl).toNat
     (∀ rm, Completes ((shiftForms op).eb1 rm) s (Shifted8 rm 1)) ∧
     (∀ rm, Completes ((shiftForms op).ew1 rm) s (Shifted16 rm 1)) ∧
     (∀ rm, Completes ((shiftForms op).ebCl rm) s (Shifted8 rm cl)) ∧
     (∀ rm, Completes ((shiftForms op).ewCl rm) s (Shifted16 rm cl)))

/-- R331 to R337: one step of each shift and rotate on 8 and 16 bits, its repetition, and which leave AF free. -/
def Obligations.ShiftStepRules : Prop :=
  ShiftRule 8 ∧ ShiftRule 16 ∧ ∀ op : ShiftOp, op.drawsAf = true ↔ op = .shl ∨ op = .shr ∨ op = .sar

/-- R338: SETMO sets every bit of its operand; SETMOC does so unless CL is 0, and then changes nothing. That the two
run at all is the model's choice (log 15): R338 and 93_implementation_defined.md 2.2 refuse them unless validated. So
is that the test of CL takes no tick and counts no micro-operation (log 11). -/
def Obligations.SetMinusOne : Prop :=
  ∀ s : State, s.Steady →
    (let f := { s.flags with cf := false, of := false, af := false, zf := false, sf := true, pf := true }
     (∀ rm, Completes (.setmoEb1 rm) s fun t => Put8 s t rm 0xFF#8 f) ∧
     (∀ rm, Completes (.setmoEw1 rm) s fun t => Put16 s t rm 0xFFFF#16 f) ∧
     (∀ rm, Completes (.setmocEbCl rm) s fun t =>
       (s.reg8 .cl ≠ 0#8 → Put8 s t rm 0xFF#8 f) ∧ (s.reg8 .cl = 0#8 → t = s)) ∧
     (∀ rm, Completes (.setmocEwCl rm) s fun t =>
       (s.reg8 .cl ≠ 0#8 → Put16 s t rm 0xFFFF#16 f) ∧ (s.reg8 .cl = 0#8 → t = s)))

/-! ## Data transfer -/

/-- R201 to R206, R208: MOV between registers, memory and immediates, no flag changed. R20, R21, R150 to R152: the
registers' numbers, and what their names read and write. -/
def Obligations.MovForms : Prop :=
  (∀ s : State, RegisterRule s) ∧
  (∀ rest, (∀ r imm, decode ((0xB0#8 + number8 r) :: imm :: rest) = .ok (.movReg8Ib r imm) rest) ∧
    (∀ r lo hi, decode ((0xB8#8 + number16 r) :: lo :: hi :: rest) = .ok (.movReg16Iw r (word hi lo)) rest) ∧
    (∀ sr, decode (0x8C#8 :: (0xC0#8 + regFieldOf sr) :: rest) = .ok (.movEwSw (.reg .ax) sr false) rest)) ∧
  ∀ s : State, s.Steady →
    (∀ rm r, Completes (.movEbGb rm r) s fun t => Put8 s t rm (s.reg8 r) s.flags) ∧
    (∀ rm r, Completes (.movEwGw rm r) s fun t => Put16 s t rm (s.reg16 r) s.flags) ∧
    (∀ r rm, Completes (.movGbEb r rm) s fun t => Put8 s t (.reg r) (s.operand8 rm) s.flags) ∧
    (∀ r rm, Completes (.movGwEw r rm) s fun t => Put16 s t (.reg r) (s.operand16 rm) s.flags) ∧
    (∀ rm x imm, Completes (.movEbIb rm x imm) s fun t => Put8 s t rm imm s.flags) ∧
    (∀ rm x imm, Completes (.movEwIw rm x imm) s fun t => Put16 s t rm imm s.flags) ∧
    (∀ r imm, Completes (.movReg8Ib r imm) s fun t => Put8 s t (.reg r) imm s.flags) ∧
    (∀ r imm, Completes (.movReg16Iw r imm) s fun t => Put16 s t (.reg r) imm s.flags) ∧
    (∀ off, Completes (.movAlOb off) s fun t => Put8 s t (.reg .al) (s.byteAt s.dataSeg off) s.flags) ∧
    (∀ off, Completes (.movAxOw off) s fun t => Put16 s t (.reg .ax) (s.wordAt s.dataSeg off) s.flags) ∧
    (∀ off, Completes (.movObAl off) s fun t =>
      Ran s t s.regs s.flags ∧ Stores s.sys t.sys (store8 s.dataSeg off (s.reg8 .al))) ∧
    (∀ off, Completes (.movOwAx off) s fun t =>
      Ran s t s.regs s.flags ∧ Stores s.sys t.sys (store16 s.dataSeg off s.regs.ax)) ∧
    (∀ rm sr b, Completes (.movEwSw rm sr b) s fun t => Put16 s t rm (s.sreg sr) s.flags)

/-- R207, R215, R782: MOV to and POP of a segment register. That MOV CS and POP CS run, empty the queue and keep IP
is the model's choice (logs 15, 41): R207, R215 and 93_implementation_defined.md 2.2 treat them as refused. -/
def Obligations.SegmentLoads : Prop :=
  ∀ s : State, s.Steady →
    (∀ sr b rm, Completes (.movSwEw sr b rm) s fun t =>
      SegLoaded s t s.regs sr (s.operand16 rm) ∧ Unchanged s.sys t.sys) ∧
    (let Popped (sr : SReg) (t : State) :=
       SegLoaded s t { s.regs with sp := s.regs.sp + 2#16 } sr (s.wordAt s.sregs.ss s.regs.sp) ∧ Unchanged s.sys t.sys
     Completes .popEs s (Popped .es) ∧ Completes .popCs s (Popped .cs) ∧
     Completes .popSs s (Popped .ss) ∧ Completes .popDs s (Popped .ds))

/-- R210 to R212, R216: a push stores its word two below SP, low byte first. PUSH SP by its own opcode stores the new
SP; that through 0xFF it runs and stores the old one is the model's choice (log 15): 93_implementation_defined.md 2.2
refuses it or leaves the word open. -/
def Obligations.Pushes : Prop :=
  ∀ s : State, s.Steady →
    (let sp := s.regs.sp - 2#16
     let Pushed (v : Word) (t : State) :=
       Ran s t { s.regs with sp := sp } s.flags ∧ Stores s.sys t.sys (store16 s.sregs.ss sp v)
     (∀ r, Completes (.pushReg16 r) s (Pushed (if r = .sp then sp else s.reg16 r))) ∧
     (∀ rm, Completes (.pushEw rm) s (Pushed (s.operand16 rm))) ∧
     (∀ rm, Completes (.pushEwAlias rm) s (Pushed (s.operand16 rm))) ∧
     Completes .pushEs s (Pushed s.sregs.es) ∧ Completes .pushCs s (Pushed s.sregs.cs) ∧
     Completes .pushSs s (Pushed s.sregs.ss) ∧ Completes .pushDs s (Pushed s.sregs.ds) ∧
     Completes .pushf s (Pushed s.flags.image))

/-- R213, R214, R217: a pop takes the word at SS:SP and moves SP up by two before the destination is written, so that
POP SP leaves the word popped; POPF takes the nine flags. -/
def Obligations.Pops : Prop :=
  ∀ s : State, s.Steady →
    (let v := s.wordAt s.sregs.ss s.regs.sp
     (∀ r, Completes (.popReg16 r) s fun t =>
       Ran s t ((s.addSp 2#16).regs.set16 r v) s.flags ∧ Unchanged s.sys t.sys) ∧
     (∀ rm x, Completes (.popEw rm x) s fun t =>
       Ran s t ((s.addSp 2#16).regsAfter16 v rm) s.flags ∧ Wrote16 s t v rm) ∧
     (Completes .popf s fun t =>
       Ran s t { s.regs with sp := s.regs.sp + 2#16 } (Flags.ofImage v) ∧ Unchanged s.sys t.sys))

/-- R27, R28: FLAGS as a word: the nine flags in their places, bits 15 to 12 and 1 one, bits 5 and 3 zero; taken back,
the nine flags are what they were. -/
def Obligations.FlagsImage : Prop :=
  ∀ f : Flags,
    (let v := f.image
     v.getLsbD 0 = f.cf ∧ v.getLsbD 1 = true ∧ v.getLsbD 2 = f.pf ∧ v.getLsbD 3 = false ∧ v.getLsbD 4 = f.af ∧
     v.getLsbD 5 = false ∧ v.getLsbD 6 = f.zf ∧ v.getLsbD 7 = f.sf ∧ v.getLsbD 8 = f.tf ∧ v.getLsbD 9 = f.ief ∧
     v.getLsbD 10 = f.df ∧ v.getLsbD 11 = f.of ∧ v.extractLsb' 12 4 = 0xF#4 ∧ Flags.ofImage v = f) ∧
    (∀ w : Word, (Flags.ofImage w).image = (w &&& 0x0FD5#16) ||| 0xF002#16)

/-- R218, R219: XCHG exchanges register and operand; AX with a register, NOP being AX with itself (R470). -/
def Obligations.Exchanges : Prop :=
  ∀ s : State, s.Steady →
    (∀ r rm, Completes (.xchgGbEb r rm) s fun t =>
      Ran s t ({ s with regs := s.regsAfter8 (s.reg8 r) rm }.setReg8 r (s.operand8 rm)).regs s.flags ∧
      Wrote8 s t (s.reg8 r) rm) ∧
    (∀ r rm, Completes (.xchgGwEw r rm) s fun t =>
      Ran s t ((s.regsAfter16 (s.reg16 r) rm).set16 r (s.operand16 rm)) s.flags ∧ Wrote16 s t (s.reg16 r) rm) ∧
    (let Exchanged (g : Regs) (t : State) := Ran s t g s.flags ∧ Unchanged s.sys t.sys
     let ax := s.regs.ax
     Completes .xchgAxCx s (Exchanged { s.regs with ax := s.regs.cx, cx := ax }) ∧
     Completes .xchgAxDx s (Exchanged { s.regs with ax := s.regs.dx, dx := ax }) ∧
     Completes .xchgAxBx s (Exchanged { s.regs with ax := s.regs.bx, bx := ax }) ∧
     Completes .xchgAxSp s (Exchanged { s.regs with ax := s.regs.sp, sp := ax }) ∧
     Completes .xchgAxBp s (Exchanged { s.regs with ax := s.regs.bp, bp := ax }) ∧
     Completes .xchgAxSi s (Exchanged { s.regs with ax := s.regs.si, si := ax }) ∧
     Completes .xchgAxDi s (Exchanged { s.regs with ax := s.regs.di, di := ax }) ∧
     Completes .nop s (Exchanged s.regs))

/-- R220, R221, R226 to R229, R471: LAHF, SAHF, XLAT, LEA, LDS, LES and SALC. LDS and LES read their pointer with the
segment as it was before and inhibit no boundary. -/
def Obligations.AddressAndFlagByteTransfers : Prop :=
  ∀ s : State, s.Steady →
    (Completes .lahf s fun t => Put8 s t (.reg .ah) (loByte s.flags.image) s.flags) ∧
    (Completes .sahf s fun t =>
      let b := s.reg8 .ah
      Kept s t { s.flags with sf := b.getLsbD 7, zf := b.getLsbD 6, af := b.getLsbD 4, pf := b.getLsbD 2, cf := b.getLsbD 0 }) ∧
    (Completes .salc s fun t => Put8 s t (.reg .al) (if s.flags.cf then 0xFF#8 else 0x00#8) s.flags) ∧
    (Completes .xlat s fun t =>
      Put8 s t (.reg .al) (s.byteAt s.dataSeg (s.regs.bx + (s.reg8 .al).setWidth 16)) s.flags) ∧
    (∀ r m, (let Lea (t : State) := Put16 s t (.reg r) (s.effAddr m) s.flags
      Completes (.leaM0 r m) s Lea ∧ Completes (.leaM1 r m) s Lea ∧ Completes (.leaM2 r m) s Lea)) ∧
    (∀ r m, (let off := s.wordAt (s.segValueOf m) (s.effAddr m)
      let seg := s.wordAt (s.segValueOf m) (s.effAddr m + 2#16)
      let Loaded (sr : SReg) (t : State) :=
        Ran (s.setSreg sr seg) t (s.regs.set16 r off) s.flags ∧ Unchanged s.sys t.sys
      Completes (.ldsM0 r m) s (Loaded .ds) ∧ Completes (.ldsM1 r m) s (Loaded .ds) ∧
      Completes (.ldsM2 r m) s (Loaded .ds) ∧ Completes (.lesM0 r m) s (Loaded .es) ∧
      Completes (.lesM1 r m) s (Loaded .es) ∧ Completes (.lesM2 r m) s (Loaded .es)))

/-- R222, R223, R94: IN: the accumulator gets what the port's device answers, AH from the next port. Memory holds
the same bytes. -/
def Obligations.PortInput : Prop :=
  ∀ s : State, s.Steady →
    (let In8 (port : Word) (t : State) := ∃ v,
       Ran s t (s.setReg8 .al v).regs s.flags ∧ PortRead s.sys t.sys port v
     let In16 (port : Word) (t : State) := ∃ m lo hi,
       Ran s t { s.regs with ax := word hi lo } s.flags ∧ PortRead s.sys m port lo ∧
       PortRead m t.sys (port + 1#16) hi
     (∀ p : Byte, Completes (.inAlIb p) s (In8 (p.setWidth 16)) ∧ Completes (.inAxIb p) s (In16 (p.setWidth 16))) ∧
     Completes .inAlDx s (In8 s.regs.dx) ∧ Completes .inAxDx s (In16 s.regs.dx))

/-- R224, R225, R95: OUT: the port's device gets AL, the next port's AH. Memory holds the same bytes. -/
def Obligations.PortOutput : Prop :=
  ∀ s : State, s.Steady →
    (let Out8 (port : Word) (t : State) := Ran s t s.regs s.flags ∧ PortWrote s.sys t.sys port (s.reg8 .al)
     let Out16 (port : Word) (t : State) := Ran s t s.regs s.flags ∧
       ∃ m, PortWrote s.sys m port (s.reg8 .al) ∧ (m.Quiet → PortWrote m t.sys (port + 1#16) (s.reg8 .ah))
     (∀ p : Byte, Completes (.outIbAl p) s (Out8 (p.setWidth 16)) ∧ Completes (.outIbAx p) s (Out16 (p.setWidth 16))) ∧
     Completes .outDxAl s (Out8 s.regs.dx) ∧ Completes .outDxAx s (Out16 s.regs.dx))

/-! ## Strings -/

/-- R370 to R375, R384: an unprefixed string instruction is one element, with no use of CX. -/
def Obligations.StringElements : Prop :=
  (∀ (o : StringOp) wide rest, decode (o.opcode wide :: rest) = .ok (o.instr wide) rest) ∧
  ∀ (o : StringOp) (wide : Bool) (s : State), s.Steady → s.eu.pfx.rep = .none →
    Completes (o.instr wide) s fun t =>
      Ran (s.setRep false) t (o.regs wide s) (o.flags wide s) ∧ Stores s.sys t.sys (o.stores wide s) ∧
      (o.stores wide s = [] → Unchanged s.sys t.sys)

/-- R380, R381: a step of a repeated string instruction: nothing when CX is 0; else one element, CX one less, and the
repetition goes on unless CX has become 0 or, for CMPS and SCAS, ZF is not what the prefix wants. That the test of CX
takes no tick and counts no micro-operation, so that with CX = 0 nothing but the repetition changes, is the model's choice
(log 11): R550 and R552 do not say whether it is an ALU step. -/
def Obligations.RepeatedStringElements : Prop :=
  ∀ (o : StringOp) (wide : Bool) (s : State), s.Steady → s.eu.pfx.rep ≠ .none →
    Completes (o.instr wide) s fun t =>
      (s.regs.cx = 0#16 → t = s.setRep false) ∧
      (s.regs.cx ≠ 0#16 →
        (let zf := (o.flags wide s).zf
         let goesOn := s.regs.cx ≠ 1#16 ∧ (o.compares = true → (zf = true ↔ s.eu.pfx.rep = .rep))
         Ran (s.setRep t.eu.repActive) t { o.regs wide s with cx := s.regs.cx - 1#16 } (o.flags wide s) ∧
         (t.eu.repActive = true ↔ goesOn) ∧ Stores s.sys t.sys (o.stores wide s) ∧
         (o.stores wide s = [] → Unchanged s.sys t.sys)))

/-! ## Control transfer -/

/-- R401 to R405, R436: the jumps. -/
def Obligations.Jumps : Prop :=
  ∀ s : State, s.Steady →
    (let Jumped (seg off : Word) (t : State) := Transferred s t s.regs s.flags seg off ∧ Unchanged s.sys t.sys
     let cs := s.sregs.cs
     (∀ rel : Byte, Completes (.jmpRel8 rel) s (Jumped cs (s.ip + rel.signExtend 16))) ∧
     (∀ rel, Completes (.jmpRel16 rel) s (Jumped cs (s.ip + rel))) ∧
     (∀ off seg, Completes (.jmpFar off seg) s (Jumped seg off)) ∧
     (∀ rm, Completes (.jmpEw rm) s (Jumped cs (s.operand16 rm))) ∧
     (∀ m, (let off := s.wordAt (s.segValueOf m) (s.effAddr m)
       let seg := s.wordAt (s.segValueOf m) (s.effAddr m + 2#16)
       Completes (.jmpMpM0 m) s (Jumped seg off) ∧ Completes (.jmpMpM1 m) s (Jumped seg off) ∧
       Completes (.jmpMpM2 m) s (Jumped seg off))))

/-- R406, R436: a conditional jump and its alias transfer when the condition holds; else nothing changes. That the test
takes no tick and counts no micro-operation, so that a jump not taken leaves everything as it was, is the model's choice
(log 11): R550 and R552 do not say whether it is an ALU step. -/
def Obligations.ConditionalJumps : Prop :=
  (∀ (c : Cond) rel rest, decode ((0x70#8 + c.number) :: rel :: rest) = .ok ((jccForms c).1 rel) rest ∧
    decode ((0x60#8 + c.number) :: rel :: rest) = .ok ((jccForms c).2 rel) rest) ∧
  ∀ (c : Cond) (rel : Byte) (s : State), s.Steady →
    (let Jcc (t : State) :=
       (c.holds s.flags = true → Transferred s t s.regs s.flags s.sregs.cs (s.ip + rel.signExtend 16) ∧
         Unchanged s.sys t.sys) ∧
       (c.holds s.flags = false → t = s)
     Completes ((jccForms c).1 rel) s Jcc ∧ Completes ((jccForms c).2 rel) s Jcc)

/-- R406, R261 on `n` bits: after a comparison the conditions order the operands, unsigned by B, NB, BE and A, signed by
L, GE, LE and G. -/
def OrderRule (n : Nat) : Prop :=
  ∀ (f : Flags) (a b : BitVec n),
    (let g := (subN f a b false).2
     (Cond.z.holds g = true ↔ a = b) ∧ (Cond.nz.holds g = true ↔ a ≠ b) ∧
     (Cond.b.holds g = true ↔ a.toNat < b.toNat) ∧ (Cond.nb.holds g = true ↔ b.toNat ≤ a.toNat) ∧
     (Cond.be.holds g = true ↔ a.toNat ≤ b.toNat) ∧ (Cond.a.holds g = true ↔ b.toNat < a.toNat) ∧
     (Cond.l.holds g = true ↔ a.toInt < b.toInt) ∧ (Cond.ge.holds g = true ↔ b.toInt ≤ a.toInt) ∧
     (Cond.le.holds g = true ↔ a.toInt ≤ b.toInt) ∧ (Cond.g.holds g = true ↔ b.toInt < a.toInt))

/-- R406: bytes and words are ordered by the conditions; O, S and P are OF, SF and PF, and NO, NS and NP their
opposites. -/
def Obligations.ConditionsOrderOperands : Prop :=
  OrderRule 8 ∧ OrderRule 16 ∧
  ∀ f : Flags,
    (Cond.o.holds f = true ↔ f.of = true) ∧ (Cond.no.holds f = true ↔ f.of = false) ∧
    (Cond.s.holds f = true ↔ f.sf = true) ∧ (Cond.ns.holds f = true ↔ f.sf = false) ∧
    (Cond.p.holds f = true ↔ f.pf = true) ∧ (Cond.np.holds f = true ↔ f.pf = false)

/-- R425 to R428: LOOP, LOOPZ, LOOPNZ and JCXZ: CX counts down, no flag changed. That the count of CX and the test take
no tick and count no micro-operation, so that a jump not taken leaves everything else as it was, is the model's choice
(log 11): R550 and R552 do not say whether the count is an ALU step. -/
def Obligations.Loops : Prop :=
  (∀ rel rest, decode (0xE2#8 :: rel :: rest) = .ok (.loop rel) rest ∧
    decode (0xE1#8 :: rel :: rest) = .ok (.loopz rel) rest ∧
    decode (0xE0#8 :: rel :: rest) = .ok (.loopnz rel) rest ∧
    decode (0xE3#8 :: rel :: rest) = .ok (.jcxz rel) rest) ∧
  ∀ (rel : Byte) (s : State), s.Steady →
    (let cx := s.regs.cx - 1#16
     let g := { s.regs with cx := cx }
     let Loop (taken : Prop) (t : State) :=
       (taken → Transferred s t g s.flags s.sregs.cs (s.ip + rel.signExtend 16) ∧ Unchanged s.sys t.sys) ∧
       (¬taken → t = { s with regs := g })
     Completes (.loop rel) s (Loop (cx ≠ 0#16)) ∧
     Completes (.loopz rel) s (Loop (cx ≠ 0#16 ∧ s.flags.zf = true)) ∧
     Completes (.loopnz rel) s (Loop (cx ≠ 0#16 ∧ s.flags.zf = false)) ∧
     (Completes (.jcxz rel) s fun t =>
       (s.regs.cx = 0#16 → Transferred s t s.regs s.flags s.sregs.cs (s.ip + rel.signExtend 16) ∧ Unchanged s.sys t.sys) ∧
       (s.regs.cx ≠ 0#16 → t = s)))

/-- R410 to R413: the calls push the return address, a far call CS above it; the operand is read before the push. -/
def Obligations.Calls : Prop :=
  ∀ s : State, s.Steady →
    (let ss := s.sregs.ss
     let sp := s.regs.sp
     let Near (off : Word) (t : State) :=
       Transferred s t { s.regs with sp := sp - 2#16 } s.flags s.sregs.cs off ∧
       Stores s.sys t.sys (store16 ss (sp - 2#16) s.ip)
     let Far (seg off : Word) (t : State) :=
       Transferred s t { s.regs with sp := sp - 4#16 } s.flags seg off ∧
       Stores s.sys t.sys (store16 ss (sp - 2#16) s.sregs.cs ++ store16 ss (sp - 4#16) s.ip)
     (∀ rel, Completes (.callRel16 rel) s (Near (s.ip + rel))) ∧
     (∀ rm, Completes (.callEw rm) s (Near (s.operand16 rm))) ∧
     (∀ off seg, Completes (.callFar off seg) s (Far seg off)) ∧
     (∀ m, (let off := s.wordAt (s.segValueOf m) (s.effAddr m)
       let seg := s.wordAt (s.segValueOf m) (s.effAddr m + 2#16)
       Completes (.callMpM0 m) s (Far seg off) ∧ Completes (.callMpM1 m) s (Far seg off) ∧
       Completes (.callMpM2 m) s (Far seg off))))

/-- R415 to R418: the returns, and their aliases. -/
def Obligations.Returns : Prop :=
  (∀ rest, decode (0xC3#8 :: rest) = .ok .ret rest ∧ decode (0xC1#8 :: rest) = .ok .retAlias rest ∧
    decode (0xCB#8 :: rest) = .ok .retf rest ∧ decode (0xC9#8 :: rest) = .ok .retfAlias rest) ∧
  (∀ lo hi rest, decode (0xC2#8 :: lo :: hi :: rest) = .ok (.retIw (word hi lo)) rest ∧
    decode (0xC0#8 :: lo :: hi :: rest) = .ok (.retIwAlias (word hi lo)) rest ∧
    decode (0xCA#8 :: lo :: hi :: rest) = .ok (.retfIw (word hi lo)) rest ∧
    decode (0xC8#8 :: lo :: hi :: rest) = .ok (.retfIwAlias (word hi lo)) rest) ∧
  ∀ s : State, s.Steady →
    (let ss := s.sregs.ss
     let sp := s.regs.sp
     let Near (k : Word) (t : State) :=
       Transferred s t { s.regs with sp := sp + 2#16 + k } s.flags s.sregs.cs (s.wordAt ss sp) ∧ Unchanged s.sys t.sys
     let Far (k : Word) (t : State) :=
       Transferred s t { s.regs with sp := sp + 4#16 + k } s.flags (s.wordAt ss (sp + 2#16)) (s.wordAt ss sp) ∧
       Unchanged s.sys t.sys
     Completes .ret s (Near 0#16) ∧ Completes .retAlias s (Near 0#16) ∧
     Completes .retf s (Far 0#16) ∧ Completes .retfAlias s (Far 0#16) ∧
     (∀ k, Completes (.retIw k) s (Near k) ∧ Completes (.retIwAlias k) s (Near k) ∧
       Completes (.retfIw k) s (Far k) ∧ Completes (.retfIwAlias k) s (Far k)))

/-- R430 to R432, R790: INT n, INT3 and INTO with OF set take the interrupt, the next instruction's IP pushed; INTO
with OF clear does nothing. That the test of OF takes no tick and counts no micro-operation is the model's choice (log
11): R550 and R552 do not say whether it is an ALU step. -/
def Obligations.SoftwareInterrupts : Prop :=
  (∀ n rest, decode (0xCD#8 :: n :: rest) = .ok (.intIb n) rest ∧ decode (0xCC#8 :: rest) = .ok .int3 rest ∧
    decode (0xCE#8 :: rest) = .ok .into rest) ∧
  ∀ s : State, s.Steady →
    (∀ n, Completes (.intIb n) s fun t => Entered s t n s.flags s.ip) ∧
    (Completes .int3 s fun t => Entered s t 3#8 s.flags s.ip) ∧
    (Completes .into s fun t => (s.flags.of = true → Entered s t 4#8 s.flags s.ip) ∧ (s.flags.of = false → t = s))

/-- R433, R795: IRET restores IP, CS and the nine flags. -/
def Obligations.InterruptReturn : Prop :=
  ∀ s : State, s.Steady →
    (let ss := s.sregs.ss
     let sp := s.regs.sp
     Completes .iret s fun t =>
       Transferred s t { s.regs with sp := sp + 6#16 } (Flags.ofImage (s.wordAt ss (sp + 4#16)))
         (s.wordAt ss (sp + 2#16)) (s.wordAt ss sp) ∧ Unchanged s.sys t.sys)

/-! ## Processor control -/

/-- R460 to R466, R134, R380, R478, R479: the flag instructions change their flag and nothing else, STI also inhibits
the next boundary; a prefix byte writes its field of the prefix record, the last of a field winning, and LOCK also
holds the bus. That it holds it from the prefix byte on, where R36 and R478 say from the instruction's first bus cycle,
is the model's choice (log 14), and so is 0xF1 as LOCK (log 15). That a flag instruction takes no tick and counts no
micro-operation is too (log 11): R550 and R552 do not say whether it is an ALU step. -/
def Obligations.FlagAndPrefixInstructions : Prop :=
  ∀ s : State,
    exec .clc s = .next { s with flags := { s.flags with cf := false } } ∧
    exec .stc s = .next { s with flags := { s.flags with cf := true } } ∧
    exec .cmc s = .next { s with flags := { s.flags with cf := !s.flags.cf } } ∧
    exec .cld s = .next { s with flags := { s.flags with df := false } } ∧
    exec .std s = .next { s with flags := { s.flags with df := true } } ∧
    exec .cli s = .next { s with flags := { s.flags with ief := false } } ∧
    exec .sti s = .next { s with flags := { s.flags with ief := true }, intInhibit := true } ∧
    (let Pfx' (p : Pfx) : Out := .next { s with eu := { s.eu with pfx := p } }
     let locked : Out := .next { s with eu := { s.eu with pfx := { s.eu.pfx with lock := true } },
                                        sys := { s.sys with biu := { s.sys.biu with lock := true } } }
     exec .segEs s = Pfx' { s.eu.pfx with seg := some .es } ∧ exec .segCs s = Pfx' { s.eu.pfx with seg := some .cs } ∧
     exec .segSs s = Pfx' { s.eu.pfx with seg := some .ss } ∧ exec .segDs s = Pfx' { s.eu.pfx with seg := some .ds } ∧
     exec .rep s = Pfx' { s.eu.pfx with rep := .rep } ∧ exec .repne s = Pfx' { s.eu.pfx with rep := .repne } ∧
     exec .lock s = locked ∧ exec .lockAlias s = locked)

/-- R475, R476, R477: HLT halts; WAIT ends when the TEST pin is asserted and else stays waiting; ESC changes no
register, flag or byte of memory. -/
def Obligations.HaltWaitEscape : Prop :=
  ∀ s : State, s.Steady →
    (Completes .hlt s fun t => Ran s t s.regs s.flags ∧ t.sys.halted = true ∧
      Unchanged { s.sys with halted := true } t.sys) ∧
    (Completes .wait s fun t => Ran { s with waitTpr := !s.sys.lines.test } t s.regs s.flags ∧ Unchanged s.sys t.sys) ∧
    (∀ op reg rm, Completes (.esc op reg rm) s fun t => Kept s t s.flags)

/-! ## Interrupts -/

/-- R775, R776, R780, R783, R790, R382, R476: at a boundary that is not inhibited, a latched NMI takes interrupt 2;
else, unless INTR is pending with IF set, a latched trap takes interrupt 1. A repetition resumes at its last prefix,
a WAIT at its first byte: the model's choice among the places R383 and R476 leave (logs 22, 37). A place among the
prefix bytes of an instruction is no boundary. -/
def Obligations.NmiAndTrapEntry : Prop :=
  ∀ s : State, s.Steady → s.eu.prefixing = false → s.intInhibit = false →
    (let ip := if s.eu.repActive then s.ip - 2#16 else if s.waitTpr then s.eu.start else s.ip
     (s.sys.nmiLatched = true → ∃ t, step s = .next t ∧ EnteredStep s t 2#8 ip) ∧
     (s.sys.nmiLatched = false → (s.sys.intrPending = true → s.flags.ief = false) → s.trapLatched = true →
       ∃ t, step s = .next t ∧ EnteredStep s t 1#8 ip))

/-- R775, R785, R646, R647: with no NMI latched, INTR pending and IF set take the interrupt whose type the PIC gives
in the two acknowledge cycles: its base and the requested level of highest priority. The IP pushed for an interrupted
repetition or WAIT is the model's choice among the places R383 and R476 leave (logs 22, 37). -/
def Obligations.ExternalInterruptEntry : Prop :=
  ∀ s : State, s.Steady → s.eu.prefixing = false → s.intInhibit = false → s.sys.nmiLatched = false →
    s.sys.intrPending = true → s.flags.ief = true → s.sys.pic.upm = true → s.sys.pic.inInta = false →
    (let ip := if s.eu.repActive then s.ip - 2#16 else if s.waitTpr then s.eu.start else s.ip
     ∃ t, step s = .next t ∧ EnteredStep s t (s.sys.pic.base ++ s.sys.pic.ackLevel) ip)

/-- R586, R475: a halted CPU with nothing due spends one tick: no register, flag or byte of memory changes. -/
def Obligations.HaltedStep : Prop :=
  ∀ s : State, s.Steady → s.dueEvent = none → s.sys.halted = true →
    ∃ t, step s = .next t ∧ t.regs = s.regs ∧ t.flags = s.flags ∧ t.sregs = s.sregs ∧ t.ip = s.ip ∧
      t.sys.halted = true ∧ t.sys.ticks = s.sys.ticks + 1 ∧ ∀ a, peekByte t.sys a = peekByte s.sys a

/-! ## Memory, bus and devices -/

/-- R71, R73, R79, R80: a store to RAM is read back, one to ROM or to an unmapped address changes nothing, an unmapped
address reads 0xFF, no other byte outside the MMIO ranges changes, and memories stay canonical. -/
def Obligations.BusReadsAndWrites : Prop :=
  ∀ (y : Sys) (a : PhysAddr) (v : Byte), y.memWf = true →
    (y.cfg.kindAt a = some .ram → peekByte (busWrite y a v) a = v) ∧
    (y.cfg.kindAt a = some .rom → busWrite y a v = y) ∧
    (y.cfg.kindAt a = none → busWrite y a v = y ∧ busRead y a = (0xFF#8, y)) ∧
    (∀ b, b ≠ a → y.cfg.kindAt b ≠ some .mmio → peekByte (busWrite y a v) b = peekByte y b) ∧
    (busWrite y a v).memWf = true

/-- R71, R72, R77, R81: a physical address is 16 times the segment plus the offset, modulo 2^20; a word's high byte is
at the next offset, modulo 2^16, of the same segment (log 40). R155, R156: the ModRM byte of each memory operand, its
effective address modulo 2^16 and its default segment, SS with BP and DS else. R157: an override replaces the segment of
a memory operand, of a direct offset, of XLAT and of a string source, and never that of a string destination, ES. -/
def Obligations.AddressFormation : Prop :=
  (∀ seg off : Word, (phys seg off).toNat = (seg.toNat * 16 + off.toNat) % 2 ^ 20) ∧
  (∀ (s : State) (seg : Word), s.wordAt seg 0xFFFF#16 = word (s.byteAt seg 0#16) (s.byteAt seg 0xFFFF#16)) ∧
  (∀ (s : State) (seg off : Word), (s.wordAt seg off).toNat =
    (s.byteAt seg off).toNat + 256 * (s.byteAt seg (off + 1#16)).toNat) ∧
  (∀ rest, (∀ lo hi, decode (0x8D#8 :: 0x06#8 :: lo :: hi :: rest) = .ok (.leaM0 .ax (.direct (word hi lo))) rest) ∧
    ∀ b : EaBase,
      (b ≠ .bp → decode (0x8D#8 :: baseNumber b :: rest) = .ok (.leaM0 .ax (.ind b)) rest) ∧
      (∀ d, decode (0x8D#8 :: (0x40#8 + baseNumber b) :: d :: rest) = .ok (.leaM1 .ax (.ind8 b d)) rest) ∧
      (∀ lo hi, decode (0x8D#8 :: (0x80#8 + baseNumber b) :: lo :: hi :: rest) =
        .ok (.leaM2 .ax (.ind16 b (word hi lo))) rest)) ∧
  (∀ (s : State) (m : MemOp), ((s.effAddr m).toNat : Int) = memSum s.regs m % 2 ^ 16 ∧
    s.segValueOf m = overridden s (if usesBp m then s.sregs.ss else s.sregs.ds) ∧
    s.dataSeg = overridden s s.sregs.ds) ∧
  (∀ s : State, s.Steady → s.eu.pfx.rep = .none →
    (let src := s.byteAt (overridden s s.sregs.ds) s.regs.si
     let dst := s.byteAt s.sregs.es s.regs.di
     Completes .movsb s (fun t => Stores s.sys t.sys (store8 s.sregs.es s.regs.di src)) ∧
     Completes .stosb s (fun t => Stores s.sys t.sys (store8 s.sregs.es s.regs.di (s.reg8 .al))) ∧
     Completes .cmpsb s (fun t => t.flags = (subN s.flags src dst false).2) ∧
     Completes .scasb s (fun t => t.flags = (subN s.flags (s.reg8 .al) dst false).2)))

/-- R510, R511: the bus unit's phase moves along the documented edges only. -/
def Obligations.BusPhaseEdges : Prop :=
  ∀ (y : Sys) (cs : Word),
    (let b := y.biu
     let next := (y.tick cs).biu.phase
     (b.phase = .t1 → next = .t2) ∧ (b.phase = .t2 → next = .t3) ∧
     (b.phase = .t3 → (b.waitLeft = 0 → next = .t4) ∧ (b.waitLeft ≠ 0 → next = .tw)) ∧
     (b.phase = .tw → (b.waitLeft ≤ 1 → next = .t4) ∧ (1 < b.waitLeft → next = .tw)) ∧
     (b.phase = .t4 → next = .t1 ∨ next = .idle) ∧
     (b.phase = .idle → next = .idle ∨ next = .t1 ∨ next = .haltAck) ∧
     (b.phase = .haltAck → next = .idle))

/-- R500, R580, R676: a tick is one tick, and unless a device's DMA transfer is pending, or a device out of scope is one
that a read changes (log 46), it changes no byte of memory and nothing of the system but what `Sys.still` leaves out:
the bus unit and the EU's counters, the PIT's counting elements and outputs, DMA channel 0 (address, count, status, mask
and request line), the CRTC's counters and the beam, the
adapter's read latches and vertical interrupt, the NMI latch with its edge detector, and the free values drawn. -/
def Obligations.TickLeavesMemory : Prop :=
  ∀ (y : Sys) (cs : Word), y.Quiet → (y.tick cs).ticks = y.ticks + 1 ∧ Unchanged y (y.tick cs)

/-- R645, R646, R647: the acknowledge of the PIC in 8086 mode: the type byte is the base and the level; the level is
in service unless none was requested or automatic EOI ended it; in edge mode its request is cleared. -/
def Obligations.PicAcknowledge : Prop :=
  ∀ p : Pic, p.upm = true →
    (let q := p.inta1
     let l := p.ackLevel
     q.vector = p.base ++ l ∧ q.inInta = true ∧ q.inta2.inInta = false ∧
     ((p.highest p.irr).isSome = true → p.ltim = false → q.irr.getLsbD l.toNat = false) ∧
     ((p.highest p.irr).isSome = true → q.isr.getLsbD l.toNat = true) ∧
     ((p.highest p.irr).isSome = true → p.aeoi = false → q.inta2.isr.getLsbD l.toNat = true) ∧
     (p.aeoi = true → q.inta2.isr.getLsbD l.toNat = false) ∧
     (p.highest p.irr = none → q.isr = p.isr ∧ q.irr = p.irr))

/-- R671, R678, R673: the DMA controller: after the byte flip-flop is cleared, two writes to an address or count
port are its register's low and high byte, and two reads give them back; a refresh cycle moves channel 0's address
and count, serves its request line, and at terminal count reloads them or masks the channel. -/
def Obligations.DmaRegistersAndRefresh : Prop :=
  (∀ (d : Dma) (r : BitVec 4) (x lo hi : Byte), r.getLsbD 3 = false →
    (let e := ((d.write 12#4 x).write r lo).write r hi
     let f := (e.read r).2
     (e.read r).1 = lo ∧ (f.read r).1 = hi ∧ (f.read r).2 = e ∧ e.flipflop = false)) ∧
  (∀ d : Dma,
    (let e := d.grant 0#2
     let c := d.ch0
     let next := if c.mode.getLsbD 3 then c.curAddr - 1#16 else c.curAddr + 1#16
     e.busyLeft = 5 ∧ e.dreq.getLsbD 0 = false ∧ e.request = d.request ∧ e.ch1 = d.ch1 ∧ e.ch2 = d.ch2 ∧ e.ch3 = d.ch3 ∧
     (c.curCount ≠ 0#16 → e.ch0 = { c with curAddr := next, curCount := c.curCount - 1#16 } ∧ e.tc = d.tc ∧ e.mask = d.mask) ∧
     (c.curCount = 0#16 → e.tc.getLsbD 0 = true ∧
       (c.mode.getLsbD 2 = true → e.ch0 = { c with curAddr := c.baseAddr, curCount := c.baseCount } ∧ e.mask = d.mask) ∧
       (c.mode.getLsbD 2 = false → e.ch0 = { c with curAddr := next } ∧ e.mask.getLsbD 0 = true))))

/-- R616, R619: a binary counter in mode 2 just reloaded, its gate high: `out` is low for the last CLK of a period of as
many CLKs as the count register holds, and high for the others, after which the counter is as it was. -/
def Obligations.RateGeneratorPeriod : Prop :=
  ∀ (c : PitCounter) (n : Nat),
    c.mode = some .m2 → c.bcd = false → c.running = true → c.gate = true → c.pendingLoad = false → c.gateEdge = false →
    c.out = true → 2 ≤ c.cr.toNat →
    (let after (k : Nat) := (fun x : PitCounter => x.clk n)^[k] c.reload
     let period := c.cr.toNat
     (∀ k, k + 1 < period → (after k).out = true) ∧ (after (period - 1)).out = false ∧
     after period = { c.reload with rose := true })

/-- R40, R830: the machine after reset; the general registers' zeros are the model's choice (log 1). -/
def Obligations.ResetState : Prop :=
  (let s := State.reset
   s.sregs = { es := 0#16, cs := 0xFFFF#16, ss := 0#16, ds := 0#16 } ∧ s.ip = 0#16 ∧ s.flags.image = 0xF002#16 ∧
   s.sys.biu.queue = [] ∧ s.sys.biu.pc = 0#16 ∧ s.sys.biu.phase = .idle ∧ s.sys.biu.request = none ∧
   s.sys.biu.fetchSched = .none ∧ s.sys.biu.waitLeft = 0 ∧ s.eu.instr = none ∧ s.eu.repActive = false ∧
   s.sys.halted = false ∧ s.sys.nmiLatched = false ∧ s.sys.intrPending = false ∧ s.trapLatched = false ∧
   s.waitTpr = false ∧ s.intInhibit = false ∧ s.sys.biu.lock = false ∧ s.sys.biu.suspended = false ∧
   s.sys.mpc = 0 ∧ s.sys.ticks = 0 ∧ s.sys.nmiEnable = false ∧ s.sys.port61 = 0#8 ∧ s.sys.dma.mask = 0xF#4 ∧
   s.sys.dma.flipflop = false ∧
   phys s.sregs.cs s.ip = 0xFFFF0#20 ∧ s.dueEvent = none)
end

