-- ==== Sys2Proof/Laws/Bits.lean ====
section
/-! SUPPORT. The bit and byte helpers: halves of a word, one bit written. -/

namespace Sys2Proof.Machine

theorem getLsbD_word (h l : Byte) (i : Nat) : (word h l).getLsbD i = if i < 8 then l.getLsbD i else h.getLsbD (i - 8) := by
  exact (@BitVec.getLsbD_append 8 8 i h l).trans (by split <;> rfl)

@[simp] theorem loByte_word (h l : Byte) : loByte (word h l) = l := by
  unfold loByte
  ext i hi
  simp [getLsbD_word, hi]

@[simp] theorem hiByte_word (h l : Byte) : hiByte (word h l) = h := by
  unfold hiByte
  ext i hi
  simp [getLsbD_word, BitVec.getLsbD_eq_getElem hi]

@[simp] theorem word_hiByte_loByte (v : Word) : word (hiByte v) (loByte v) = v := by
  apply BitVec.eq_of_getLsbD_eq
  intro i hi
  rw [getLsbD_word]
  unfold hiByte loByte
  split
  · rename_i h; simp [h]
  · rename_i h
    have : i - 8 < 8 := by omega
    simp [this, show 8 + (i - 8) = i by omega]

theorem toNat_word (h l : Byte) : (word h l).toNat = h.toNat * 256 + l.toNat := by
  have := @BitVec.toNat_append 8 8 h l
  rw [Nat.shiftLeft_eq, Nat.or_comm] at this
  have hl := l.isLt
  unfold word
  rw [this]
  have := Nat.two_pow_add_eq_or_of_lt hl h.toNat
  rw [Nat.or_comm, Nat.mul_comm, ← this, Nat.mul_comm]

theorem getLsbD_setBit {n : Nat} (v : BitVec n) (i j : Nat) (b : Bool) :
    (setBit v i b).getLsbD j = if j = i then (b && decide (i < n)) else v.getLsbD j := by
  have hv : v.getLsbD i = true → i < n := BitVec.lt_of_getLsbD
  have hj : v.getLsbD j = true → j < n := BitVec.lt_of_getLsbD
  unfold setBit
  cases b <;> by_cases h : j = i
  · subst h; simp
  · have h' : ¬ i = j := fun e => h e.symm
    simp [h, h', BitVec.getLsbD_twoPow]
    exact hj
  · subst h; simp [BitVec.getLsbD_twoPow]; exact hv
  · have h' : ¬ i = j := fun e => h e.symm
    simp [h, h', BitVec.getLsbD_twoPow]

theorem setBit_setBit {n : Nat} (v : BitVec n) (i : Nat) (b b' : Bool) :
    setBit (setBit v i b) i b' = setBit v i b' := by
  apply BitVec.eq_of_getLsbD_eq
  intro j _
  simp only [getLsbD_setBit]
  split <;> rfl

end Sys2Proof.Machine
end

