-- ==== Sys2Proof/Laws/State.lean ====
section
/-! SUPPORT. One lemma per field per update of the state: what each register, memory and bus operation leaves
as it was. -/

namespace Sys2Proof.Machine

@[simp] theorem State.setReg16_sregs (s : State) (r : Reg16) (v : Word) : (s.setReg16 r v).sregs = s.sregs := rfl
@[simp] theorem State.setReg16_ip (s : State) (r : Reg16) (v : Word) : (s.setReg16 r v).ip = s.ip := rfl
@[simp] theorem State.setReg16_flags (s : State) (r : Reg16) (v : Word) : (s.setReg16 r v).flags = s.flags := rfl
@[simp] theorem State.setReg16_eu (s : State) (r : Reg16) (v : Word) : (s.setReg16 r v).eu = s.eu := rfl
@[simp] theorem State.setReg16_trapLatched (s : State) (r : Reg16) (v : Word) : (s.setReg16 r v).trapLatched = s.trapLatched := rfl
@[simp] theorem State.setReg16_intInhibit (s : State) (r : Reg16) (v : Word) : (s.setReg16 r v).intInhibit = s.intInhibit := rfl
@[simp] theorem State.setReg16_waitTpr (s : State) (r : Reg16) (v : Word) : (s.setReg16 r v).waitTpr = s.waitTpr := rfl
@[simp] theorem State.setReg16_sys (s : State) (r : Reg16) (v : Word) : (s.setReg16 r v).sys = s.sys := rfl

@[simp] theorem State.setReg8_sregs (s : State) (r : Reg8) (v : Byte) : (s.setReg8 r v).sregs = s.sregs := rfl
@[simp] theorem State.setReg8_ip (s : State) (r : Reg8) (v : Byte) : (s.setReg8 r v).ip = s.ip := rfl
@[simp] theorem State.setReg8_flags (s : State) (r : Reg8) (v : Byte) : (s.setReg8 r v).flags = s.flags := rfl
@[simp] theorem State.setReg8_eu (s : State) (r : Reg8) (v : Byte) : (s.setReg8 r v).eu = s.eu := rfl
@[simp] theorem State.setReg8_trapLatched (s : State) (r : Reg8) (v : Byte) : (s.setReg8 r v).trapLatched = s.trapLatched := rfl
@[simp] theorem State.setReg8_intInhibit (s : State) (r : Reg8) (v : Byte) : (s.setReg8 r v).intInhibit = s.intInhibit := rfl
@[simp] theorem State.setReg8_waitTpr (s : State) (r : Reg8) (v : Byte) : (s.setReg8 r v).waitTpr = s.waitTpr := rfl
@[simp] theorem State.setReg8_sys (s : State) (r : Reg8) (v : Byte) : (s.setReg8 r v).sys = s.sys := rfl

@[simp] theorem State.setSreg_regs (s : State) (r : SReg) (v : Word) : (s.setSreg r v).regs = s.regs := by cases r <;> rfl
@[simp] theorem State.setSreg_ip (s : State) (r : SReg) (v : Word) : (s.setSreg r v).ip = s.ip := by cases r <;> rfl
@[simp] theorem State.setSreg_flags (s : State) (r : SReg) (v : Word) : (s.setSreg r v).flags = s.flags := by cases r <;> rfl
@[simp] theorem State.setSreg_eu (s : State) (r : SReg) (v : Word) : (s.setSreg r v).eu = s.eu := by cases r <;> rfl
@[simp] theorem State.setSreg_trapLatched (s : State) (r : SReg) (v : Word) : (s.setSreg r v).trapLatched = s.trapLatched := by cases r <;> rfl
@[simp] theorem State.setSreg_intInhibit (s : State) (r : SReg) (v : Word) : (s.setSreg r v).intInhibit = s.intInhibit := by cases r <;> rfl
@[simp] theorem State.setSreg_waitTpr (s : State) (r : SReg) (v : Word) : (s.setSreg r v).waitTpr = s.waitTpr := by cases r <;> rfl
@[simp] theorem State.setSreg_sys (s : State) (r : SReg) (v : Word) : (s.setSreg r v).sys = s.sys := by cases r <;> rfl

@[simp] theorem State.drawn_regs (s : State) : s.drawn.regs = s.regs := rfl
@[simp] theorem State.drawn_sregs (s : State) : s.drawn.sregs = s.sregs := rfl
@[simp] theorem State.drawn_ip (s : State) : s.drawn.ip = s.ip := rfl
@[simp] theorem State.drawn_flags (s : State) : s.drawn.flags = s.flags := rfl
@[simp] theorem State.drawn_eu (s : State) : s.drawn.eu = s.eu := rfl
@[simp] theorem State.drawn_trapLatched (s : State) : s.drawn.trapLatched = s.trapLatched := rfl
@[simp] theorem State.drawn_intInhibit (s : State) : s.drawn.intInhibit = s.intInhibit := rfl
@[simp] theorem State.drawn_waitTpr (s : State) : s.drawn.waitTpr = s.waitTpr := rfl

@[simp] theorem State.freeStatus_regs (s : State) : s.freeStatus.regs = s.regs := rfl
@[simp] theorem State.freeStatus_sregs (s : State) : s.freeStatus.sregs = s.sregs := rfl
@[simp] theorem State.freeStatus_ip (s : State) : s.freeStatus.ip = s.ip := rfl
@[simp] theorem State.freeStatus_eu (s : State) : s.freeStatus.eu = s.eu := rfl
@[simp] theorem State.freeStatus_trapLatched (s : State) : s.freeStatus.trapLatched = s.trapLatched := rfl
@[simp] theorem State.freeStatus_intInhibit (s : State) : s.freeStatus.intInhibit = s.intInhibit := rfl
@[simp] theorem State.freeStatus_waitTpr (s : State) : s.freeStatus.waitTpr = s.waitTpr := rfl

@[simp] theorem State.internal_regs (s : State) : s.internal.regs = s.regs := rfl
@[simp] theorem State.internal_sregs (s : State) : s.internal.sregs = s.sregs := rfl
@[simp] theorem State.internal_ip (s : State) : s.internal.ip = s.ip := rfl
@[simp] theorem State.internal_flags (s : State) : s.internal.flags = s.flags := rfl
@[simp] theorem State.internal_eu (s : State) : s.internal.eu = s.eu := rfl
@[simp] theorem State.internal_trapLatched (s : State) : s.internal.trapLatched = s.trapLatched := rfl
@[simp] theorem State.internal_intInhibit (s : State) : s.internal.intInhibit = s.intInhibit := rfl
@[simp] theorem State.internal_waitTpr (s : State) : s.internal.waitTpr = s.waitTpr := rfl

@[simp] theorem State.aluStep_regs (s : State) (a b : Word) : (s.aluStep a b).regs = s.regs := rfl
@[simp] theorem State.aluStep_sregs (s : State) (a b : Word) : (s.aluStep a b).sregs = s.sregs := rfl
@[simp] theorem State.aluStep_ip (s : State) (a b : Word) : (s.aluStep a b).ip = s.ip := rfl
@[simp] theorem State.aluStep_flags (s : State) (a b : Word) : (s.aluStep a b).flags = s.flags := rfl
@[simp] theorem State.aluStep_trapLatched (s : State) (a b : Word) : (s.aluStep a b).trapLatched = s.trapLatched := rfl
@[simp] theorem State.aluStep_intInhibit (s : State) (a b : Word) : (s.aluStep a b).intInhibit = s.intInhibit := rfl
@[simp] theorem State.aluStep_waitTpr (s : State) (a b : Word) : (s.aluStep a b).waitTpr = s.waitTpr := rfl

@[simp] theorem State.readVia_regs (s : State) (r : Request) : (s.readVia r).2.regs = s.regs := rfl
@[simp] theorem State.readVia_sregs (s : State) (r : Request) : (s.readVia r).2.sregs = s.sregs := rfl
@[simp] theorem State.readVia_ip (s : State) (r : Request) : (s.readVia r).2.ip = s.ip := rfl
@[simp] theorem State.readVia_flags (s : State) (r : Request) : (s.readVia r).2.flags = s.flags := rfl
@[simp] theorem State.readVia_trapLatched (s : State) (r : Request) : (s.readVia r).2.trapLatched = s.trapLatched := rfl
@[simp] theorem State.readVia_intInhibit (s : State) (r : Request) : (s.readVia r).2.intInhibit = s.intInhibit := rfl
@[simp] theorem State.readVia_waitTpr (s : State) (r : Request) : (s.readVia r).2.waitTpr = s.waitTpr := rfl

@[simp] theorem State.readVia2_regs (s : State) (r₁ r₂ : Request) : (s.readVia2 r₁ r₂).2.regs = s.regs := rfl
@[simp] theorem State.readVia2_sregs (s : State) (r₁ r₂ : Request) : (s.readVia2 r₁ r₂).2.sregs = s.sregs := rfl
@[simp] theorem State.readVia2_ip (s : State) (r₁ r₂ : Request) : (s.readVia2 r₁ r₂).2.ip = s.ip := rfl
@[simp] theorem State.readVia2_flags (s : State) (r₁ r₂ : Request) : (s.readVia2 r₁ r₂).2.flags = s.flags := rfl
@[simp] theorem State.readVia2_trapLatched (s : State) (r₁ r₂ : Request) : (s.readVia2 r₁ r₂).2.trapLatched = s.trapLatched := rfl
@[simp] theorem State.readVia2_intInhibit (s : State) (r₁ r₂ : Request) : (s.readVia2 r₁ r₂).2.intInhibit = s.intInhibit := rfl
@[simp] theorem State.readVia2_waitTpr (s : State) (r₁ r₂ : Request) : (s.readVia2 r₁ r₂).2.waitTpr = s.waitTpr := rfl

@[simp] theorem State.writeVia_regs (s : State) (r : Request) : (s.writeVia r).regs = s.regs := rfl
@[simp] theorem State.writeVia_sregs (s : State) (r : Request) : (s.writeVia r).sregs = s.sregs := rfl
@[simp] theorem State.writeVia_ip (s : State) (r : Request) : (s.writeVia r).ip = s.ip := rfl
@[simp] theorem State.writeVia_flags (s : State) (r : Request) : (s.writeVia r).flags = s.flags := rfl
@[simp] theorem State.writeVia_eu (s : State) (r : Request) : (s.writeVia r).eu = s.eu := rfl
@[simp] theorem State.writeVia_trapLatched (s : State) (r : Request) : (s.writeVia r).trapLatched = s.trapLatched := rfl
@[simp] theorem State.writeVia_intInhibit (s : State) (r : Request) : (s.writeVia r).intInhibit = s.intInhibit := rfl
@[simp] theorem State.writeVia_waitTpr (s : State) (r : Request) : (s.writeVia r).waitTpr = s.waitTpr := rfl

@[simp] theorem State.writeVia2_regs (s : State) (r₁ r₂ : Request) : (s.writeVia2 r₁ r₂).regs = s.regs := rfl
@[simp] theorem State.writeVia2_sregs (s : State) (r₁ r₂ : Request) : (s.writeVia2 r₁ r₂).sregs = s.sregs := rfl
@[simp] theorem State.writeVia2_ip (s : State) (r₁ r₂ : Request) : (s.writeVia2 r₁ r₂).ip = s.ip := rfl
@[simp] theorem State.writeVia2_flags (s : State) (r₁ r₂ : Request) : (s.writeVia2 r₁ r₂).flags = s.flags := rfl
@[simp] theorem State.writeVia2_eu (s : State) (r₁ r₂ : Request) : (s.writeVia2 r₁ r₂).eu = s.eu := rfl
@[simp] theorem State.writeVia2_trapLatched (s : State) (r₁ r₂ : Request) : (s.writeVia2 r₁ r₂).trapLatched = s.trapLatched := rfl
@[simp] theorem State.writeVia2_intInhibit (s : State) (r₁ r₂ : Request) : (s.writeVia2 r₁ r₂).intInhibit = s.intInhibit := rfl
@[simp] theorem State.writeVia2_waitTpr (s : State) (r₁ r₂ : Request) : (s.writeVia2 r₁ r₂).waitTpr = s.waitTpr := rfl

@[simp] theorem State.read8_regs (s : State) (g : Option SReg) (o : Word) : (s.read8 g o).2.regs = s.regs := rfl
@[simp] theorem State.read8_sregs (s : State) (g : Option SReg) (o : Word) : (s.read8 g o).2.sregs = s.sregs := rfl
@[simp] theorem State.read8_ip (s : State) (g : Option SReg) (o : Word) : (s.read8 g o).2.ip = s.ip := rfl
@[simp] theorem State.read8_flags (s : State) (g : Option SReg) (o : Word) : (s.read8 g o).2.flags = s.flags := rfl
@[simp] theorem State.read8_trapLatched (s : State) (g : Option SReg) (o : Word) : (s.read8 g o).2.trapLatched = s.trapLatched := rfl
@[simp] theorem State.read8_intInhibit (s : State) (g : Option SReg) (o : Word) : (s.read8 g o).2.intInhibit = s.intInhibit := rfl
@[simp] theorem State.read8_waitTpr (s : State) (g : Option SReg) (o : Word) : (s.read8 g o).2.waitTpr = s.waitTpr := rfl

@[simp] theorem State.read16_regs (s : State) (g : Option SReg) (o : Word) : (s.read16 g o).2.regs = s.regs := rfl
@[simp] theorem State.read16_sregs (s : State) (g : Option SReg) (o : Word) : (s.read16 g o).2.sregs = s.sregs := rfl
@[simp] theorem State.read16_ip (s : State) (g : Option SReg) (o : Word) : (s.read16 g o).2.ip = s.ip := rfl
@[simp] theorem State.read16_flags (s : State) (g : Option SReg) (o : Word) : (s.read16 g o).2.flags = s.flags := rfl
@[simp] theorem State.read16_trapLatched (s : State) (g : Option SReg) (o : Word) : (s.read16 g o).2.trapLatched = s.trapLatched := rfl
@[simp] theorem State.read16_intInhibit (s : State) (g : Option SReg) (o : Word) : (s.read16 g o).2.intInhibit = s.intInhibit := rfl
@[simp] theorem State.read16_waitTpr (s : State) (g : Option SReg) (o : Word) : (s.read16 g o).2.waitTpr = s.waitTpr := rfl

@[simp] theorem State.write8_regs (s : State) (g : Option SReg) (o : Word) (v : Byte) : (s.write8 g o v).regs = s.regs := rfl
@[simp] theorem State.write8_sregs (s : State) (g : Option SReg) (o : Word) (v : Byte) : (s.write8 g o v).sregs = s.sregs := rfl
@[simp] theorem State.write8_ip (s : State) (g : Option SReg) (o : Word) (v : Byte) : (s.write8 g o v).ip = s.ip := rfl
@[simp] theorem State.write8_flags (s : State) (g : Option SReg) (o : Word) (v : Byte) : (s.write8 g o v).flags = s.flags := rfl
@[simp] theorem State.write8_eu (s : State) (g : Option SReg) (o : Word) (v : Byte) : (s.write8 g o v).eu = s.eu := rfl
@[simp] theorem State.write8_trapLatched (s : State) (g : Option SReg) (o : Word) (v : Byte) : (s.write8 g o v).trapLatched = s.trapLatched := rfl
@[simp] theorem State.write8_intInhibit (s : State) (g : Option SReg) (o : Word) (v : Byte) : (s.write8 g o v).intInhibit = s.intInhibit := rfl
@[simp] theorem State.write8_waitTpr (s : State) (g : Option SReg) (o : Word) (v : Byte) : (s.write8 g o v).waitTpr = s.waitTpr := rfl

@[simp] theorem State.write16_regs (s : State) (g : Option SReg) (o v : Word) : (s.write16 g o v).regs = s.regs := by
  simp only [State.write16, State.writeVia2_regs]
@[simp] theorem State.write16_sregs (s : State) (g : Option SReg) (o v : Word) : (s.write16 g o v).sregs = s.sregs := by
  simp only [State.write16, State.writeVia2_sregs]
@[simp] theorem State.write16_ip (s : State) (g : Option SReg) (o v : Word) : (s.write16 g o v).ip = s.ip := by
  simp only [State.write16, State.writeVia2_ip]
@[simp] theorem State.write16_flags (s : State) (g : Option SReg) (o v : Word) : (s.write16 g o v).flags = s.flags := by
  simp only [State.write16, State.writeVia2_flags]
@[simp] theorem State.write16_eu (s : State) (g : Option SReg) (o v : Word) : (s.write16 g o v).eu = s.eu := by
  simp only [State.write16, State.writeVia2_eu]
@[simp] theorem State.write16_trapLatched (s : State) (g : Option SReg) (o v : Word) : (s.write16 g o v).trapLatched = s.trapLatched := by
  simp only [State.write16, State.writeVia2_trapLatched]
@[simp] theorem State.write16_intInhibit (s : State) (g : Option SReg) (o v : Word) : (s.write16 g o v).intInhibit = s.intInhibit := by
  simp only [State.write16, State.writeVia2_intInhibit]
@[simp] theorem State.write16_waitTpr (s : State) (g : Option SReg) (o v : Word) : (s.write16 g o v).waitTpr = s.waitTpr := by
  simp only [State.write16, State.writeVia2_waitTpr]

@[simp] theorem State.in8_regs (s : State) (p : Word) : (s.in8 p).2.regs = s.regs := rfl
@[simp] theorem State.in8_sregs (s : State) (p : Word) : (s.in8 p).2.sregs = s.sregs := rfl
@[simp] theorem State.in8_ip (s : State) (p : Word) : (s.in8 p).2.ip = s.ip := rfl
@[simp] theorem State.in8_flags (s : State) (p : Word) : (s.in8 p).2.flags = s.flags := rfl
@[simp] theorem State.in8_trapLatched (s : State) (p : Word) : (s.in8 p).2.trapLatched = s.trapLatched := rfl
@[simp] theorem State.in8_intInhibit (s : State) (p : Word) : (s.in8 p).2.intInhibit = s.intInhibit := rfl
@[simp] theorem State.in8_waitTpr (s : State) (p : Word) : (s.in8 p).2.waitTpr = s.waitTpr := rfl

@[simp] theorem State.in16_regs (s : State) (p : Word) : (s.in16 p).2.regs = s.regs := rfl
@[simp] theorem State.in16_sregs (s : State) (p : Word) : (s.in16 p).2.sregs = s.sregs := rfl
@[simp] theorem State.in16_ip (s : State) (p : Word) : (s.in16 p).2.ip = s.ip := rfl
@[simp] theorem State.in16_flags (s : State) (p : Word) : (s.in16 p).2.flags = s.flags := rfl
@[simp] theorem State.in16_trapLatched (s : State) (p : Word) : (s.in16 p).2.trapLatched = s.trapLatched := rfl
@[simp] theorem State.in16_intInhibit (s : State) (p : Word) : (s.in16 p).2.intInhibit = s.intInhibit := rfl
@[simp] theorem State.in16_waitTpr (s : State) (p : Word) : (s.in16 p).2.waitTpr = s.waitTpr := rfl

@[simp] theorem State.out8_regs (s : State) (p : Word) (v : Byte) : (s.out8 p v).regs = s.regs := rfl
@[simp] theorem State.out8_sregs (s : State) (p : Word) (v : Byte) : (s.out8 p v).sregs = s.sregs := rfl
@[simp] theorem State.out8_ip (s : State) (p : Word) (v : Byte) : (s.out8 p v).ip = s.ip := rfl
@[simp] theorem State.out8_flags (s : State) (p : Word) (v : Byte) : (s.out8 p v).flags = s.flags := rfl
@[simp] theorem State.out8_eu (s : State) (p : Word) (v : Byte) : (s.out8 p v).eu = s.eu := rfl
@[simp] theorem State.out8_trapLatched (s : State) (p : Word) (v : Byte) : (s.out8 p v).trapLatched = s.trapLatched := rfl
@[simp] theorem State.out8_intInhibit (s : State) (p : Word) (v : Byte) : (s.out8 p v).intInhibit = s.intInhibit := rfl
@[simp] theorem State.out8_waitTpr (s : State) (p : Word) (v : Byte) : (s.out8 p v).waitTpr = s.waitTpr := rfl

@[simp] theorem State.out16_regs (s : State) (p v : Word) : (s.out16 p v).regs = s.regs := by
  simp only [State.out16, State.writeVia2_regs]
@[simp] theorem State.out16_sregs (s : State) (p v : Word) : (s.out16 p v).sregs = s.sregs := by
  simp only [State.out16, State.writeVia2_sregs]
@[simp] theorem State.out16_ip (s : State) (p v : Word) : (s.out16 p v).ip = s.ip := by
  simp only [State.out16, State.writeVia2_ip]
@[simp] theorem State.out16_flags (s : State) (p v : Word) : (s.out16 p v).flags = s.flags := by
  simp only [State.out16, State.writeVia2_flags]
@[simp] theorem State.out16_eu (s : State) (p v : Word) : (s.out16 p v).eu = s.eu := by
  simp only [State.out16, State.writeVia2_eu]
@[simp] theorem State.out16_trapLatched (s : State) (p v : Word) : (s.out16 p v).trapLatched = s.trapLatched := by
  simp only [State.out16, State.writeVia2_trapLatched]
@[simp] theorem State.out16_intInhibit (s : State) (p v : Word) : (s.out16 p v).intInhibit = s.intInhibit := by
  simp only [State.out16, State.writeVia2_intInhibit]
@[simp] theorem State.out16_waitTpr (s : State) (p v : Word) : (s.out16 p v).waitTpr = s.waitTpr := by
  simp only [State.out16, State.writeVia2_waitTpr]

@[simp] theorem State.decSp_sregs (s : State) : s.decSp.sregs = s.sregs := rfl
@[simp] theorem State.decSp_ip (s : State) : s.decSp.ip = s.ip := rfl
@[simp] theorem State.decSp_flags (s : State) : s.decSp.flags = s.flags := rfl
@[simp] theorem State.decSp_eu (s : State) : s.decSp.eu = s.eu := rfl
@[simp] theorem State.decSp_trapLatched (s : State) : s.decSp.trapLatched = s.trapLatched := rfl
@[simp] theorem State.decSp_intInhibit (s : State) : s.decSp.intInhibit = s.intInhibit := rfl
@[simp] theorem State.decSp_waitTpr (s : State) : s.decSp.waitTpr = s.waitTpr := rfl
@[simp] theorem State.decSp_sys (s : State) : s.decSp.sys = s.sys := rfl

@[simp] theorem State.addSp_sregs (s : State) (k : Word) : (s.addSp k).sregs = s.sregs := rfl
@[simp] theorem State.addSp_ip (s : State) (k : Word) : (s.addSp k).ip = s.ip := rfl
@[simp] theorem State.addSp_flags (s : State) (k : Word) : (s.addSp k).flags = s.flags := rfl
@[simp] theorem State.addSp_eu (s : State) (k : Word) : (s.addSp k).eu = s.eu := rfl
@[simp] theorem State.addSp_trapLatched (s : State) (k : Word) : (s.addSp k).trapLatched = s.trapLatched := rfl
@[simp] theorem State.addSp_intInhibit (s : State) (k : Word) : (s.addSp k).intInhibit = s.intInhibit := rfl
@[simp] theorem State.addSp_waitTpr (s : State) (k : Word) : (s.addSp k).waitTpr = s.waitTpr := rfl
@[simp] theorem State.addSp_sys (s : State) (k : Word) : (s.addSp k).sys = s.sys := rfl

@[simp] theorem State.push16_sregs (s : State) (v : Word) : (s.push16 v).sregs = s.sregs := rfl
@[simp] theorem State.push16_ip (s : State) (v : Word) : (s.push16 v).ip = s.ip := rfl
@[simp] theorem State.push16_flags (s : State) (v : Word) : (s.push16 v).flags = s.flags := rfl
@[simp] theorem State.push16_eu (s : State) (v : Word) : (s.push16 v).eu = s.eu := rfl
@[simp] theorem State.push16_trapLatched (s : State) (v : Word) : (s.push16 v).trapLatched = s.trapLatched := rfl
@[simp] theorem State.push16_intInhibit (s : State) (v : Word) : (s.push16 v).intInhibit = s.intInhibit := rfl
@[simp] theorem State.push16_waitTpr (s : State) (v : Word) : (s.push16 v).waitTpr = s.waitTpr := rfl

@[simp] theorem State.pop16_sregs (s : State) : s.pop16.2.sregs = s.sregs := rfl
@[simp] theorem State.pop16_ip (s : State) : s.pop16.2.ip = s.ip := rfl
@[simp] theorem State.pop16_flags (s : State) : s.pop16.2.flags = s.flags := rfl
@[simp] theorem State.pop16_trapLatched (s : State) : s.pop16.2.trapLatched = s.trapLatched := rfl
@[simp] theorem State.pop16_intInhibit (s : State) : s.pop16.2.intInhibit = s.intInhibit := rfl
@[simp] theorem State.pop16_waitTpr (s : State) : s.pop16.2.waitTpr = s.waitTpr := rfl

@[simp] theorem State.susp_regs (s : State) : s.susp.regs = s.regs := rfl
@[simp] theorem State.susp_sregs (s : State) : s.susp.sregs = s.sregs := rfl
@[simp] theorem State.susp_ip (s : State) : s.susp.ip = s.ip := rfl
@[simp] theorem State.susp_flags (s : State) : s.susp.flags = s.flags := rfl
@[simp] theorem State.susp_eu (s : State) : s.susp.eu = s.eu := rfl
@[simp] theorem State.susp_trapLatched (s : State) : s.susp.trapLatched = s.trapLatched := rfl
@[simp] theorem State.susp_intInhibit (s : State) : s.susp.intInhibit = s.intInhibit := rfl
@[simp] theorem State.susp_waitTpr (s : State) : s.susp.waitTpr = s.waitTpr := rfl

@[simp] theorem State.corr_regs (s : State) : s.corr.regs = s.regs := rfl
@[simp] theorem State.corr_sregs (s : State) : s.corr.sregs = s.sregs := rfl
@[simp] theorem State.corr_ip (s : State) : s.corr.ip = s.ip := rfl
@[simp] theorem State.corr_flags (s : State) : s.corr.flags = s.flags := rfl
@[simp] theorem State.corr_eu (s : State) : s.corr.eu = s.eu := rfl
@[simp] theorem State.corr_trapLatched (s : State) : s.corr.trapLatched = s.trapLatched := rfl
@[simp] theorem State.corr_intInhibit (s : State) : s.corr.intInhibit = s.intInhibit := rfl
@[simp] theorem State.corr_waitTpr (s : State) : s.corr.waitTpr = s.waitTpr := rfl

@[simp] theorem State.flush_regs (s : State) : s.flush.regs = s.regs := rfl
@[simp] theorem State.flush_sregs (s : State) : s.flush.sregs = s.sregs := rfl
@[simp] theorem State.flush_ip (s : State) : s.flush.ip = s.ip := rfl
@[simp] theorem State.flush_flags (s : State) : s.flush.flags = s.flags := rfl
@[simp] theorem State.flush_eu (s : State) : s.flush.eu = s.eu := rfl
@[simp] theorem State.flush_trapLatched (s : State) : s.flush.trapLatched = s.trapLatched := rfl
@[simp] theorem State.flush_intInhibit (s : State) : s.flush.intInhibit = s.intInhibit := rfl
@[simp] theorem State.flush_waitTpr (s : State) : s.flush.waitTpr = s.waitTpr := rfl

@[simp] theorem State.maskFlags_regs (s : State) : s.maskFlags.regs = s.regs := rfl
@[simp] theorem State.maskFlags_sregs (s : State) : s.maskFlags.sregs = s.sregs := rfl
@[simp] theorem State.maskFlags_ip (s : State) : s.maskFlags.ip = s.ip := rfl
@[simp] theorem State.maskFlags_eu (s : State) : s.maskFlags.eu = s.eu := rfl
@[simp] theorem State.maskFlags_trapLatched (s : State) : s.maskFlags.trapLatched = s.trapLatched := rfl
@[simp] theorem State.maskFlags_intInhibit (s : State) : s.maskFlags.intInhibit = s.intInhibit := rfl
@[simp] theorem State.maskFlags_waitTpr (s : State) : s.maskFlags.waitTpr = s.waitTpr := rfl
@[simp] theorem State.maskFlags_sys (s : State) : s.maskFlags.sys = s.sys := rfl

@[simp] theorem State.jumpTo_regs (s : State) (o : Word) : (s.jumpTo o).regs = s.regs := rfl
@[simp] theorem State.jumpTo_sregs (s : State) (o : Word) : (s.jumpTo o).sregs = s.sregs := rfl
@[simp] theorem State.jumpTo_flags (s : State) (o : Word) : (s.jumpTo o).flags = s.flags := rfl
@[simp] theorem State.jumpTo_eu (s : State) (o : Word) : (s.jumpTo o).eu = s.eu := rfl
@[simp] theorem State.jumpTo_trapLatched (s : State) (o : Word) : (s.jumpTo o).trapLatched = s.trapLatched := rfl
@[simp] theorem State.jumpTo_intInhibit (s : State) (o : Word) : (s.jumpTo o).intInhibit = s.intInhibit := rfl
@[simp] theorem State.jumpTo_waitTpr (s : State) (o : Word) : (s.jumpTo o).waitTpr = s.waitTpr := rfl

@[simp] theorem State.jumpBy_regs (s : State) (d : Word) : (s.jumpBy d).regs = s.regs := rfl
@[simp] theorem State.jumpBy_sregs (s : State) (d : Word) : (s.jumpBy d).sregs = s.sregs := rfl
@[simp] theorem State.jumpBy_flags (s : State) (d : Word) : (s.jumpBy d).flags = s.flags := rfl
@[simp] theorem State.jumpBy_eu (s : State) (d : Word) : (s.jumpBy d).eu = s.eu := rfl
@[simp] theorem State.jumpBy_trapLatched (s : State) (d : Word) : (s.jumpBy d).trapLatched = s.trapLatched := rfl
@[simp] theorem State.jumpBy_intInhibit (s : State) (d : Word) : (s.jumpBy d).intInhibit = s.intInhibit := rfl
@[simp] theorem State.jumpBy_waitTpr (s : State) (d : Word) : (s.jumpBy d).waitTpr = s.waitTpr := rfl

@[simp] theorem State.jumpFar_regs (s : State) (g o : Word) : (s.jumpFar g o).regs = s.regs := rfl
@[simp] theorem State.jumpFar_flags (s : State) (g o : Word) : (s.jumpFar g o).flags = s.flags := rfl
@[simp] theorem State.jumpFar_eu (s : State) (g o : Word) : (s.jumpFar g o).eu = s.eu := rfl
@[simp] theorem State.jumpFar_trapLatched (s : State) (g o : Word) : (s.jumpFar g o).trapLatched = s.trapLatched := rfl
@[simp] theorem State.jumpFar_intInhibit (s : State) (g o : Word) : (s.jumpFar g o).intInhibit = s.intInhibit := rfl
@[simp] theorem State.jumpFar_waitTpr (s : State) (g o : Word) : (s.jumpFar g o).waitTpr = s.waitTpr := rfl

@[simp] theorem State.interrupt_trapLatched (s : State) (n : Byte) (r : Word) : (s.interrupt n r).trapLatched = s.trapLatched := rfl
@[simp] theorem State.interrupt_intInhibit (s : State) (n : Byte) (r : Word) : (s.interrupt n r).intInhibit = s.intInhibit := rfl
@[simp] theorem State.interrupt_waitTpr (s : State) (n : Byte) (r : Word) : (s.interrupt n r).waitTpr = s.waitTpr := rfl

@[simp] theorem State.readFar_regs (s : State) (m : MemOp) : (s.readFar m).2.2.regs = s.regs := rfl
@[simp] theorem State.readFar_sregs (s : State) (m : MemOp) : (s.readFar m).2.2.sregs = s.sregs := rfl
@[simp] theorem State.readFar_ip (s : State) (m : MemOp) : (s.readFar m).2.2.ip = s.ip := rfl
@[simp] theorem State.readFar_flags (s : State) (m : MemOp) : (s.readFar m).2.2.flags = s.flags := rfl
@[simp] theorem State.readFar_trapLatched (s : State) (m : MemOp) : (s.readFar m).2.2.trapLatched = s.trapLatched := rfl
@[simp] theorem State.readFar_intInhibit (s : State) (m : MemOp) : (s.readFar m).2.2.intInhibit = s.intInhibit := rfl
@[simp] theorem State.readFar_waitTpr (s : State) (m : MemOp) : (s.readFar m).2.2.waitTpr = s.waitTpr := rfl

@[simp] theorem State.setRep_regs (s : State) (b : Bool) : (s.setRep b).regs = s.regs := rfl
@[simp] theorem State.setRep_sregs (s : State) (b : Bool) : (s.setRep b).sregs = s.sregs := rfl
@[simp] theorem State.setRep_ip (s : State) (b : Bool) : (s.setRep b).ip = s.ip := rfl
@[simp] theorem State.setRep_flags (s : State) (b : Bool) : (s.setRep b).flags = s.flags := rfl
@[simp] theorem State.setRep_trapLatched (s : State) (b : Bool) : (s.setRep b).trapLatched = s.trapLatched := rfl
@[simp] theorem State.setRep_intInhibit (s : State) (b : Bool) : (s.setRep b).intInhibit = s.intInhibit := rfl
@[simp] theorem State.setRep_waitTpr (s : State) (b : Bool) : (s.setRep b).waitTpr = s.waitTpr := rfl
@[simp] theorem State.setRep_sys (s : State) (b : Bool) : (s.setRep b).sys = s.sys := rfl

/-! ## Register files -/

@[simp] theorem State.setReg16_regs (s : State) (r : Reg16) (v : Word) :
    (s.setReg16 r v).regs = s.regs.set16 r v := rfl

@[simp] theorem State.decSp_regs (s : State) : s.decSp.regs = { s.regs with sp := s.regs.sp - 2#16 } := rfl

@[simp] theorem State.addSp_regs (s : State) (k : Word) :
    (s.addSp k).regs = { s.regs with sp := s.regs.sp + k } := rfl

@[simp] theorem State.push16_regs (s : State) (v : Word) :
    (s.push16 v).regs = { s.regs with sp := s.regs.sp - 2#16 } := rfl

@[simp] theorem State.pop16_regs (s : State) : s.pop16.2.regs = { s.regs with sp := s.regs.sp + 2#16 } := rfl

@[simp] theorem State.reg16_setReg16_same (s : State) (r : Reg16) (v : Word) : (s.setReg16 r v).reg16 r = v := by
  cases r <;> rfl

theorem State.reg16_setReg16_other (s : State) {r r' : Reg16} (v : Word) (h : r' ≠ r) :
    (s.setReg16 r v).reg16 r' = s.reg16 r' := by
  cases r <;> cases r' <;> first | rfl | exact absurd rfl h

@[simp] theorem State.sreg_setSreg_same (s : State) (r : SReg) (v : Word) : (s.setSreg r v).sreg r = v := by
  cases r <;> rfl

theorem State.sreg_setSreg_other (s : State) {r r' : SReg} (v : Word) (h : r' ≠ r) :
    (s.setSreg r v).sreg r' = s.sreg r' := by
  cases r <;> cases r' <;> first | rfl | exact absurd rfl h

@[simp] theorem State.reg8_setReg8_same (s : State) (r : Reg8) (v : Byte) : (s.setReg8 r v).reg8 r = v := by
  cases r <;> simp [State.reg8, State.setReg8, parentReg, isHighHalf, halfOf, setHalf, setHi, setLo,
    State.setReg16, Regs.set16, State.reg16]

theorem State.reg8_setReg8_other (s : State) {r r' : Reg8} (v : Byte) (h : r' ≠ r) :
    (s.setReg8 r v).reg8 r' = s.reg8 r' := by
  cases r <;> cases r' <;> first
    | exact absurd rfl h
    | simp [State.reg8, State.setReg8, parentReg, isHighHalf, halfOf, setHalf, setHi, setLo, State.setReg16,
        Regs.set16, State.reg16]

/-! ## What a register file says of an operand

An operand, an address and a segment depend on the registers alone, so an operation that keeps those keeps
them. -/

theorem State.reg16_congr {s t : State} (h : t.regs = s.regs) (r : Reg16) : t.reg16 r = s.reg16 r := by
  cases r <;> simp only [State.reg16, h]

theorem State.reg8_congr {s t : State} (h : t.regs = s.regs) (r : Reg8) : t.reg8 r = s.reg8 r := by
  simp only [State.reg8, State.reg16_congr h]

theorem State.sreg_congr {s t : State} (h : t.sregs = s.sregs) (r : SReg) : t.sreg r = s.sreg r := by
  cases r <;> simp only [State.sreg, h]

theorem State.effAddr_congr {s t : State} (h : t.regs = s.regs) (m : MemOp) : t.effAddr m = s.effAddr m := by
  have hb : ∀ b, t.eaBase b = s.eaBase b := by intro b; cases b <;> simp only [State.eaBase, h]
  cases m <;> simp only [State.effAddr, hb]

theorem State.setReg8_congr {s t : State} (h : t.regs = s.regs) (r : Reg8) (v : Byte) :
    (t.setReg8 r v).regs = (s.setReg8 r v).regs := by
  simp only [State.setReg8, State.setReg16, State.reg16_congr h, h]

end Sys2Proof.Machine
end

