-- ==== Sys2Proof/Laws/Clock.lean ====
section
/-! SUPPORT. What the clock does to the system: `Sys.still` says everything a tick, a bus cycle and a memory read
leave as it was. -/

namespace Sys2Proof.Machine

theorem video_still_readMem (c : Params) (v : Video) (a : Nat) : (v.readMem c a).2.still = v.still := by
  unfold Video.readMem
  split
  · rfl
  · simp only [Cga.readMem, Cga.contend, Video.still]
    split <;> rfl
  · simp only [Ega.readMem, Video.still]; split <;> rfl
  · simp only [Ega.readMem, Video.still]; split <;> rfl

/-- A read leaves the system as it is, but for what `reactive` devices have seen. -/
theorem mmioRead_seen (y : Sys) (a : PhysAddr) :
    { (mmioRead y a).2.still with extAccesses := y.extAccesses } = y.still := by
  unfold mmioRead
  split <;> try rfl
  simp only [Sys.still, video_still_readMem]

theorem busRead_seen (y : Sys) (a : PhysAddr) :
    { (busRead y a).2.still with extAccesses := y.extAccesses } = y.still := by
  unfold busRead
  split <;> first | rfl | exact mmioRead_seen y a

/-- Where no read changes its device, no address delegates to a `reactive` one. -/
theorem findRange_plain {l : List MemRange}
    (h : (l.all fun r => match r.device with | .reactive _ => false | .video => true | .external _ => true) = true)
    (a n : Nat) : (findRange a l).map MemRange.device ≠ some (.reactive n) := by
  induction l with
  | nil => simp [findRange]
  | cons r rest ih =>
    rw [List.all_cons, Bool.and_eq_true] at h
    unfold findRange
    split
    · intro hr
      rw [Option.map_some, Option.some.injEq] at hr
      have := h.1
      rw [hr] at this
      cases this
    · exact ih h.2

theorem Params.mmioAt_plain {c : Params} (h : c.readsPlain = true) (a : PhysAddr) (n : Nat) :
    c.mmioAt a ≠ some (.reactive n) :=
  findRange_plain (l := c.map) h a.toNat n

theorem busRead_extAccesses {y : Sys} (h : y.cfg.readsPlain = true) (a : PhysAddr) :
    (busRead y a).2.extAccesses = y.extAccesses := by
  unfold busRead mmioRead
  split <;> try rfl
  split <;> first | rfl | (rename_i n hn; exact absurd hn (Params.mmioAt_plain h a n))

theorem busRead_still {y : Sys} (h : y.cfg.readsPlain = true) (a : PhysAddr) : (busRead y a).2.still = y.still := by
  have h1 := busRead_seen y a
  rw [← busRead_extAccesses h a] at h1
  exact h1

theorem video_readMem_of_still {c : Params} {v w : Video} (h : w.still = v.still) (a : Nat) :
    (w.readMem c a).1 = (v.readMem c a).1 := by
  have hc : w.cga.vram = v.cga.vram := congrArg (fun x => x.cga.vram) h
  have hr : w.ega.regs = v.ega.regs := congrArg (fun x => x.ega.regs) h
  have h0 : w.ega.planes.plane0 = v.ega.planes.plane0 := congrArg (fun x => x.ega.planes.plane0) h
  have h1 : w.ega.planes.plane1 = v.ega.planes.plane1 := congrArg (fun x => x.ega.planes.plane1) h
  have h2 : w.ega.planes.plane2 = v.ega.planes.plane2 := congrArg (fun x => x.ega.planes.plane2) h
  have h3 : w.ega.planes.plane3 = v.ega.planes.plane3 := congrArg (fun x => x.ega.planes.plane3) h
  have hl : ∀ off, w.ega.planes.loadLatches off = v.ega.planes.loadLatches off := by
    intro off
    simp only [EgaPlanes.loadLatches, EgaPlanes.byte, EgaPlanes.plane, h0, h1, h2, h3]
  unfold Video.readMem
  split
  · rfl
  · simp only [Cga.readMem, Cga.vramByte, hc]
  · simp only [Ega.readMem, hr, hl]; split <;> rfl
  · simp only [Ega.readMem, hr, hl]; split <;> rfl

theorem peekByte_of_still {y z : Sys} (h : z.still = y.still) (a : PhysAddr) : peekByte z a = peekByte y a := by
  have hc : z.cfg = y.cfg := by have := congrArg (fun x : Sys => x.cfg) h; exact this
  have hm : z.ram = y.ram := by have := congrArg (fun x : Sys => x.ram) h; exact this
  have hr : z.rom = y.rom := by have := congrArg (fun x : Sys => x.rom) h; exact this
  have hv : z.video.still = y.video.still := by have := congrArg (fun x : Sys => x.video) h; exact this
  have he : z.extAccesses = y.extAccesses := by have := congrArg (fun x : Sys => x.extAccesses) h; exact this
  simp only [peekByte, busRead, hc]
  split
  · simp only [Sys.ramByte, hm]
  · simp only [Sys.romByte, hr]
  · simp only [mmioRead, hc, he]
    split
    · exact video_readMem_of_still hv _
    · rfl
    · rfl
    · rfl
  · rfl

theorem pit_noteRise_still (o c : PitCounter) : (PitCounter.noteRise o c).still = c.still := rfl

theorem pit_load_still (c : PitCounter) : c.load.still = c.still := by
  unfold PitCounter.load; dsimp only; split <;> rfl

theorem pit_trigger_still (c : PitCounter) : c.trigger.still = c.still := by
  unfold PitCounter.trigger; dsimp only; split
  · split <;> rfl
  · rfl

theorem pit_count_still (c : PitCounter) : c.count.still = c.still := by
  unfold PitCounter.count; split <;> (try rfl) <;> (dsimp only; split <;> rfl)

theorem pit_endStrobe_still (c : PitCounter) : c.endStrobe.still = c.still := by
  unfold PitCounter.endStrobe; split <;> rfl

theorem pit_advance_still (c : PitCounter) (n : Nat) : (c.advance n).still = c.still := by
  unfold PitCounter.advance
  split
  · exact pit_load_still c
  · split
    · exact pit_trigger_still c
    · split
      · split
        · split <;> rfl
        · exact pit_count_still c
      · rfl

theorem pit_clk_still (c : PitCounter) (n : Nat) : (c.clk n).still = c.still := by
  have h := (pit_advance_still c.endStrobe n).trans (pit_endStrobe_still c)
  unfold PitCounter.clk
  split
  · rfl
  · dsimp only
    rw [pit_noteRise_still]
    split
    · exact h
    · exact h

theorem pit_tick_still (p : Pit) : p.tick.still = p.still := by
  unfold Pit.tick
  split
  · rfl
  · simp only [Pit.clk, Pit.still, pit_clk_still]

theorem cga_clocks_still (font : Sparse Byte) (n : Nat) (x : Cga × Framebuffer) :
    (Cga.clocks font n x).1.still = x.1.still := by
  induction n generalizing x with
  | zero => rfl
  | succ n ih => rw [Cga.clocks, ih]; rfl

theorem ega_clock_still (vga : Bool) (size : Nat) (x : Ega × Framebuffer) :
    (Ega.clock vga size x).1.still = x.1.still := by
  unfold Ega.clock
  dsimp only
  split
  · unfold Ega.vsyncInterrupt; split <;> rfl
  · rfl

theorem ega_clocks_still (vga : Bool) (size n : Nat) (x : Ega × Framebuffer) :
    (Ega.clocks vga size n x).1.still = x.1.still := by
  induction n generalizing x with
  | zero => rfl
  | succ n ih => rw [Ega.clocks, ih, ega_clock_still]

theorem video_tick_still (c : Params) (font : Sparse Byte) (v : Video) : (v.tick c font).still = v.still := by
  unfold Video.tick
  split
  · rfl
  · simp only [Video.still, Cga.tick, cga_clocks_still]; rfl
  · simp only [Video.still, Ega.tick]; split
    · rw [ega_clocks_still]; rfl
    · rfl
  · simp only [Video.still, Ega.tick]; split
    · rw [ega_clocks_still]; rfl
    · rfl

theorem detectNmi_still (y : Sys) : y.detectNmi.still = y.still := rfl

theorem clockDevices_still (y : Sys) : y.clockDevices.still = y.still := by
  unfold Sys.clockDevices Sys.setPit
  rw [detectNmi_still]
  simp only [Sys.still, video_tick_still, pit_tick_still]
  split
  · simp only [Dma.still, setBit_setBit]
  · rfl

theorem grant0_still (d : Dma) : (d.grant 0#2).still = d.still := by
  have hc : (0#2 : BitVec 2).toNat = 0 := rfl
  simp only [Dma.grant, Dma.still, Dma.setChannel, Dma.channel, hc]
  congr 1
  · unfold DmaChannel.advance; split
    · split <;> rfl
    · rfl
  · split <;> simp only [setBit_setBit]
  · split <;> simp only [setBit_setBit]
  · simp only [setBit_setBit]

theorem Dma.wants_of_still {d e : Dma} (h : e.still = d.still) {c : BitVec 2} (hc : c ≠ 0#2) :
    e.wants c = d.wants c := by
  have hn : c.toNat ≠ 0 := fun e => hc (BitVec.eq_of_toNat_eq e)
  have key : ∀ a b : BitVec 4, setBit a 0 false = setBit b 0 false → bit a c.toNat = bit b c.toNat := by
    intro a b hab
    have := congrArg (fun v : BitVec 4 => v.getLsbD c.toNat) hab
    simpa only [bit, getLsbD_setBit, hn, if_false] using this
  have h1 := key _ _ (congrArg (fun x : Dma => x.dreq) h)
  have h2 : e.request = d.request := by have := congrArg (fun x : Dma => x.request) h; exact this
  have h3 := key _ _ (congrArg (fun x : Dma => x.mask) h)
  simp only [Dma.wants, h1, h2, h3]

theorem Sys.quiet_of_still {y z : Sys} (h : z.still = y.still) (hq : y.Quiet) : z.Quiet := by
  have hd : z.dma.still = y.dma.still := by have := congrArg (fun x : Sys => x.dma) h; exact this
  simp only [Sys.Quiet] at hq ⊢
  have hc : z.cfg = y.cfg := by have := congrArg (fun x : Sys => x.cfg) h; exact this
  rw [Dma.wants_of_still hd (by decide), Dma.wants_of_still hd (by decide), Dma.wants_of_still hd (by decide), hc]
  exact hq

theorem Sys.Quiet.plain {y : Sys} (hq : y.Quiet) : y.cfg.readsPlain = true := hq.2.2.2

theorem Dma.wants_of_firstWanting {d : Dma} {c : BitVec 2} {n : Nat} {c₀ : BitVec 2}
    (h : d.firstWanting n c₀ = some c) : d.wants c = true := by
  induction n generalizing c₀ with
  | zero => cases h
  | succ n ih =>
    unfold Dma.firstWanting at h
    split at h
    · rename_i hw; cases h; exact hw
    · exact ih h

theorem Dma.wants_of_winner {d : Dma} {c : BitVec 2} (h : d.winner = some c) : d.wants c = true := by
  unfold Dma.winner at h
  split at h
  · cases h
  · exact Dma.wants_of_firstWanting h

theorem Sys.winner_of_quiet {y : Sys} (hq : y.Quiet) {c : BitVec 2} (h : y.dma.winner = some c) : c = 0#2 := by
  have hw := Dma.wants_of_winner h
  obtain ⟨h1, h2, h3, -⟩ := hq
  have := (by decide : ∀ c : BitVec 2, c = 0#2 ∨ c = 1#2 ∨ c = 2#2 ∨ c = 3#2) c
  rcases this with rfl | rfl | rfl | rfl
  · rfl
  · rw [h1] at hw; cases hw
  · rw [h2] at hw; cases hw
  · rw [h3] at hw; cases hw

theorem Sys.hold_still (y : Sys) : y.hold.still = y.still := by
  unfold Sys.hold
  split <;> rfl

theorem Sys.decideCpu_still (y : Sys) (b : Bool) : (y.decideCpu b).still = y.still := by
  unfold Sys.decideCpu
  split
  · rfl
  · split
    · split
      · rfl
      · split
        · split <;> rfl
        · rfl
    · split <;> rfl

theorem Sys.decide_still {y : Sys} (hq : y.Quiet) (b : Bool) : (y.decide b).still = y.still := by
  unfold Sys.decide
  split
  · split
    · rename_i c hc
      have h0 : c = 0#2 := by
        split at hc
        · cases hc
        · exact Sys.winner_of_quiet hq hc
      subst h0
      have hm : y.dmaMove 0#2 = y := rfl
      rw [Sys.hold_still]
      simp only [hm, Sys.still, grant0_still]
    · exact Sys.decideCpu_still y b
  · rw [Sys.decideCpu_still]; rfl
  · rw [Sys.hold_still]; rfl

theorem Sys.fetchTransfer_still {y : Sys} (hq : y.Quiet) : y.fetchTransfer.still = y.still := by
  unfold Sys.fetchTransfer
  split
  · exact busRead_still hq.plain y.biu.addr
  · rfl

theorem Sys.fetchComplete_still (y : Sys) : y.fetchComplete.still = y.still := by
  unfold Sys.fetchComplete
  split <;> rfl

theorem Sys.phaseAction_still {y : Sys} (hq : y.Quiet) (cs : Word) : (y.phaseAction cs).still = y.still := by
  unfold Sys.phaseAction
  split
  · exact Sys.decide_still hq false
  · rfl
  · rfl
  · split
    · exact Sys.fetchTransfer_still hq
    · rfl
  · dsimp only
    split
    · exact (Sys.fetchTransfer_still (y := { y with biu := { y.biu with waitLeft := y.biu.waitLeft - 1 } }) hq).trans rfl
    · rfl
  · rw [Sys.decide_still (Sys.quiet_of_still (Sys.fetchComplete_still y) hq), Sys.fetchComplete_still]
  · rfl

theorem Sys.tick_still {y : Sys} (hq : y.Quiet) (cs : Word) : (y.tick cs).still = y.still := by
  have h := Sys.phaseAction_still (Sys.quiet_of_still (clockDevices_still y) hq) cs
  exact (show _ = (y.clockDevices.phaseAction cs).still from rfl).trans (h.trans (clockDevices_still y))

theorem Sys.tickN_still {y : Sys} (hq : y.Quiet) (cs : Word) (n : Nat) : (y.tickN cs n).still = y.still := by
  induction n generalizing y with
  | zero => rfl
  | succ n ih =>
    rw [Sys.tickN, ih (Sys.quiet_of_still (Sys.tick_still hq cs) hq), Sys.tick_still hq]

theorem Sys.runToT4_still {y : Sys} (hq : y.Quiet) (cs : Word) : (y.runToT4 cs).still = y.still := by
  unfold Sys.runToT4
  split
  · dsimp only
    have h := Sys.tickN_still hq cs 2
    rw [Sys.tickN_still (Sys.quiet_of_still h hq), h]
  · dsimp only
    have h := Sys.tick_still hq cs
    rw [Sys.tickN_still (Sys.quiet_of_still h hq), h]
  · exact Sys.tickN_still hq cs _
  · exact Sys.tickN_still hq cs _
  · rfl

theorem Sys.drain_still {y : Sys} (hq : y.Quiet) (cs : Word) : (y.drain cs).still = y.still := by
  have h := Sys.runToT4_still hq cs
  unfold Sys.drain
  dsimp only
  split
  · rw [Sys.tick_still (Sys.quiet_of_still h hq), h]
  · exact h

theorem Sys.startNow_still (y : Sys) : y.startNow.still = y.still := by
  unfold Sys.startNow; split <;> rfl

theorem Sys.awaitStart_still {y : Sys} (hq : y.Quiet) (cs : Word) (n : Nat) : (y.awaitStart cs n).still = y.still := by
  induction n generalizing y with
  | zero =>
    unfold Sys.awaitStart
    split
    · exact (Sys.startNow_still _).trans (Sys.drain_still hq cs)
    · rfl
  | succ n ih =>
    unfold Sys.awaitStart
    split
    · have h := Sys.tick_still hq cs
      rw [ih (Sys.quiet_of_still h hq), h]
    · rfl

theorem Sys.euBegin_still {y : Sys} (hq : y.Quiet) (cs : Word) (r : Request) : (y.euBegin cs r).still = y.still := by
  unfold Sys.euBegin
  dsimp only
  have h0 : Sys.still { y with biu := { y.biu with request := some r }, stall := .busBusy } = y.still := rfl
  have h1 := (Sys.runToT4_still (Sys.quiet_of_still h0 hq) cs).trans h0
  exact (Sys.awaitStart_still (Sys.quiet_of_still h1 hq) cs _).trans h1

/-- Everything an EU cycle does before its transfer is the clock's work; then the transfer of the request acts on a
system that differs by nothing else. -/
theorem Sys.euCycle_eq {y : Sys} (hq : y.Quiet) (cs : Word) (r : Request) :
    ∃ z : Sys, z.still = y.still ∧ (y.euCycle cs r).1 = (transfer z r).1 ∧
      (y.euCycle cs r).2.still = (transfer z r).2.still := by
  have h0 := Sys.euBegin_still hq cs r
  have h1 := (Sys.tickN_still (Sys.quiet_of_still h0 hq) cs 2).trans h0
  have h2 := (Sys.tickN_still (Sys.quiet_of_still h1 hq) cs
    (1 + ((y.euBegin cs r).tickN cs 2).biu.waitLeft)).trans h1
  exact ⟨_, h2, rfl, rfl⟩

theorem Sys.euEnd_still {y : Sys} (hq : y.Quiet) (cs : Word) : (y.euEnd cs).still = y.still :=
  (show (y.euEnd cs).still = (y.tick cs).still from rfl).trans (Sys.tick_still hq cs)

theorem Sys.internal_still {y : Sys} (hq : y.Quiet) (cs : Word) (n : Nat) : (Sys.internal cs n y).still = y.still :=
  (show (Sys.internal cs n y).still = (y.tickN cs n).still from rfl).trans (Sys.tickN_still hq cs n)

theorem transfer_memRead {z : Sys} {r : Request} (h : r.op = .memRead) :
    transfer z r = busRead z r.addr := by simp only [transfer, h]

/-- A one-byte memory read returns what the address reads as and changes nothing else. -/
theorem Sys.access1_read {y : Sys} (hq : y.Quiet) (cs : Word) {r : Request} (h : r.op = .memRead) :
    (y.access1 cs r).1 = peekByte y r.addr ∧ (y.access1 cs r).2.still = y.still := by
  obtain ⟨z, hz, h1, h2⟩ := Sys.euCycle_eq hq cs r
  rw [transfer_memRead h] at h1 h2
  have h3 : (y.euCycle cs r).2.still = y.still := h2.trans ((busRead_still (Sys.quiet_of_still hz hq).plain r.addr).trans hz)
  exact ⟨h1.trans (peekByte_of_still hz r.addr),
    (Sys.euEnd_still (Sys.quiet_of_still h3 hq) cs).trans h3⟩

theorem Sys.access2_read {y : Sys} (hq : y.Quiet) (cs : Word) {r₁ r₂ : Request} (h₁ : r₁.op = .memRead)
    (h₂ : r₂.op = .memRead) :
    (y.access2 cs r₁ r₂).1 = peekByte y r₁.addr ∧ (y.access2 cs r₁ r₂).2.1 = peekByte y r₂.addr ∧
      (y.access2 cs r₁ r₂).2.2.still = y.still := by
  obtain ⟨z, hz, h1, h2⟩ := Sys.euCycle_eq hq cs r₁
  rw [transfer_memRead h₁] at h1 h2
  have h3 : (y.euCycle cs r₁).2.still = y.still := h2.trans ((busRead_still (Sys.quiet_of_still hz hq).plain r₁.addr).trans hz)
  have h4 : (y.euCycle cs r₁).2.microDone.still = y.still := h3
  obtain ⟨w, hw, h5, h6⟩ := Sys.euCycle_eq (Sys.quiet_of_still h4 hq) cs r₂
  rw [transfer_memRead h₂] at h5 h6
  have h7 : ((y.euCycle cs r₁).2.microDone.euCycle cs r₂).2.still = y.still :=
    h6.trans ((busRead_still (Sys.quiet_of_still (hw.trans h4) hq).plain r₂.addr).trans (hw.trans h4))
  exact ⟨h1.trans (peekByte_of_still hz _), h5.trans (peekByte_of_still (hw.trans h4) _),
    (Sys.euEnd_still (Sys.quiet_of_still h7 hq) cs).trans h7⟩

end Sys2Proof.Machine
end

