-- ==== Sys2Proof/Laws/Sparse.lean ====
section
/-! SUPPORT. Sparse data: read after write, and that a write keeps the canonical form. -/

namespace Sys2Proof.Machine

variable {α : Type} [DecidableEq α]

theorem Sparse.wfFrom_mono {d : α} {lo lo' : Nat} (h : lo' ≤ lo) {m : Sparse α}
    (hm : Sparse.wfFrom d lo m = true) : Sparse.wfFrom d lo' m = true := by
  cases m with
  | nil => rfl
  | cons e rest => simp [Sparse.wfFrom] at hm ⊢; exact ⟨⟨by omega, hm.1.2⟩, hm.2⟩

/-- A key below every listed key is unlisted. -/
theorem Sparse.get_below {d : α} {lo k : Nat} (hk : k < lo) {m : Sparse α}
    (hm : Sparse.wfFrom d lo m = true) : Sparse.get d k m = d := by
  induction m generalizing lo with
  | nil => rfl
  | cons e rest ih =>
    simp [Sparse.wfFrom] at hm
    simp only [Sparse.get]
    rw [if_neg (by omega)]
    exact ih (lo := e.1 + 1) (by omega) hm.2

theorem Sparse.get_put_other {d v : α} {k k' : Nat} (h : k' ≠ k) (m : Sparse α) :
    Sparse.get d k' (Sparse.put d k v m) = Sparse.get d k' m := by
  induction m with
  | nil => simp only [Sparse.put]; split <;> simp [Sparse.get, h]
  | cons e rest ih =>
    simp only [Sparse.put]
    split
    · split <;> simp [Sparse.get, h]
    · split
      · rename_i h1; split <;> simp [Sparse.get, h] <;> intro h2 <;> omega
      · simp only [Sparse.get]; split
        · rfl
        · exact ih

theorem Sparse.get_put_same {d v : α} {lo k : Nat} {m : Sparse α} (hm : Sparse.wfFrom d lo m = true) :
    Sparse.get d k (Sparse.put d k v m) = v := by
  induction m generalizing lo with
  | nil => simp only [Sparse.put]; split <;> simp_all [Sparse.get]
  | cons e rest ih =>
    simp [Sparse.wfFrom] at hm
    simp only [Sparse.put]
    split
    · rename_i h1
      split
      · rename_i hv
        rw [hv]
        simp only [Sparse.get]
        rw [if_neg (by omega)]
        exact Sparse.get_below (lo := e.1 + 1) (by omega) hm.2
      · simp [Sparse.get]
    · split
      · rename_i h1 h2
        split
        · rename_i hv; rw [hv, h2]; exact Sparse.get_below (lo := e.1 + 1) (by omega) hm.2
        · simp [Sparse.get]
      · rename_i h1 h2
        simp only [Sparse.get]
        rw [if_neg h2]
        exact ih hm.2

theorem Sparse.wfFrom_put {d v : α} {lo k : Nat} (hk : lo ≤ k) {m : Sparse α}
    (hm : Sparse.wfFrom d lo m = true) : Sparse.wfFrom d lo (Sparse.put d k v m) = true := by
  induction m generalizing lo with
  | nil => simp only [Sparse.put]; split <;> simp_all [Sparse.wfFrom]
  | cons e rest ih =>
    simp [Sparse.wfFrom] at hm
    simp only [Sparse.put]
    split
    · rename_i h1
      split
      · simp [Sparse.wfFrom, hm]
      · rename_i hv; simp [Sparse.wfFrom, hm, hk, hv]; omega
    · split
      · rename_i h1 h2
        split
        · exact Sparse.wfFrom_mono (by omega) hm.2
        · rename_i hv; simp [Sparse.wfFrom, hv, hk]; rw [h2]; exact hm.2
      · rename_i h1 h2
        simp [Sparse.wfFrom, hm]
        exact ih (by omega) hm.2

theorem Sparse.wf_put {d v : α} {k : Nat} {m : Sparse α} (hm : Sparse.wf d m = true) :
    Sparse.wf d (Sparse.put d k v m) = true := Sparse.wfFrom_put (Nat.zero_le _) hm

end Sys2Proof.Machine
end

