-- ==== Sys2Proof/Laws/Stores.lean ====
section
/-! SUPPORT. The bytes a bus write stores, and how stores in a row add up. -/

namespace Sys2Proof.Machine

theorem unchanged_of_still {y z : Sys} (h : z.still = y.still) : Unchanged y z := ⟨h, peekByte_of_still h⟩

theorem Stores.of_still {y z : Sys} (h : z.still = y.still) : Stores y z [] where
  rest := congrArg Sys.noMemory h
  bytes a _ := by
    rw [peekByte_of_still h]
    simp only [storedByte, lastStore]; split <;> rfl
  display _ := by
    have := congrArg (fun x : Sys => (x.video, x.extAccesses)) h
    exact ⟨congrArg Prod.fst this, congrArg Prod.snd this⟩

theorem video_writeMem_noMemory (c : Params) (v : Video) (a : Nat) (b : Byte) :
    (v.writeMem c a b).still.noMemory = v.still.noMemory := by
  unfold Video.writeMem
  split
  · rfl
  · simp only [Cga.writeMem, Cga.contend]; split <;> rfl
  · simp only [Ega.writeMem]; split <;> rfl
  · simp only [Ega.writeMem]; split <;> rfl

theorem mmioWrite_noMemory (y : Sys) (a : PhysAddr) (b : Byte) :
    (mmioWrite y a b).still.noMemory = y.still.noMemory := by
  unfold mmioWrite
  split
  · have h := video_writeMem_noMemory y.cfg y.video a.toNat b
    simp only [Sys.still, Sys.noMemory, h]
  · rfl
  · rfl
  · rfl

/-- A write to an MMIO range changes its device alone. -/
theorem mmioWrite_memory (y : Sys) (a : PhysAddr) (b : Byte) :
    (mmioWrite y a b).cfg = y.cfg ∧ (mmioWrite y a b).ram = y.ram ∧ (mmioWrite y a b).rom = y.rom := by
  unfold mmioWrite
  split <;> exact ⟨rfl, rfl, rfl⟩

/-- What an address outside the MMIO ranges reads as is a matter of the memory map, RAM and ROM. -/
theorem peekByte_of_memory {y z : Sys} (hc : z.cfg = y.cfg) (hm : z.ram = y.ram) (hr : z.rom = y.rom) {x : PhysAddr}
    (hx : y.cfg.kindAt x ≠ some .mmio) : peekByte z x = peekByte y x := by
  simp only [peekByte, busRead, hc, Sys.ramByte, Sys.romByte, hm, hr]
  split
  · rfl
  · rfl
  · rename_i hk; exact absurd hk hx
  · rfl

theorem busWrite_noMemory (y : Sys) (a : PhysAddr) (b : Byte) : (busWrite y a b).still.noMemory = y.still.noMemory := by
  unfold busWrite
  split
  · rfl
  · rfl
  · exact mmioWrite_noMemory y a b
  · rfl

/-- Any address but the one stored to, display memory apart, reads as before. -/
theorem peekByte_busWrite_other {y : Sys} {a x : PhysAddr} (b : Byte) (hx : y.cfg.kindAt x ≠ some .mmio) (h : x ≠ a) :
    peekByte (busWrite y a b) x = peekByte y x := by
  have hn : x.toNat ≠ a.toNat := fun e => h (BitVec.eq_of_toNat_eq e)
  unfold busWrite
  split
  · simp only [peekByte, busRead, Sys.putRam]
    split
    · exact Sparse.get_put_other hn _
    · rfl
    · rename_i hk; exact absurd hk hx
    · rfl
  · rfl
  · obtain ⟨hc, hm, hr⟩ := mmioWrite_memory y a b
    exact peekByte_of_memory hc hm hr hx
  · rfl

theorem peekByte_busWrite_ram {y : Sys} {a : PhysAddr} (hw : Sparse.wf Config.powerOnByte y.ram = true) (b : Byte)
    (h : y.cfg.kindAt a = some .ram) : peekByte (busWrite y a b) a = b := by
  simp only [peekByte, busRead, busWrite, h, Sys.putRam]
  exact Sparse.get_put_same hw

theorem peekByte_busWrite_rom {y : Sys} {a : PhysAddr} (b : Byte) (h : y.cfg.kindAt a ≠ some .ram)
    (h' : y.cfg.kindAt a ≠ some .mmio) : busWrite y a b = y := by
  unfold busWrite
  split <;> first | rfl | (rename_i hk; exact absurd hk (by assumption))

theorem Stores.busWrite {y : Sys} (hw : Sparse.wf Config.powerOnByte y.ram = true) (a : PhysAddr) (b : Byte) :
    Stores y (busWrite y a b) [(a, b)] where
  rest := busWrite_noMemory y a b
  bytes x hx := by
    by_cases h : x = a
    · subst h
      by_cases hr : y.cfg.kindAt x = some .ram
      · rw [peekByte_busWrite_ram hw b hr]; simp only [storedByte, hr, lastStore, if_true]
      · rw [peekByte_busWrite_rom b hr hx]
        unfold storedByte
        split
        · rename_i hk; exact absurd hk hr
        · rfl
    · rw [peekByte_busWrite_other b hx h]
      unfold storedByte
      split
      · simp only [lastStore, if_neg h]
      · rfl
  display h := by
    have h := h (a, b) (List.mem_singleton.2 rfl)
    unfold Machine.busWrite
    split
    · exact ⟨rfl, rfl⟩
    · exact ⟨rfl, rfl⟩
    · rename_i hk; exact absurd hk h
    · exact ⟨rfl, rfl⟩

theorem lastStore_append (a : PhysAddr) (v : Byte) (l m : List (PhysAddr × Byte)) :
    lastStore a v (l ++ m) = lastStore a (lastStore a v l) m := by
  induction l generalizing v with
  | nil => rfl
  | cons p l ih => exact ih _

theorem Stores.cfg {y z : Sys} {l : List (PhysAddr × Byte)} (h : Stores y z l) : z.cfg = y.cfg := by
  have := congrArg (fun x : Sys => x.cfg) h.rest; exact this

theorem Stores.trans {y z w : Sys} {l m : List (PhysAddr × Byte)} (h : Stores y z l) (k : Stores z w m) :
    Stores y w (l ++ m) where
  rest := k.rest.trans h.rest
  bytes a ha := by
    rw [k.bytes a (h.cfg ▸ ha)]
    simp only [storedByte, h.cfg, h.bytes a ha]
    split
    · rw [lastStore_append]
    · rename_i hk
      split
      · rename_i hk2; exact absurd hk2 hk
      · rfl
  display hl :=
    have hk := k.display (fun p hp => h.cfg ▸ hl p (List.mem_append.2 (.inr hp)))
    have hh := h.display (fun p hp => hl p (List.mem_append.2 (.inl hp)))
    ⟨hk.1.trans hh.1, hk.2.trans hh.2⟩

theorem Stores.trans_still {y z w : Sys} {l : List (PhysAddr × Byte)} (h : Stores y z l) (k : w.still = z.still) :
    Stores y w l := by
  have := h.trans (Stores.of_still k)
  rwa [List.append_nil] at this

theorem Stores.still_trans {y z w : Sys} {l : List (PhysAddr × Byte)} (k : z.still = y.still) (h : Stores z w l) :
    Stores y w l := (Stores.of_still k).trans h

theorem Stores.quiet {y z : Sys} {l : List (PhysAddr × Byte)} (h : Stores y z l) (hq : y.Quiet) : z.Quiet := by
  have hd : z.dma.still = y.dma.still := by have := congrArg (fun x : Sys => x.dma) h.rest; exact this
  simp only [Sys.Quiet] at hq ⊢
  have hc : z.cfg = y.cfg := by have := congrArg (fun x : Sys => x.cfg) h.rest; exact this
  rw [Dma.wants_of_still hd (by decide), Dma.wants_of_still hd (by decide), Dma.wants_of_still hd (by decide), hc]
  exact hq

theorem ram_of_still {y z : Sys} (h : z.still = y.still) : z.ram = y.ram := by
  have := congrArg (fun x : Sys => x.ram) h; exact this

theorem wf_busWrite {y : Sys} (hw : Sparse.wf Config.powerOnByte y.ram = true) (a : PhysAddr) (b : Byte) :
    Sparse.wf Config.powerOnByte (busWrite y a b).ram = true := by
  unfold busWrite; split
  · exact Sparse.wf_put hw
  · exact hw
  · rw [(mmioWrite_memory y a b).2.1]; exact hw
  · exact hw

theorem transfer_memWrite {z : Sys} {r : Request} (h : r.op = .memWrite) :
    (transfer z r).2 = busWrite z r.addr r.data := by simp only [transfer, h]

theorem Sys.euCycle_write {y : Sys} (hq : y.Quiet) (hw : Sparse.wf Config.powerOnByte y.ram = true) (cs : Word)
    {r : Request} (h : r.op = .memWrite) :
    Stores y (y.euCycle cs r).2 [(r.addr, r.data)] ∧ Sparse.wf Config.powerOnByte (y.euCycle cs r).2.ram = true := by
  obtain ⟨z, hz, _, h2⟩ := Sys.euCycle_eq hq cs r
  rw [transfer_memWrite h] at h2
  have hw' : Sparse.wf Config.powerOnByte z.ram = true := by rw [ram_of_still hz]; exact hw
  have hs := Stores.still_trans hz (Stores.busWrite hw' r.addr r.data)
  exact ⟨hs.trans_still h2, by rw [ram_of_still h2]; exact wf_busWrite hw' _ _⟩

/-- A one-byte memory write stores that byte and changes nothing else. -/
theorem Sys.access1_write {y : Sys} (hq : y.Quiet) (hw : Sparse.wf Config.powerOnByte y.ram = true) (cs : Word)
    {r : Request} (h : r.op = .memWrite) :
    Stores y (y.access1 cs r).2 [(r.addr, r.data)] ∧ Sparse.wf Config.powerOnByte (y.access1 cs r).2.ram = true := by
  obtain ⟨h1, h2⟩ := Sys.euCycle_write hq hw cs h
  have h3 := Sys.euEnd_still (h1.quiet hq) cs
  exact ⟨h1.trans_still h3, by rw [show (y.access1 cs r).2.ram = _ from ram_of_still h3]; exact h2⟩

theorem Sys.access2_write {y : Sys} (hq : y.Quiet) (hw : Sparse.wf Config.powerOnByte y.ram = true) (cs : Word)
    {r₁ r₂ : Request} (h₁ : r₁.op = .memWrite) (h₂ : r₂.op = .memWrite) :
    Stores y (y.access2 cs r₁ r₂).2.2 [(r₁.addr, r₁.data), (r₂.addr, r₂.data)] ∧
      Sparse.wf Config.powerOnByte (y.access2 cs r₁ r₂).2.2.ram = true := by
  obtain ⟨h1, h2⟩ := Sys.euCycle_write hq hw cs h₁
  have h3 : (y.euCycle cs r₁).2.microDone.still = (y.euCycle cs r₁).2.still := rfl
  have h4 := h1.trans_still h3
  obtain ⟨h5, h6⟩ := Sys.euCycle_write (h4.quiet hq) (by rw [ram_of_still h3]; exact h2) cs h₂
  have h7 := h4.trans h5
  have h8 := Sys.euEnd_still (h7.quiet hq) cs
  exact ⟨h7.trans_still h8, by rw [show (y.access2 cs r₁ r₂).2.2.ram = _ from ram_of_still h8]; exact h6⟩

end Sys2Proof.Machine
end

