-- ==== Sys2Proof/Laws/Access.lean ====
section
/-! SUPPORT. One lemma for each operation over memory, ports, the stack and the queue: what it answers and
everything it can change. -/

namespace Sys2Proof.Machine

/-- The canonical form of RAM, which a store needs to be read back. -/
abbrev Sys.RamWf (y : Sys) : Prop := Sparse.wf Config.powerOnByte y.ram = true

theorem Sys.ramWf_of_memWf {y : Sys} (h : y.memWf = true) : y.RamWf := by
  simp only [Sys.memWf, Bool.and_eq_true] at h
  exact h.1.1.1.1.1.1.1.1

theorem Sys.ramWf_of_still {y z : Sys} (h : z.still = y.still) (hw : y.RamWf) : z.RamWf := by
  unfold Sys.RamWf; rw [ram_of_still h]; exact hw

theorem State.byteAt_of_still {s t : State} (h : t.sys.still = s.sys.still) (seg off : Word) :
    t.byteAt seg off = s.byteAt seg off := peekByte_of_still h _

theorem State.wordAt_of_still {s t : State} (h : t.sys.still = s.sys.still) (seg off : Word) :
    t.wordAt seg off = s.wordAt seg off := by
  simp only [State.wordAt, State.byteAt_of_still h]

theorem State.segValue_congr {s t : State} (h : t.sregs = s.sregs) (g : Option SReg) : t.segValue g = s.segValue g := by
  cases g with
  | none => rfl
  | some r => exact State.sreg_congr h r

/-! ## Without a transfer -/

theorem State.spend_still {s : State} (hq : s.sys.Quiet) (n : Nat) : (s.spend n).sys.still = s.sys.still :=
  Sys.internal_still hq _ _

theorem State.internal_still {s : State} (hq : s.sys.Quiet) : s.internal.sys.still = s.sys.still :=
  Sys.internal_still hq _ _

theorem State.aluStep_still {s : State} (hq : s.sys.Quiet) (a b : Word) : (s.aluStep a b).sys.still = s.sys.still :=
  Sys.internal_still hq _ _

theorem State.drawn_still (s : State) : s.drawn.sys.still = s.sys.still := rfl

theorem State.susp_still {s : State} (hq : s.sys.Quiet) : s.susp.sys.still = s.sys.still := by
  have h0 : Sys.still { s.sys with biu := { s.sys.biu with suspended := true } } = s.sys.still := rfl
  exact (Sys.internal_still (Sys.quiet_of_still h0 hq) _ _).trans h0

theorem State.corr_still {s : State} (hq : s.sys.Quiet) : s.corr.sys.still = s.sys.still := by
  have h0 : Sys.still { s.sys with biu := { s.sys.biu with pc := s.ip } } = s.sys.still := rfl
  exact (Sys.internal_still (Sys.quiet_of_still h0 hq) _ _).trans h0

theorem Sys.flush_still {y : Sys} (hq : y.Quiet) (cs ip : Word) (n : Nat) : (y.flush cs ip n).still = y.still := by
  have ht := Sys.tickN_still hq cs (n - 1)
  have h0 := (Sys.drain_still (Sys.quiet_of_still ht hq) cs).trans ht
  have h1 : Sys.still { (y.tickN cs (n - 1)).drain cs with
      biu := { ((y.tickN cs (n - 1)).drain cs).biu with queue := [], fetchSched := .none, suspended := false, pc := ip } }
      = y.still := h0
  exact (Sys.internal_still (Sys.quiet_of_still h1 hq) _ _).trans h1

theorem State.flush_still {s : State} (hq : s.sys.Quiet) : s.flush.sys.still = s.sys.still := Sys.flush_still hq _ _ _

/-! ## Reads -/

theorem State.read8_spec {s : State} (hq : s.sys.Quiet) (g : Option SReg) (off : Word) :
    (s.read8 g off).1 = s.byteAt (s.segValue g) off ∧ (s.read8 g off).2.sys.still = s.sys.still :=
  Sys.access1_read hq s.sregs.cs rfl

theorem State.read16_spec {s : State} (hq : s.sys.Quiet) (g : Option SReg) (off : Word) :
    (s.read16 g off).1 = s.wordAt (s.segValue g) off ∧ (s.read16 g off).2.sys.still = s.sys.still := by
  have h := Sys.access2_read hq s.sregs.cs (r₁ := s.memRequest .memRead g off 0#8)
    (r₂ := s.memRequest .memRead g (off + 1#16) 0#8) rfl rfl
  exact ⟨congrArg₂ word h.2.1 h.1, h.2.2⟩

/-! ## Writes -/

theorem State.write8_spec {s : State} (hq : s.sys.Quiet) (hw : s.sys.RamWf) (g : Option SReg) (off : Word) (v : Byte) :
    Stores s.sys (s.write8 g off v).sys (store8 (s.segValue g) off v) ∧ (s.write8 g off v).sys.RamWf :=
  Sys.access1_write hq hw s.sregs.cs rfl

theorem State.write16_spec {s : State} (hq : s.sys.Quiet) (hw : s.sys.RamWf) (g : Option SReg) (off v : Word) :
    Stores s.sys (s.write16 g off v).sys (store16 (s.segValue g) off v) ∧ (s.write16 g off v).sys.RamWf :=
  Sys.access2_write hq hw s.sregs.cs (r₁ := s.memRequest .memWrite g off (loByte v))
    (r₂ := s.memRequest .memWrite g (off + 1#16) (hiByte v)) rfl rfl

/-! ## Stack -/

theorem State.push16_spec {s : State} (hq : s.sys.Quiet) (hw : s.sys.RamWf) (v : Word) :
    Stores s.sys (s.push16 v).sys (store16 s.sregs.ss (s.regs.sp - 2#16) v) ∧ (s.push16 v).sys.RamWf :=
  State.write16_spec (s := s.decSp) hq hw (some .ss) _ v

theorem State.pop16_spec {s : State} (hq : s.sys.Quiet) :
    s.pop16.1 = s.wordAt s.sregs.ss s.regs.sp ∧ s.pop16.2.sys.still = s.sys.still :=
  State.read16_spec hq (some .ss) s.regs.sp

/-! ## Operands -/

theorem State.readPlace8_spec {s : State} (hq : s.sys.Quiet) (rm : RM8) :
    (s.readPlace8 (s.place rm)).1 = s.operand8 rm ∧ (s.readPlace8 (s.place rm)).2.sys.still = s.sys.still := by
  cases rm with
  | reg r => exact ⟨rfl, rfl⟩
  | mem m => exact State.read8_spec hq (some (s.segOf m)) (s.effAddr m)

theorem State.readPlace16_spec {s : State} (hq : s.sys.Quiet) (rm : RM16) :
    (s.readPlace16 (s.place rm)).1 = s.operand16 rm ∧ (s.readPlace16 (s.place rm)).2.sys.still = s.sys.still := by
  cases rm with
  | reg r => exact ⟨rfl, rfl⟩
  | mem m => exact State.read16_spec hq (some (s.segOf m)) (s.effAddr m)

end Sys2Proof.Machine
end

