-- ==== Sys2Proof/Laws/Canonical.lean ====
section
/-! SUPPORT. Every operation over memory, ports and time keeps the canonical form of the machine's memories. -/

namespace Sys2Proof.Machine

/-- The canonical form of display memory and palette. -/
def Video.memWf (v : Video) : Bool :=
  Sparse.wf Config.powerOnByte v.cga.vram
    && (Sparse.wf Config.powerOnByte v.ega.planes.plane0 && Sparse.wf Config.powerOnByte v.ega.planes.plane1
    && Sparse.wf Config.powerOnByte v.ega.planes.plane2 && Sparse.wf Config.powerOnByte v.ega.planes.plane3)
    && Sparse.wf 0#18 v.ega.dac.dac

theorem memWf_iff (y : Sys) : y.memWf = true ↔ y.RamWf ∧ Sparse.wf Config.emptyRomByte y.rom = true ∧
    Sparse.wf 0#8 y.font = true ∧ y.video.memWf = true := by
  simp only [Sys.memWf, Video.memWf, Bool.and_eq_true, and_assoc]

theorem memWf_of_still {y z : Sys} (h : z.still = y.still) (hw : y.memWf = true) : z.memWf = true := by
  have e : ∀ x : Sys, x.memWf = x.still.memWf := fun _ => rfl
  rw [e, h, ← e]; exact hw

/-! ## Display memory and video ports -/

theorem storePlane_wf {sel : Bool} {off : Nat} {d : Byte} {p : Sparse Byte} (h : Sparse.wf Config.powerOnByte p = true) :
    Sparse.wf Config.powerOnByte (storePlane sel off d p) = true := by
  unfold storePlane; split
  · exact Sparse.wf_put h
  · exact h

theorem ega_writeMem_wf {vga : Bool} {n a : Nat} {v : Byte} {w : Video} (h : w.memWf = true) :
    Video.memWf { w with ega := w.ega.writeMem vga n a v } = true := by
  unfold Ega.writeMem
  split
  · exact h
  · simp only [Video.memWf, Bool.and_eq_true] at h ⊢
    exact ⟨⟨h.1.1, ⟨⟨storePlane_wf h.1.2.1.1.1, storePlane_wf h.1.2.1.1.2⟩, storePlane_wf h.1.2.1.2⟩,
      storePlane_wf h.1.2.2⟩, h.2⟩

theorem cga_writeMem_vram (g : Cga) (a : Nat) (b : Byte) :
    (g.writeMem a b).vram = Sparse.put Config.powerOnByte (a % 0x4000) b g.vram := by
  unfold Cga.writeMem Cga.contend; split <;> rfl

theorem video_writeMem_wf {c : Params} {w : Video} {a : Nat} {b : Byte} (h : w.memWf = true) :
    (w.writeMem c a b).memWf = true := by
  unfold Video.writeMem
  split
  · exact h
  · simp only [Video.memWf, Bool.and_eq_true, cga_writeMem_vram] at h ⊢
    exact ⟨⟨Sparse.wf_put h.1.1, h.1.2⟩, h.2⟩
  · exact ega_writeMem_wf h
  · exact ega_writeMem_wf h

theorem dac_write_wf {d : VgaDac} {v : Byte} (h : Sparse.wf 0#18 d.dac = true) : Sparse.wf 0#18 (d.write v).dac = true := by
  unfold VgaDac.write
  dsimp only
  split
  · exact h
  · exact h
  · exact Sparse.wf_put h

/-- What a video port write leaves of an EGA or VGA's memory. -/
theorem ega_writePort_mem (vga : Bool) (g : Ega) (port : Nat) (v : Byte) :
    (g.writePort vga port v).planes = g.planes ∧
    ((g.writePort vga port v).dac.dac = g.dac.dac ∨ (g.writePort vga port v).dac = g.dac.write v) := by
  have hg : ∀ r, (g.writeGroup vga r v).planes = g.planes ∧ (g.writeGroup vga r v).dac = g.dac := by
    intro r
    unfold Ega.writeGroup
    split
    · exact ⟨rfl, rfl⟩
    · unfold Ega.crtcWrite
      dsimp only
      split
      · exact ⟨rfl, rfl⟩
      · split <;> exact ⟨rfl, rfl⟩
    · exact ⟨rfl, rfl⟩
    · exact ⟨rfl, rfl⟩
  have hf : ∀ r, (g.writeFixed vga r v).planes = g.planes ∧
      ((g.writeFixed vga r v).dac.dac = g.dac.dac ∨ (g.writeFixed vga r v).dac = g.dac.write v) := by
    intro r
    unfold Ega.writeFixed
    dsimp only
    split <;> (try split) <;> first | exact ⟨rfl, .inl rfl⟩ | exact ⟨rfl, .inr rfl⟩
  unfold Ega.writePort
  split
  · exact ⟨rfl, .inl rfl⟩
  · split
    · exact hf _
    · split
      · exact ⟨(hg _).1, .inl (by rw [(hg _).2])⟩
      · exact ⟨rfl, .inl rfl⟩

theorem ega_readPort_mem (vga : Bool) (c : Params) (g : Ega) (port : Nat) :
    (g.readPort vga c port).2.planes = g.planes ∧ (g.readPort vga c port).2.dac.dac = g.dac.dac := by
  have hg : ∀ r, (g.readGroup vga r).2.planes = g.planes ∧ (g.readGroup vga r).2.dac.dac = g.dac.dac := by
    intro r
    unfold Ega.readGroup
    split
    · exact ⟨rfl, rfl⟩
    · unfold Ega.crtcRead
      dsimp only
      split
      · exact ⟨rfl, rfl⟩
      · split
        · exact ⟨rfl, rfl⟩
        · split <;> exact ⟨rfl, rfl⟩
    · exact ⟨rfl, rfl⟩
    · exact ⟨rfl, rfl⟩
  have hd : g.dac.read.2.dac = g.dac.dac := by unfold VgaDac.read; dsimp only; split <;> rfl
  have hf : ∀ r, (g.readFixed vga c r).2.planes = g.planes ∧ (g.readFixed vga c r).2.dac.dac = g.dac.dac := by
    intro r
    unfold Ega.readFixed
    dsimp only
    split
    · exact ⟨rfl, rfl⟩
    · split
      · split <;> first | exact ⟨rfl, rfl⟩ | exact ⟨rfl, hd⟩
      · exact ⟨rfl, rfl⟩
  unfold Ega.readPort
  split
  · exact ⟨rfl, rfl⟩
  · split
    · exact hf _
    · split
      · exact hg _
      · exact ⟨rfl, rfl⟩

theorem cga_writePort_vram (g : Cga) (r : BitVec 4) (v : Byte) : (g.writePort r v).vram = g.vram := by
  unfold Cga.writePort
  split
  · split
    · unfold Cga.writeCrtc; split <;> rfl
    · rfl
  · split <;> rfl

theorem ega_port_wf {w : Video} {g : Ega} (h : w.memWf = true) (hp : g.planes = w.ega.planes)
    (hd : Sparse.wf 0#18 g.dac.dac = true) : Video.memWf { w with ega := g } = true := by
  simp only [Video.memWf, Bool.and_eq_true] at h ⊢
  rw [hp]
  exact ⟨h.1, hd⟩

theorem video_dac_wf {w : Video} (h : w.memWf = true) : Sparse.wf 0#18 w.ega.dac.dac = true := by
  simp only [Video.memWf, Bool.and_eq_true] at h
  exact h.2

theorem video_writePort_wf {c : Params} {w : Video} {p : Word} {v : Byte} (h : w.memWf = true) :
    (w.writePort c p v).memWf = true := by
  have hd := video_dac_wf h
  have he : ∀ vga, Video.memWf { w with ega := w.ega.writePort vga p.toNat v } = true := by
    intro vga
    have hm := ega_writePort_mem vga w.ega p.toNat v
    refine ega_port_wf h hm.1 ?_
    rcases hm.2 with e | e
    · rw [e]; exact hd
    · rw [e]; exact dac_write_wf hd
  unfold Video.writePort
  split
  · exact h
  · simp only [Video.memWf, cga_writePort_vram] at h ⊢; exact h
  · exact he false
  · exact he true

theorem video_readPort_wf {c : Params} {w : Video} {p : Word} (h : w.memWf = true) : (w.readPort c p).2.memWf = true := by
  have hd := video_dac_wf h
  have he : ∀ vga, Video.memWf { w with ega := (w.ega.readPort vga c p.toNat).2 } = true := by
    intro vga
    have hm := ega_readPort_mem vga c w.ega p.toNat
    exact ega_port_wf h hm.1 (by rw [hm.2]; exact hd)
  unfold Video.readPort
  split
  · exact h
  · exact h
  · exact he false
  · exact he true

/-! ## Transfers -/

theorem memWf_busRead {y : Sys} (h : y.memWf = true) (a : PhysAddr) : (busRead y a).2.memWf = true :=
  (memWf_of_still (z := { (busRead y a).2 with extAccesses := y.extAccesses }) (busRead_seen y a) h : _)

theorem memWf_mmioWrite {y : Sys} (h : y.memWf = true) (a : PhysAddr) (b : Byte) : (mmioWrite y a b).memWf = true := by
  have h' := (memWf_iff y).1 h
  unfold mmioWrite
  split
  · exact (memWf_iff _).2 ⟨h'.1, h'.2.1, h'.2.2.1, video_writeMem_wf h'.2.2.2⟩
  · exact h
  · exact h
  · exact h

theorem memWf_busWrite {y : Sys} (h : y.memWf = true) (a : PhysAddr) (b : Byte) : (busWrite y a b).memWf = true := by
  have h' := (memWf_iff y).1 h
  unfold busWrite
  split
  · exact (memWf_iff _).2 ⟨Sparse.wf_put h'.1, h'.2⟩
  · exact h
  · exact memWf_mmioWrite h a b
  · exact h

/-- The memories and nothing else are looked at by `Sys.memWf`. -/
theorem memWf_congr {y z : Sys} (h1 : z.ram = y.ram) (h2 : z.rom = y.rom) (h3 : z.font = y.font) (h4 : z.video = y.video)
    (h : y.memWf = true) : z.memWf = true := by
  simp only [Sys.memWf, h1, h2, h3, h4] at h ⊢; exact h

theorem memWf_portRead {y : Sys} (h : y.memWf = true) (p : Word) : (portRead y p).2.memWf = true := by
  have h' := (memWf_iff y).1 h
  unfold portRead
  split
  · exact h
  · exact h
  · exact h
  · exact h
  · split
    · exact h
    · exact h
    · unfold Sys.readPortC; split <;> exact h
    · exact h
  · exact h
  · exact (memWf_iff _).2 ⟨h'.1, h'.2.1, h'.2.2.1, video_readPort_wf h'.2.2.2⟩
  · exact h
  · exact h

theorem memWf_portWrite {y : Sys} (h : y.memWf = true) (p : Word) (v : Byte) : (portWrite y p v).memWf = true := by
  have h' := (memWf_iff y).1 h
  unfold portWrite
  split
  · exact h
  · exact h
  · exact h
  · exact h
  · split <;> exact h
  · exact h
  · exact (memWf_iff _).2 ⟨h'.1, h'.2.1, h'.2.2.1, video_writePort_wf h'.2.2.2⟩
  · exact h
  · exact h

theorem memWf_transfer {y : Sys} (h : y.memWf = true) (r : Request) : (transfer y r).2.memWf = true := by
  unfold transfer
  split
  · exact memWf_busRead h _
  · exact memWf_busWrite h _ _
  · exact memWf_portRead h _
  · exact memWf_portWrite h _ _
  · unfold intAckCycle; split <;> exact h
  · exact memWf_busRead h _
  · exact h
  · exact h

/-! ## Time -/

theorem memWf_dmaMove {y : Sys} (h : y.memWf = true) (c : BitVec 2) : (y.dmaMove c).memWf = true := by
  unfold Sys.dmaMove
  dsimp only
  split
  · exact h
  · split
    · exact memWf_busWrite h _ _
    · exact memWf_busRead h _
    · exact h

theorem memWf_decide {y : Sys} (h : y.memWf = true) (b : Bool) : (y.decide b).memWf = true := by
  have hc : ∀ (z : Sys) (b : Bool), z.memWf = true → (z.decideCpu b).memWf = true :=
    fun z b hz => memWf_of_still (Sys.decideCpu_still z b) hz
  unfold Sys.decide
  split
  · split
    · exact memWf_of_still (Sys.hold_still _) (memWf_dmaMove h _)
    · exact hc _ _ h
  · exact hc _ _ h
  · exact memWf_of_still (Sys.hold_still _) h

theorem memWf_fetchTransfer {y : Sys} (h : y.memWf = true) : y.fetchTransfer.memWf = true := by
  unfold Sys.fetchTransfer
  split
  · exact memWf_busRead h _
  · exact h

theorem memWf_tick {y : Sys} (h : y.memWf = true) (cs : Word) : (y.tick cs).memWf = true := by
  have h1 : y.clockDevices.memWf = true := memWf_of_still (clockDevices_still y) h
  show (y.clockDevices.phaseAction cs).memWf = true
  unfold Sys.phaseAction
  split
  · exact memWf_decide h1 _
  · exact h1
  · exact h1
  · split
    · exact memWf_fetchTransfer h1
    · exact h1
  · dsimp only
    split
    · exact memWf_fetchTransfer h1
    · exact h1
  · exact memWf_decide (memWf_of_still (Sys.fetchComplete_still _) h1) _
  · exact h1

theorem memWf_tickN {y : Sys} (h : y.memWf = true) (cs : Word) (n : Nat) : (y.tickN cs n).memWf = true := by
  induction n generalizing y with
  | zero => exact h
  | succ n ih => exact ih (memWf_tick h cs)

theorem memWf_runToT4 {y : Sys} (h : y.memWf = true) (cs : Word) : (y.runToT4 cs).memWf = true := by
  unfold Sys.runToT4
  split
  · exact memWf_tickN (memWf_tickN h cs 2) cs _
  · exact memWf_tickN (memWf_tick h cs) cs _
  · exact memWf_tickN h cs _
  · exact memWf_tickN h cs _
  · exact h

theorem memWf_drain {y : Sys} (h : y.memWf = true) (cs : Word) : (y.drain cs).memWf = true := by
  unfold Sys.drain
  dsimp only
  split
  · exact memWf_tick (memWf_runToT4 h cs) cs
  · exact memWf_runToT4 h cs

theorem memWf_awaitStart {y : Sys} (h : y.memWf = true) (cs : Word) (n : Nat) : (y.awaitStart cs n).memWf = true := by
  induction n generalizing y with
  | zero =>
    unfold Sys.awaitStart
    split
    · exact memWf_of_still (Sys.startNow_still _) (memWf_drain h cs)
    · exact h
  | succ n ih =>
    unfold Sys.awaitStart
    split
    · exact ih (memWf_tick h cs)
    · exact h

theorem memWf_euBegin {y : Sys} (h : y.memWf = true) (cs : Word) (r : Request) : (y.euBegin cs r).memWf = true :=
  memWf_awaitStart (memWf_runToT4 (y := { y with biu := { y.biu with request := some r }, stall := .busBusy }) h cs) cs _

theorem memWf_euFinish {y : Sys} (h : y.memWf = true) (cs : Word) (r : Request) : (y.euFinish cs r).2.memWf = true :=
  memWf_congr rfl rfl rfl rfl (memWf_transfer (memWf_tickN (memWf_tickN h cs 2) cs (1 + (y.tickN cs 2).biu.waitLeft)) r)

theorem memWf_euCycle {y : Sys} (h : y.memWf = true) (cs : Word) (r : Request) : (y.euCycle cs r).2.memWf = true :=
  memWf_euFinish (memWf_euBegin h cs r) cs r

theorem memWf_access1 {y : Sys} (h : y.memWf = true) (cs : Word) (r : Request) : (y.access1 cs r).2.memWf = true :=
  memWf_congr rfl rfl rfl rfl (memWf_tick (memWf_euCycle h cs r) cs)

theorem memWf_access2 {y : Sys} (h : y.memWf = true) (cs : Word) (r₁ r₂ : Request) :
    (y.access2 cs r₁ r₂).2.2.memWf = true :=
  memWf_congr rfl rfl rfl rfl (memWf_tick
    (memWf_euCycle (y := (y.euCycle cs r₁).2.microDone) (memWf_congr rfl rfl rfl rfl (memWf_euCycle h cs r₁)) cs r₂) cs)

theorem memWf_internal {y : Sys} (h : y.memWf = true) (cs : Word) (n : Nat) : (Sys.internal cs n y).memWf = true :=
  memWf_congr rfl rfl rfl rfl (memWf_tickN h cs n)

theorem memWf_flush {y : Sys} (h : y.memWf = true) (cs ip : Word) (n : Nat) : (y.flush cs ip n).memWf = true := by
  unfold Sys.flush
  dsimp only
  have hd := memWf_drain (memWf_tickN h cs (n - 1)) cs
  generalize (y.tickN cs (n - 1)).drain cs = u at hd ⊢
  apply memWf_internal
  exact hd

theorem memWf_intaGap {y : Sys} (h : y.memWf = true) (cs : Word) (n : Nat) : (y.intaGap cs n).memWf = true := by
  unfold Sys.intaGap
  split
  · exact h
  · dsimp only
    have h1 := memWf_tick (y := { y with biu := { y.biu with suspended := true } }) h cs
    exact memWf_internal (y := Sys.euEnd cs { y with biu := { y.biu with suspended := true } }) h1 cs n

theorem memWf_intAck {y : Sys} (h : y.memWf = true) (cs : Word) (n : Nat) : (Sys.intAck cs n y).2.memWf = true := by
  unfold Sys.intAck
  dsimp only
  have h1 := memWf_euCycle h cs intAckRequest
  generalize y.euCycle cs intAckRequest = v at h1 ⊢
  have h3 := memWf_euCycle (memWf_intaGap h1 cs n) cs intAckRequest
  generalize (v.2.intaGap cs n).euCycle cs intAckRequest = w at h3 ⊢
  have h4 := memWf_tick h3 cs
  exact memWf_congr (y := w.2.tick cs) rfl rfl rfl rfl h4

theorem memWf_qfetch {cs : Word} {n : Nat} {y : Sys} (h : y.memWf = true) {x : Byte × Sys}
    (hx : Sys.qfetch cs n y = some x) : x.2.memWf = true := by
  induction n generalizing y with
  | zero => cases hx
  | succ n ih =>
    unfold Sys.qfetch at hx
    split at hx
    · rename_i z hz
      cases hx
      have : z.2.memWf = true := by
        unfold Sys.takeByte at hz
        split at hz
        · cases hz
        · split at hz
          · cases hz; exact h
          · cases hz
      exact memWf_congr rfl rfl rfl rfl (memWf_tick this cs)
    · exact ih (y := Sys.tick cs { y with stall := .queueEmpty }) (memWf_tick (y := { y with stall := .queueEmpty }) h cs) hx

theorem memWf_sampleLines {y : Sys} (h : y.memWf = true) (t0 : Nat) : (y.sampleLines t0).memWf = true := by
  unfold Sys.sampleLines Sys.detectNmi
  exact h

end Sys2Proof.Machine
end

