-- ==== Sys2Proof/Laws/Cycle.lean ====
section
/-! SUPPORT. What a decision of the bus unit can start, a bus cycle phase by phase, and the bus unit after a flush. -/

namespace Sys2Proof.Machine

/-! ## What an access leaves of the bus unit -/

/-- A write to an MMIO range is its device's affair. -/
theorem mmioWrite_clock (y : Sys) (a : PhysAddr) (b : Byte) :
    (mmioWrite y a b).biu = y.biu ∧ (mmioWrite y a b).ticks = y.ticks := by
  unfold mmioWrite; split <;> exact ⟨rfl, rfl⟩

theorem busWrite_clock (y : Sys) (a : PhysAddr) (b : Byte) :
    (busWrite y a b).biu = y.biu ∧ (busWrite y a b).ticks = y.ticks := by
  unfold busWrite
  split <;> first | exact ⟨rfl, rfl⟩ | exact mmioWrite_clock y a b

theorem busRead_clock (y : Sys) (a : PhysAddr) :
    (busRead y a).2.biu = y.biu ∧ (busRead y a).2.ticks = y.ticks := by
  unfold busRead mmioRead
  split <;> first | exact ⟨rfl, rfl⟩ | (split <;> exact ⟨rfl, rfl⟩)

theorem dmaMove_clock (y : Sys) (c : BitVec 2) : (y.dmaMove c).biu = y.biu ∧ (y.dmaMove c).ticks = y.ticks := by
  unfold Sys.dmaMove
  dsimp only
  split
  · exact ⟨rfl, rfl⟩
  · split
    · exact busWrite_clock y _ _
    · exact busRead_clock y _
    · exact ⟨rfl, rfl⟩

/-! ## What a decision starts -/

/-- The parts of the bus unit a flush sets. -/
def Biu.front (b : Biu) : List QueueByte × Word × Bool := (b.queue, b.pc, b.suspended)

theorem phase_cases (b : Biu) : b.phase = .idle ∨ b.phase = .t1 ∨ b.phase = .t2 ∨ b.phase = .t3 ∨ b.phase = .tw ∨
    b.phase = .t4 ∨ b.phase = .haltAck := by
  cases b.phase <;> simp

/-- What `Sys.decide` can leave of the bus unit: idle, a halt acknowledge, a fetch with room for its byte, or the
EU's request; and the queue, the fetch pointer and the suspension as they were. -/
structure Decided (y z : Sys) : Prop where
  front : z.biu.front = y.biu.front
  ticks : z.ticks = y.ticks
  phase : z.biu.phase = .idle ∨ z.biu.phase = .haltAck ∨ z.biu.phase = .t1
  fetch : z.biu.phase = .t1 → z.biu.op = .codeFetch → y.biu.request = none → z.biu.queue.length < Config.queueCap
  request : z.biu.request = y.biu.request ∨
    ∃ r, y.biu.request = some r ∧ z.biu.request = none ∧ z.biu.phase = .t1 ∧ z.biu.op = r.op
  noRequest : y.biu.request = none → z.biu.phase = .t1 → z.biu.op = .codeFetch
  schedule : ∀ n, z.biu.fetchSched = .scheduled n → y.biu.fetchSched = .scheduled n ∨
    n ≤ y.ticks + Config.fetchStartDelay + 1

/-- A schedule is no further off than R521 item 4 says. -/
theorem schedule_soon (b : Biu) (now : Nat) :
    now + Config.fetchStartDelay + (if b.fromReset then 0 else 1) ≤ now + Config.fetchStartDelay + 1 := by
  split <;> omega

theorem decideCpu_decided (y : Sys) (b : Bool) : Decided y (y.decideCpu b) := by
  unfold Sys.decideCpu
  split
  · rename_i r hr
    refine ⟨rfl, rfl, .inr (.inr rfl), fun _ _ h => ?_, .inr ⟨r, hr, rfl, rfl, rfl⟩, fun h => ?_, ?_⟩
    · rw [hr] at h; cases h
    · rw [hr] at h; cases h
    · intro n hn
      simp only [Biu.toRequest] at hn
      split at hn <;> cases hn
  · rename_i hr
    have hroom : y.fetchAllowed = true → y.biu.queue.length < Config.queueCap := by
      intro h; simp only [Sys.fetchAllowed, Bool.and_eq_true, decide_eq_true_eq] at h; exact h.2
    have hfetch : ∀ h : y.fetchAllowed = true, Decided y { y with biu := y.biu.toFetch } := fun h =>
      ⟨rfl, rfl, .inr (.inr rfl), fun _ _ _ => hroom h, .inl rfl, fun _ _ => rfl, fun n hn => (by cases hn)⟩
    have hidle : Decided y { y with biu := y.biu.toIdle } :=
      ⟨rfl, rfl, .inl rfl, fun h => (by cases h), .inl rfl, fun _ h => (by cases h), fun n hn => .inl hn⟩
    split
    · rename_i ha
      split
      · exact hfetch ha
      · split
        · split
          · exact hfetch ha
          · exact hidle
        · refine ⟨rfl, rfl, .inl rfl, fun h => (by cases h), .inl rfl, fun _ h => (by cases h), fun n hn => .inr ?_⟩
          cases hn; exact schedule_soon _ _
    · split
      · exact ⟨rfl, rfl, .inr (.inl rfl), fun h => (by cases h), .inl rfl, fun _ h => (by cases h), fun n hn => .inl hn⟩
      · exact hidle

/-- Only the bus unit and the clock matter to what was decided. -/
theorem Decided.of_same {y x z : Sys} (d : Decided x z) (hb : x.biu = y.biu) (ht : x.ticks = y.ticks) : Decided y z :=
  ⟨by rw [← hb]; exact d.1, by rw [← ht]; exact d.2, d.3, by rw [← hb]; exact d.4, by rw [← hb]; exact d.5,
    by rw [← hb]; exact d.6, by rw [← hb, ← ht]; exact d.7⟩

/-- A hold leaves the bus unit idle, with at most a fetch scheduled. -/
theorem hold_decided (y : Sys) : Decided y y.hold := by
  have hidle : Decided y { y with biu := y.biu.toIdle } :=
    ⟨rfl, rfl, .inl rfl, fun h => (by cases h), .inl rfl, fun _ h => (by cases h), fun n hn => .inl hn⟩
  unfold Sys.hold
  split
  · exact hidle
  · exact hidle
  · split
    · refine ⟨rfl, rfl, .inl rfl, fun h => (by cases h), .inl rfl, fun _ h => (by cases h), fun n hn => .inr ?_⟩
      cases hn; exact schedule_soon _ _
    · exact hidle

/-- In a hold the bus unit is idle, and DMA and the clock are as they were. -/
theorem hold_idle (y : Sys) : y.hold.biu.phase = .idle ∧ y.hold.biu.op = .passive ∧ y.hold.dma = y.dma ∧
    y.hold.ticks = y.ticks := by
  unfold Sys.hold
  split
  · exact ⟨rfl, rfl, rfl, rfl⟩
  · exact ⟨rfl, rfl, rfl, rfl⟩
  · split <;> exact ⟨rfl, rfl, rfl, rfl⟩

theorem decide_decided (y : Sys) (b : Bool) : Decided y (y.decide b) := by
  unfold Sys.decide
  split
  · split
    · rename_i c _
      have h := hold_decided { y.dmaMove c with dma := (y.dmaMove c).dma.grant c }
      have hm := dmaMove_clock y c
      exact h.of_same hm.1 hm.2
    · exact decideCpu_decided y b
  · have h := decideCpu_decided { y with dma := { y.dma with busyLeft := 0 } } false
    exact ⟨h.1, h.2, h.3, h.4, h.5, h.6, h.7⟩
  · rename_i n _
    have h := hold_decided { y with dma := { y.dma with busyLeft := n + 1 } }
    exact ⟨h.1, h.2, h.3, h.4, h.5, h.6, h.7⟩

/-- No decision leaves a cycle past its T1. -/
theorem Decided.early {y z : Sys} (d : Decided y z) : z.biu.phase ≠ .t3 ∧ z.biu.phase ≠ .tw ∧ z.biu.phase ≠ .t4 := by
  rcases d.phase with h | h | h <;> simp [h]

/-! ## A code fetch's byte -/

theorem fetchComplete_front (y : Sys) (h : y.biu.op = .codeFetch) :
    y.fetchComplete.biu.queue = y.biu.queue ++ [{ byte := y.biu.data, age := y.ticks }] := by
  unfold Sys.fetchComplete; rw [if_pos h]

theorem fetchComplete_other (y : Sys) (h : y.biu.op ≠ .codeFetch) : y.fetchComplete = y := by
  unfold Sys.fetchComplete; rw [if_neg h]

theorem fetchComplete_rest (y : Sys) : y.fetchComplete.ticks = y.ticks ∧
    y.fetchComplete.biu.request = y.biu.request ∧ y.fetchComplete.biu.fetchSched = y.biu.fetchSched ∧
    y.fetchComplete.biu.suspended = y.biu.suspended ∧ y.fetchComplete.biu.pc = y.biu.pc := by
  unfold Sys.fetchComplete; split <;> exact ⟨rfl, rfl, rfl, rfl, rfl⟩

/-- What the transfer of the cycle in progress leaves of the bus unit. -/
structure FetchMoved (y z : Sys) : Prop where
  ticks : z.ticks = y.ticks
  phase : z.biu.phase = .t4
  op : z.biu.op = y.biu.op
  queue : z.biu.queue = y.biu.queue
  pc : z.biu.pc = if y.biu.op = .codeFetch then y.biu.pc + 1#16 else y.biu.pc
  suspended : z.biu.suspended = y.biu.suspended
  request : z.biu.request = y.biu.request
  schedule : z.biu.fetchSched = y.biu.fetchSched

theorem fetchTransfer_fetched (y : Sys) : FetchMoved y y.fetchTransfer := by
  obtain ⟨hb, ht⟩ := busRead_clock y y.biu.addr
  unfold Sys.fetchTransfer
  split
  · rename_i h
    refine ⟨ht, rfl, ?_, ?_, ?_, ?_, ?_, ?_⟩
    · show (busRead y y.biu.addr).2.biu.op = _; rw [hb]
    · show (busRead y y.biu.addr).2.biu.queue = _; rw [hb]
    · show (busRead y y.biu.addr).2.biu.pc + 1#16 = _; rw [hb, if_pos h]
    · show (busRead y y.biu.addr).2.biu.suspended = _; rw [hb]
    · show (busRead y y.biu.addr).2.biu.request = _; rw [hb]
    · show (busRead y y.biu.addr).2.biu.fetchSched = _; rw [hb]
  · rename_i h
    exact ⟨rfl, rfl, rfl, rfl, (if_neg h).symm, rfl, rfl, rfl⟩

/-! ## A bus cycle from T1 to T4 -/

/-- The bus unit in a given phase of a given cycle, with a given request pending or none. -/
structure EuAt (q : Option Request) (p : Phase) (op : BusOp) (y : Sys) : Prop where
  phase : y.biu.phase = p
  op : y.biu.op = op
  request : y.biu.request = q

theorem EuAt.t1 {cs : Word} {q : Option Request} {op : BusOp} {y : Sys} (h : EuAt q .t1 op y) : EuAt q .t2 op (y.tick cs) := by
  have hp : y.clockDevices.biu.phase = .t1 := h.phase
  have e : (y.tick cs).biu = y.clockDevices.biu.drive cs := by
    show (y.clockDevices.phaseAction cs).biu = _
    unfold Sys.phaseAction; rw [hp]
  refine ⟨?_, ?_, ?_⟩ <;> rw [e] <;> simp only [Biu.drive] <;> split <;> first | rfl | exact h.op | exact h.request

theorem EuAt.t2 {cs : Word} {q : Option Request} {op : BusOp} {y : Sys} (h : EuAt q .t2 op y) : EuAt q .t3 op (y.tick cs) := by
  have hp : y.clockDevices.biu.phase = .t2 := h.phase
  generalize hwait : waitStates y.clockDevices y.clockDevices.biu.op y.clockDevices.biu.addr = w
  have e : (y.tick cs).biu = { y.clockDevices.biu with phase := .t3, waitLeft := w } := by
    rw [← hwait]
    show (y.clockDevices.phaseAction cs).biu = _
    unfold Sys.phaseAction; rw [hp]
  refine ⟨?_, ?_, ?_⟩ <;> rw [e]
  · exact h.op
  · exact h.request

theorem EuAt.transferred {q : Option Request} {op : BusOp} {w : Sys} (h1 : w.biu.op = op) (h2 : w.biu.request = q) :
    EuAt q .t4 op w.fetchTransfer := by
  have t := fetchTransfer_fetched w
  exact ⟨t.phase, t.op.trans h1, t.request.trans h2⟩

theorem EuAt.t3_done {cs : Word} {q : Option Request} {op : BusOp} {y : Sys} (h : EuAt q .t3 op y) (hw : y.biu.waitLeft = 0) :
    EuAt q .t4 op (y.tick cs) := by
  have hp : y.clockDevices.biu.phase = .t3 := h.phase
  have hw' : y.clockDevices.biu.waitLeft = 0 := hw
  have e : (y.tick cs).biu = (y.clockDevices.fetchTransfer).biu := by
    show (y.clockDevices.phaseAction cs).biu = _
    unfold Sys.phaseAction; rw [hp]; dsimp only; rw [if_pos hw']
  have t : EuAt q .t4 op y.clockDevices.fetchTransfer := EuAt.transferred h.op h.request
  exact ⟨by rw [e]; exact t.1, by rw [e]; exact t.2, by rw [e]; exact t.3⟩

theorem EuAt.t3_wait {cs : Word} {q : Option Request} {op : BusOp} {y : Sys} (h : EuAt q .t3 op y) (hw : y.biu.waitLeft ≠ 0) :
    EuAt q .tw op (y.tick cs) ∧ (y.tick cs).biu.waitLeft = y.biu.waitLeft := by
  have hp : y.clockDevices.biu.phase = .t3 := h.phase
  have hw' : ¬ y.clockDevices.biu.waitLeft = 0 := hw
  have e : (y.tick cs).biu = { y.clockDevices.biu with phase := .tw } := by
    show (y.clockDevices.phaseAction cs).biu = _
    unfold Sys.phaseAction; rw [hp]; dsimp only; rw [if_neg hw']
  exact ⟨⟨by rw [e], by rw [e]; exact h.op, by rw [e]; exact h.request⟩, by rw [e]; rfl⟩

theorem EuAt.tw {cs : Word} {q : Option Request} {op : BusOp} {y : Sys} (h : EuAt q .tw op y) :
    (y.biu.waitLeft - 1 = 0 → EuAt q .t4 op (y.tick cs)) ∧
    (y.biu.waitLeft - 1 ≠ 0 → EuAt q .tw op (y.tick cs) ∧ (y.tick cs).biu.waitLeft = y.biu.waitLeft - 1) := by
  have hp : y.clockDevices.biu.phase = .tw := h.phase
  have hwl : y.clockDevices.biu.waitLeft = y.biu.waitLeft := rfl
  constructor
  · intro hz
    have e : (y.tick cs).biu = (Sys.fetchTransfer { y.clockDevices with
        biu := { y.clockDevices.biu with waitLeft := y.clockDevices.biu.waitLeft - 1 } }).biu := by
      show (y.clockDevices.phaseAction cs).biu = _
      unfold Sys.phaseAction; rw [hp]; dsimp only; rw [if_pos (by rw [hwl]; exact hz)]
    have t := EuAt.transferred (op := op) (w := { y.clockDevices with
      biu := { y.clockDevices.biu with waitLeft := y.clockDevices.biu.waitLeft - 1 } }) h.op h.request
    exact ⟨by rw [e]; exact t.1, by rw [e]; exact t.2, by rw [e]; exact t.3⟩
  · intro hz
    have e : (y.tick cs).biu = { y.clockDevices.biu with waitLeft := y.clockDevices.biu.waitLeft - 1 } := by
      show (y.clockDevices.phaseAction cs).biu = _
      unfold Sys.phaseAction; rw [hp]; dsimp only; rw [if_neg (by rw [hwl]; exact hz)]
    exact ⟨⟨by rw [e]; exact h.phase, by rw [e]; exact h.op, by rw [e]; exact h.request⟩, by rw [e]; rfl⟩

theorem EuAt.waits {cs : Word} {q : Option Request} {op : BusOp} : ∀ {n : Nat} {y : Sys}, EuAt q .tw op y → y.biu.waitLeft = n → n ≠ 0 →
    EuAt q .t4 op (y.tickN cs n) := by
  intro n
  induction n with
  | zero => intro y _ _ h; exact absurd rfl h
  | succ n ih =>
    intro y h hw _
    by_cases hn : n = 0
    · subst hn; exact h.tw.1 (by omega)
    · have := (h.tw (cs := cs)).2 (by omega)
      exact ih this.1 (by omega) hn

/-- T3 and the wait ticks end in T4. -/
theorem EuAt.toT4 {cs : Word} {q : Option Request} {op : BusOp} {y : Sys} (h : EuAt q .t3 op y) : EuAt q .t4 op (y.tickN cs (1 + y.biu.waitLeft)) := by
  rw [Nat.add_comm]
  by_cases hw : y.biu.waitLeft = 0
  · rw [hw]; exact h.t3_done hw
  · have := h.t3_wait (cs := cs) hw
    show EuAt q .t4 op ((y.tick cs).tickN cs y.biu.waitLeft)
    exact EuAt.waits this.1 this.2 hw

/-- The wait ticks end in T4. -/
theorem EuAt.tws {cs : Word} {q : Option Request} {op : BusOp} {y : Sys} (h : EuAt q .tw op y) :
    EuAt q .t4 op (y.tickN cs (max 1 y.biu.waitLeft)) := by
  by_cases hw : y.biu.waitLeft = 0
  · rw [hw]; exact h.tw.1 (by omega)
  · rw [Nat.max_eq_right (by omega)]; exact h.waits rfl hw

/-! ## The bus unit after a flush -/

theorem runToT4_phase (y : Sys) (cs : Word) : (y.runToT4 cs).biu.phase = .t4 ∨
    (y.runToT4 cs).biu.phase = .idle ∨ (y.runToT4 cs).biu.phase = .haltAck := by
  unfold Sys.runToT4
  split
  · rename_i hp; exact .inl (EuAt.t2 (EuAt.t1 (cs := cs) ⟨hp, rfl, rfl⟩)).toT4.phase
  · rename_i hp; exact .inl (EuAt.t2 (cs := cs) ⟨hp, rfl, rfl⟩).toT4.phase
  · rename_i hp; exact .inl (EuAt.toT4 (q := y.biu.request) ⟨hp, rfl, rfl⟩).phase
  · rename_i hp; exact .inl (EuAt.tws (q := y.biu.request) ⟨hp, rfl, rfl⟩).phase
  · rename_i h1 h2 h3 h4
    rcases phase_cases y.biu with hp | hp | hp | hp | hp | hp | hp
    · exact .inr (.inl hp)
    · exact absurd hp h1
    · exact absurd hp h2
    · exact absurd hp h3
    · exact absurd hp h4
    · exact .inl hp
    · exact .inr (.inr hp)

/-- In T4 a tick ends the fetch and decides. -/
theorem tick_t4 {y : Sys} (cs : Word) (h : y.biu.phase = .t4) :
    (y.tick cs).biu = (y.clockDevices.fetchComplete.decide true).biu := by
  have h4 : y.clockDevices.biu.phase = .t4 := h
  show (Sys.phaseAction _ cs).biu = _
  unfold Sys.phaseAction; rw [h4]

/-- After a drain nothing is in progress but the T1 of a fetch. -/
theorem drain_phase (y : Sys) (cs : Word) :
    (y.drain cs).biu.phase = .idle ∨ (y.drain cs).biu.phase = .haltAck ∨ (y.drain cs).biu.phase = .t1 := by
  have hp := runToT4_phase y cs
  unfold Sys.drain
  dsimp only
  split
  · rename_i h4
    rw [tick_t4 cs h4]
    exact (decide_decided _ true).phase
  · rename_i h4
    rcases hp with h | h | h
    · exact absurd h h4
    · exact .inl h
    · exact .inr (.inl h)

/-- A tick outside a cycle, or in its T1, moves neither queue nor pointer. -/
theorem tick_front {y : Sys} (cs : Word) (h : y.biu.phase = .idle ∨ y.biu.phase = .haltAck ∨ y.biu.phase = .t1) :
    (y.tick cs).biu.front = y.biu.front := by
  show (y.clockDevices.phaseAction cs).biu.front = y.clockDevices.biu.front
  have h : y.clockDevices.biu.phase = .idle ∨ y.clockDevices.biu.phase = .haltAck ∨ y.clockDevices.biu.phase = .t1 := h
  generalize y.clockDevices = z at h
  unfold Sys.phaseAction
  rcases h with h | h | h <;> rw [h]
  · exact (decide_decided z false).front
  · rfl
  · simp only [Biu.drive]; split <;> rfl

/-- R536: after a flush the queue is empty, PC is IP and fetching goes on. -/
theorem flush_front (y : Sys) (cs ip : Word) (n : Nat) : (y.flush cs ip n).biu.front = ([], ip, false) :=
  tick_front (y := { (y.tickN cs (n - 1)).drain cs with
    biu := { ((y.tickN cs (n - 1)).drain cs).biu with queue := [], fetchSched := .none, suspended := false, pc := ip } })
    cs (drain_phase (y.tickN cs (n - 1)) cs)

end Sys2Proof.Machine
end

