-- ==== Sys2Proof/Laws/Forms.lean ====
section
/-! SUPPORT. One lemma for each operand form: what an instruction of that shape does to registers, flags and
memory, and everything it leaves alone. -/

namespace Sys2Proof.Machine

/-! ## Registers and memory both as before -/

theorem SameControl.rfl' (s : State) : SameControl s s := ⟨rfl, rfl, rfl, rfl, rfl, rfl, rfl, rfl⟩

theorem SameControl.trans {s t u : State} (h : SameControl s t) (k : SameControl t u) : SameControl s u :=
  ⟨k.trap.trans h.trap, k.inhibit.trans h.inhibit, k.waiting.trans h.waiting, k.instr.trans h.instr,
   k.prefixes.trans h.prefixes, k.repeating.trans h.repeating, k.start.trans h.start,
   k.prefixing.trans h.prefixing⟩

/-- Only the clock has moved. -/
structure Same (s t : State) : Prop where
  ran : Ran s t s.regs s.flags
  still : t.sys.still = s.sys.still

theorem Same.rfl' (s : State) : Same s s := ⟨⟨rfl, rfl, rfl, rfl, SameControl.rfl' s⟩, rfl⟩

theorem Same.trans {s t u : State} (h : Same s t) (k : Same t u) : Same s u :=
  ⟨⟨k.ran.regs.trans h.ran.regs, k.ran.flags.trans h.ran.flags, k.ran.sregs.trans h.ran.sregs,
    k.ran.ip.trans h.ran.ip, h.ran.control.trans k.ran.control⟩, k.still.trans h.still⟩

theorem Same.quiet {s t : State} (h : Same s t) (hq : s.sys.Quiet) : t.sys.Quiet :=
  Sys.quiet_of_still h.still hq

theorem Same.ramWf {s t : State} (h : Same s t) (hw : s.sys.RamWf) : t.sys.RamWf := Sys.ramWf_of_still h.still hw

theorem Same.unchanged {s t : State} (h : Same s t) : Unchanged s.sys t.sys := unchanged_of_still h.still

theorem State.read8_same {s : State} (hq : s.sys.Quiet) (g : Option SReg) (off : Word) : Same s (s.read8 g off).2 :=
  ⟨⟨by simp, by simp, by simp, by simp, ⟨rfl, rfl, rfl, rfl, rfl, rfl, rfl, rfl⟩⟩, (State.read8_spec hq g off).2⟩

theorem State.read16_same {s : State} (hq : s.sys.Quiet) (g : Option SReg) (off : Word) : Same s (s.read16 g off).2 :=
  ⟨⟨by simp, by simp, by simp, by simp, ⟨rfl, rfl, rfl, rfl, rfl, rfl, rfl, rfl⟩⟩, (State.read16_spec hq g off).2⟩

theorem State.aluStep_same {s : State} (hq : s.sys.Quiet) (a b : Word) : Same s (s.aluStep a b) :=
  ⟨⟨rfl, rfl, rfl, rfl, ⟨rfl, rfl, rfl, rfl, rfl, rfl, rfl, rfl⟩⟩, State.aluStep_still hq a b⟩

theorem State.internal_same {s : State} (hq : s.sys.Quiet) : Same s s.internal :=
  ⟨⟨rfl, rfl, rfl, rfl, ⟨rfl, rfl, rfl, rfl, rfl, rfl, rfl, rfl⟩⟩, State.internal_still hq⟩

theorem State.drawn_same (s : State) : Same s s.drawn := ⟨⟨rfl, rfl, rfl, rfl, ⟨rfl, rfl, rfl, rfl, rfl, rfl, rfl, rfl⟩⟩, rfl⟩

theorem State.drawn_if_same (s : State) (c : Bool) : Same s (if c then s.drawn else s) := by
  cases c
  · exact Same.rfl' s
  · exact s.drawn_same

theorem State.readPlace8_same {s : State} (hq : s.sys.Quiet) (p : Place Reg8) : Same s (s.readPlace8 p).2 := by
  cases p with
  | reg r => exact Same.rfl' s
  | mem g off => exact State.read8_same hq (some g) off

theorem State.readPlace16_same {s : State} (hq : s.sys.Quiet) (p : Place Reg16) : Same s (s.readPlace16 p).2 := by
  cases p with
  | reg r => exact Same.rfl' s
  | mem g off => exact State.read16_same hq (some g) off

theorem Same.reg8 {s t : State} (h : Same s t) (r : Reg8) : t.reg8 r = s.reg8 r := State.reg8_congr h.ran.regs r

theorem Same.reg16 {s t : State} (h : Same s t) (r : Reg16) : t.reg16 r = s.reg16 r := State.reg16_congr h.ran.regs r

/-! ## The destination of an r/m operand -/

/-- A system and its control are as before but for the flags; then the operand is written. -/
theorem State.writePlace8_spec {s t : State} (rm : RM8) (v : Byte) (f : Flags) (hr : Ran s t s.regs f)
    (hs : t.sys.still = s.sys.still) (hq : s.sys.Quiet) (hw : s.sys.RamWf) :
    Ran s (t.writePlace8 (s.place rm) v) (s.regsAfter8 v rm) f ∧ Wrote8 s (t.writePlace8 (s.place rm) v) v rm := by
  cases rm with
  | reg r =>
    refine ⟨⟨?_, hr.flags, hr.sregs, hr.ip, ⟨hr.control.1, hr.control.2, hr.control.3, hr.control.4, hr.control.5,
      hr.control.6, hr.control.7, hr.control.8⟩⟩, unchanged_of_still hs⟩
    exact State.setReg8_congr hr.regs r v
  | mem m =>
    have h := State.write8_spec (Sys.quiet_of_still hs hq) (Sys.ramWf_of_still hs hw) (some (s.segOf m)) (s.effAddr m) v
    refine ⟨⟨?_, ?_, ?_, ?_, ?_⟩, ?_⟩
    · exact (by simp [State.writePlace8, State.place] : _ = t.regs).trans hr.regs
    · exact (by simp [State.writePlace8, State.place] : _ = t.flags).trans hr.flags
    · exact (by simp [State.writePlace8, State.place] : _ = t.sregs).trans hr.sregs
    · exact (by simp [State.writePlace8, State.place] : _ = t.ip).trans hr.ip
    · exact hr.control.trans ⟨rfl, rfl, rfl, rfl, rfl, rfl, rfl, rfl⟩
    · have := Stores.still_trans hs h.1
      rw [State.segValue_congr hr.sregs] at this
      exact this

theorem State.writePlace16_spec {s t : State} (rm : RM16) (v : Word) (f : Flags) (hr : Ran s t s.regs f)
    (hs : t.sys.still = s.sys.still) (hq : s.sys.Quiet) (hw : s.sys.RamWf) :
    Ran s (t.writePlace16 (s.place rm) v) (s.regsAfter16 v rm) f ∧ Wrote16 s (t.writePlace16 (s.place rm) v) v rm := by
  cases rm with
  | reg r =>
    refine ⟨⟨?_, hr.flags, hr.sregs, hr.ip, ⟨hr.control.1, hr.control.2, hr.control.3, hr.control.4, hr.control.5,
      hr.control.6, hr.control.7, hr.control.8⟩⟩, unchanged_of_still hs⟩
    exact congrArg (fun g : Regs => g.set16 r v) hr.regs
  | mem m =>
    have h := State.write16_spec (Sys.quiet_of_still hs hq) (Sys.ramWf_of_still hs hw) (some (s.segOf m)) (s.effAddr m) v
    refine ⟨⟨?_, ?_, ?_, ?_, ?_⟩, ?_⟩
    · exact (by simp [State.writePlace16, State.place] : _ = t.regs).trans hr.regs
    · exact (by simp [State.writePlace16, State.place] : _ = t.flags).trans hr.flags
    · exact (by simp [State.writePlace16, State.place] : _ = t.sregs).trans hr.sregs
    · exact (by simp [State.writePlace16, State.place] : _ = t.ip).trans hr.ip
    · refine hr.control.trans ⟨?_, ?_, ?_, ?_, ?_, ?_, ?_, ?_⟩ <;> simp [State.writePlace16, State.place]
    · have := Stores.still_trans hs h.1
      rw [State.segValue_congr hr.sregs] at this
      exact this

/-- A change of the flags alone. -/
theorem Same.withFlags {s t : State} (h : Same s t) (f : Flags) : Ran s { t with flags := f } s.regs f :=
  ⟨h.ran.regs, rfl, h.ran.sregs, h.ran.ip, ⟨h.ran.control.1, h.ran.control.2, h.ran.control.3, h.ran.control.4,
    h.ran.control.5, h.ran.control.6, h.ran.control.7, h.ran.control.8⟩⟩

/-! ## Read, modify, write -/

theorem modifyEb_spec {s : State} (f : Flags → Byte → Byte × Flags) (rm : RM8) (hq : s.sys.Quiet) (hw : s.sys.RamWf) :
    let y := f s.flags (s.operand8 rm)
    Ran s (modifyEb f rm s) (s.regsAfter8 y.1 rm) y.2 ∧ Wrote8 s (modifyEb f rm s) y.1 rm := by
  have h1 := State.readPlace8_same hq (s.place rm)
  have h2 := h1.trans (State.aluStep_same (h1.quiet hq) (zext16 (s.readPlace8 (s.place rm)).1) 0#16)
  have hv := (State.readPlace8_spec hq rm).1
  have h3 := State.writePlace8_spec rm (f s.flags (s.operand8 rm)).1 _ (h2.withFlags (f s.flags (s.operand8 rm)).2) h2.still hq hw
  have hf := h2.ran.flags
  simp only [modifyEb]
  rw [hf, hv]
  rw [hv] at h3
  exact h3

theorem modifyEw_spec {s : State} (f : Flags → Word → Word × Flags) (rm : RM16) (hq : s.sys.Quiet) (hw : s.sys.RamWf) :
    let y := f s.flags (s.operand16 rm)
    Ran s (modifyEw f rm s) (s.regsAfter16 y.1 rm) y.2 ∧ Wrote16 s (modifyEw f rm s) y.1 rm := by
  have h1 := State.readPlace16_same hq (s.place rm)
  have h2 := h1.trans (State.aluStep_same (h1.quiet hq) (s.readPlace16 (s.place rm)).1 0#16)
  have hv := (State.readPlace16_spec hq rm).1
  have h3 := State.writePlace16_spec rm (f s.flags (s.operand16 rm)).1 _ (h2.withFlags (f s.flags (s.operand16 rm)).2) h2.still hq hw
  have hf := h2.ran.flags
  simp only [modifyEw]
  rw [hf, hv]
  rw [hv] at h3
  exact h3

/-! ## The two-operand operations -/

theorem State.alu8_spec {s : State} (op : AluOp) (a b : Byte) (hq : s.sys.Quiet) :
    ∃ af, (s.alu8 op a b).1 = (op.apply s.flags a b af).1 ∧
      Ran s (s.alu8 op a b).2 s.regs (op.apply s.flags a b af).2 ∧ (s.alu8 op a b).2.sys.still = s.sys.still := by
  have h1 := State.aluStep_same hq (zext16 a) (zext16 b)
  have h2 := h1.trans (State.drawn_if_same (s.aluStep (zext16 a) (zext16 b)) op.drawsAf)
  exact ⟨_, rfl, h2.withFlags _, h2.still⟩

theorem State.aluTo8_spec {s s' : State} (op : AluOp) (rm : RM8) (a b : Byte) (h : Same s s') (hq : s.sys.Quiet)
    (hw : s.sys.RamWf) : AluDone8 op s (s'.aluTo8 op (s.place rm) a b) rm a b := by
  obtain ⟨af, h1, h2, h3⟩ := State.alu8_spec op a b (h.quiet hq)
  have hr : Ran s (s'.alu8 op a b).2 s.regs (op.apply s.flags a b af).2 :=
    ⟨h2.regs.trans h.ran.regs, by rw [h2.flags, h.ran.flags], h2.sregs.trans h.ran.sregs, h2.ip.trans h.ran.ip,
      h.ran.control.trans h2.control⟩
  have hs := h3.trans h.still
  refine ⟨af, ?_⟩
  unfold State.aluTo8
  dsimp only
  split
  · have := State.writePlace8_spec rm (s'.alu8 op a b).1 _ hr hs hq hw
    rw [h1, h.ran.flags] at this
    rw [h1, h.ran.flags]
    exact this
  · exact ⟨hr, unchanged_of_still hs⟩

theorem aluEbGb_spec {s : State} (op : AluOp) (rm : RM8) (r : Reg8) (hq : s.sys.Quiet) (hw : s.sys.RamWf) :
    AluDone8 op s (aluEbGb op rm r s) rm (s.operand8 rm) (s.reg8 r) := by
  have h := State.readPlace8_same hq (s.place rm)
  have := State.aluTo8_spec op rm (s.readPlace8 (s.place rm)).1 ((s.readPlace8 (s.place rm)).2.reg8 r) h hq hw
  rw [h.reg8, (State.readPlace8_spec hq rm).1] at this
  simp only [aluEbGb]
  rw [h.reg8, (State.readPlace8_spec hq rm).1]
  exact this

theorem aluGbEb_spec {s : State} (op : AluOp) (r : Reg8) (rm : RM8) (hq : s.sys.Quiet) (hw : s.sys.RamWf) :
    AluDone8 op s (aluGbEb op r rm s) (.reg r) (s.reg8 r) (s.operand8 rm) := by
  have h := State.readPlace8_same hq (s.place rm)
  have := State.aluTo8_spec op (.reg r) ((s.readPlace8 (s.place rm)).2.reg8 r) (s.readPlace8 (s.place rm)).1 h hq hw
  rw [h.reg8, (State.readPlace8_spec hq rm).1] at this
  simp only [aluGbEb, State.readRM8]
  rw [h.reg8, (State.readPlace8_spec hq rm).1]
  exact this

theorem aluEbIb_spec {s : State} (op : AluOp) (rm : RM8) (imm : Byte) (hq : s.sys.Quiet) (hw : s.sys.RamWf) :
    AluDone8 op s (aluEbIb op rm imm s) rm (s.operand8 rm) imm := by
  have h := State.readPlace8_same hq (s.place rm)
  have := State.aluTo8_spec op rm (s.readPlace8 (s.place rm)).1 imm h hq hw
  rw [(State.readPlace8_spec hq rm).1] at this
  simp only [aluEbIb]
  rw [(State.readPlace8_spec hq rm).1]
  exact this

theorem aluAlIb_spec {s : State} (op : AluOp) (imm : Byte) (hq : s.sys.Quiet) (hw : s.sys.RamWf) :
    AluDone8 op s (aluAlIb op imm s) (.reg .al) (s.reg8 .al) imm :=
  State.aluTo8_spec op (.reg .al) (s.reg8 .al) imm (Same.rfl' s) hq hw

theorem State.alu16_spec {s : State} (op : AluOp) (a b : Word) (hq : s.sys.Quiet) :
    ∃ af, (s.alu16 op a b).1 = (op.apply s.flags a b af).1 ∧
      Ran s (s.alu16 op a b).2 s.regs (op.apply s.flags a b af).2 ∧ (s.alu16 op a b).2.sys.still = s.sys.still := by
  have h1 := State.aluStep_same hq (a) (b)
  have h2 := h1.trans (State.drawn_if_same (s.aluStep (a) (b)) op.drawsAf)
  exact ⟨_, rfl, h2.withFlags _, h2.still⟩

theorem State.aluTo16_spec {s s' : State} (op : AluOp) (rm : RM16) (a b : Word) (h : Same s s') (hq : s.sys.Quiet)
    (hw : s.sys.RamWf) : AluDone16 op s (s'.aluTo16 op (s.place rm) a b) rm a b := by
  obtain ⟨af, h1, h2, h3⟩ := State.alu16_spec op a b (h.quiet hq)
  have hr : Ran s (s'.alu16 op a b).2 s.regs (op.apply s.flags a b af).2 :=
    ⟨h2.regs.trans h.ran.regs, by rw [h2.flags, h.ran.flags], h2.sregs.trans h.ran.sregs, h2.ip.trans h.ran.ip,
      h.ran.control.trans h2.control⟩
  have hs := h3.trans h.still
  refine ⟨af, ?_⟩
  unfold State.aluTo16
  dsimp only
  split
  · have := State.writePlace16_spec rm (s'.alu16 op a b).1 _ hr hs hq hw
    rw [h1, h.ran.flags] at this
    rw [h1, h.ran.flags]
    exact this
  · exact ⟨hr, unchanged_of_still hs⟩

theorem aluEwGw_spec {s : State} (op : AluOp) (rm : RM16) (r : Reg16) (hq : s.sys.Quiet) (hw : s.sys.RamWf) :
    AluDone16 op s (aluEwGw op rm r s) rm (s.operand16 rm) (s.reg16 r) := by
  have h := State.readPlace16_same hq (s.place rm)
  have := State.aluTo16_spec op rm (s.readPlace16 (s.place rm)).1 ((s.readPlace16 (s.place rm)).2.reg16 r) h hq hw
  rw [h.reg16, (State.readPlace16_spec hq rm).1] at this
  simp only [aluEwGw]
  rw [h.reg16, (State.readPlace16_spec hq rm).1]
  exact this

theorem aluGwEw_spec {s : State} (op : AluOp) (r : Reg16) (rm : RM16) (hq : s.sys.Quiet) (hw : s.sys.RamWf) :
    AluDone16 op s (aluGwEw op r rm s) (.reg r) (s.reg16 r) (s.operand16 rm) := by
  have h := State.readPlace16_same hq (s.place rm)
  have := State.aluTo16_spec op (.reg r) ((s.readPlace16 (s.place rm)).2.reg16 r) (s.readPlace16 (s.place rm)).1 h hq hw
  rw [h.reg16, (State.readPlace16_spec hq rm).1] at this
  simp only [aluGwEw, State.readRM16]
  rw [h.reg16, (State.readPlace16_spec hq rm).1]
  exact this

theorem aluEwIw_spec {s : State} (op : AluOp) (rm : RM16) (imm : Word) (hq : s.sys.Quiet) (hw : s.sys.RamWf) :
    AluDone16 op s (aluEwIw op rm imm s) rm (s.operand16 rm) imm := by
  have h := State.readPlace16_same hq (s.place rm)
  have := State.aluTo16_spec op rm (s.readPlace16 (s.place rm)).1 imm h hq hw
  rw [(State.readPlace16_spec hq rm).1] at this
  simp only [aluEwIw]
  rw [(State.readPlace16_spec hq rm).1]
  exact this

theorem aluAxIw_spec {s : State} (op : AluOp) (imm : Word) (hq : s.sys.Quiet) (hw : s.sys.RamWf) :
    AluDone16 op s (aluAxIw op imm s) (.reg .ax) (s.reg16 .ax) imm :=
  State.aluTo16_spec op (.reg .ax) (s.reg16 .ax) imm (Same.rfl' s) hq hw

end Sys2Proof.Machine
end

