-- ==== Sys2Proof/Laws/Transfer.lean ====
section
/-! SUPPORT. Transfers of control, taking an interrupt and returning from one: one lemma each. -/

namespace Sys2Proof.Machine

/-! ## Jumps -/

/-- A flush at CS:IP of a state whose registers, flags and control are given. -/
theorem State.flush_spec {s t : State} {g : Regs} {f : Flags} {seg off : Word} (hg : t.regs = g) (hf : t.flags = f)
    (hs : t.sregs = { s.sregs with cs := seg }) (hi : t.ip = off) (hc : SameControl s t) (hq : t.sys.Quiet) :
    Transferred s t.flush g f seg off ∧ t.flush.sys.still = t.sys.still := by
  have h := flush_front t.sys t.sregs.cs t.ip (t.euCost .flush)
  refine ⟨⟨hg, hf, hs, hi, congrArg Prod.fst h, ?_, congrArg (fun x => x.2.2) h,
    ⟨hc.1, hc.2, hc.3, hc.4, hc.5, hc.6, hc.7, hc.8⟩⟩, State.flush_still hq⟩
  exact (congrArg (fun x => x.2.1) h).trans hi

theorem State.jumpTo_spec {s t : State} (h : SameControl s t) (hs : t.sregs = s.sregs) (hq : t.sys.Quiet) (o : Word) :
    Transferred s (t.jumpTo o) t.regs t.flags s.sregs.cs o ∧ (t.jumpTo o).sys.still = t.sys.still := by
  have h1 := State.susp_still hq
  have h2 := State.flush_spec (s := s) (t := { t.susp with ip := o }) (seg := s.sregs.cs) (off := o) rfl rfl
    (by show t.sregs = _; rw [hs]) rfl ⟨h.1, h.2, h.3, h.4, h.5, h.6, h.7, h.8⟩ (Sys.quiet_of_still h1 hq)
  exact ⟨h2.1, h2.2.trans h1⟩

theorem State.callTo_spec {s t : State} (h : SameControl s t) (hs : t.sregs = s.sregs) (hq : t.sys.Quiet) (o : Word) :
    Transferred s (t.callTo o) t.regs t.flags s.sregs.cs o ∧ (t.callTo o).sys.still = t.sys.still := by
  have h1 := State.susp_still hq
  have h3 := (State.corr_still (s := t.susp) (Sys.quiet_of_still h1 hq)).trans h1
  have h2 := State.flush_spec (s := s) (t := { t.susp.corr with ip := o }) (seg := s.sregs.cs) (off := o) rfl rfl
    (by show t.sregs = _; rw [hs]) rfl ⟨h.1, h.2, h.3, h.4, h.5, h.6, h.7, h.8⟩ (Sys.quiet_of_still h3 hq)
  exact ⟨h2.1, h2.2.trans h3⟩

theorem State.jumpBy_spec {s t : State} (h : SameControl s t) (hs : t.sregs = s.sregs) (hq : t.sys.Quiet) (d : Word) :
    Transferred s (t.jumpBy d) t.regs t.flags s.sregs.cs (t.ip + d) ∧ (t.jumpBy d).sys.still = t.sys.still :=
  State.callTo_spec h hs hq (t.ip + d)

theorem State.callFar_spec {s t : State} (h : SameControl s t) (hs : t.sregs = s.sregs) (hq : t.sys.Quiet) (seg o : Word) :
    Transferred s (t.callFar seg o) t.regs t.flags seg o ∧ (t.callFar seg o).sys.still = t.sys.still := by
  have h1 := State.susp_still hq
  have h3 := (State.corr_still (s := t.susp) (Sys.quiet_of_still h1 hq)).trans h1
  have h2 := State.flush_spec (s := s) (t := { t.susp.corr with sregs := { t.sregs with cs := seg }, ip := o }) (seg := seg)
    (off := o) rfl rfl (by show { t.sregs with cs := seg } = _; rw [hs]) rfl ⟨h.1, h.2, h.3, h.4, h.5, h.6, h.7, h.8⟩
    (Sys.quiet_of_still h3 hq)
  exact ⟨h2.1, h2.2.trans h3⟩

theorem State.jumpFar_spec {s t : State} (h : SameControl s t) (hs : t.sregs = s.sregs) (hq : t.sys.Quiet) (seg o : Word) :
    Transferred s (t.jumpFar seg o) t.regs t.flags seg o ∧ (t.jumpFar seg o).sys.still = t.sys.still := by
  have h1 := State.susp_still hq
  have h2 := State.flush_spec (s := s) (t := { t.susp with sregs := { t.susp.sregs with cs := seg }, ip := o }) (seg := seg)
    (off := o) rfl rfl (by show { t.sregs with cs := seg } = _; rw [hs]) rfl ⟨h.1, h.2, h.3, h.4, h.5, h.6, h.7, h.8⟩
    (Sys.quiet_of_still h1 hq)
  exact ⟨h2.1, h2.2.trans h1⟩

/-! ## The stack in a row -/

/-- A word pushed after stores: the stores of both. -/
theorem State.push16_after {s t : State} {l : List (PhysAddr × Byte)} (h : Stores s.sys t.sys l) (hq : s.sys.Quiet)
    (hw : t.sys.RamWf) (v : Word) :
    Stores s.sys (t.push16 v).sys (l ++ store16 t.sregs.ss (t.regs.sp - 2#16) v) ∧ (t.push16 v).sys.RamWf := by
  have := State.push16_spec (h.quiet hq) hw v
  exact ⟨h.trans this.1, this.2⟩

/-- Stores whose system then moves with the clock only. -/
theorem Stores.later {y z w : Sys} {l : List (PhysAddr × Byte)} (h : Stores y z l) (k : w.still = z.still) : Stores y w l :=
  h.trans_still k

/-! ## Interrupts -/

/-- R790: everything `Interrupt(n)` does. -/
theorem State.interrupt_spec {s : State} (hq : s.sys.Quiet) (hw : s.sys.RamWf) (n : Byte) (retIp : Word) :
    let off : Word := zext16 n <<< 2
    Transferred s (s.interrupt n retIp) { s.regs with sp := s.regs.sp - 6#16 } { s.flags with ief := false, tf := false }
      (s.wordAt 0#16 (off + 2#16)) (s.wordAt 0#16 off) ∧
    Stores s.sys (s.interrupt n retIp).sys (pushedFrame s.sregs.ss s.regs.sp s.flags s.sregs.cs retIp) := by
  intro off
  have h1 : s.susp.sys.still = s.sys.still := State.susp_still hq
  have q1 := Sys.quiet_of_still h1 hq
  have hx := State.read16_spec q1 none off
  have h2 := hx.2.trans h1
  have q2 := Sys.quiet_of_still h2 hq
  have hy := State.read16_spec q2 none (off + 2#16)
  have h3 := hy.2.trans h2
  have q3 := Sys.quiet_of_still h3 hq
  have h4 := (State.corr_still q3).trans h3
  have hv1 : (s.susp.read16 none off).1 = s.wordAt 0#16 off := by
    rw [hx.1]; exact State.wordAt_of_still h1 _ _
  have hv2 : ((s.susp.read16 none off).2.read16 none (off + 2#16)).1 = s.wordAt 0#16 (off + 2#16) := by
    rw [hy.1]; exact State.wordAt_of_still h2 _ _
  generalize hu : ((s.susp.read16 none off).2.read16 none (off + 2#16)).2.corr = u at h4
  have hur : u.regs = s.regs := by rw [← hu]; simp
  have huf : u.flags = s.flags := by rw [← hu]; simp
  have hus : u.sregs = s.sregs := by rw [← hu]; simp
  have huc : SameControl s u := by rw [← hu]; exact ⟨rfl, rfl, rfl, rfl, rfl, rfl, rfl, rfl⟩
  have p1 := State.push16_after (t := u) (Stores.of_still h4) hq (Sys.ramWf_of_still h4 hw) u.flags.image
  have p2 := State.push16_after (t := (u.push16 u.flags.image).maskFlags) p1.1 hq p1.2 u.sregs.cs
  have p3 := State.push16_after (t := (u.push16 u.flags.image).maskFlags.push16 u.sregs.cs) p2.1 hq p2.2 retIp
  generalize hw3 : ((u.push16 u.flags.image).maskFlags.push16 u.sregs.cs).push16 retIp = w at p3
  have hwc : SameControl s w := by
    rw [← hw3]
    refine ⟨?_, ?_, ?_, ?_, ?_, ?_, ?_, ?_⟩ <;> simp [State.maskFlags, huc.1, huc.2, huc.3, huc.4, huc.5, huc.6, huc.7, huc.8]
  have hwr : w.regs = { s.regs with sp := s.regs.sp - 6#16 } := by
    rw [← hw3]
    simp [State.maskFlags, hur]
    bv_omega
  have hwf : w.flags = { s.flags with ief := false, tf := false } := by rw [← hw3]; simp [State.maskFlags, huf]
  have hws : w.sregs = s.sregs := by rw [← hw3]; simp [State.maskFlags, hus]
  have hst : Stores s.sys w.sys (pushedFrame s.sregs.ss s.regs.sp s.flags s.sregs.cs retIp) := by
    have := p3.1
    simp only [List.nil_append, State.push16_sregs, State.push16_regs, State.maskFlags_sregs, State.maskFlags_regs,
      hur, hus, huf] at this
    have e4 : s.regs.sp - 2#16 - 2#16 = s.regs.sp - 4#16 := by bv_omega
    have e6 : s.regs.sp - 4#16 - 2#16 = s.regs.sp - 6#16 := by bv_omega
    rw [e4, e6] at this
    exact this
  have hfin := State.flush_spec (s := s)
    (t := { w with sregs := { w.sregs with cs := s.wordAt 0#16 (off + 2#16) }, ip := s.wordAt 0#16 off })
    (seg := s.wordAt 0#16 (off + 2#16)) (off := s.wordAt 0#16 off) hwr hwf
    (congrArg (fun g : SRegs => { g with cs := s.wordAt 0#16 (off + 2#16) }) hws) rfl ⟨hwc.1, hwc.2, hwc.3, hwc.4, hwc.5, hwc.6, hwc.7, hwc.8⟩ (hst.quiet hq)
  have heq : s.interrupt n retIp
      = State.flush { w with sregs := { w.sregs with cs := s.wordAt 0#16 (off + 2#16) }, ip := s.wordAt 0#16 off } := by
    rw [← hv1, ← hv2, ← hw3, ← hu]
    rfl
  rw [heq]
  exact ⟨hfin.1, hst.trans_still hfin.2⟩

end Sys2Proof.Machine
end

