-- ==== Sys2Proof/Laws/Bus.lean ====
section
/-! SUPPORT. The bus unit's order through time: a tick, an EU access and a flush keep the queue, the fetch
pointer and the phase in order. -/

namespace Sys2Proof.Machine

/-! ## One tick -/

/-- The bus unit's order with a fetch pointer: `BusOk` and R26 together. -/
structure BusAt (cs ip : Word) (y : Sys) : Prop where
  bus : BusOk cs y
  pc : y.PcOk ip

/-- Outside the T4 of a code fetch the bytes ahead are those in the queue (R26). -/
theorem Biu.ahead_queue {b : Biu} (h : b.phase = .t4 → b.op ≠ .codeFetch) : b.ahead = b.queue.length := by
  unfold Biu.ahead; rw [if_neg (fun e => h e.1 e.2)]; rfl

/-- In it there is one more. -/
theorem Biu.ahead_t4 {b : Biu} (h : b.phase = .t4) (ho : b.op = .codeFetch) : b.ahead = b.queue.length + 1 := by
  unfold Biu.ahead; rw [if_pos ⟨h, ho⟩]

/-- A state after a decision is in order when the state before it has its queue and pointer in order. -/
theorem BusAt.decided {cs ip : Word} {y z : Sys} (d : Decided y z) (hcap : y.biu.queue.length ≤ Config.queueCap)
    (hroom : y.biu.request ≠ none → z.biu.phase = .t1 → z.biu.op = .codeFetch → z.biu.queue.length < Config.queueCap)
    (hage : ∀ q ∈ y.biu.queue, q.age < y.ticks + 1)
    (hs : ∀ n, y.biu.fetchSched = .scheduled n → n ≤ y.ticks + Config.fetchStartDelay)
    (hpc : y.biu.pc = ip + BitVec.ofNat 16 y.biu.queue.length) :
    BusAt cs ip { z with ticks := z.ticks + 1 } := by
  have hqueue : z.biu.queue = y.biu.queue := congrArg Prod.fst d.front
  have hpcz : z.biu.pc = y.biu.pc := congrArg (fun x => x.2.1) d.front
  refine ⟨⟨?_, ?_, ?_, ?_, ?_, ?_⟩, ?_⟩
  · show z.biu.queue.length ≤ _; rw [hqueue]; exact hcap
  · intro hin hop
    have ht1 : z.biu.phase = .t1 := by
      have hin : z.biu.inCycle = true := hin
      rcases d.phase with h | h | h
      · rw [Biu.inCycle, h] at hin; cases hin
      · rw [Biu.inCycle, h] at hin; cases hin
      · exact h
    by_cases hr : y.biu.request = none
    · exact d.fetch ht1 hop hr
    · exact hroom hr ht1 hop
  · show ∀ q ∈ z.biu.queue, q.age < z.ticks + 1
    rw [hqueue, d.ticks]; exact hage
  · intro ha
    have ha : z.biu.addressed = true := ha
    rcases d.phase with h | h | h <;> (rw [Biu.addressed, h] at ha; cases ha)
  · intro n hn
    show n ≤ z.ticks + 1 + _
    rw [d.ticks]
    rcases d.schedule n hn with h | h
    · have := hs n h; omega
    · omega
  · intro ha
    have ha : z.biu.phase = .tw := ha
    rcases d.phase with h | h | h <;> (rw [h] at ha; cases ha)
  · show z.biu.pc = ip + BitVec.ofNat 16 z.biu.ahead
    rw [Biu.ahead_queue (fun e => absurd e d.early.2.2), hqueue, hpcz]; exact hpc

theorem decide_noFetch {y : Sys} {b : Bool} (hr : ∀ r, y.biu.request = some r → r.op ≠ .codeFetch)
    (hn : y.biu.request ≠ none) (_h1 : (y.decide b).biu.phase = .t1) (hop : (y.decide b).biu.op = .codeFetch) :
    (y.decide b).biu.queue.length < Config.queueCap := by
  have key : ∀ (z : Sys) (c : Bool), z.biu.request = y.biu.request → (z.decideCpu c).biu.op ≠ .codeFetch := by
    intro z c hz
    unfold Sys.decideCpu
    split
    · rename_i r hr'
      exact hr r (hz ▸ hr')
    · rename_i hr'
      exact absurd (hz ▸ hr') hn
  unfold Sys.decide at hop ⊢
  split at hop
  · split at hop
    · rw [(hold_idle _).2.1] at hop; cases hop
    · exact absurd hop (key _ _ rfl)
  · exact absurd hop (key _ _ rfl)
  · rw [(hold_idle _).2.1] at hop; cases hop

theorem ofNat_succ_add (ip : Word) (n : Nat) : ip + BitVec.ofNat 16 n + 1#16 = ip + BitVec.ofNat 16 (n + 1) := by
  rw [BitVec.ofNat_add, BitVec.add_assoc]

/-- A phase that goes on: the queue stays, and the pointer counts what is ahead of IP. -/
theorem BusAt.moved {cs ip : Word} {y z : Sys} (h : BusAt cs ip y) (hqueue : z.biu.queue = y.biu.queue)
    (hpc : z.PcOk ip) (ht : z.ticks = y.ticks) (hroom : z.biu.inCycle = true → z.biu.op = .codeFetch → y.biu.queue.length < Config.queueCap)
    (ha : z.biu.addressed = true → z.biu.op = .codeFetch → z.biu.addr = phys cs z.biu.pc)
    (hs : z.biu.fetchSched = y.biu.fetchSched) (hw : z.biu.phase = .tw → z.biu.waitLeft ≠ 0) :
    BusAt cs ip { z with ticks := z.ticks + 1 } := by
  refine ⟨⟨?_, ?_, ?_, ha, ?_, hw⟩, hpc⟩
  · show z.biu.queue.length ≤ _; rw [hqueue]; exact h.bus.capacity
  · intro h1 h2; show z.biu.queue.length < _; rw [hqueue]; exact hroom h1 h2
  · show ∀ q ∈ z.biu.queue, q.age < z.ticks + 1
    rw [hqueue, ht]
    intro q hq; have := h.bus.ages q hq; omega
  · intro n hn
    show n ≤ z.ticks + 1 + _
    rw [ht]
    have := h.bus.schedule n (hs ▸ hn); omega

theorem BusAt.clockDevices {cs ip : Word} {y : Sys} (h : BusAt cs ip y) : BusAt cs ip y.clockDevices :=
  ⟨⟨h.bus.1, h.bus.2, h.bus.3, h.bus.4, h.bus.5, h.bus.6⟩, h.pc⟩

/-- A tick keeps the bus unit in order. -/
theorem BusAt.tick {cs ip : Word} {y : Sys} (h : BusAt cs ip y)
    (hr : ∀ r, y.biu.request = some r → r.op ≠ .codeFetch) : BusAt cs ip (y.tick cs) := by
  show BusAt cs ip { y.clockDevices.phaseAction cs with ticks := (y.clockDevices.phaseAction cs).ticks + 1 }
  have h := h.clockDevices
  have hr : ∀ r, y.clockDevices.biu.request = some r → r.op ≠ .codeFetch := hr
  generalize y.clockDevices = z at h hr ⊢
  have hin : ∀ p, z.biu.phase = p → (p = .t1 ∨ p = .t2 ∨ p = .t3 ∨ p = .tw ∨ p = .t4) → z.biu.inCycle = true := by
    intro p hp hc; unfold Biu.inCycle; rw [hp]; rcases hc with rfl | rfl | rfl | rfl | rfl <;> rfl
  have hq4 : z.biu.phase ≠ .t4 → z.biu.pc = ip + BitVec.ofNat 16 z.biu.queue.length := fun h4 => by
    have := h.pc
    unfold Sys.PcOk at this
    rwa [Biu.ahead_queue (fun e => absurd e h4)] at this
  have hft : ∀ w : Sys, w.biu.front = z.biu.front → w.ticks = z.ticks → w.biu.op = z.biu.op →
      w.biu.fetchSched = z.biu.fetchSched → z.biu.inCycle = true → z.biu.phase ≠ .t4 →
      BusAt cs ip { w.fetchTransfer with ticks := w.fetchTransfer.ticks + 1 } := by
    intro w h1 h2 h3 h4 h5 h6
    have t := fetchTransfer_fetched w
    have hqueue : w.biu.queue = z.biu.queue := congrArg Prod.fst h1
    have hpcw : w.biu.pc = z.biu.pc := congrArg (fun x => x.2.1) h1
    refine h.moved (t.queue.trans hqueue) ?_ (t.ticks.trans h2) (fun _ ho => h.bus.room h5 (h3 ▸ t.op ▸ ho)) (fun ha => ?_)
      (t.schedule.trans h4) (fun hw => ?_)
    · show w.fetchTransfer.biu.pc = ip + BitVec.ofNat 16 w.fetchTransfer.biu.ahead
      rw [t.pc]
      by_cases ho : w.biu.op = .codeFetch
      · rw [if_pos ho, Biu.ahead_t4 t.phase (t.op.trans ho), t.queue, hqueue, hpcw, hq4 h6]
        exact ofNat_succ_add _ _
      · rw [if_neg ho, Biu.ahead_queue (fun _ e => ho (t.op.symm.trans e)), t.queue, hqueue, hpcw, hq4 h6]
    · rw [Biu.addressed, t.phase] at ha; cases ha
    · rw [t.phase] at hw; cases hw
  have hstay : ∀ w : Sys, z.biu.phase ≠ .t4 → w.biu.phase ≠ .t4 → w.biu.queue = z.biu.queue → w.biu.pc = z.biu.pc →
      w.PcOk ip := by
    intro w h4 w4 h1 h2
    show w.biu.pc = ip + BitVec.ofNat 16 w.biu.ahead
    rw [Biu.ahead_queue (fun e => absurd e w4), h1, h2]; exact hq4 h4
  unfold Sys.phaseAction
  split
  · rename_i hp
    refine BusAt.decided (decide_decided z false) h.bus.capacity (decide_noFetch hr) (fun q hq => ?_) h.bus.schedule
      (hq4 (by simp [hp]))
    have := h.bus.ages q hq; omega
  · rename_i hp
    have hd : (z.biu.drive cs).queue = z.biu.queue ∧ (z.biu.drive cs).pc = z.biu.pc ∧ (z.biu.drive cs).phase = .t2 ∧
        (z.biu.drive cs).op = z.biu.op ∧ (z.biu.drive cs).fetchSched = z.biu.fetchSched ∧
        (z.biu.op = .codeFetch → (z.biu.drive cs).addr = phys cs z.biu.pc) := by
      unfold Biu.drive; split
      · exact ⟨rfl, rfl, rfl, rfl, rfl, fun _ => rfl⟩
      · rename_i ho; exact ⟨rfl, rfl, rfl, rfl, rfl, fun e => absurd e ho⟩
    refine h.moved hd.1 (hstay { z with biu := z.biu.drive cs } (by simp [hp]) (by simp [hd.2.2.1]) hd.1 hd.2.1) rfl
      (fun _ ho => h.bus.room (hin _ hp (by simp)) (hd.2.2.2.1 ▸ ho)) (fun _ ho => ?_) hd.2.2.2.2.1 (fun hw => ?_)
    · show (z.biu.drive cs).addr = phys cs (z.biu.drive cs).pc
      rw [hd.2.1]; exact hd.2.2.2.2.2 (hd.2.2.2.1 ▸ ho)
    · have hw : (z.biu.drive cs).phase = .tw := hw
      rw [hd.2.2.1] at hw; cases hw
  · rename_i hp
    refine h.moved rfl (hstay _ (by simp [hp]) (by simp) rfl rfl) rfl (fun _ ho => h.bus.room (hin _ hp (by simp)) ho)
      (fun _ ho => ?_) rfl (fun hw => by cases hw)
    exact h.bus.address (by rw [Biu.addressed, hp]) ho
  · rename_i hp
    split
    · exact hft z rfl rfl rfl rfl (hin _ hp (by simp)) (by simp [hp])
    · rename_i hwl
      refine h.moved rfl (hstay _ (by simp [hp]) (by simp) rfl rfl) rfl (fun _ ho => h.bus.room (hin _ hp (by simp)) ho)
        (fun _ ho => ?_) rfl (fun _ => hwl)
      exact h.bus.address (by rw [Biu.addressed, hp]) ho
  · rename_i hp
    dsimp only
    split
    · exact hft _ rfl rfl rfl rfl (hin _ hp (by simp)) (by simp [hp])
    · rename_i hwl
      refine h.moved rfl (hstay _ (by simp [hp]) (by simp [hp]) rfl rfl) rfl
        (fun _ ho => h.bus.room (hin _ hp (by simp)) ho) (fun _ ho => ?_) rfl (fun _ => hwl)
      exact h.bus.address (by rw [Biu.addressed, hp]) ho
  · rename_i hp
    obtain ⟨c1, c2, c3, c4, c5⟩ := fetchComplete_rest z
    have hr' : ∀ r, z.fetchComplete.biu.request = some r → r.op ≠ .codeFetch := by rw [c2]; exact hr
    have hs : ∀ n, z.fetchComplete.biu.fetchSched = .scheduled n → n ≤ z.fetchComplete.ticks + Config.fetchStartDelay := by
      rw [c3, c1]; exact h.bus.schedule
    have hpc : z.biu.pc = ip + BitVec.ofNat 16 z.biu.ahead := h.pc
    by_cases ho : z.biu.op = .codeFetch
    · have f1 := fetchComplete_front z ho
      refine BusAt.decided (decide_decided z.fetchComplete true) ?_ (decide_noFetch hr') ?_ hs ?_
      · rw [f1, List.length_append]
        exact h.bus.room (hin _ hp (by simp)) ho
      · rw [f1, c1]
        intro q hq
        rcases List.mem_append.1 hq with hq | hq
        · have := h.bus.ages q hq; omega
        · rw [List.mem_singleton.1 hq]; exact Nat.lt_succ_self _
      · rw [f1, c5, List.length_append, List.length_singleton, hpc, Biu.ahead_t4 hp ho]
    · have e := fetchComplete_other z ho
      rw [e] at hs hr' ⊢
      refine BusAt.decided (decide_decided z true) h.bus.capacity (decide_noFetch hr) (fun q hq => ?_) hs ?_
      · have := h.bus.ages q hq; omega
      · rw [hpc, Biu.ahead_queue (fun _ => ho)]
  · rename_i hp
    exact h.moved rfl (hstay _ (by simp [hp]) (by simp [Biu.toIdle]) rfl rfl) rfl (fun hin => by cases hin)
      (fun ha => by cases ha) rfl (fun hw => by cases hw)

/-! ## No request pending -/

theorem Biu.not_inCycle {b : Biu} (h : b.phase = .idle ∨ b.phase = .haltAck) : b.inCycle = false := by
  unfold Biu.inCycle; rcases h with h | h <;> rw [h]

/-- No request pending and no bus cycle but a fetch in progress; `b` says whether fetching is suspended. -/
structure Calm (b : Bool) (y : Sys) : Prop where
  request : y.biu.request = none
  suspended : y.biu.suspended = b
  fetching : y.biu.inCycle = true → y.biu.op = .codeFetch
  waiting : y.biu.phase = .tw → y.biu.waitLeft ≠ 0

theorem Calm.settled {y : Sys} (h : Calm false y) : y.Settled := ⟨h.1, h.2, h.3⟩

theorem Sys.Settled.calm {cs : Word} {y : Sys} (h : y.Settled) (hb : BusOk cs y) : Calm false y :=
  ⟨h.1, h.2, h.3, hb.waiting⟩

/-- A decision with no request pending leaves only fetches in progress. -/
theorem Decided.calm {b : Bool} {y z : Sys} (d : Decided y z) (hr : y.biu.request = none) (hs : y.biu.suspended = b) :
    Calm b z := by
  refine ⟨?_, ?_, ?_, ?_⟩
  · rcases d.request with h | ⟨r, h, -⟩
    · rw [h]; exact hr
    · rw [hr] at h; cases h
  · rw [show z.biu.suspended = y.biu.suspended from congrArg (fun x => x.2.2) d.front]; exact hs
  · intro hin
    rcases d.phase with h | h | h
    · rw [Biu.not_inCycle (.inl h)] at hin; cases hin
    · rw [Biu.not_inCycle (.inr h)] at hin; cases hin
    · exact d.noRequest hr h
  · intro hw; rcases d.phase with h | h | h <;> (rw [hw] at h; cases h)

theorem Calm.tick {b : Bool} {y : Sys} (h : Calm b y) (cs : Word) : Calm b (y.tick cs) := by
  have key : ∀ z : Sys, Calm b z → Calm b (z.phaseAction cs) := by
    intro z h
    have hin : ∀ p, z.biu.phase = p → (p = .t1 ∨ p = .t2 ∨ p = .t3 ∨ p = .tw ∨ p = .t4) → z.biu.inCycle = true := by
      intro p hp hc; unfold Biu.inCycle; rw [hp]; rcases hc with rfl | rfl | rfl | rfl | rfl <;> rfl
    have hft : ∀ w : Sys, w.biu.request = none ∧ w.biu.suspended = b → w.biu.op = .codeFetch → Calm b w.fetchTransfer := by
      intro w hw ho
      have t := fetchTransfer_fetched w
      exact ⟨t.request.trans hw.1, t.suspended.trans hw.2, fun _ => t.op.trans ho,
        fun e => by rw [t.phase] at e; cases e⟩
    unfold Sys.phaseAction
    split
    · exact (decide_decided z false).calm h.1 h.2
    · rename_i hp
      have ho := h.3 (hin _ hp (by simp))
      simp only [Biu.drive, if_pos ho]
      exact ⟨h.1, h.2, fun _ => ho, fun e => by cases e⟩
    · rename_i hp; exact ⟨h.1, h.2, fun _ => h.3 (hin _ hp (by simp)), fun e => by cases e⟩
    · rename_i hp
      split
      · exact hft z ⟨h.1, h.2⟩ (h.3 (hin _ hp (by simp)))
      · rename_i hwl; exact ⟨h.1, h.2, fun _ => h.3 (hin _ hp (by simp)), fun _ => hwl⟩
    · rename_i hp
      dsimp only
      split
      · exact hft _ ⟨h.1, h.2⟩ (h.3 (hin _ hp (by simp)))
      · rename_i hwl; exact ⟨h.1, h.2, fun _ => h.3 (hin _ hp (by simp)), fun _ => hwl⟩
    · obtain ⟨c1, c2, c3, c4, -⟩ := fetchComplete_rest z
      exact (decide_decided z.fetchComplete true).calm (c2.trans h.1) (c4.trans h.2)
    · exact ⟨h.1, h.2, fun h => (by cases h), fun h => (by cases h)⟩
  have h0 : Calm b y.clockDevices := ⟨h.1, h.2, h.3, h.4⟩
  have := key _ h0
  exact ⟨this.1, this.2, this.3, this.4⟩

/-! ## An EU access -/

theorem phaseAction_suspended (y : Sys) (cs : Word) : (y.phaseAction cs).biu.suspended = y.biu.suspended := by
  have hd : ∀ (z : Sys) (b : Bool), (z.decide b).biu.suspended = z.biu.suspended := fun z b =>
    congrArg (fun x => x.2.2) (decide_decided z b).front
  unfold Sys.phaseAction
  split
  · exact hd y false
  · simp only [Biu.drive]; split <;> rfl
  · rfl
  · split
    · exact (fetchTransfer_fetched y).suspended
    · rfl
  · dsimp only
    split
    · exact (fetchTransfer_fetched _).suspended
    · rfl
  · exact (hd _ true).trans (fetchComplete_rest y).2.2.2.1
  · rfl

theorem tick_suspended (y : Sys) (cs : Word) : (y.tick cs).biu.suspended = y.biu.suspended :=
  phaseAction_suspended y.clockDevices cs

theorem tickN_suspended (y : Sys) (cs : Word) (n : Nat) : (y.tickN cs n).biu.suspended = y.biu.suspended := by
  induction n generalizing y with
  | zero => rfl
  | succ n ih => exact (ih (y.tick cs)).trans (tick_suspended y cs)

theorem runToT4_suspended (y : Sys) (cs : Word) : (y.runToT4 cs).biu.suspended = y.biu.suspended := by
  unfold Sys.runToT4
  split
  · exact (tickN_suspended _ cs _).trans (tickN_suspended y cs 2)
  · exact (tickN_suspended _ cs _).trans (tick_suspended y cs)
  · exact tickN_suspended y cs _
  · exact tickN_suspended y cs _
  · rfl

/-- A pending request stays until the tick that starts it, whose next tick is its T1. -/
theorem tick_request {y : Sys} {r : Request} (cs : Word) (h : y.biu.request = some r) :
    (y.tick cs).biu.request = some r ∨ EuAt none .t1 r.op (y.tick cs) := by
  have hd : ∀ (z : Sys) (b : Bool), z.biu.request = some r →
      (z.decide b).biu.request = some r ∨ EuAt none .t1 r.op (z.decide b) := by
    intro z b hz
    rcases (decide_decided z b).request with e | ⟨r', e, e1, e2, e3⟩
    · exact .inl (e.trans hz)
    · rw [hz] at e; cases e; exact .inr ⟨e2, e3, e1⟩
  have key : ∀ z : Sys, z.biu.request = some r →
      (z.phaseAction cs).biu.request = some r ∨ EuAt none .t1 r.op (z.phaseAction cs) := by
    intro z hz
    have hft : ∀ w : Sys, w.biu.request = some r → w.fetchTransfer.biu.request = some r := fun w hw =>
      (fetchTransfer_fetched w).request.trans hw
    unfold Sys.phaseAction
    split
    · exact hd z false hz
    · left; simp only [Biu.drive]; split <;> exact hz
    · exact .inl hz
    · split
      · exact .inl (hft z hz)
      · exact .inl hz
    · dsimp only
      split
      · exact .inl (hft _ hz)
      · exact .inl hz
    · exact hd _ true ((fetchComplete_rest z).2.1.trans hz)
    · exact .inl hz
  rcases key y.clockDevices h with e | e
  · exact .inl e
  · exact .inr ⟨e.1, e.2, e.3⟩

theorem runToT4_request {q : Option Request} (cs : Word) {y : Sys} (h : y.biu.request = q) :
    (y.runToT4 cs).biu.request = q := by
  unfold Sys.runToT4
  split
  · rename_i hp; exact (EuAt.t2 (EuAt.t1 (cs := cs) ⟨hp, rfl, h⟩)).toT4.request
  · rename_i hp; exact (EuAt.t2 (cs := cs) ⟨hp, rfl, h⟩).toT4.request
  · rename_i hp; exact (EuAt.toT4 (q := q) ⟨hp, rfl, h⟩).request
  · rename_i hp
    exact (EuAt.tws (q := q) ⟨hp, rfl, h⟩).request
  · exact h

/-- What is pending when the cycle in progress ends is pending still, or has its T1 next. -/
theorem drain_request {r : Request} (cs : Word) {y : Sys} (h : y.biu.request = some r) :
    (y.drain cs).biu.request = some r ∨ EuAt none .t1 r.op (y.drain cs) := by
  have h1 := runToT4_request cs h
  unfold Sys.drain
  dsimp only
  split
  · exact tick_request cs h1
  · exact .inl h1

theorem startNow_started {r : Request} {y : Sys} (h : y.biu.request = some r ∨ EuAt none .t1 r.op y) :
    EuAt none .t1 r.op y.startNow := by
  unfold Sys.startNow
  rcases h with h | h
  · rw [h]; exact ⟨rfl, rfl, rfl⟩
  · rw [h.request]; exact h

theorem startNow_suspended (y : Sys) : y.startNow.biu.suspended = y.biu.suspended := by
  unfold Sys.startNow; split <;> rfl

theorem drain_suspended (y : Sys) (cs : Word) : (y.drain cs).biu.suspended = y.biu.suspended := by
  unfold Sys.drain
  dsimp only
  split
  · exact (tick_suspended _ cs).trans (runToT4_suspended y cs)
  · exact runToT4_suspended y cs

theorem awaitStart_started {r : Request} (cs : Word) (n : Nat) {y : Sys}
    (h : y.biu.request = some r ∨ EuAt none .t1 r.op y) : EuAt none .t1 r.op (y.awaitStart cs n) := by
  induction n generalizing y with
  | zero =>
    unfold Sys.awaitStart
    rcases h with h | h
    · rw [h]; exact startNow_started (drain_request cs h)
    · rw [h.request]; exact h
  | succ n ih =>
    unfold Sys.awaitStart
    rcases h with h | h
    · rw [h]; exact ih (tick_request cs h)
    · rw [h.request]; exact h

theorem awaitStart_suspended (cs : Word) (n : Nat) (y : Sys) :
    (y.awaitStart cs n).biu.suspended = y.biu.suspended := by
  induction n generalizing y with
  | zero =>
    unfold Sys.awaitStart
    split
    · exact (startNow_suspended _).trans (drain_suspended y cs)
    · rfl
  | succ n ih =>
    unfold Sys.awaitStart
    split
    · exact (ih (y.tick cs)).trans (tick_suspended y cs)
    · rfl

theorem euBegin_started (cs : Word) (r : Request) (y : Sys) :
    EuAt none .t1 r.op (y.euBegin cs r) ∧ (y.euBegin cs r).biu.suspended = y.biu.suspended := by
  unfold Sys.euBegin
  dsimp only
  have h := runToT4_request (q := some r) cs (y := { y with biu := { y.biu with request := some r }, stall := .busBusy }) rfl
  refine ⟨awaitStart_started cs _ (.inl h), ?_⟩
  exact (awaitStart_suspended cs _ _).trans (runToT4_suspended _ cs)

/-- What a transfer leaves of the bus unit and the clock. -/
theorem transfer_biu (y : Sys) (r : Request) : (transfer y r).2.biu = y.biu ∧ (transfer y r).2.ticks = y.ticks := by
  have hr := busRead_clock y
  unfold transfer
  split
  · exact hr _
  · exact busWrite_clock y _ _
  · unfold portRead
    split <;> first
      | exact ⟨rfl, rfl⟩
      | (split <;> first | exact ⟨rfl, rfl⟩ | (unfold Sys.readPortC; split <;> exact ⟨rfl, rfl⟩))
  · unfold portWrite
    split <;> first
      | exact ⟨rfl, rfl⟩
      | (split <;> exact ⟨rfl, rfl⟩)
  · unfold intAckCycle; split <;> exact ⟨rfl, rfl⟩
  · exact hr _
  · exact ⟨rfl, rfl⟩
  · exact ⟨rfl, rfl⟩

theorem euFinish_done {cs : Word} {op : BusOp} (r : Request) {y : Sys} (h : EuAt none .t1 op y) :
    EuAt none .t4 op (y.euFinish cs r).2 ∧ (y.euFinish cs r).2.biu.suspended = y.biu.suspended := by
  have h3 : EuAt none .t3 op (y.tickN cs 2) := h.t1.t2
  have h4 := h3.toT4 (cs := cs)
  unfold Sys.euFinish
  dsimp only
  have hb := (transfer_biu ((y.tickN cs 2).tickN cs (1 + (y.tickN cs 2).biu.waitLeft)) r).1
  refine ⟨⟨?_, ?_, ?_⟩, ?_⟩
  · show (transfer _ r).2.biu.phase = _; rw [hb]; exact h4.1
  · show (transfer _ r).2.biu.op = _; rw [hb]; exact h4.2
  · show (transfer _ r).2.biu.request = _; rw [hb]; exact h4.3
  · show (transfer _ r).2.biu.suspended = _
    rw [hb]
    exact (tickN_suspended _ cs _).trans (tickN_suspended y cs 2)

theorem euCycle_done (cs : Word) (r : Request) (y : Sys) :
    EuAt none .t4 r.op (y.euCycle cs r).2 ∧ (y.euCycle cs r).2.biu.suspended = y.biu.suspended := by
  have h1 := euBegin_started cs r y
  have h2 := euFinish_done (cs := cs) r h1.1
  exact ⟨h2.1, h2.2.trans h1.2⟩

theorem euEnd_calm {op : BusOp} {b : Bool} {y : Sys} (cs : Word) (h : EuAt none .t4 op y) (hs : y.biu.suspended = b) :
    Calm b (y.euEnd cs) := by
  have hp : y.clockDevices.biu.phase = .t4 := h.phase
  have e : (y.euEnd cs).biu = (y.clockDevices.fetchComplete.decide true).biu := by
    show (y.clockDevices.phaseAction cs).biu = _
    unfold Sys.phaseAction; rw [hp]
  have c := fetchComplete_rest y.clockDevices
  have d := (decide_decided y.clockDevices.fetchComplete true).calm (b := b) (c.2.1.trans h.request) (c.2.2.2.1.trans hs)
  exact ⟨by rw [e]; exact d.1, by rw [e]; exact d.2, by rw [e]; exact d.3, by rw [e]; exact d.4⟩

theorem access1_calm {b : Bool} {y : Sys} (h : Calm b y) (cs : Word) (r : Request) : Calm b (y.access1 cs r).2 := by
  have h1 := euCycle_done cs r y
  exact euEnd_calm cs h1.1 (h1.2.trans h.2)

theorem access2_calm {b : Bool} {y : Sys} (h : Calm b y) (cs : Word) (r₁ r₂ : Request) :
    Calm b (y.access2 cs r₁ r₂).2.2 := by
  have h1 := euCycle_done cs r₁ y
  have h2 := euCycle_done cs r₂ (y.euCycle cs r₁).2.microDone
  exact euEnd_calm cs h2.1 (h2.2.trans (h1.2.trans h.2))

theorem intaGap_resumed {y : Sys} (cs : Word) (n : Nat) (hs : y.biu.suspended = false) :
    (y.intaGap cs n).biu.suspended = false := by
  unfold Sys.intaGap; split
  · exact hs
  · rfl

/-- The two INTA cycles leave nothing but fetches in progress. -/
theorem intAck_calm {y : Sys} (h : Calm false y) (cs : Word) (n : Nat) : Calm false (Sys.intAck cs n y).2 := by
  have h1 := euCycle_done cs intAckRequest y
  have hs : ((y.euCycle cs intAckRequest).2.intaGap cs n).biu.suspended = false :=
    intaGap_resumed cs n (h1.2.trans h.2)
  have h3 := euCycle_done cs intAckRequest ((y.euCycle cs intAckRequest).2.intaGap cs n)
  have h4 := euEnd_calm (b := false) cs h3.1 (h3.2.trans hs)
  exact ⟨h4.1, h4.2, h4.3, h4.4⟩

theorem tickN_calm {b : Bool} {y : Sys} (h : Calm b y) (cs : Word) (n : Nat) : Calm b (y.tickN cs n) := by
  induction n generalizing y with
  | zero => exact h
  | succ n ih => exact ih (h.tick cs)

theorem internal_calm {b : Bool} {y : Sys} (h : Calm b y) (cs : Word) (n : Nat) : Calm b (Sys.internal cs n y) := by
  have := tickN_calm h cs n
  exact ⟨this.1, this.2, this.3, this.4⟩

/-! ## The fetch pointer through an access -/

/-- The EU's requests are never code fetches. -/
abbrev Request.isData (r : Request) : Prop := r.op ≠ .codeFetch

theorem tick_none {y : Sys} (cs : Word) (h : y.biu.request = none) : (y.tick cs).biu.request = none := by
  have hd : ∀ (z : Sys) (b : Bool), z.biu.request = none → (z.decide b).biu.request = none := by
    intro z b hz
    rcases (decide_decided z b).request with e | ⟨r', e, -⟩
    · exact e.trans hz
    · rw [hz] at e; cases e
  have key : ∀ z : Sys, z.biu.request = none → (z.phaseAction cs).biu.request = none := by
    intro z hz
    have hft : ∀ w : Sys, w.biu.request = none → w.fetchTransfer.biu.request = none := fun w hw =>
      (fetchTransfer_fetched w).request.trans hw
    unfold Sys.phaseAction
    split
    · exact hd z false hz
    · simp only [Biu.drive]; split <;> exact hz
    · exact hz
    · split
      · exact hft z hz
      · exact hz
    · dsimp only
      split
      · exact hft _ hz
      · exact hz
    · exact hd _ true ((fetchComplete_rest z).2.1.trans hz)
    · exact hz
  exact key y.clockDevices h

/-- The bus unit in order, any request pending being the EU's. -/
structure BusIn (cs ip : Word) (y : Sys) : Prop where
  at' : BusAt cs ip y
  data : ∀ r, y.biu.request = some r → r.isData

theorem BusIn.tick {cs ip : Word} {y : Sys} (h : BusIn cs ip y) : BusIn cs ip (y.tick cs) := by
  refine ⟨h.at'.tick h.data, fun r hr => ?_⟩
  cases hq : y.biu.request with
  | none => rw [tick_none cs hq] at hr; cases hr
  | some r' =>
    rcases tick_request cs hq with e | e
    · rw [e] at hr; cases hr; exact h.data _ hq
    · rw [e.request] at hr; cases hr

theorem BusIn.tickN {cs ip : Word} (n : Nat) {y : Sys} (h : BusIn cs ip y) : BusIn cs ip (y.tickN cs n) := by
  induction n generalizing y with
  | zero => exact h
  | succ n ih => exact ih h.tick

theorem BusIn.runToT4 {cs ip : Word} {y : Sys} (h : BusIn cs ip y) : BusIn cs ip (y.runToT4 cs) := by
  unfold Sys.runToT4
  split
  · exact (h.tickN 2).tickN _
  · exact h.tick.tickN _
  · exact h.tickN _
  · exact h.tickN _
  · exact h

theorem BusIn.drain {cs ip : Word} {y : Sys} (h : BusIn cs ip y) : BusIn cs ip (y.drain cs) := by
  unfold Sys.drain
  dsimp only
  split
  · exact h.runToT4.tick
  · exact h.runToT4

/-- A request started outside a cycle leaves the bus unit in order. -/
theorem BusIn.startNow {cs ip : Word} {y : Sys} (h : BusIn cs ip y)
    (hp : y.biu.phase = .idle ∨ y.biu.phase = .haltAck ∨ y.biu.phase = .t1) : BusIn cs ip y.startNow := by
  unfold Sys.startNow
  split
  · rename_i r hr
    have hd := h.data r hr
    refine ⟨⟨⟨h.at'.bus.1, fun _ ho => absurd ho hd, h.at'.bus.3, fun ha => (by cases ha), fun n hn => ?_,
      fun hw => (by cases hw)⟩, ?_⟩, fun r hr => (by cases hr)⟩
    · simp only [Biu.toRequest] at hn
      split at hn <;> cases hn
    · have hpc : y.biu.pc = ip + BitVec.ofNat 16 y.biu.ahead := h.at'.pc
      rw [Biu.ahead_queue (fun e => by rcases hp with h | h | h <;> (rw [e] at h; cases h))] at hpc
      show y.biu.pc = ip + BitVec.ofNat 16 (y.biu.toRequest r).ahead
      rw [Biu.ahead_queue (fun e => by cases e)]; exact hpc
  · exact h

theorem BusIn.awaitStart {cs ip : Word} (n : Nat) {y : Sys} (h : BusIn cs ip y) : BusIn cs ip (y.awaitStart cs n) := by
  induction n generalizing y with
  | zero =>
    unfold Sys.awaitStart
    split
    · exact h.drain.startNow (drain_phase y cs)
    · exact h
  | succ n ih =>
    unfold Sys.awaitStart
    split
    · exact ih h.tick
    · exact h

theorem BusIn.euBegin {cs ip : Word} {y : Sys} (h : BusIn cs ip y) {r : Request} (hr : r.isData) :
    BusIn cs ip (y.euBegin cs r) := by
  have h0 : BusIn cs ip { y with biu := { y.biu with request := some r }, stall := .busBusy } :=
    ⟨⟨⟨h.at'.bus.1, h.at'.bus.2, h.at'.bus.3, h.at'.bus.4, h.at'.bus.5, h.at'.bus.6⟩, h.at'.pc⟩, fun r' e => by cases e; exact hr⟩
  exact (h0.runToT4).awaitStart _

theorem BusIn.of_eq {cs ip : Word} {y z : Sys} (h : BusIn cs ip y) (hb : z.biu = y.biu) (ht : z.ticks = y.ticks) :
    BusIn cs ip z := by
  obtain ⟨⟨⟨b1, b2, b3, b4, b5, b6⟩, hp⟩, hd⟩ := h
  refine ⟨⟨⟨?_, ?_, ?_, ?_, ?_, ?_⟩, ?_⟩, ?_⟩
  · rw [hb]; exact b1
  · rw [hb]; exact b2
  · rw [hb, ht]; exact b3
  · rw [hb]; exact b4
  · rw [hb, ht]; exact b5
  · rw [hb]; exact b6
  · unfold Sys.PcOk; rw [hb]; exact hp
  · rw [hb]; exact hd

theorem BusIn.euFinish {cs ip : Word} {y : Sys} (h : BusIn cs ip y) (r : Request) {op : BusOp} (ho : op ≠ .codeFetch)
    (he : EuAt none .t1 op y) : BusIn cs ip (y.euFinish cs r).2 := by
  have h4 := (h.tickN 2).tickN (1 + (y.tickN cs 2).biu.waitLeft)
  have hd := euFinish_done (cs := cs) r he
  have hb := transfer_biu ((y.tickN cs 2).tickN cs (1 + (y.tickN cs 2).biu.waitLeft)) r
  have h5 := h4.of_eq hb.1 hb.2
  refine ⟨⟨⟨h5.at'.bus.1, fun _ e => ?_, h5.at'.bus.3, fun _ e => ?_, h5.at'.bus.5, fun e => ?_⟩, h5.at'.pc⟩,
    h5.data⟩
  · exact absurd (hd.1.op.symm.trans e) ho
  · exact absurd (hd.1.op.symm.trans e) ho
  · exact absurd (hd.1.phase.symm.trans e) (by simp)

theorem BusIn.euCycle {cs ip : Word} {y : Sys} (h : BusIn cs ip y) {r : Request} (hr : r.isData) :
    BusIn cs ip (y.euCycle cs r).2 :=
  (h.euBegin hr).euFinish r hr (euBegin_started cs r y).1

theorem BusIn.access1 {cs ip : Word} {y : Sys} (h : BusIn cs ip y) {r : Request} (hr : r.isData) :
    BusIn cs ip (y.access1 cs r).2 :=
  ((h.euCycle hr).tick).of_eq rfl rfl

theorem BusIn.access2 {cs ip : Word} {y : Sys} (h : BusIn cs ip y) {r₁ r₂ : Request} (h₁ : r₁.isData) (h₂ : r₂.isData) :
    BusIn cs ip (y.access2 cs r₁ r₂).2.2 := by
  have h1 : BusIn cs ip (y.euCycle cs r₁).2.microDone := (h.euCycle h₁).of_eq rfl rfl
  exact (h1.euCycle h₂).tick.of_eq rfl rfl

/-- The suspension of fetching does not matter to the order of the bus unit. -/
theorem BusIn.withSuspended {cs ip : Word} {y : Sys} (h : BusIn cs ip y) (b : Bool) :
    BusIn cs ip { y with biu := { y.biu with suspended := b } } :=
  ⟨⟨⟨h.at'.bus.1, h.at'.bus.2, h.at'.bus.3, h.at'.bus.4, h.at'.bus.5, h.at'.bus.6⟩, h.at'.pc⟩, h.data⟩

theorem BusIn.intaGap {cs ip : Word} {y : Sys} (h : BusIn cs ip y) (n : Nat) : BusIn cs ip (y.intaGap cs n) := by
  unfold Sys.intaGap
  split
  · exact h.of_eq rfl rfl
  · have h1 : BusIn cs ip (Sys.euEnd cs { y with biu := { y.biu with suspended := true } }) :=
      (h.withSuspended true).tick.of_eq rfl rfl
    have h2 : BusIn cs ip (Sys.internal cs n (Sys.euEnd cs { y with biu := { y.biu with suspended := true } })) :=
      (h1.tickN n).of_eq rfl rfl
    exact h2.withSuspended false

theorem BusIn.intAck {cs ip : Word} {y : Sys} (h : BusIn cs ip y) (n : Nat) : BusIn cs ip (Sys.intAck cs n y).2 := by
  have hd : intAckRequest.isData := by simp [intAckRequest]
  have h5 := (((h.euCycle hd).intaGap n).euCycle hd).tick
  exact ⟨⟨⟨h5.at'.bus.1, h5.at'.bus.2, h5.at'.bus.3, h5.at'.bus.4, h5.at'.bus.5, h5.at'.bus.6⟩, h5.at'.pc⟩, h5.data⟩

theorem BusIn.internal {cs ip : Word} {y : Sys} (h : BusIn cs ip y) (n : Nat) : BusIn cs ip (Sys.internal cs n y) :=
  (h.tickN n).of_eq rfl rfl

/-! ## A flush puts the bus unit in order -/

theorem runToT4_calm {b : Bool} {y : Sys} (h : Calm b y) (cs : Word) : Calm b (y.runToT4 cs) := by
  unfold Sys.runToT4
  split
  · exact tickN_calm (tickN_calm h cs 2) cs _
  · exact tickN_calm (h.tick cs) cs _
  · exact tickN_calm h cs _
  · exact tickN_calm h cs _
  · exact h

theorem drain_calm {b : Bool} {y : Sys} (h : Calm b y) (cs : Word) : Calm b (y.drain cs) := by
  have hc := runToT4_calm h cs
  unfold Sys.drain
  dsimp only
  split
  · exact hc.tick cs
  · exact hc

/-- R536: a flush puts the bus unit in order at the new CS:IP, whatever was in the queue. -/
theorem flush_busIn {b : Bool} {y : Sys} (h : Calm b y) (cs ip : Word) (n : Nat) :
    BusIn cs ip (y.flush cs ip n) ∧ Calm false (y.flush cs ip n) := by
  have hc := drain_calm (tickN_calm h cs (n - 1)) cs
  have hp := drain_phase (y.tickN cs (n - 1)) cs
  unfold Sys.flush
  dsimp only
  generalize (y.tickN cs (n - 1)).drain cs = u at hc hp ⊢
  have hna : u.biu.addressed = false := by
    unfold Biu.addressed; rcases hp with h | h | h <;> rw [h]
  have h1 : BusIn cs ip { u with biu := { u.biu with queue := [], fetchSched := .none, suspended := false, pc := ip } } := by
    refine ⟨⟨⟨Nat.zero_le _, fun _ _ => (by simp [Config.queueCap]), fun q hq => (by cases hq), fun ha => ?_,
      fun n hn => (by cases hn), fun hw => ?_⟩, ?_⟩, fun r hr => ?_⟩
    · have ha : u.biu.addressed = true := ha
      rw [hna] at ha; cases ha
    · have hw : u.biu.phase = .tw := hw
      rcases hp with h | h | h <;> (rw [hw] at h; cases h)
    · show ip = ip + BitVec.ofNat 16 (Biu.ahead _)
      rw [Biu.ahead_queue]
      · exact (BitVec.add_zero ip).symm
      · intro e
        have e : u.biu.phase = .t4 := e
        rcases hp with h | h | h <;> (rw [e] at h; cases h)
    · have hr : u.biu.request = some r := hr
      rw [hc.1] at hr; cases hr
  have h2 : Calm false { u with biu := { u.biu with queue := [], fetchSched := .none, suspended := false, pc := ip } } :=
    ⟨hc.1, rfl, hc.3, hc.4⟩
  exact ⟨h1.internal _, internal_calm h2 cs _⟩

end Sys2Proof.Machine
end

