-- ==== Sys2Proof/Laws/Decode.lean ====
section
/-! SUPPORT. The fields of an encoding read back: register numbers, words, the ModRM byte with its operand. -/

namespace Sys2Proof

@[simp] theorem Reg16.ofNum_num (r : Reg16) : Reg16.ofNum r.num = r := by cases r <;> rfl
@[simp] theorem Reg8.ofNum_num (r : Reg8) : Reg8.ofNum r.num = r := by cases r <;> rfl
@[simp] theorem SReg.ofNum_num (r : SReg) : SReg.ofNum r.num = r := by cases r <;> rfl
@[simp] theorem EaBase.ofNum_num (b : EaBase) : EaBase.ofNum b.num = b := by cases b <;> rfl

@[simp] theorem Reg16.num_ofNum (n : BitVec 3) : (Reg16.ofNum n).num = n := by revert n; decide
@[simp] theorem Reg8.num_ofNum (n : BitVec 3) : (Reg8.ofNum n).num = n := by revert n; decide
@[simp] theorem SReg.num_ofNum (n : BitVec 2) : (SReg.ofNum n).num = n := by revert n; decide
@[simp] theorem EaBase.num_ofNum (n : BitVec 3) : (EaBase.ofNum n).num = n := by revert n; decide

theorem EaBase.num_bp {b : EaBase} (h : b.num = 6#3) : b = .bp := by
  revert h; cases b <;> decide

@[simp] theorem wordOf_halves (v : Word) : wordOf (v.extractLsb' 0 8) (v.extractLsb' 8 8) = v := by
  unfold wordOf
  apply BitVec.eq_of_getLsbD_eq
  intro i hi
  rw [BitVec.getLsbD_append]
  split
  · rename_i h; simp [h]
  · rename_i h
    have : i - 8 < 8 := by omega
    simp [this, show 8 + (i - 8) = i by omega]

theorem getLsbD_wordOf (lo hi : Byte) (i : Nat) :
    (wordOf lo hi).getLsbD i = if i < 8 then lo.getLsbD i else hi.getLsbD (i - 8) :=
  (@BitVec.getLsbD_append 8 8 i hi lo).trans (by split <;> rfl)

theorem wordBytes_wordOf (lo hi : Byte) : wordBytes (wordOf lo hi) = [lo, hi] := by
  have h1 : (wordOf lo hi).extractLsb' 0 8 = lo := by
    ext i h; simp [getLsbD_wordOf, h]
  have h2 : (wordOf lo hi).extractLsb' 8 8 = hi := by
    ext i h; simp [getLsbD_wordOf, BitVec.getLsbD_eq_getElem h]
  unfold wordBytes
  rw [h1, h2]

theorem modrmByte_fields (md : BitVec 2) (reg rm : BitVec 3) :
    modField (modrmByte md reg rm) = md ∧ regField (modrmByte md reg rm) = reg ∧ rmField (modrmByte md reg rm) = rm := by
  revert md reg rm; decide

theorem modrmByte_of_fields (b : Byte) : modrmByte (modField b) (regField b) (rmField b) = b := by
  revert b; decide

/-- A memory operand's bytes parse back to it. -/
theorem parseRM_encode {R : Type} (f : BitVec 3 → R) (m : MemOp) (reg : BitVec 3) (rest : List Byte) (h : m.wf = true) :
    ∃ b bs, m.encode reg ++ rest = b :: bs ∧ regField b = reg ∧ parseRM f b bs = some (.mem m, rest) := by
  cases m with
  | direct off =>
    obtain ⟨h1, h2, h3⟩ := modrmByte_fields 0#2 reg 6#3
    exact ⟨_, _, rfl, h2, by simp [parseRM, h1, h3, wordBytes]⟩
  | ind b =>
    obtain ⟨h1, h2, h3⟩ := modrmByte_fields 0#2 reg b.num
    have hb : b.num ≠ 6#3 := by
      intro e; rw [EaBase.num_bp e] at h; exact absurd h (by decide)
    exact ⟨_, _, rfl, h2, by simp [parseRM, h1, h3, hb]⟩
  | ind8 b d =>
    obtain ⟨h1, h2, h3⟩ := modrmByte_fields 1#2 reg b.num
    exact ⟨_, _, rfl, h2, by simp [parseRM, h1, h3]⟩
  | ind16 b d =>
    obtain ⟨h1, h2, h3⟩ := modrmByte_fields 2#2 reg b.num
    exact ⟨_, _, rfl, h2, by simp [parseRM, h1, h3, wordBytes]⟩

/-- An 8-bit r/m operand's bytes parse back to it. -/
theorem takeRM_encode8 (k : BitVec 3 → RM8 → List Byte → DecodeResult) (rm : RM8) (reg : BitVec 3) (rest : List Byte)
    (h : rm.wf = true) : takeRM Reg8.ofNum k (rm.encode8 reg ++ rest) = k reg rm rest := by
  cases rm with
  | reg r =>
    obtain ⟨h1, h2, h3⟩ := modrmByte_fields 3#2 reg r.num
    simp [takeRM, RM.encode8, parseRM, h1, h2, h3]
  | mem m =>
    obtain ⟨b, bs, e, h1, h2⟩ := parseRM_encode Reg8.ofNum m reg rest h
    show takeRM Reg8.ofNum k (m.encode reg ++ rest) = _
    rw [e, takeRM, h2, h1]

/-- A 16-bit r/m operand's bytes parse back to it. -/
theorem takeRM_encode16 (k : BitVec 3 → RM16 → List Byte → DecodeResult) (rm : RM16) (reg : BitVec 3) (rest : List Byte)
    (h : rm.wf = true) : takeRM Reg16.ofNum k (rm.encode16 reg ++ rest) = k reg rm rest := by
  cases rm with
  | reg r =>
    obtain ⟨h1, h2, h3⟩ := modrmByte_fields 3#2 reg r.num
    simp [takeRM, RM.encode16, parseRM, h1, h2, h3]
  | mem m =>
    obtain ⟨b, bs, e, h1, h2⟩ := parseRM_encode Reg16.ofNum m reg rest h
    show takeRM Reg16.ofNum k (m.encode reg ++ rest) = _
    rw [e, takeRM, h2, h1]

theorem takeImm16_wordBytes (k : Word → Instr) (v : Word) (rest : List Byte) :
    takeImm16 k (wordBytes v ++ rest) = .ok (k v) rest := by
  simp [takeImm16, wordBytes]

theorem sregField_fields (sr : SReg) (b : Bool) :
    SReg.ofNum ((sregField sr b).extractLsb' 0 2) = sr ∧ (sregField sr b).getLsbD 2 = b := by
  cases sr <;> cases b <;> decide

/-! ## One lemma for each format -/

theorem decode_np {op : Byte} {i : Instr} (hs : shapeOf op = .np i) (rest : List Byte) : decode ([op] ++ rest) = .ok i rest := by
  show (shapeOf op).decode rest = _
  rw [hs]; rfl

theorem decode_imm8 {op : Byte} {k : Byte → Instr} (hs : shapeOf op = .imm8 k) (x : Byte) (rest : List Byte) :
    decode ([op, x] ++ rest) = .ok (k x) rest := by
  show (shapeOf op).decode (x :: rest) = _
  rw [hs]; rfl

theorem decode_imm16 {op : Byte} {k : Word → Instr} (hs : shapeOf op = .imm16 k) (v : Word) (rest : List Byte) :
    decode ((op :: wordBytes v) ++ rest) = .ok (k v) rest := by
  show (shapeOf op).decode (wordBytes v ++ rest) = _
  rw [hs]; exact takeImm16_wordBytes k v rest

theorem decode_far {op : Byte} {k : Word → Word → Instr} (hs : shapeOf op = .far k) (v w : Word) (rest : List Byte) :
    decode (((op :: wordBytes v) ++ wordBytes w) ++ rest) = .ok (k v w) rest := by
  show (shapeOf op).decode ((wordBytes v ++ wordBytes w) ++ rest) = _
  rw [hs]; simp [Shape.decode, wordBytes]

theorem decode_modrm8 {op : Byte} {k : BitVec 3 → RM8 → Instr} (hs : shapeOf op = .modrm8 k) {rm : RM8} (h : rm.wf = true)
    (reg : BitVec 3) (rest : List Byte) : decode ((op :: rm.encode8 reg) ++ rest) = .ok (k reg rm) rest := by
  show (shapeOf op).decode (rm.encode8 reg ++ rest) = _
  rw [hs, Shape.decode, takeRM_encode8 _ _ _ _ h]

theorem decode_modrm16 {op : Byte} {k : BitVec 3 → RM16 → Instr} (hs : shapeOf op = .modrm16 k) {rm : RM16} (h : rm.wf = true)
    (reg : BitVec 3) (rest : List Byte) : decode ((op :: rm.encode16 reg) ++ rest) = .ok (k reg rm) rest := by
  show (shapeOf op).decode (rm.encode16 reg ++ rest) = _
  rw [hs, Shape.decode, takeRM_encode16 _ _ _ _ h]

theorem decode_modrm8i8 {op : Byte} {k : BitVec 3 → RM8 → Byte → Instr} (hs : shapeOf op = .modrm8i8 k) {rm : RM8}
    (h : rm.wf = true) (reg : BitVec 3) (x : Byte) (rest : List Byte) :
    decode (((op :: rm.encode8 reg) ++ [x]) ++ rest) = .ok (k reg rm x) rest := by
  show (shapeOf op).decode ((rm.encode8 reg ++ [x]) ++ rest) = _
  rw [hs, Shape.decode, List.append_assoc, takeRM_encode8 _ _ _ _ h]; rfl

theorem decode_modrm16i8 {op : Byte} {k : BitVec 3 → RM16 → Byte → Instr} (hs : shapeOf op = .modrm16i8 k) {rm : RM16}
    (h : rm.wf = true) (reg : BitVec 3) (x : Byte) (rest : List Byte) :
    decode (((op :: rm.encode16 reg) ++ [x]) ++ rest) = .ok (k reg rm x) rest := by
  show (shapeOf op).decode ((rm.encode16 reg ++ [x]) ++ rest) = _
  rw [hs, Shape.decode, List.append_assoc, takeRM_encode16 _ _ _ _ h]; rfl

theorem decode_modrm16i16 {op : Byte} {k : BitVec 3 → RM16 → Word → Instr} (hs : shapeOf op = .modrm16i16 k) {rm : RM16}
    (h : rm.wf = true) (reg : BitVec 3) (v : Word) (rest : List Byte) :
    decode (((op :: rm.encode16 reg) ++ wordBytes v) ++ rest) = .ok (k reg rm v) rest := by
  show (shapeOf op).decode ((rm.encode16 reg ++ wordBytes v) ++ rest) = _
  rw [hs, Shape.decode, List.append_assoc, takeRM_encode16 _ _ _ _ h]; exact takeImm16_wordBytes _ _ _

/-- R173: opcode 0xF6 with reg 2 to 7 has no immediate. -/
theorem decode_group3Eb {rm : RM8} (h : rm.wf = true) {reg : BitVec 3} (hr : 2 ≤ reg.toNat) (rest : List Byte) :
    decode ((0xF6#8 :: rm.encode8 reg) ++ rest) = .ok (group3EbOp reg.toNat rm) rest := by
  show (shapeOf 0xF6#8).decode (rm.encode8 reg ++ rest) = _
  rw [show shapeOf 0xF6#8 = .group3Eb from rfl, Shape.decode, takeRM_encode8 _ _ _ _ h]
  generalize reg.toNat = n at hr
  match n, hr with
  | n + 2, _ => rfl

/-- R173: opcode 0xF7 with reg 2 to 7 has no immediate. -/
theorem decode_group3Ew {rm : RM16} (h : rm.wf = true) {reg : BitVec 3} (hr : 2 ≤ reg.toNat) (rest : List Byte) :
    decode ((0xF7#8 :: rm.encode16 reg) ++ rest) = .ok (group3EwOp reg.toNat rm) rest := by
  show (shapeOf 0xF7#8).decode (rm.encode16 reg ++ rest) = _
  rw [show shapeOf 0xF7#8 = .group3Ew from rfl, Shape.decode, takeRM_encode16 _ _ _ _ h]
  generalize reg.toNat = n at hr
  match n, hr with
  | n + 2, _ => rfl

/-- R173: opcode 0xF6 with reg 0 or 1 has an immediate byte. -/
theorem decode_testEb {rm : RM8} (h : rm.wf = true) (x : Byte) (rest : List Byte) :
    decode (((0xF6#8 :: rm.encode8 0#3) ++ [x]) ++ rest) = .ok (.testEbIb rm x) rest ∧
    decode (((0xF6#8 :: rm.encode8 1#3) ++ [x]) ++ rest) = .ok (.testEbIbAlias rm x) rest := by
  have e : ∀ reg, decode (((0xF6#8 :: rm.encode8 reg) ++ [x]) ++ rest) = Shape.decode .group3Eb (rm.encode8 reg ++ ([x] ++ rest)) := by
    intro reg; rw [← List.append_assoc]; rfl
  rw [e, e]
  simp only [Shape.decode, takeRM_encode8 _ _ _ _ h]
  exact ⟨rfl, rfl⟩

/-- R173: opcode 0xF7 with reg 0 or 1 has an immediate word. -/
theorem decode_testEw {rm : RM16} (h : rm.wf = true) (v : Word) (rest : List Byte) :
    decode (((0xF7#8 :: rm.encode16 0#3) ++ wordBytes v) ++ rest) = .ok (.testEwIw rm v) rest ∧
    decode (((0xF7#8 :: rm.encode16 1#3) ++ wordBytes v) ++ rest) = .ok (.testEwIwAlias rm v) rest := by
  have e : ∀ reg, decode (((0xF7#8 :: rm.encode16 reg) ++ wordBytes v) ++ rest) = Shape.decode .group3Ew (rm.encode16 reg ++ (wordBytes v ++ rest)) := by
    intro reg; rw [← List.append_assoc]; rfl
  rw [e, e]
  simp only [Shape.decode, takeRM_encode16 _ _ _ _ h]
  exact ⟨takeImm16_wordBytes _ _ _, takeImm16_wordBytes _ _ _⟩

/-- R177: ESC's opcode bits. -/
theorem shapeOf_esc (op : BitVec 3) : shapeOf (opReg 0xD8#8 op) = .modrm16 fun reg rm => .esc op reg rm := by
  have h : ∀ n : BitVec 3, (opReg 0xD8#8 n).extractLsb' 0 3 = n ∧ (opReg 0xD8#8 n).extractLsb' 3 5 = 27#5 := by decide
  unfold shapeOf
  rw [(h op).1, (h op).2]
  rfl

end Sys2Proof
end

