-- ==== Sys2Proof/Laws/Families.lean ====
section
/-! SUPPORT. One lemma for each shared operation of a family: shifts, TEST, exchanges, far pointers, calls and
returns, conditional jumps, strings. -/

namespace Sys2Proof.Machine

/-! ## Shifts -/

theorem State.shiftSteps_same {s : State} (hq : s.sys.Quiet) (count : Nat) : Same s (s.shiftSteps count) :=
  ⟨⟨rfl, rfl, rfl, rfl, ⟨rfl, rfl, rfl, rfl, rfl, rfl, rfl, rfl⟩⟩, Sys.internal_still hq _ _⟩

theorem shiftEb_spec {s : State} (op : ShiftOp) (rm : RM8) (count : Nat) (hq : s.sys.Quiet) (hw : s.sys.RamWf) :
    ∃ af, let y := op.apply s.flags (s.operand8 rm) count af
      Ran s (shiftEb op rm count s) (s.regsAfter8 y.1 rm) y.2 ∧ Wrote8 s (shiftEb op rm count s) y.1 rm := by
  have h1 := State.readPlace8_same hq (s.place rm)
  have h2 := h1.trans (State.shiftSteps_same (h1.quiet hq) count)
  have hv := (State.readPlace8_spec hq rm).1
  generalize hu : (s.readPlace8 (s.place rm)).2.shiftSteps count = u at h2
  have h3 := h2.trans (State.drawn_if_same u (op.drawsAf && decide (count ≠ 0)))
  refine ⟨bit u.free 2, ?_⟩
  have h4 := State.writePlace8_spec rm (op.apply s.flags (s.operand8 rm) count (bit u.free 2)).1 _
    (h3.withFlags (op.apply s.flags (s.operand8 rm) count (bit u.free 2)).2) h3.still hq hw
  have he : shiftEb op rm count s = State.writePlace8 { (if (op.drawsAf && decide (count ≠ 0)) = true then u.drawn else u) with
      flags := (op.apply s.flags (s.operand8 rm) count (bit u.free 2)).2 } (s.place rm)
      (op.apply s.flags (s.operand8 rm) count (bit u.free 2)).1 := by
    rw [← hv, ← h2.ran.flags, ← hu]; rfl
  rw [he]
  exact h4

theorem shiftEw_spec {s : State} (op : ShiftOp) (rm : RM16) (count : Nat) (hq : s.sys.Quiet) (hw : s.sys.RamWf) :
    ∃ af, let y := op.apply s.flags (s.operand16 rm) count af
      Ran s (shiftEw op rm count s) (s.regsAfter16 y.1 rm) y.2 ∧ Wrote16 s (shiftEw op rm count s) y.1 rm := by
  have h1 := State.readPlace16_same hq (s.place rm)
  have h2 := h1.trans (State.shiftSteps_same (h1.quiet hq) count)
  have hv := (State.readPlace16_spec hq rm).1
  generalize hu : (s.readPlace16 (s.place rm)).2.shiftSteps count = u at h2
  have h3 := h2.trans (State.drawn_if_same u (op.drawsAf && decide (count ≠ 0)))
  refine ⟨bit u.free 2, ?_⟩
  have h4 := State.writePlace16_spec rm (op.apply s.flags (s.operand16 rm) count (bit u.free 2)).1 _
    (h3.withFlags (op.apply s.flags (s.operand16 rm) count (bit u.free 2)).2) h3.still hq hw
  have he : shiftEw op rm count s = State.writePlace16 { (if (op.drawsAf && decide (count ≠ 0)) = true then u.drawn else u) with
      flags := (op.apply s.flags (s.operand16 rm) count (bit u.free 2)).2 } (s.place rm)
      (op.apply s.flags (s.operand16 rm) count (bit u.free 2)).1 := by
    rw [← hv, ← h2.ran.flags, ← hu]; rfl
  rw [he]
  exact h4

/-! ## TEST -/

theorem Same.test8 {s s' : State} (h : Same s s') (hq : s.sys.Quiet) (a b : Byte) :
    ∃ af, Ran s (s'.test8 a b) s.regs (logicN s.flags (a &&& b) af) ∧ Unchanged s.sys (s'.test8 a b).sys := by
  obtain ⟨af, -, h2, h3⟩ := State.alu8_spec .and a b (h.quiet hq)
  refine ⟨af, ⟨h2.regs.trans h.ran.regs, ?_, h2.sregs.trans h.ran.sregs, h2.ip.trans h.ran.ip,
    h.ran.control.trans h2.control⟩, unchanged_of_still (h3.trans h.still)⟩
  have := h2.flags
  rw [h.ran.flags] at this
  exact this

theorem Same.test16 {s s' : State} (h : Same s s') (hq : s.sys.Quiet) (a b : Word) :
    ∃ af, Ran s (s'.test16 a b) s.regs (logicN s.flags (a &&& b) af) ∧ Unchanged s.sys (s'.test16 a b).sys := by
  obtain ⟨af, -, h2, h3⟩ := State.alu16_spec .and a b (h.quiet hq)
  refine ⟨af, ⟨h2.regs.trans h.ran.regs, ?_, h2.sregs.trans h.ran.sregs, h2.ip.trans h.ran.ip,
    h.ran.control.trans h2.control⟩, unchanged_of_still (h3.trans h.still)⟩
  have := h2.flags
  rw [h.ran.flags] at this
  exact this

/-! ## Far pointers -/

theorem State.readFar_spec {s : State} (hq : s.sys.Quiet) (m : MemOp) :
    (s.readFar m).1 = s.wordAt (s.segValueOf m) (s.effAddr m) ∧
    (s.readFar m).2.1 = s.wordAt (s.segValueOf m) (s.effAddr m + 2#16) ∧ Same s (s.readFar m).2.2 := by
  have hx := State.read16_spec hq (some (s.segOf m)) (s.effAddr m)
  have h1 := State.read16_same hq (some (s.segOf m)) (s.effAddr m)
  have hy := State.read16_spec (h1.quiet hq) (some (s.segOf m)) (s.effAddr m + 2#16)
  refine ⟨hx.1, ?_, h1.trans (State.read16_same (h1.quiet hq) _ _)⟩
  refine hy.1.trans ?_
  rw [State.segValue_congr h1.ran.sregs]
  exact State.wordAt_of_still h1.still _ _

/-! ## Calls and returns -/

/-- A word pushed by a state that differs from `s` only by its stack pointer and stores. -/
structure Pushed (s t : State) (sp : Word) (l : List (PhysAddr × Byte)) : Prop where
  ran : Ran s t { s.regs with sp := sp } s.flags
  stores : Stores s.sys t.sys l
  ram : t.sys.RamWf

theorem Same.pushed {s t : State} (h : Same s t) (hw : s.sys.RamWf) : Pushed s t s.regs.sp [] :=
  ⟨h.ran, Stores.of_still h.still, h.ramWf hw⟩

theorem Pushed.push {s t : State} {sp : Word} {l : List (PhysAddr × Byte)} (h : Pushed s t sp l) (hq : s.sys.Quiet) (v : Word) :
    Pushed s (t.push16 v) (sp - 2#16) (l ++ store16 s.sregs.ss (sp - 2#16) v) := by
  have p := State.push16_after h.stores hq h.ram v
  have hc : SameControl t (t.push16 v) := by
    refine ⟨?_, ?_, ?_, ?_, ?_, ?_, ?_, ?_⟩ <;> simp
  refine ⟨⟨?_, ?_, ?_, ?_, h.ran.control.trans hc⟩, ?_, p.2⟩
  · simp [h.ran.regs]
  · simp [h.ran.flags]
  · simp [h.ran.sregs]
  · simp [h.ran.ip]
  · have := p.1
    simp only [h.ran.sregs, h.ran.regs] at this
    exact this

/-- A word popped: where SP pointed, SP then 2 higher. -/
theorem State.pop16_ran (s : State) :
    Ran s s.pop16.2 { s.regs with sp := s.regs.sp + 2#16 } s.flags := by
  refine ⟨by simp, by simp, by simp, by simp, ⟨rfl, rfl, rfl, rfl, rfl, rfl, rfl, rfl⟩⟩

theorem SameControl.addSp {s t : State} (h : SameControl s t) (k : Word) : SameControl s (t.addSp k) :=
  ⟨h.1, h.2, h.3, h.4, h.5, h.6, h.7, h.8⟩

theorem callFarTo_spec {s s' : State} (h : Same s s') (hq : s.sys.Quiet) (hw : s.sys.RamWf) (seg off : Word) :
    Transferred s (callFarTo seg off s') { s.regs with sp := s.regs.sp - 4#16 } s.flags seg off ∧
    Stores s.sys (callFarTo seg off s').sys
      (store16 s.sregs.ss (s.regs.sp - 2#16) s.sregs.cs ++ store16 s.sregs.ss (s.regs.sp - 4#16) s.ip) := by
  have p := ((h.pushed hw).push hq s'.sregs.cs).push hq (s'.push16 s'.sregs.cs).ip
  have e : s.regs.sp - 2#16 - 2#16 = s.regs.sp - 4#16 := by bv_omega
  rw [e, h.ran.sregs, State.push16_ip, h.ran.ip, List.nil_append] at p
  have j := State.callFar_spec p.ran.control p.ran.sregs (p.stores.quiet hq) seg off
  rw [p.ran.regs, p.ran.flags] at j
  have he : callFarTo seg off s' = (((s'.push16 s.sregs.cs).push16 s.ip).callFar seg off) := by
    unfold callFarTo
    simp only [State.push16_ip, h.ran.sregs, h.ran.ip]
  rw [he]
  exact ⟨j.1, p.stores.trans_still j.2⟩

theorem returnNear_spec {s : State} (hq : s.sys.Quiet) (k : Word) :
    Transferred s (returnNear k s) { s.regs with sp := s.regs.sp + 2#16 + k } s.flags s.sregs.cs
      (s.wordAt s.sregs.ss s.regs.sp) ∧ Unchanged s.sys (returnNear k s).sys := by
  have h := State.pop16_spec hq
  have r := State.pop16_ran s
  have j := State.jumpTo_spec (s := s) (t := s.pop16.2.addSp k) (r.control.addSp k) r.sregs
    (Sys.quiet_of_still (z := (s.pop16.2.addSp k).sys) h.2 hq) s.pop16.1
  have hr : (s.pop16.2.addSp k).regs = { s.regs with sp := s.regs.sp + 2#16 + k } := by simp
  rw [hr, State.addSp_flags, State.pop16_flags] at j
  have he : returnNear k s = (s.pop16.2.addSp k).jumpTo s.pop16.1 := rfl
  rw [he]
  refine ⟨?_, unchanged_of_still (j.2.trans h.2)⟩
  rw [← h.1]; exact j.1

theorem returnFar_spec {s : State} (hq : s.sys.Quiet) (k : Word) :
    Transferred s (returnFar k s) { s.regs with sp := s.regs.sp + 4#16 + k } s.flags
      (s.wordAt s.sregs.ss (s.regs.sp + 2#16)) (s.wordAt s.sregs.ss s.regs.sp) ∧ Unchanged s.sys (returnFar k s).sys := by
  have h := State.pop16_spec hq
  have r := State.pop16_ran s
  have q1 := Sys.quiet_of_still h.2 hq
  have h' := State.pop16_spec q1
  have r' := State.pop16_ran s.pop16.2
  have j := State.jumpFar_spec (s := s) (t := s.pop16.2.pop16.2.addSp k) ((r.control.trans r'.control).addSp k)
    (r'.sregs.trans r.sregs) (Sys.quiet_of_still (z := (s.pop16.2.pop16.2.addSp k).sys) (h'.2.trans h.2) hq)
    s.pop16.2.pop16.1 s.pop16.1
  have hr : (s.pop16.2.pop16.2.addSp k).regs = { s.regs with sp := s.regs.sp + 4#16 + k } := by
    simp; bv_omega
  rw [hr, State.addSp_flags, State.pop16_flags, State.pop16_flags] at j
  have he : returnFar k s = (s.pop16.2.pop16.2.addSp k).jumpFar s.pop16.2.pop16.1 s.pop16.1 := rfl
  have hv : s.pop16.2.pop16.1 = s.wordAt s.sregs.ss (s.regs.sp + 2#16) := by
    rw [h'.1, State.wordAt_of_still h.2, r.sregs, r.regs]
  rw [he]
  refine ⟨?_, unchanged_of_still (j.2.trans (h'.2.trans h.2))⟩
  rw [← h.1, ← hv]; exact j.1

/-- R433: what IRET restores. -/
theorem State.returnFromInterrupt_spec {s : State} (hq : s.sys.Quiet) :
    Transferred s s.returnFromInterrupt { s.regs with sp := s.regs.sp + 6#16 }
      (Flags.ofImage (s.wordAt s.sregs.ss (s.regs.sp + 4#16)))
      (s.wordAt s.sregs.ss (s.regs.sp + 2#16)) (s.wordAt s.sregs.ss s.regs.sp) ∧
    Unchanged s.sys s.returnFromInterrupt.sys := by
  have h := State.pop16_spec hq
  have r := State.pop16_ran s
  have q1 := Sys.quiet_of_still h.2 hq
  have h' := State.pop16_spec q1
  have r' := State.pop16_ran s.pop16.2
  have s2 := h'.2.trans h.2
  have q2 := Sys.quiet_of_still s2 hq
  have h'' := State.pop16_spec q2
  have r'' := State.pop16_ran s.pop16.2.pop16.2
  have s3 := h''.2.trans s2
  have hv : s.pop16.2.pop16.1 = s.wordAt s.sregs.ss (s.regs.sp + 2#16) := by
    rw [h'.1, State.wordAt_of_still h.2, r.sregs, r.regs]
  have e4 : s.regs.sp + 2#16 + 2#16 = s.regs.sp + 4#16 := by bv_omega
  have e6 : s.regs.sp + 4#16 + 2#16 = s.regs.sp + 6#16 := by bv_omega
  have hv' : s.pop16.2.pop16.2.pop16.1 = s.wordAt s.sregs.ss (s.regs.sp + 4#16) := by
    rw [h''.1, State.wordAt_of_still s2, r'.sregs, r.sregs, r'.regs]
    simp only [State.pop16_regs, e4]
  generalize hz : s.pop16.2.pop16.2.pop16.2 = z at s3 r''
  have hc : SameControl s z := (r.control.trans r'.control).trans r''.control
  have j := State.jumpFar_spec (s := s) (t := { z with flags := Flags.ofImage s.pop16.2.pop16.2.pop16.1 })
    ⟨hc.1, hc.2, hc.3, hc.4, hc.5, hc.6, hc.7, hc.8⟩ (r''.sregs.trans (r'.sregs.trans r.sregs))
    (Sys.quiet_of_still (z := z.sys) s3 hq) s.pop16.2.pop16.1 s.pop16.1
  have he : s.returnFromInterrupt = State.jumpFar { z with flags := Flags.ofImage s.pop16.2.pop16.2.pop16.1 }
      s.pop16.2.pop16.1 s.pop16.1 := by rw [← hz]; rfl
  have hg : z.regs = { s.regs with sp := s.regs.sp + 6#16 } := by
    rw [r''.regs]
    simp only [State.pop16_regs, e4, e6]
  rw [he]
  refine ⟨?_, unchanged_of_still (j.2.trans s3)⟩
  rw [← hv', ← hv, ← h.1, ← hg]
  exact j.1

/-! ## Conditional transfers -/

theorem jumpIf_spec {s : State} (hq : s.sys.Quiet) (c : Bool) (rel : Byte) :
    (c = true → Transferred s (jumpIf c rel s) s.regs s.flags s.sregs.cs (s.ip + sext16 rel) ∧
      Unchanged s.sys (jumpIf c rel s).sys) ∧ (c = false → jumpIf c rel s = s) := by
  cases c
  · exact ⟨nofun, fun _ => rfl⟩
  · have j := State.jumpBy_spec (SameControl.rfl' s) rfl hq (sext16 rel)
    exact ⟨fun _ => ⟨j.1, unchanged_of_still j.2⟩, nofun⟩

end Sys2Proof.Machine
end

