-- ==== Sys2Proof/Laws/Effects.lean ====
section
/-! SUPPORT. What the shared parts of the meanings leave behind, in the terms of the statements: a register
written, an operand read, the operand of MUL and DIV, a divide error, a segment register loaded, one element of a
string instruction. -/

namespace Sys2Proof.Machine

theorem State.Steady.ramWf {s : State} (h : s.Steady) : s.sys.RamWf := Sys.ramWf_of_memWf h.memory

/-! ## Operands read -/

theorem State.readRM8_spec {s : State} (hq : s.sys.Quiet) (rm : RM8) :
    (s.readRM8 rm).1 = s.operand8 rm ∧ Same s (s.readRM8 rm).2 :=
  ⟨(State.readPlace8_spec hq rm).1, State.readPlace8_same hq _⟩

theorem State.readRM16_spec {s : State} (hq : s.sys.Quiet) (rm : RM16) :
    (s.readRM16 rm).1 = s.operand16 rm ∧ Same s (s.readRM16 rm).2 :=
  ⟨(State.readPlace16_spec hq rm).1, State.readPlace16_same hq _⟩

theorem Same.aluStep {s t : State} (h : Same s t) (hq : s.sys.Quiet) (a b : Word) : Same s (t.aluStep a b) :=
  h.trans (State.aluStep_same (h.quiet hq) a b)

/-- MUL and DIV without a repeat prefix run. -/
theorem unlessRepeated_none {s : State} (h : s.eu.pfx.rep = .none) (k : State → State) :
    unlessRepeated s k = .next (k s) := by
  unfold unlessRepeated; rw [h]

theorem withEb_same {s : State} (hq : s.sys.Quiet) (k : Byte → State → State) (rm : RM8) :
    ∃ t, Same s t ∧ withEb k rm s = k (s.operand8 rm) t := by
  obtain ⟨hv, hs⟩ := State.readRM8_spec hq rm
  exact ⟨_, hs, by rw [← hv]; rfl⟩

theorem withEw_same {s : State} (hq : s.sys.Quiet) (k : Word → State → State) (rm : RM16) :
    ∃ t, Same s t ∧ withEw k rm s = k (s.operand16 rm) t := by
  obtain ⟨hv, hs⟩ := State.readRM16_spec hq rm
  exact ⟨_, hs, by rw [← hv]; rfl⟩

/-! ## Registers written -/

theorem Same.kept {s t : State} (h : Same s t) : Kept s t s.flags := ⟨h.ran, h.unchanged⟩

theorem Same.put8Flags {s t : State} (h : Same s t) (r : Reg8) (v : Byte) (f : Flags) :
    Put8 s { t.setReg8 r v with flags := f } (.reg r) v f :=
  ⟨⟨State.setReg8_congr h.ran.regs r v, rfl, h.ran.sregs, h.ran.ip, ⟨h.ran.control.1, h.ran.control.2,
    h.ran.control.3, h.ran.control.4, h.ran.control.5, h.ran.control.6, h.ran.control.7, h.ran.control.8⟩⟩, h.unchanged⟩

theorem Same.put16Flags {s t : State} (h : Same s t) (r : Reg16) (v : Word) (f : Flags) :
    Put16 s { t.setReg16 r v with flags := f } (.reg r) v f :=
  ⟨⟨congrArg (fun g : Regs => g.set16 r v) h.ran.regs, rfl, h.ran.sregs, h.ran.ip, ⟨h.ran.control.1,
    h.ran.control.2, h.ran.control.3, h.ran.control.4, h.ran.control.5, h.ran.control.6, h.ran.control.7, h.ran.control.8⟩⟩, h.unchanged⟩

theorem Same.put8 {s t : State} (h : Same s t) (r : Reg8) (v : Byte) : Put8 s (t.setReg8 r v) (.reg r) v s.flags := by
  have := h.put8Flags r v s.flags
  rw [← h.ran.flags] at this ⊢; exact this

theorem Same.put16 {s t : State} (h : Same s t) (r : Reg16) (v : Word) : Put16 s (t.setReg16 r v) (.reg r) v s.flags := by
  have := h.put16Flags r v s.flags
  rw [← h.ran.flags] at this ⊢; exact this

theorem Ran.drawn {s t : State} {g : Regs} {f : Flags} (h : Ran s t g f) : Ran s t.drawn g f :=
  ⟨h.1, h.2, h.3, h.4, ⟨h.5.1, h.5.2, h.5.3, h.5.4, h.5.5, h.5.6, h.5.7, h.5.8⟩⟩

theorem Unchanged.drawn {y : Sys} {t : State} (h : Unchanged y t.sys) : Unchanged y t.drawn.sys :=
  unchanged_of_still (t.drawn_still.trans h.rest)

theorem Put8.drawn {s t : State} {r : Reg8} {v : Byte} {f : Flags} (h : Put8 s t (.reg r) v f) : Put8 s t.drawn (.reg r) v f :=
  ⟨h.1.drawn, Unchanged.drawn h.2⟩

theorem Put16.drawn {s t : State} {r : Reg16} {v : Word} {f : Flags} (h : Put16 s t (.reg r) v f) :
    Put16 s t.drawn (.reg r) v f :=
  ⟨h.1.drawn, Unchanged.drawn h.2⟩

/-- AX and DX written, flags given and a free value taken, in the order MUL writes them. -/
theorem Same.setDxAx {s t : State} (h : Same s t) (a d : Word) (f : Flags) :
    Ran s (State.drawn { (t.setReg16 .dx d).setReg16 .ax a with flags := f }) { s.regs with ax := a, dx := d } f ∧
    Unchanged s.sys (State.drawn { (t.setReg16 .dx d).setReg16 .ax a with flags := f }).sys :=
  ⟨Ran.drawn ⟨congrArg (fun g : Regs => { g with ax := a, dx := d }) h.ran.regs, rfl, h.ran.sregs, h.ran.ip,
    ⟨h.ran.control.1, h.ran.control.2, h.ran.control.3, h.ran.control.4, h.ran.control.5, h.ran.control.6,
     h.ran.control.7, h.ran.control.8⟩⟩, unchanged_of_still h.still⟩

/-! ## Free flags, divide errors -/

/-- The six status flags given any value: the control flags stay. -/
theorem Flags.freeStatus_control (f : Flags) (v : Word) : SameControlFlags f (f.freeStatus v) := ⟨rfl, rfl, rfl⟩

theorem Same.freeStatus {s t : State} (h : Same s t) :
    Ran s t.freeStatus s.regs (s.flags.freeStatus t.free) ∧ t.freeStatus.sys.still = s.sys.still := by
  have := (h.withFlags (s.flags.freeStatus t.free)).drawn
  rw [← h.ran.flags] at this ⊢
  exact ⟨this, h.still⟩

/-- The offset of vector `n` (R770). -/
theorem vector_offset (n : Byte) : zext16 n <<< 2 = BitVec.ofNat 16 (4 * n.toNat) := by
  apply BitVec.eq_of_toNat_eq
  have := n.isLt
  simp only [zext16, BitVec.toNat_shiftLeft, BitVec.toNat_setWidth, Nat.shiftLeft_eq, BitVec.toNat_ofNat]
  omega

/-- An interrupt taken in a state that differs from `s` by the clock and the flags. -/
theorem Ran.interrupt {s u : State} {f : Flags} (hr : Ran s u s.regs f) (hs : u.sys.still = s.sys.still)
    (hq : s.sys.Quiet) (hw : s.sys.RamWf) (n : Byte) (ip : Word) : Entered s (u.interrupt n ip) n f ip := by
  obtain ⟨ht, hst⟩ := State.interrupt_spec (Sys.quiet_of_still hs hq) (Sys.ramWf_of_still hs hw) n ip
  have e2 : zext16 n <<< 2 + 2#16 = BitVec.ofNat 16 (4 * n.toNat + 2) := by
    rw [vector_offset, BitVec.ofNat_add]
  rw [e2, vector_offset, State.wordAt_of_still hs, State.wordAt_of_still hs, hr.regs, hr.flags] at ht
  rw [hr.regs, hr.flags, hr.sregs] at hst
  refine ⟨⟨ht.regs, ht.flags, ?_, ht.ip, ht.queue, ht.pc, ht.resumed, hr.control.trans ht.control⟩,
    Stores.still_trans hs hst⟩
  rw [ht.sregs, hr.sregs]

theorem Same.divideError {s t : State} (h : Same s t) (hq : s.sys.Quiet) (hw : s.sys.RamWf) :
    ∃ f, SameControlFlags s.flags f ∧ Entered s t.divideError 0#8 f s.ip := by
  obtain ⟨hr, hs⟩ := h.freeStatus
  have := hr.interrupt hs hq hw 0#8 s.ip
  have e : t.divideError = t.freeStatus.interrupt 0#8 s.ip := by rw [← hr.ip]; rfl
  rw [← e] at this
  exact ⟨_, Flags.freeStatus_control _ _, this⟩

/-! ## Segment registers loaded -/

theorem State.loadSreg_spec {s t : State} {g : Regs} (hr : Ran s t g s.flags) (hs : t.sys.still = s.sys.still)
    (hq : s.sys.Quiet) (r : SReg) (v : Word) :
    SegLoaded s (t.loadSreg r v) g r v ∧ Unchanged s.sys (t.loadSreg r v).sys := by
  have hc := hr.control
  cases r
  case cs =>
    have h1 := State.susp_still (Sys.quiet_of_still hs hq)
    have fr := flush_front t.susp.sys v t.ip (t.susp.euCost .flush)
    refine ⟨⟨⟨hr.regs, hr.flags, ?_, hr.ip, ⟨hc.1, rfl, hc.3, hc.4, hc.5, hc.6, hc.7, hc.8⟩⟩,
      fun _ => ⟨congrArg Prod.fst fr, (congrArg (fun x => x.2.1) fr).trans hr.ip, congrArg (fun x => x.2.2) fr⟩⟩, ?_⟩
    · exact congrArg (fun x : SRegs => { x with cs := v }) hr.sregs
    · have h2 := State.flush_still (s := { t.susp.setSreg .cs v with intInhibit := true })
        (Sys.quiet_of_still (h1.trans hs) hq)
      exact unchanged_of_still (h2.trans (h1.trans hs))
  all_goals refine ⟨⟨⟨hr.regs, hr.flags, ?_, hr.ip, ⟨hc.1, rfl, hc.3, hc.4, hc.5, hc.6, hc.7, hc.8⟩⟩, nofun⟩, unchanged_of_still hs⟩
  · exact congrArg (fun x : SRegs => { x with es := v }) hr.sregs
  · exact congrArg (fun x : SRegs => { x with ss := v }) hr.sregs
  · exact congrArg (fun x : SRegs => { x with ds := v }) hr.sregs

/-- LDS and LES. -/
theorem loadFar_spec {s : State} (hq : s.sys.Quiet) (sr : SReg) (r : Reg16) (m : MemOp) :
    Ran (s.setSreg sr (s.wordAt (s.segValueOf m) (s.effAddr m + 2#16))) (loadFar sr r m s)
      (s.regs.set16 r (s.wordAt (s.segValueOf m) (s.effAddr m))) s.flags ∧
    Unchanged s.sys (loadFar sr r m s).sys := by
  obtain ⟨h1, h2, h3⟩ := State.readFar_spec hq m
  rw [← h1, ← h2]
  dsimp only [loadFar]
  generalize (s.readFar m).1 = a
  generalize (s.readFar m).2.1 = b
  generalize (s.readFar m).2.2 = t at h3
  have hr := h3.ran
  refine ⟨⟨?_, ?_, ?_, ?_, ?_, ?_, ?_, ?_, ?_, ?_, ?_, ?_⟩, ?_⟩
  · simp; exact congrArg (fun g : Regs => g.set16 r _) hr.regs
  · simp [hr.flags]
  · cases sr <;> simp [State.setSreg, hr.sregs, State.setReg16]
  · simp [hr.ip]
  · simp [hr.control.1]
  · simp [hr.control.2]
  · simp [hr.control.3]
  · simp [hr.control.4]
  · simp [hr.control.5]
  · simp [hr.control.6]
  · simp [hr.control.7]
  · simp [hr.control.8]
  · simp; exact h3.unchanged

/-! ## Strings -/

theorem Ran.stepSi {s t : State} {g : Regs} {f : Flags} (h : Ran s t g f) (n : Word) :
    Ran s (t.stepSi n) { g with si := g.si + t.delta n } f :=
  ⟨by rw [← h.regs]; rfl, h.2, h.3, h.4, ⟨h.5.1, h.5.2, h.5.3, h.5.4, h.5.5, h.5.6, h.5.7, h.5.8⟩⟩

theorem Ran.stepDi {s t : State} {g : Regs} {f : Flags} (h : Ran s t g f) (n : Word) :
    Ran s (t.stepDi n) { g with di := g.di + t.delta n } f :=
  ⟨by rw [← h.regs]; rfl, h.2, h.3, h.4, ⟨h.5.1, h.5.2, h.5.3, h.5.4, h.5.5, h.5.6, h.5.7, h.5.8⟩⟩

theorem Ran.delta {s t : State} {g : Regs} {f : Flags} (h : Ran s t g f) (hf : f.df = s.flags.df) (n : Word) :
    t.delta n = s.delta n := by
  unfold State.delta; rw [h.flags, hf]

/-- A byte stored at ES:DI by a state that differs from `s` by the clock. -/
theorem Same.storeEs8 {s t : State} (h : Same s t) (hq : s.sys.Quiet) (hw : s.sys.RamWf) (v : Byte) :
    Ran s (t.write8 (some .es) t.regs.di v) s.regs s.flags ∧
    Stores s.sys (t.write8 (some .es) t.regs.di v).sys (store8 s.sregs.es s.regs.di v) := by
  have hs := (State.write8_spec (h.quiet hq) (h.ramWf hw) (some .es) t.regs.di v).1
  rw [State.segValue_congr h.ran.sregs, h.ran.regs] at hs
  refine ⟨⟨h.ran.regs, h.ran.flags, h.ran.sregs, h.ran.ip, ?_⟩, ?_⟩
  · exact h.ran.control.trans ⟨rfl, rfl, rfl, rfl, rfl, rfl, rfl, rfl⟩
  · rw [h.ran.regs]; exact Stores.still_trans h.still hs

/-- A word stored at ES:DI. -/
theorem Same.storeEs16 {s t : State} (h : Same s t) (hq : s.sys.Quiet) (hw : s.sys.RamWf) (v : Word) :
    Ran s (t.write16 (some .es) t.regs.di v) s.regs s.flags ∧
    Stores s.sys (t.write16 (some .es) t.regs.di v).sys (store16 s.sregs.es s.regs.di v) := by
  have hs := (State.write16_spec (h.quiet hq) (h.ramWf hw) (some .es) t.regs.di v).1
  rw [State.segValue_congr h.ran.sregs, h.ran.regs] at hs
  refine ⟨⟨?_, ?_, ?_, ?_, ?_⟩, ?_⟩
  · simp [h.ran.regs]
  · simp [h.ran.flags]
  · simp [h.ran.sregs]
  · simp [h.ran.ip]
  · refine h.ran.control.trans ⟨?_, ?_, ?_, ?_, ?_, ?_, ?_, ?_⟩ <;> simp
  · rw [h.ran.regs]; exact Stores.still_trans h.still hs

/-- The byte read at a segment and an offset of `s`. -/
theorem Same.read8 {s t : State} (h : Same s t) (hq : s.sys.Quiet) (g : Option SReg) (off : Word) :
    (t.read8 g off).1 = s.byteAt (s.segValue g) off ∧ Same s (t.read8 g off).2 := by
  refine ⟨?_, h.trans (State.read8_same (h.quiet hq) g off)⟩
  rw [(State.read8_spec (h.quiet hq) g off).1, State.segValue_congr h.ran.sregs, State.byteAt_of_still h.still]

/-- The word read at a segment and an offset of `s`. -/
theorem Same.read16 {s t : State} (h : Same s t) (hq : s.sys.Quiet) (g : Option SReg) (off : Word) :
    (t.read16 g off).1 = s.wordAt (s.segValue g) off ∧ Same s (t.read16 g off).2 := by
  refine ⟨?_, h.trans (State.read16_same (h.quiet hq) g off)⟩
  rw [(State.read16_spec (h.quiet hq) g off).1, State.segValue_congr h.ran.sregs, State.wordAt_of_still h.still]

/-- The flags of a comparison, as an ALU step leaves them. -/
theorem Same.compare8 {s t : State} (h : Same s t) (hq : s.sys.Quiet) (a b : Byte) :
    Ran s (t.compare8 a b) s.regs (subN s.flags a b false).2 ∧ Unchanged s.sys (t.compare8 a b).sys := by
  have h2 := h.aluStep hq (zext16 a) (zext16 b)
  have e : t.compare8 a b = { t.aluStep (zext16 a) (zext16 b) with flags := (subN s.flags a b false).2 } := by
    rw [← h.ran.flags]; rfl
  rw [e]
  exact ⟨h2.withFlags _, h2.unchanged⟩

theorem Same.compare16 {s t : State} (h : Same s t) (hq : s.sys.Quiet) (a b : Word) :
    Ran s (t.compare16 a b) s.regs (subN s.flags a b false).2 ∧ Unchanged s.sys (t.compare16 a b).sys := by
  have h2 := h.aluStep hq a b
  have e : t.compare16 a b = { t.aluStep a b with flags := (subN s.flags a b false).2 } := by
    rw [← h.ran.flags]; rfl
  rw [e]
  exact ⟨h2.withFlags _, h2.unchanged⟩

/-- R371: MOVSB, one element. -/
theorem movsb_spec {s : State} (hq : s.sys.Quiet) (hw : s.sys.RamWf) :
    Ran s (movsb s) { s.regs with si := s.regs.si + s.delta 1#16, di := s.regs.di + s.delta 1#16 } s.flags ∧
    Stores s.sys (movsb s).sys (store8 s.sregs.es s.regs.di (s.byteAt s.dataSeg s.regs.si)) := by
  obtain ⟨hv, h1⟩ := (Same.rfl' s).read8 hq s.sourceSeg s.regs.si
  obtain ⟨h2, h3⟩ := h1.storeEs8 hq hw (s.byteAt s.dataSeg s.regs.si)
  have h4 := (h2.stepSi 1#16).stepDi 1#16
  rw [(h2.stepSi 1#16).delta rfl, h2.delta rfl] at h4
  unfold movsb
  dsimp only
  rw [hv]
  exact ⟨h4, h3⟩

/-- R371: MOVSW, one element. -/
theorem movsw_spec {s : State} (hq : s.sys.Quiet) (hw : s.sys.RamWf) :
    Ran s (movsw s) { s.regs with si := s.regs.si + s.delta 2#16, di := s.regs.di + s.delta 2#16 } s.flags ∧
    Stores s.sys (movsw s).sys (store16 s.sregs.es s.regs.di (s.wordAt s.dataSeg s.regs.si)) := by
  obtain ⟨hv, h1⟩ := (Same.rfl' s).read16 hq s.sourceSeg s.regs.si
  obtain ⟨h2, h3⟩ := h1.storeEs16 hq hw (s.wordAt s.dataSeg s.regs.si)
  have h4 := (h2.stepSi 2#16).stepDi 2#16
  rw [(h2.stepSi 2#16).delta rfl, h2.delta rfl] at h4
  unfold movsw
  dsimp only
  rw [hv]
  exact ⟨h4, h3⟩

/-- R372: CMPSB, one element. -/
theorem cmpsb_spec {s : State} (hq : s.sys.Quiet) :
    Ran s (cmpsb s) { s.regs with si := s.regs.si + s.delta 1#16, di := s.regs.di + s.delta 1#16 }
      (subN s.flags (s.byteAt s.dataSeg s.regs.si) (s.byteAt s.sregs.es s.regs.di) false).2 ∧
    Unchanged s.sys (cmpsb s).sys := by
  obtain ⟨hv, h1⟩ := (Same.rfl' s).read8 hq s.sourceSeg s.regs.si
  obtain ⟨hv', h2⟩ := h1.read8 hq (some .es) s.regs.di
  obtain ⟨h3, h4⟩ := h2.compare8 hq (s.byteAt s.dataSeg s.regs.si) (s.byteAt s.sregs.es s.regs.di)
  have h5 := (h3.stepSi 1#16).stepDi 1#16
  rw [(h3.stepSi 1#16).delta rfl,
    h3.delta rfl] at h5
  unfold cmpsb
  dsimp only
  rw [hv, h1.ran.regs, hv']
  exact ⟨h5, h4⟩

/-- R372: CMPSW, one element. -/
theorem cmpsw_spec {s : State} (hq : s.sys.Quiet) :
    Ran s (cmpsw s) { s.regs with si := s.regs.si + s.delta 2#16, di := s.regs.di + s.delta 2#16 }
      (subN s.flags (s.wordAt s.dataSeg s.regs.si) (s.wordAt s.sregs.es s.regs.di) false).2 ∧
    Unchanged s.sys (cmpsw s).sys := by
  obtain ⟨hv, h1⟩ := (Same.rfl' s).read16 hq s.sourceSeg s.regs.si
  obtain ⟨hv', h2⟩ := h1.read16 hq (some .es) s.regs.di
  obtain ⟨h3, h4⟩ := h2.compare16 hq (s.wordAt s.dataSeg s.regs.si) (s.wordAt s.sregs.es s.regs.di)
  have h5 := (h3.stepSi 2#16).stepDi 2#16
  rw [(h3.stepSi 2#16).delta rfl,
    h3.delta rfl] at h5
  unfold cmpsw
  dsimp only
  rw [hv, h1.ran.regs, hv']
  exact ⟨h5, h4⟩

/-- R373: SCASB, one element. -/
theorem scasb_spec {s : State} (hq : s.sys.Quiet) :
    Ran s (scasb s) { s.regs with di := s.regs.di + s.delta 1#16 }
      (subN s.flags (s.reg8 .al) (s.byteAt s.sregs.es s.regs.di) false).2 ∧ Unchanged s.sys (scasb s).sys := by
  obtain ⟨hv, h1⟩ := (Same.rfl' s).read8 hq (some .es) s.regs.di
  obtain ⟨h3, h4⟩ := h1.compare8 hq (s.reg8 .al) (s.byteAt s.sregs.es s.regs.di)
  have h5 := h3.stepDi 1#16
  rw [h3.delta rfl] at h5
  unfold scasb
  dsimp only
  rw [hv, h1.reg8]
  exact ⟨h5, h4⟩

/-- R373: SCASW, one element. -/
theorem scasw_spec {s : State} (hq : s.sys.Quiet) :
    Ran s (scasw s) { s.regs with di := s.regs.di + s.delta 2#16 }
      (subN s.flags s.regs.ax (s.wordAt s.sregs.es s.regs.di) false).2 ∧ Unchanged s.sys (scasw s).sys := by
  obtain ⟨hv, h1⟩ := (Same.rfl' s).read16 hq (some .es) s.regs.di
  obtain ⟨h3, h4⟩ := h1.compare16 hq s.regs.ax (s.wordAt s.sregs.es s.regs.di)
  have h5 := h3.stepDi 2#16
  rw [h3.delta rfl] at h5
  unfold scasw
  dsimp only
  rw [hv, h1.ran.regs]
  exact ⟨h5, h4⟩

/-- R374: LODSB, one element. -/
theorem lodsb_spec {s : State} (hq : s.sys.Quiet) :
    Ran s (lodsb s) { s.regs with ax := setLo s.regs.ax (s.byteAt s.dataSeg s.regs.si),
                                  si := s.regs.si + s.delta 1#16 } s.flags ∧ Unchanged s.sys (lodsb s).sys := by
  obtain ⟨hv, h1⟩ := (Same.rfl' s).read8 hq s.sourceSeg s.regs.si
  obtain ⟨h2, h3⟩ := h1.put8 .al (s.byteAt s.dataSeg s.regs.si)
  have h5 := h2.stepSi 1#16
  rw [h2.delta rfl] at h5
  unfold lodsb
  dsimp only
  rw [hv]
  exact ⟨h5, h3⟩

/-- R374: LODSW, one element. -/
theorem lodsw_spec {s : State} (hq : s.sys.Quiet) :
    Ran s (lodsw s) { s.regs with ax := s.wordAt s.dataSeg s.regs.si, si := s.regs.si + s.delta 2#16 } s.flags ∧
    Unchanged s.sys (lodsw s).sys := by
  obtain ⟨hv, h1⟩ := (Same.rfl' s).read16 hq s.sourceSeg s.regs.si
  obtain ⟨h2, h3⟩ := h1.put16 .ax (s.wordAt s.dataSeg s.regs.si)
  have h5 := h2.stepSi 2#16
  rw [h2.delta rfl] at h5
  unfold lodsw
  dsimp only
  rw [hv]
  exact ⟨h5, h3⟩

/-- R375: STOSB, one element. -/
theorem stosb_spec {s : State} (hq : s.sys.Quiet) (hw : s.sys.RamWf) :
    Ran s (stosb s) { s.regs with di := s.regs.di + s.delta 1#16 } s.flags ∧
    Stores s.sys (stosb s).sys (store8 s.sregs.es s.regs.di (s.reg8 .al)) := by
  obtain ⟨h2, h3⟩ := (Same.rfl' s).storeEs8 hq hw (s.reg8 .al)
  exact ⟨h2.stepDi 1#16, h3⟩

/-- R375: STOSW, one element. -/
theorem stosw_spec {s : State} (hq : s.sys.Quiet) (hw : s.sys.RamWf) :
    Ran s (stosw s) { s.regs with di := s.regs.di + s.delta 2#16 } s.flags ∧
    Stores s.sys (stosw s).sys (store16 s.sregs.es s.regs.di s.regs.ax) := by
  obtain ⟨h2, h3⟩ := (Same.rfl' s).storeEs16 hq hw s.regs.ax
  have h4 := h2.stepDi 2#16
  rw [h2.delta rfl] at h4
  exact ⟨h4, h3⟩

/-! ## Repetition -/

/-- R384: without a repeat prefix, one element. -/
theorem stringStep_once {s : State} (h : s.eu.pfx.rep = .none) (compares : Bool) (k : State → State) :
    stringStep compares k s = (k s).setRep false := by
  unfold stringStep; rw [h]

/-- R380: a repeated operation with CX = 0 does nothing. -/
theorem stringStep_done {s : State} (h : s.eu.pfx.rep ≠ .none) (hc : s.regs.cx = 0#16) (compares : Bool) (k : State → State) :
    stringStep compares k s = s.setRep false := by
  unfold stringStep
  split
  · rename_i e; exact absurd e h
  · rw [if_pos hc]

/-- R380: a repeated operation with CX not 0: one element, CX one less, and whether it goes on. -/
theorem stringStep_more {s : State} (h : s.eu.pfx.rep ≠ .none) (hc : s.regs.cx ≠ 0#16) (compares : Bool) (k : State → State) :
    stringStep compares k s =
      (let t := (k s).setReg16 .cx ((k s).regs.cx - 1#16)
       t.setRep (!(compares && Rep.stopsOn s.eu.pfx.rep t.flags.zf) && decide (t.regs.cx ≠ 0#16))) := by
  unfold stringStep
  split
  · rename_i e; exact absurd e h
  · rw [if_neg hc]

end Sys2Proof.Machine
end

