-- ==== Sys2Proof/Laws/Invariant.lean ====
section
/-! SUPPORT. Every operation and every meaning keeps the invariant of a run. -/

namespace Sys2Proof.Machine

/-- The invariant as the laws use it. -/
structure Full (s : State) : Prop where
  memory : s.sys.memWf = true
  bus : BusIn s.sregs.cs s.ip s.sys
  calm : Calm false s.sys

theorem full_iff_inv (s : State) : Full s ↔ s.Inv := by
  constructor
  · intro h; exact ⟨h.memory, h.bus.at'.bus, h.bus.at'.pc, h.calm.settled⟩
  · intro h
    refine ⟨h.memory, ⟨⟨h.bus, h.pc⟩, fun r hr => ?_⟩, h.settled.calm h.bus⟩
    rw [h.settled.request] at hr; cases hr

/-- What holds inside a transfer of control, until its flush. -/
structure Half (s : State) : Prop where
  memory : s.sys.memWf = true
  calm : ∃ b, Calm b s.sys

theorem Full.half {s : State} (h : Full s) : Half s := ⟨h.memory, false, h.calm⟩

/-! ## Changes of the registers alone -/

theorem Full.of_eq {s t : State} (h : Full s) (hs : t.sys = s.sys) (hc : t.sregs.cs = s.sregs.cs) (hi : t.ip = s.ip) : Full t :=
  ⟨by rw [hs]; exact h.1, by rw [hs, hc, hi]; exact h.2, by rw [hs]; exact h.3⟩

theorem Half.of_eq {s t : State} (h : Half s) (hs : t.sys = s.sys) : Half t :=
  ⟨by rw [hs]; exact h.1, by rw [hs]; exact h.2⟩

theorem Full.setReg16 {s : State} (h : Full s) (r : Reg16) (v : Word) : Full (s.setReg16 r v) := h.of_eq rfl rfl rfl
theorem Full.setReg8 {s : State} (h : Full s) (r : Reg8) (v : Byte) : Full (s.setReg8 r v) := h.of_eq rfl rfl rfl
theorem Full.withFlags {s : State} (h : Full s) (f : Flags) : Full { s with flags := f } := h.of_eq rfl rfl rfl
theorem Full.withEu {s : State} (h : Full s) (u : Eu) : Full { s with eu := u } := h.of_eq rfl rfl rfl
theorem Full.setSreg {s : State} (h : Full s) {r : SReg} (hr : r ≠ .cs) (v : Word) : Full (s.setSreg r v) := by
  cases r <;> first | exact absurd rfl hr | exact h.of_eq rfl rfl rfl

/-- A system that differs by counters alone. -/
theorem Full.of_sys {s t : State} (h : Full s) (hb : t.sys.biu = s.sys.biu) (ht : t.sys.ticks = s.sys.ticks)
    (hm : t.sys.memWf = true) (hc : t.sregs.cs = s.sregs.cs) (hi : t.ip = s.ip) : Full t :=
  ⟨hm, by rw [hc, hi]; exact h.bus.of_eq hb ht, ⟨by rw [hb]; exact h.calm.1, by rw [hb]; exact h.calm.2,
    by rw [hb]; exact h.calm.3, by rw [hb]; exact h.calm.4⟩⟩

theorem Full.drawn {s : State} (h : Full s) : Full s.drawn := h.of_sys rfl rfl h.memory rfl rfl

theorem Full.drawn_if {s : State} (h : Full s) (c : Bool) : Full (if c then s.drawn else s) := by
  cases c
  · exact h
  · exact h.drawn

/-! ## Time and accesses -/

theorem Full.spend {s : State} (h : Full s) (n : Nat) : Full (s.spend n) :=
  ⟨memWf_internal h.1 _ _, h.2.internal _, internal_calm h.3 _ _⟩

theorem Full.internal {s : State} (h : Full s) : Full s.internal := h.spend _

theorem Full.aluStep {s : State} (h : Full s) (a b : Word) : Full (s.aluStep a b) :=
  Full.internal (s := { s with eu := { s.eu with tmpa := a, tmpb := b } }) (h.of_eq rfl rfl rfl)

theorem Full.readVia {s : State} (h : Full s) {r : Request} (hr : r.isData) : Full (s.readVia r).2 :=
  ⟨memWf_access1 h.1 _ r, h.2.access1 hr, access1_calm h.3 _ r⟩

theorem Full.readVia2 {s : State} (h : Full s) {r₁ r₂ : Request} (h₁ : r₁.isData) (h₂ : r₂.isData) : Full (s.readVia2 r₁ r₂).2 :=
  ⟨memWf_access2 h.1 _ r₁ r₂, h.2.access2 h₁ h₂, access2_calm h.3 _ r₁ r₂⟩

theorem Full.writeVia {s : State} (h : Full s) {r : Request} (hr : r.isData) : Full (s.writeVia r) :=
  ⟨memWf_access1 h.1 _ r, h.2.access1 hr, access1_calm h.3 _ r⟩

theorem Full.writeVia2 {s : State} (h : Full s) {r₁ r₂ : Request} (h₁ : r₁.isData) (h₂ : r₂.isData) : Full (s.writeVia2 r₁ r₂) :=
  ⟨memWf_access2 h.1 _ r₁ r₂, h.2.access2 h₁ h₂, access2_calm h.3 _ r₁ r₂⟩

theorem Half.readVia2 {s : State} (h : Half s) (r₁ r₂ : Request) : Half (s.readVia2 r₁ r₂).2 :=
  ⟨memWf_access2 h.1 _ r₁ r₂, h.2.imp fun _ hb => access2_calm hb _ r₁ r₂⟩

theorem Half.writeVia2 {s : State} (h : Half s) (r₁ r₂ : Request) : Half (s.writeVia2 r₁ r₂) :=
  ⟨memWf_access2 h.1 _ r₁ r₂, h.2.imp fun _ hb => access2_calm hb _ r₁ r₂⟩

theorem Full.read8 {s : State} (h : Full s) (g : Option SReg) (o : Word) : Full (s.read8 g o).2 := h.readVia nofun
theorem Full.read16 {s : State} (h : Full s) (g : Option SReg) (o : Word) : Full (s.read16 g o).2 := h.readVia2 nofun nofun
theorem Full.write8 {s : State} (h : Full s) (g : Option SReg) (o : Word) (v : Byte) : Full (s.write8 g o v) :=
  h.writeVia nofun
theorem Full.write16 {s : State} (h : Full s) (g : Option SReg) (o v : Word) : Full (s.write16 g o v) :=
  h.writeVia2 nofun nofun
theorem Full.in8 {s : State} (h : Full s) (p : Word) : Full (s.in8 p).2 := h.readVia nofun
theorem Full.in16 {s : State} (h : Full s) (p : Word) : Full (s.in16 p).2 := h.readVia2 nofun nofun
theorem Full.out8 {s : State} (h : Full s) (p : Word) (v : Byte) : Full (s.out8 p v) := h.writeVia nofun
theorem Full.out16 {s : State} (h : Full s) (p v : Word) : Full (s.out16 p v) := h.writeVia2 nofun nofun
theorem Half.read16 {s : State} (h : Half s) (g : Option SReg) (o : Word) : Half (s.read16 g o).2 := h.readVia2 _ _
theorem Half.write16 {s : State} (h : Half s) (g : Option SReg) (o v : Word) : Half (s.write16 g o v) := h.writeVia2 _ _

theorem Full.push16 {s : State} (h : Full s) (v : Word) : Full (s.push16 v) := Full.write16 (s := s.decSp) (h.of_eq rfl rfl rfl) _ _ v
theorem Half.push16 {s : State} (h : Half s) (v : Word) : Half (s.push16 v) := Half.write16 (s := s.decSp) (h.of_eq rfl) _ _ v
theorem Full.pop16 {s : State} (h : Full s) : Full s.pop16.2 := (h.read16 _ _).of_eq rfl rfl rfl

/-! ## Transfers of control -/

theorem Half.susp {s : State} (h : Half s) : Half s.susp := by
  obtain ⟨b, hb⟩ := h.calm
  refine ⟨memWf_internal (y := { s.sys with biu := { s.sys.biu with suspended := true } }) h.1 _ _, true, ?_⟩
  exact internal_calm (y := { s.sys with biu := { s.sys.biu with suspended := true } }) ⟨hb.1, rfl, hb.3, hb.4⟩ _ _

theorem Half.corr {s : State} (h : Half s) : Half s.corr := by
  refine ⟨memWf_internal (y := { s.sys with biu := { s.sys.biu with pc := s.ip } }) h.1 _ _, h.2.imp fun b hb => ?_⟩
  exact internal_calm (y := { s.sys with biu := { s.sys.biu with pc := s.ip } }) ⟨hb.1, hb.2, hb.3, hb.4⟩ _ _

theorem Half.flush {s : State} (h : Half s) : Full s.flush := by
  obtain ⟨b, hb⟩ := h.calm
  have := flush_busIn hb s.sregs.cs s.ip (s.euCost .flush)
  exact ⟨memWf_flush h.1 _ _ _, this.1, this.2⟩

theorem Full.jumpTo {s : State} (h : Full s) (o : Word) : Full (s.jumpTo o) :=
  Half.flush (s := { s.susp with ip := o }) (h.half.susp.of_eq rfl)

theorem Full.callTo {s : State} (h : Full s) (o : Word) : Full (s.callTo o) :=
  Half.flush (s := { s.susp.corr with ip := o }) (h.half.susp.corr.of_eq rfl)

theorem Full.jumpBy {s : State} (h : Full s) (d : Word) : Full (s.jumpBy d) := h.callTo _

theorem Full.callFar {s : State} (h : Full s) (g o : Word) : Full (s.callFar g o) :=
  Half.flush (s := { s.susp.corr with sregs := { s.sregs with cs := g }, ip := o }) (h.half.susp.corr.of_eq rfl)

theorem Full.jumpFar {s : State} (h : Full s) (g o : Word) : Full (s.jumpFar g o) :=
  Half.flush (s := { s.susp with sregs := { s.susp.sregs with cs := g }, ip := o }) (h.half.susp.of_eq rfl)

theorem Full.loadSreg {s : State} (h : Full s) (r : SReg) (v : Word) : Full (s.loadSreg r v) := by
  cases r with
  | cs => exact Half.flush (s := { s.susp.setSreg .cs v with intInhibit := true }) (h.half.susp.of_eq rfl)
  | es => exact h.of_eq rfl rfl rfl
  | ss => exact h.of_eq rfl rfl rfl
  | ds => exact h.of_eq rfl rfl rfl

theorem Half.interrupt {s : State} (h : Half s) (n : Byte) (r : Word) : Full (s.interrupt n r) := by
  unfold State.interrupt
  dsimp only
  have h1 := ((h.susp.read16 none (zext16 n <<< 2)).read16 none (zext16 n <<< 2 + 2#16)).corr
  generalize ((s.susp.read16 none (zext16 n <<< 2)).2.read16 none (zext16 n <<< 2 + 2#16)) = x at h1 ⊢
  have h2 : Half (x.2.corr.push16 x.2.corr.flags.image).maskFlags := (h1.push16 _).of_eq rfl
  have h3 := (h2.push16 (x.2.corr.push16 x.2.corr.flags.image).maskFlags.sregs.cs).push16 r
  exact Half.flush (h3.of_eq rfl)

theorem Full.interrupt {s : State} (h : Full s) (n : Byte) (r : Word) : Full (s.interrupt n r) := h.half.interrupt n r

/-- The acknowledge needs fetching not to be suspended. -/
theorem Half.externalInterrupt {s : State} (hm : s.sys.memWf = true) (hc : Calm false s.sys) : Full s.externalInterrupt :=
  Half.interrupt (s := { s with sys := (s.sys.intAck s.sregs.cs (s.euCost .intaGap)).2 })
    ⟨memWf_intAck hm _ _, false, intAck_calm hc _ _⟩ _ _

theorem Full.returnFromInterrupt {s : State} (h : Full s) : Full s.returnFromInterrupt := by
  unfold State.returnFromInterrupt
  dsimp only
  exact Full.jumpFar ((h.pop16.pop16.pop16).withFlags _) _ _

/-! ## Operands and shared operations -/

theorem Full.readPlace8 {s : State} (h : Full s) (p : Place Reg8) : Full (s.readPlace8 p).2 := by
  cases p with
  | reg r => exact h
  | mem g o => exact h.read8 _ _

theorem Full.readPlace16 {s : State} (h : Full s) (p : Place Reg16) : Full (s.readPlace16 p).2 := by
  cases p with
  | reg r => exact h
  | mem g o => exact h.read16 _ _

theorem Full.writePlace8 {s : State} (h : Full s) (p : Place Reg8) (v : Byte) : Full (s.writePlace8 p v) := by
  cases p with
  | reg r => exact h.setReg8 r v
  | mem g o => exact h.write8 _ _ v

theorem Full.writePlace16 {s : State} (h : Full s) (p : Place Reg16) (v : Word) : Full (s.writePlace16 p v) := by
  cases p with
  | reg r => exact h.setReg16 r v
  | mem g o => exact h.write16 _ _ v

theorem Full.readFar {s : State} (h : Full s) (m : MemOp) : Full (s.readFar m).2.2 := (h.read16 _ _).read16 _ _

theorem Full.alu8 {s : State} (h : Full s) (op : AluOp) (a b : Byte) : Full (s.alu8 op a b).2 :=
  ((h.aluStep _ _).drawn_if op.drawsAf).withFlags _

theorem Full.alu16 {s : State} (h : Full s) (op : AluOp) (a b : Word) : Full (s.alu16 op a b).2 :=
  ((h.aluStep _ _).drawn_if op.drawsAf).withFlags _

theorem Full.aluTo8 {s : State} (h : Full s) (op : AluOp) (p : Place Reg8) (a b : Byte) : Full (s.aluTo8 op p a b) := by
  unfold State.aluTo8
  dsimp only
  split
  · exact (h.alu8 op a b).writePlace8 p _
  · exact h.alu8 op a b

theorem Full.aluTo16 {s : State} (h : Full s) (op : AluOp) (p : Place Reg16) (a b : Word) : Full (s.aluTo16 op p a b) := by
  unfold State.aluTo16
  dsimp only
  split
  · exact (h.alu16 op a b).writePlace16 p _
  · exact h.alu16 op a b

theorem Full.modifyEb {s : State} (h : Full s) (f : Flags → Byte → Byte × Flags) (rm : RM8) : Full (modifyEb f rm s) :=
  (((h.readPlace8 _).aluStep _ _).withFlags _).writePlace8 _ _

theorem Full.modifyEw {s : State} (h : Full s) (f : Flags → Word → Word × Flags) (rm : RM16) : Full (modifyEw f rm s) :=
  (((h.readPlace16 _).aluStep _ _).withFlags _).writePlace16 _ _

theorem Full.modifyReg16 {s : State} (h : Full s) (f : Flags → Word → Word × Flags) (r : Reg16) : Full (modifyReg16 f r s) :=
  ((h.aluStep _ _).withFlags _).setReg16 _ _

theorem Full.shiftSteps {s : State} (h : Full s) (n : Nat) : Full (s.shiftSteps n) := h.spend _

theorem Full.shiftEb {s : State} (h : Full s) (op : ShiftOp) (rm : RM8) (n : Nat) : Full (shiftEb op rm n s) :=
  ((((h.readPlace8 _).shiftSteps n).drawn_if (op.drawsAf && decide (n ≠ 0))).withFlags _).writePlace8 _ _

theorem Full.shiftEw {s : State} (h : Full s) (op : ShiftOp) (rm : RM16) (n : Nat) : Full (shiftEw op rm n s) :=
  ((((h.readPlace16 _).shiftSteps n).drawn_if (op.drawsAf && decide (n ≠ 0))).withFlags _).writePlace16 _ _

theorem Full.setmoEb {s : State} (h : Full s) (rm : RM8) : Full (setmoEb rm s) := (h.internal.withFlags _).writePlace8 _ _
theorem Full.setmoEw {s : State} (h : Full s) (rm : RM16) : Full (setmoEw rm s) := (h.internal.withFlags _).writePlace16 _ _

theorem Full.freeStatus {s : State} (h : Full s) : Full s.freeStatus := (h.withFlags _).drawn

theorem Full.divideError {s : State} (h : Full s) : Full s.divideError := h.freeStatus.interrupt _ _

theorem Full.mulBy8 {s : State} (h : Full s) (d : Byte) : Full (mulBy8 d s) := (((h.aluStep _ _).setReg16 _ _).withFlags _).drawn
theorem Full.mulBy16 {s : State} (h : Full s) (d : Word) : Full (mulBy16 d s) :=
  ((((h.aluStep _ _).setReg16 _ _).setReg16 _ _).withFlags _).drawn
theorem Full.imulBy8 {s : State} (h : Full s) (d : Byte) : Full (imulBy8 d s) := (((h.aluStep _ _).setReg16 _ _).withFlags _).drawn
theorem Full.imulBy16 {s : State} (h : Full s) (d : Word) : Full (imulBy16 d s) :=
  ((((h.aluStep _ _).setReg16 _ _).setReg16 _ _).withFlags _).drawn

theorem Full.divBy8 {s : State} (h : Full s) (d : Byte) : Full (divBy8 d s) := by
  unfold Machine.divBy8; dsimp only; split
  · exact (h.aluStep _ _).divideError
  · exact ((h.aluStep _ _).setReg16 _ _).freeStatus
theorem Full.divBy16 {s : State} (h : Full s) (d : Word) : Full (divBy16 d s) := by
  unfold Machine.divBy16; dsimp only; split
  · exact (h.aluStep _ _).divideError
  · exact (((h.aluStep _ _).setReg16 _ _).setReg16 _ _).freeStatus
theorem Full.idivBy8 {s : State} (h : Full s) (d : Byte) : Full (idivBy8 d s) := by
  unfold Machine.idivBy8; dsimp only; split
  · exact (h.aluStep _ _).divideError
  · exact ((h.aluStep _ _).setReg16 _ _).freeStatus
theorem Full.idivBy16 {s : State} (h : Full s) (d : Word) : Full (idivBy16 d s) := by
  unfold Machine.idivBy16; dsimp only; split
  · exact (h.aluStep _ _).divideError
  · exact (((h.aluStep _ _).setReg16 _ _).setReg16 _ _).freeStatus

theorem Full.withEb {s : State} (h : Full s) {k : Byte → State → State} (hk : ∀ d t, Full t → Full (k d t)) (rm : RM8) :
    Full (withEb k rm s) := hk _ _ (h.readPlace8 _)
theorem Full.withEw {s : State} (h : Full s) {k : Word → State → State} (hk : ∀ d t, Full t → Full (k d t)) (rm : RM16) :
    Full (withEw k rm s) := hk _ _ (h.readPlace16 _)

theorem Full.decimalAdjustAl {s : State} (h : Full s) (b : Bool) : Full (decimalAdjustAl b s) :=
  (((h.aluStep _ _).setReg8 _ _).withFlags _).drawn.drawn
theorem Full.asciiAdjustAx {s : State} (h : Full s) (b : Bool) : Full (asciiAdjustAx b s) :=
  (((h.aluStep _ _).setReg16 _ _).withFlags _).drawn
theorem Full.aamBy {s : State} (h : Full s) (b : Byte) : Full (aamBy b s) := by
  unfold Machine.aamBy; dsimp only; split
  · exact (h.aluStep _ _).divideError
  · exact (((h.aluStep _ _).setReg16 _ _).withFlags _).drawn
theorem Full.aadBy {s : State} (h : Full s) (b : Byte) : Full (aadBy b s) := (((h.aluStep _ _).setReg16 _ _).withFlags _).drawn

theorem Full.loadFar {s : State} (h : Full s) {sr : SReg} (hs : sr ≠ .cs) (r : Reg16) (m : MemOp) : Full (loadFar sr r m s) :=
  ((h.readFar m).setReg16 _ _).setSreg hs _

theorem Full.stepSi {s : State} (h : Full s) (n : Word) : Full (s.stepSi n) := h.setReg16 _ _
theorem Full.stepDi {s : State} (h : Full s) (n : Word) : Full (s.stepDi n) := h.setReg16 _ _
theorem Full.compare8 {s : State} (h : Full s) (a b : Byte) : Full (s.compare8 a b) := (h.aluStep _ _).withFlags _
theorem Full.compare16 {s : State} (h : Full s) (a b : Word) : Full (s.compare16 a b) := (h.aluStep _ _).withFlags _
theorem Full.movsb {s : State} (h : Full s) : Full (movsb s) := (((h.read8 _ _).write8 _ _ _).stepSi _).stepDi _
theorem Full.movsw {s : State} (h : Full s) : Full (movsw s) := (((h.read16 _ _).write16 _ _ _).stepSi _).stepDi _
theorem Full.cmpsb {s : State} (h : Full s) : Full (cmpsb s) := ((((h.read8 _ _).read8 _ _).compare8 _ _).stepSi _).stepDi _
theorem Full.cmpsw {s : State} (h : Full s) : Full (cmpsw s) := ((((h.read16 _ _).read16 _ _).compare16 _ _).stepSi _).stepDi _
theorem Full.scasb {s : State} (h : Full s) : Full (scasb s) := ((h.read8 _ _).compare8 _ _).stepDi _
theorem Full.scasw {s : State} (h : Full s) : Full (scasw s) := ((h.read16 _ _).compare16 _ _).stepDi _
theorem Full.lodsb {s : State} (h : Full s) : Full (lodsb s) := ((h.read8 _ _).setReg8 _ _).stepSi _
theorem Full.lodsw {s : State} (h : Full s) : Full (lodsw s) := ((h.read16 _ _).setReg16 _ _).stepSi _
theorem Full.stosb {s : State} (h : Full s) : Full (stosb s) := (h.write8 _ _ _).stepDi _
theorem Full.stosw {s : State} (h : Full s) : Full (stosw s) := (h.write16 _ _ _).stepDi _
theorem Full.setRep {s : State} (h : Full s) (b : Bool) : Full (s.setRep b) := h.withEu _

theorem Full.stringStep {s : State} (h : Full s) (c : Bool) {k : State → State} (hk : ∀ t, Full t → Full (k t)) :
    Full (stringStep c k s) := by
  unfold Machine.stringStep
  split
  · exact (hk s h).setRep _
  · split
    · exact h.setRep _
    · exact ((hk s h).setReg16 _ _).setRep _

theorem Full.jumpIf {s : State} (h : Full s) (c : Bool) (rel : Byte) : Full (jumpIf c rel s) := by
  unfold Machine.jumpIf; split
  · exact h.jumpBy _
  · exact h
theorem Full.loopIf {s : State} (h : Full s) (c : Bool) (rel : Byte) : Full (loopIf c rel s) := (h.setReg16 _ _).jumpIf _ _
theorem Full.returnNear {s : State} (h : Full s) (k : Word) : Full (returnNear k s) := (h.pop16.setReg16 _ _).jumpTo _
theorem Full.returnFar {s : State} (h : Full s) (k : Word) : Full (returnFar k s) := (h.pop16.pop16.setReg16 _ _).jumpFar _ _
theorem Full.callFarTo {s : State} (h : Full s) (g o : Word) : Full (callFarTo g o s) := ((h.push16 _).push16 _).callFar _ _

theorem Full.halt {s : State} (h : Full s) : Full { s with sys := s.sys.halt s.sregs.cs } := by
  have h0 : Full { s with sys := { s.sys with halted := true, biu := { s.sys.biu with haltReq := true } } } :=
    ⟨h.1, ⟨⟨⟨h.2.at'.bus.1, h.2.at'.bus.2, h.2.at'.bus.3, h.2.at'.bus.4, h.2.at'.bus.5, h.2.at'.bus.6⟩, h.2.at'.pc⟩, h.2.data⟩,
      ⟨h.3.1, h.3.2, h.3.3, h.3.4⟩⟩
  exact ⟨memWf_internal h0.1 _ _, h0.2.internal _, internal_calm h0.3 _ _⟩

theorem Full.lockBus {s : State} (h : Full s) (b : Bool) (u : Eu) :
    Full { s with eu := u, sys := { s.sys with biu := { s.sys.biu with lock := b } } } :=
  ⟨h.1, ⟨⟨⟨h.2.at'.bus.1, h.2.at'.bus.2, h.2.at'.bus.3, h.2.at'.bus.4, h.2.at'.bus.5, h.2.at'.bus.6⟩, h.2.at'.pc⟩, h.2.data⟩,
    ⟨h.3.1, h.3.2, h.3.3, h.3.4⟩⟩

theorem Full.waitPoll {s : State} (h : Full s) : Full (waitPoll s) := by
  unfold Machine.waitPoll; split
  · exact Full.spend (s := { s with waitTpr := false }) (h.of_eq rfl rfl rfl) _
  · exact ⟨memWf_internal h.1 _ _, h.2.internal _, internal_calm h.3 _ _⟩

theorem Full.escape {s : State} (h : Full s) (rm : RM16) : Full (escape rm s) := by
  cases rm with
  | reg r => exact h
  | mem m => exact h.read16 _ _

/-- An answer whose next state, if it is one, meets the invariant. -/
def Keeps : Out → Prop
  | .next t => Full t
  | .fault _ => True
  | .refused _ => True

theorem Keeps.unlessRepeated {s : State} {k : State → State} (h : Full (k s)) : Keeps (unlessRepeated s k) := by
  unfold Machine.unlessRepeated; split
  · exact h
  · exact True.intro
  · exact True.intro

end Sys2Proof.Machine
end

