-- ==== Sys2Proof/Laws/Fetch.lean ====
section
/-! SUPPORT. Reading the queue: a byte always comes (R533), and it is the next byte of the code segment. -/

namespace Sys2Proof.Machine

/-! ## What no tick changes -/

/-- The parameters, the input stream and the halt. -/
def Sys.fixed (y : Sys) : Params × List (Nat × Lines) × Bool := (y.cfg, y.inputs, y.halted)

theorem busRead_fixed (y : Sys) (a : PhysAddr) : (busRead y a).2.fixed = y.fixed := by
  unfold busRead mmioRead
  split <;> first | rfl | (split <;> rfl)

theorem busWrite_fixed (y : Sys) (a : PhysAddr) (b : Byte) : (busWrite y a b).fixed = y.fixed := by
  unfold busWrite mmioWrite
  split <;> first | rfl | (split <;> rfl)

theorem dmaMove_fixed (y : Sys) (c : BitVec 2) : (y.dmaMove c).fixed = y.fixed := by
  unfold Sys.dmaMove
  dsimp only
  split
  · rfl
  · split
    · exact busWrite_fixed y _ _
    · exact busRead_fixed y _
    · rfl

theorem decideCpu_fixed (y : Sys) (b : Bool) : (y.decideCpu b).fixed = y.fixed := by
  unfold Sys.decideCpu
  split
  · rfl
  · split
    · split
      · rfl
      · split
        · split <;> rfl
        · rfl
    · split <;> rfl

theorem hold_fixed (y : Sys) : y.hold.fixed = y.fixed := by
  unfold Sys.hold
  split <;> rfl

theorem decide_fixed (y : Sys) (b : Bool) : (y.decide b).fixed = y.fixed := by
  unfold Sys.decide
  split
  · split
    · rw [hold_fixed]; exact dmaMove_fixed y _
    · exact decideCpu_fixed y b
  · exact decideCpu_fixed _ false
  · exact hold_fixed _

theorem tick_fixed (y : Sys) (cs : Word) : (y.tick cs).fixed = y.fixed := by
  have hft : ∀ w : Sys, w.fetchTransfer.fixed = w.fixed := by
    intro w; unfold Sys.fetchTransfer; split
    · exact busRead_fixed w _
    · rfl
  have key : ∀ z : Sys, (z.phaseAction cs).fixed = z.fixed := by
    intro z
    unfold Sys.phaseAction
    split
    · exact decide_fixed z false
    · rfl
    · rfl
    · split
      · exact hft z
      · rfl
    · dsimp only
      split
      · exact hft _
      · rfl
    · rw [decide_fixed]; unfold Sys.fetchComplete; split <;> rfl
    · rfl
  exact key y.clockDevices

/-! ## Wait states are bounded -/

theorem findRange_wait {a : Nat} {r : MemRange} : ∀ {l : List MemRange}, findRange a l = some r → r.wait ≤ sumWaits l := by
  intro l
  induction l with
  | nil => intro h; cases h
  | cons x rest ih =>
    intro h
    unfold findRange at h
    simp only [sumWaits]
    split at h
    · cases h; omega
    · have := ih h; omega

theorem linesAt_ready (t : Nat) : ∀ (l : List (Nat × Lines)) (x : Lines),
    (linesAt t x l).readyWait ≤ x.readyWait + sumReady l := by
  intro l
  induction l with
  | nil => intro x; exact Nat.le_add_right _ _
  | cons e rest ih =>
    intro x
    obtain ⟨t', l'⟩ := e
    unfold linesAt
    simp only [sumReady]
    split
    · have := ih l'; omega
    · omega

theorem getD_le_sum : ∀ (l : List Nat) (i : Nat), l.getD i 0 ≤ l.sum := by
  intro l
  induction l with
  | nil => intro i; simp
  | cons a l ih =>
    intro i
    cases i with
    | zero => simp
    | succ i => have := ih i; simp only [List.getD_cons_succ, List.sum_cons]; omega

theorem video_wait_le (c : Params) (v : Video) : v.wait c ≤ c.cgaWait.sum := by
  unfold Video.wait
  split
  · exact getD_le_sum _ _
  · exact Nat.zero_le _

theorem ready_le (y : Sys) : y.lines.readyWait ≤ sumReady y.inputs := by
  have := linesAt_ready y.ticks y.inputs Lines.idle
  have h0 : Lines.idle.readyWait = 0 := rfl
  rw [h0, Nat.zero_add] at this
  exact this

theorem memWait_le (y : Sys) (a : PhysAddr) : waitStates.memWait y a ≤ y.waitBound := by
  unfold waitStates.memWait Sys.waitBound
  have h1 := video_wait_le y.cfg y.video
  have h2 := ready_le y
  split
  · rename_i r hr
    have := findRange_wait hr
    have h3 : (if r.kind = .mmio then (if r.device = .video then y.video.wait y.cfg else y.lines.readyWait) else 0)
        ≤ y.cfg.cgaWait.sum + sumReady y.inputs := by
      split
      · split <;> omega
      · omega
    show y.cfg.cpuWait + (r.wait + _) ≤ _
    omega
  · omega

theorem waitBound_of_fixed {y z : Sys} (h : z.fixed = y.fixed) : z.waitBound = y.waitBound := by
  have h1 : z.cfg = y.cfg := congrArg Prod.fst h
  have h2 : z.inputs = y.inputs := congrArg (fun x => x.2.1) h
  unfold Sys.waitBound; rw [h1, h2]

/-! ## A byte always comes -/

/-- The part of the bound of an idle bus: a fetch that is scheduled starts at its time, or in a hold's last tick if
its time has come; one that is not is scheduled first. -/
def idleDue (ticks busy : Nat) : FetchSched → Nat
  | .scheduled s =>
    match busy with
    | 0 => 20 + (s - ticks)
    | b + 1 => 5 + b + (if s ≤ ticks + 1 + b then 0 else 20 + (s - ticks))
  | .none => 30 + (match busy with | 0 => 24 | b + 1 => b)
  | .aborted => 30 + (match busy with | 0 => 24 | b + 1 => b)

/-- A bound on the ticks until a byte can be taken from an empty queue. -/
def fetchDue (w : Nat) (y : Sys) : Nat :=
  match y.biu.phase with
  | .t4 => 1
  | .tw => y.biu.waitLeft + 1
  | .t3 => y.biu.waitLeft + 2
  | .t2 => w + 3
  | .t1 => w + 4
  | .haltAck => w + 55 + y.dma.busyLeft
  | .idle => w + idleDue y.ticks y.dma.busyLeft y.biu.fetchSched

/-- What the fetching of a running, unsuspended machine looks like with an empty queue. -/
structure Hungry (cs : Word) (y : Sys) : Prop where
  bus : BusOk cs y
  calm : Calm false y
  running : y.halted = false
  empty : y.biu.queue = []

/-- Only the bus unit, the clock and the halt matter to it. -/
theorem Hungry.of_same {cs : Word} {y z : Sys} (h : Hungry cs y) (hb : z.biu = y.biu) (ht : z.ticks = y.ticks)
    (hh : z.halted = y.halted) : Hungry cs z := by
  obtain ⟨⟨b1, b2, b3, b4, b5, b6⟩, ⟨c1, c2, c3, c4⟩, hr, he⟩ := h
  constructor
  · constructor <;> first | (rw [hb]; assumption) | (rw [hb, ht]; assumption)
  · constructor <;> (rw [hb]; assumption)
  · rw [hh]; exact hr
  · rw [hb]; exact he

/-- A decision of an idle bus when nothing is in the queue: a fetch whose time has come starts, one not yet scheduled is
scheduled, another waits. -/
theorem decideCpu_due {cs : Word} {y : Sys} (h : Hungry cs y) :
    ((y.decideCpu false).biu.phase = .t1) ∨
    ((y.decideCpu false).biu.phase = .idle ∧ (y.decideCpu false).dma = y.dma ∧ ∃ s, y.ticks + 1 < s ∧
      (y.decideCpu false).biu.fetchSched = .scheduled s ∧
      (y.biu.fetchSched = .scheduled s ∨ ((∀ n, y.biu.fetchSched ≠ .scheduled n) ∧ s ≤ y.ticks + 3))) := by
  have ha : y.fetchAllowed = true := by
    simp [Sys.fetchAllowed, h.calm.suspended, h.running, h.empty, Config.queueCap]
  unfold Sys.decideCpu
  rw [h.calm.request]
  dsimp only
  rw [if_pos ha, if_neg (by simp)]
  split
  · rename_i s hs
    split
    · left; rfl
    · right; exact ⟨rfl, rfl, s, by omega, hs, .inl hs⟩
  · rename_i hs
    right
    exact ⟨rfl, rfl, _, by simp only [Config.fetchStartDelay]; omega, rfl, .inr ⟨hs, schedule_soon _ _⟩⟩

/-- An idle bus's bound at the next tick. -/
theorem fetchDue_idle {w : Nat} {z : Sys} (h : z.biu.phase = .idle) :
    fetchDue w { z with ticks := z.ticks + 1 } = w + idleDue (z.ticks + 1) z.dma.busyLeft z.biu.fetchSched := by
  unfold fetchDue; dsimp only; rw [h]

theorem fetchDue_t1 {w : Nat} {z : Sys} (h : z.biu.phase = .t1) : fetchDue w { z with ticks := z.ticks + 1 } = w + 4 := by
  unfold fetchDue; dsimp only; rw [h]

theorem idleDue_unscheduled {f : FetchSched} (h : ∀ n, f ≠ .scheduled n) (t busy : Nat) :
    idleDue t busy f = 30 + (match busy with | 0 => 24 | b + 1 => b) := by
  cases f with
  | none => rfl
  | scheduled n => exact absurd rfl (h n)
  | aborted => rfl

/-- What an idle bus leaves: its bound shrinks by at least one. `busy` is what is left of a hold. -/
theorem decideCpu_due_lt {cs : Word} {y : Sys} (h : Hungry cs y) (w : Nat) (hz : y.dma.busyLeft = 0) {busy : Nat} (hb : busy ≤ 1) :
    fetchDue w { y.decideCpu false with ticks := (y.decideCpu false).ticks + 1 }
      < w + idleDue y.ticks busy y.biu.fetchSched := by
  have ht : (y.decideCpu false).ticks = y.ticks := (decideCpu_decided y false).ticks
  rcases decideCpu_due h with h1 | ⟨h1, h2, s, h3, h4, h5⟩
  · rw [fetchDue_t1 h1]
    unfold idleDue
    split <;> split <;> omega
  · rw [fetchDue_idle h1, h2, hz, h4, ht]
    have hs : idleDue (y.ticks + 1) 0 (.scheduled s) = 20 + (s - (y.ticks + 1)) := rfl
    rw [hs]
    rcases h5 with h5 | ⟨h5, h6⟩
    · rw [h5]
      unfold idleDue
      rcases Nat.le_one_iff_eq_zero_or_eq_one.mp hb with h | h <;> subst h <;> dsimp only
      · omega
      · rw [if_neg (by omega)]; omega
    · rw [idleDue_unscheduled h5]
      split <;> omega

/-- A hold of an idle, hungry bus: a fetch that is scheduled stays so, another is scheduled now. -/
theorem hold_schedule {cs : Word} {y : Sys} (h : Hungry cs y) :
    (∃ s, y.biu.fetchSched = .scheduled s ∧ y.hold.biu.fetchSched = .scheduled s) ∨
    ((∀ n, y.biu.fetchSched ≠ .scheduled n) ∧ ∃ s, s ≤ y.ticks + 3 ∧ y.hold.biu.fetchSched = .scheduled s) := by
  have ha : y.fetchAllowed = true := by
    simp [Sys.fetchAllowed, h.calm.suspended, h.running, h.empty, Config.queueCap]
  have hr := h.calm.request
  unfold Sys.hold
  split
  · rename_i hs; rw [hr] at hs; cases hs
  · rename_i s _ hs; exact .inl ⟨s, hs, hs⟩
  · rename_i hs
    rw [if_pos ha]
    exact .inr ⟨fun n hn => hs n hn, _, schedule_soon _ _, rfl⟩

/-- A hold of which `n` ticks are left after this one brings the byte nearer. -/
theorem hold_due_lt {cs : Word} {y : Sys} (h : Hungry cs y) (w : Nat) {busy n : Nat} (hn : y.dma.busyLeft = n + 1)
    (hb : busy = n + 2 ∨ busy = 0 ∧ n = 4) :
    fetchDue w { y.hold with ticks := y.hold.ticks + 1 } < w + idleDue y.ticks busy y.biu.fetchSched := by
  obtain ⟨h1, -, h2, h3⟩ := hold_idle y
  rw [fetchDue_idle h1, h2, h3, hn]
  rcases hold_schedule h with ⟨s, h4, h5⟩ | ⟨h4, s, h6, h5⟩
  · have := h.bus.schedule s h4
    simp only [Config.fetchStartDelay] at this
    rw [h5, h4]
    rcases hb with rfl | ⟨rfl, rfl⟩ <;> simp only [idleDue] <;> (repeat split) <;> omega
  · rw [h5, idleDue_unscheduled h4]
    rcases hb with rfl | ⟨rfl, rfl⟩ <;> simp only [idleDue] <;> (repeat split) <;> omega

theorem decide_due {cs : Word} {y : Sys} (h : Hungry cs y) {w : Nat} (hp : y.biu.phase = .idle) :
    fetchDue w { y.decide false with ticks := (y.decide false).ticks + 1 } < fetchDue w y := by
  have e0 : fetchDue w y = w + idleDue y.ticks y.dma.busyLeft y.biu.fetchSched := by unfold fetchDue; rw [hp]
  rw [e0]
  unfold Sys.decide
  split
  · rename_i hz
    rw [hz]
    split
    · rename_i c hc
      have hm := dmaMove_clock y c
      have h' : Hungry cs { y.dmaMove c with dma := (y.dmaMove c).dma.grant c } :=
        h.of_same hm.1 hm.2 (congrArg (fun x => x.2.2) (dmaMove_fixed y c))
      have e : idleDue (y.dmaMove c).ticks 0 (y.dmaMove c).biu.fetchSched = idleDue y.ticks 0 y.biu.fetchSched := by
        rw [hm.1, hm.2]
      exact e ▸ hold_due_lt h' w (n := 4) rfl (.inr ⟨rfl, rfl⟩)
    · exact decideCpu_due_lt h w hz (by omega)
  · rename_i hz
    rw [hz]
    exact decideCpu_due_lt (y := { y with dma := { y.dma with busyLeft := 0 } }) (h.of_same rfl rfl rfl) w rfl (by omega)
  · rename_i n hz
    rw [hz]
    exact hold_due_lt (y := { y with dma := { y.dma with busyLeft := n + 1 } }) (h.of_same rfl rfl rfl) w rfl (.inl rfl)

theorem clockDevices_busy (y : Sys) : y.clockDevices.dma.busyLeft = y.dma.busyLeft := by
  unfold Sys.clockDevices Sys.setPit
  dsimp only
  split <;> rfl

/-- Every tick brings the byte nearer, or brings it. -/
theorem tick_due {cs : Word} {y : Sys} (h : Hungry cs y) {w : Nat} (hw : y.waitBound ≤ w) :
    (y.tick cs).biu.queue ≠ [] ∨ fetchDue w (y.tick cs) < fetchDue w y := by
  have hd : fetchDue w y.clockDevices = fetchDue w y := by
    unfold fetchDue; rw [clockDevices_busy]; rfl
  have hc : Hungry cs y.clockDevices :=
    ⟨⟨h.bus.1, h.bus.2, h.bus.3, h.bus.4, h.bus.5, h.bus.6⟩, ⟨h.calm.1, h.calm.2, h.calm.3, h.calm.4⟩, h.running, h.empty⟩
  have hwz : y.clockDevices.waitBound ≤ w := by
    rw [waitBound_of_fixed (show y.clockDevices.fixed = y.fixed from rfl)]; exact hw
  rw [← hd]
  show (y.clockDevices.phaseAction cs).biu.queue ≠ [] ∨
    fetchDue w { y.clockDevices.phaseAction cs with ticks := (y.clockDevices.phaseAction cs).ticks + 1 } < _
  generalize y.clockDevices = z at hc hwz ⊢
  have hft : ∀ x : Sys, fetchDue w { x.fetchTransfer with ticks := x.fetchTransfer.ticks + 1 } = 1 := by
    intro x; unfold fetchDue; dsimp only; rw [(fetchTransfer_fetched x).phase]
  unfold Sys.phaseAction
  split
  · rename_i hp; exact .inr (decide_due hc hp)
  · rename_i hp
    right
    have e1 : fetchDue w z = w + 4 := by unfold fetchDue; rw [hp]
    rw [e1]
    have e2 : fetchDue w { { z with biu := z.biu.drive cs } with ticks := z.ticks + 1 } = w + 3 := by
      unfold fetchDue; dsimp only
      have : (z.biu.drive cs).phase = .t2 := by unfold Biu.drive; split <;> rfl
      rw [this]
    show fetchDue w { { z with biu := z.biu.drive cs } with ticks := z.ticks + 1 } < _
    rw [e2]; omega
  · rename_i hp
    right
    have ho : z.biu.op = .codeFetch := hc.calm.fetching (by unfold Biu.inCycle; rw [hp])
    have e1 : fetchDue w z = w + 3 := by unfold fetchDue; rw [hp]
    rw [e1]
    show waitStates z z.biu.op z.biu.addr + 2 < _
    have : waitStates z z.biu.op z.biu.addr = waitStates.memWait z z.biu.addr := by rw [ho]; rfl
    have := memWait_le z z.biu.addr
    omega
  · rename_i hp
    right
    have e1 : fetchDue w z = z.biu.waitLeft + 2 := by unfold fetchDue; rw [hp]
    split
    · rw [hft, e1]; omega
    · rw [e1]; show z.biu.waitLeft + 1 < _; omega
  · rename_i hp
    right
    have e1 : fetchDue w z = z.biu.waitLeft + 1 := by unfold fetchDue; rw [hp]
    have hn := hc.calm.waiting hp
    dsimp only
    split
    · rw [hft, e1]; omega
    · rw [e1]
      have e2 : fetchDue w { z with ticks := z.ticks + 1, biu := { z.biu with waitLeft := z.biu.waitLeft - 1 } } = z.biu.waitLeft - 1 + 1 := by
        unfold fetchDue; dsimp only; rw [hp]
      show fetchDue w { z with ticks := z.ticks + 1, biu := { z.biu with waitLeft := z.biu.waitLeft - 1 } } < _
      rw [e2]; omega
  · rename_i hp
    left
    have ho : z.biu.op = .codeFetch := hc.calm.fetching (by unfold Biu.inCycle; rw [hp])
    have hq : (z.fetchComplete.decide true).biu.queue = z.fetchComplete.biu.queue :=
      congrArg Prod.fst (decide_decided z.fetchComplete true).front
    rw [hq, fetchComplete_front z ho]
    simp
  · rename_i hp
    right
    have e1 : fetchDue w z = w + 55 + z.dma.busyLeft := by unfold fetchDue; rw [hp]
    rw [e1, fetchDue_idle (z := { z with biu := z.biu.toIdle }) rfl]
    show w + idleDue (z.ticks + 1) z.dma.busyLeft z.biu.fetchSched < _
    unfold idleDue
    split
    · rename_i s hs
      have := hc.bus.schedule s hs
      simp only [Config.fetchStartDelay] at this
      split
      · omega
      · split <;> omega
    · split <;> omega
    · split <;> omega

theorem takeByte_cons {y : Sys} {q : QueueByte} {rest : List QueueByte} (hq : y.biu.queue = q :: rest) (ha : q.age < y.ticks) :
    y.takeByte = some (q.byte, { y with biu := { y.biu with queue := rest } }) := by
  unfold Sys.takeByte; rw [hq]; dsimp only; rw [if_pos ha]

/-- Taking a byte keeps the bus unit in order at the next IP. -/
theorem BusIn.take {cs ip : Word} {y : Sys} {q : QueueByte} {rest : List QueueByte} (h : BusIn cs ip y)
    (hq : y.biu.queue = q :: rest) : BusIn cs (ip + 1#16) { y with biu := { y.biu with queue := rest } } := by
  have hl : y.biu.queue.length = rest.length + 1 := by rw [hq]; rfl
  refine ⟨⟨⟨?_, fun h1 h2 => ?_, fun x hx => ?_, h.at'.bus.4, h.at'.bus.5, h.at'.bus.6⟩, ?_⟩, h.data⟩
  · have := h.at'.bus.capacity; show rest.length ≤ _; omega
  · have := h.at'.bus.room h1 h2; show rest.length < _; omega
  · exact h.at'.bus.ages x (by rw [hq]; exact List.mem_cons_of_mem _ hx)
  · show y.biu.pc = ip + 1#16 + BitVec.ofNat 16 (Biu.ahead { y.biu with queue := rest })
    have hp : y.biu.pc = ip + BitVec.ofNat 16 y.biu.ahead := h.at'.pc
    have ha : y.biu.ahead = Biu.ahead { y.biu with queue := rest } + 1 := by
      unfold Biu.ahead; dsimp only; rw [hl]; omega
    rw [hp, ha, BitVec.ofNat_add, BitVec.add_assoc, BitVec.add_comm 1#16]

theorem stalled_busIn {cs ip : Word} {y : Sys} (h : BusIn cs ip y) : BusIn cs ip { y with stall := .queueEmpty } := h.of_eq rfl rfl

theorem Calm.of_biu {b : Bool} {y z : Sys} (h : Calm b y) (e : z.biu = y.biu) : Calm b z :=
  ⟨by rw [e]; exact h.1, by rw [e]; exact h.2, by rw [e]; exact h.3, by rw [e]; exact h.4⟩

/-- R533: with enough ticks a byte comes. -/
theorem qfetch_some {cs ip : Word} (n : Nat) {y : Sys} (hb : BusIn cs ip y) (hc : Calm false y) (hr : y.halted = false)
    (hn : 0 < n) (hd : y.biu.queue = [] → fetchDue y.waitBound y < n) : ∃ x, Sys.qfetch cs n y = some x := by
  induction n generalizing y with
  | zero => omega
  | succ n ih =>
    unfold Sys.qfetch
    cases hq : y.biu.queue with
    | cons q rest =>
      rw [takeByte_cons hq (hb.at'.bus.ages q (by rw [hq]; exact List.mem_cons_self))]
      exact ⟨_, rfl⟩
    | nil =>
      have ht : y.takeByte = none := by unfold Sys.takeByte; rw [hq]
      rw [ht]
      dsimp only
      have hd := hd hq
      have hs := stalled_busIn hb
      have hcs : Calm false { y with stall := .queueEmpty } := hc.of_biu rfl
      have hw : ({ y with stall := .queueEmpty } : Sys).waitBound = y.waitBound := rfl
      have hdue : fetchDue y.waitBound { y with stall := .queueEmpty } = fetchDue y.waitBound y := rfl
      have hpos : 0 < fetchDue y.waitBound y := by
        unfold fetchDue
        split <;> (try omega)
        unfold idleDue
        split
        · split
          · omega
          · split <;> omega
        · omega
        · omega
      have hf := tick_fixed { y with stall := .queueEmpty } cs
      have hb' := waitBound_of_fixed hf
      have hstep := tick_due (cs := cs) (y := { y with stall := .queueEmpty }) ⟨hs.at'.bus, hcs, hr, hq⟩ (Nat.le_of_eq hw)
      refine ih hs.tick (hcs.tick cs) ?_ (by omega) (fun he => ?_)
      · exact (congrArg (fun x => x.2.2) hf).trans hr
      · rw [hb', hw]
        rcases hstep with h | h
        · exact absurd he h
        · rw [hdue] at h; omega

theorem due_lt_stallBound {cs : Word} {y : Sys} (h : BusOk cs y) : fetchDue y.waitBound y < y.stallBound := by
  unfold Sys.stallBound fetchDue
  split <;> (try omega)
  unfold idleDue
  split
  · rename_i s hs
    have := h.schedule s hs
    simp only [Config.fetchStartDelay] at this
    split
    · omega
    · split <;> omega
  · split <;> omega
  · split <;> omega

/-- What `Sys.qfetch` answers is in order at the next IP. -/
theorem qfetch_full {cs ip : Word} (n : Nat) {y : Sys} (hb : BusIn cs ip y) (hc : Calm false y) {x : Byte × Sys}
    (hx : Sys.qfetch cs n y = some x) : BusIn cs (ip + 1#16) x.2 ∧ Calm false x.2 ∧ x.2.fixed = y.fixed := by
  induction n generalizing y with
  | zero => cases hx
  | succ n ih =>
    unfold Sys.qfetch at hx
    cases hq : y.biu.queue with
    | cons q rest =>
      rw [takeByte_cons hq (hb.at'.bus.ages q (by rw [hq]; exact List.mem_cons_self))] at hx
      cases hx
      have h1 := (hb.take hq).tick
      have h2 : Calm false { y with biu := { y.biu with queue := rest } } := ⟨hc.1, hc.2, hc.3, hc.4⟩
      exact ⟨h1.of_eq rfl rfl, (h2.tick cs).of_biu rfl, tick_fixed _ cs⟩
    | nil =>
      have ht : y.takeByte = none := by unfold Sys.takeByte; rw [hq]
      rw [ht] at hx
      have := ih (stalled_busIn hb).tick ((hc.of_biu (z := { y with stall := .queueEmpty }) rfl).tick cs) hx
      exact ⟨this.1, this.2.1, this.2.2.trans (tick_fixed _ cs)⟩

theorem State.fetchByte_eq (s : State) : s.fetchByte = (Sys.qfetch s.sregs.cs s.sys.stallBound s.sys).map
    (fun x => (x.1, { s with sys := x.2, ip := s.ip + 1#16 })) := by
  unfold State.fetchByte
  cases Sys.qfetch s.sregs.cs s.sys.stallBound s.sys <;> rfl

/-- R131: a byte always comes, and IP moves past it. -/
theorem Full.fetchByte {s : State} (h : Full s) (hr : s.sys.halted = false) :
    ∃ b y, s.fetchByte = some (b, { s with sys := y, ip := s.ip + 1#16 }) ∧ Full { s with sys := y, ip := s.ip + 1#16 } ∧
      y.halted = false := by
  obtain ⟨x, hx⟩ := qfetch_some s.sys.stallBound h.bus h.calm hr (by unfold Sys.stallBound; omega)
    (fun _ => due_lt_stallBound h.bus.at'.bus)
  have hf := qfetch_full _ h.bus h.calm hx
  refine ⟨x.1, x.2, ?_, ⟨memWf_qfetch h.1 hx, hf.1, hf.2.1⟩, (congrArg (fun x => x.2.2) hf.2.2).trans hr⟩
  rw [State.fetchByte_eq, hx]; rfl

/-! ## Which byte comes -/

theorem tick_codeByte {cs ip : Word} {y : Sys} (hb : BusAt cs ip y) (hc : Calm false y) (hq : y.Quiet) (k : Nat) :
    (y.tick cs).codeByte cs ip k = y.codeByte cs ip k := by
  have hp := peekByte_of_still (Sys.tick_still hq cs)
  have hcd : y.clockDevices.still = y.still := clockDevices_still y
  have hpc := peekByte_of_still hcd
  have eb : (y.tick cs).biu = (y.clockDevices.phaseAction cs).biu := rfl
  have e0 : y.clockDevices.biu = y.biu := rfl
  have key : ∀ z : Sys, (y.tick cs).biu = z.biu → z.biu.queue = y.biu.queue → z.biu.phase ≠ .t4 → y.biu.phase ≠ .t4 →
      (y.tick cs).codeByte cs ip k = y.codeByte cs ip k := by
    intro z hz h1 h2 h3
    unfold Sys.codeByte
    rw [hz, h1, hp]
    split
    · rfl
    · rw [if_neg (fun h => h2 h.2.1), if_neg (fun h => h3 h.2.1)]
  have keyT : ∀ x : Sys, (y.tick cs).biu = x.fetchTransfer.biu → x.biu.front = y.biu.front → x.biu.op = y.biu.op →
      x.biu.addr = y.biu.addr → x.still = y.still → y.biu.addressed = true → y.biu.phase ≠ .t4 → y.biu.op = .codeFetch →
      (y.tick cs).codeByte cs ip k = y.codeByte cs ip k := by
    intro x hx hf ho ha hs had h4 hop
    have hqu : (y.tick cs).biu.queue = y.biu.queue := by
      rw [hx]; exact (fetchTransfer_fetched x).queue.trans (congrArg Prod.fst hf)
    have hdata : (y.tick cs).biu.data = peekByte y y.biu.addr := by
      rw [hx]
      unfold Sys.fetchTransfer
      rw [if_pos (ho.trans hop)]
      show peekByte x x.biu.addr = _
      rw [peekByte_of_still hs, ha]
    unfold Sys.codeByte
    rw [hqu, hp, hdata]
    split
    · rfl
    · rw [if_neg (c := k = y.biu.queue.length ∧ y.biu.phase = .t4 ∧ y.biu.op = .codeFetch) (fun h => h4 h.2.1)]
      split
      · rename_i h
        have hpc : y.biu.pc = ip + BitVec.ofNat 16 y.biu.ahead := hb.pc
        rw [Biu.ahead_queue (fun e => absurd e h4)] at hpc
        rw [hb.bus.address had hop, hpc, h.1]
      · rfl
  have hphase : ∀ p, y.biu.phase = p → p ≠ .t4 → y.biu.phase ≠ .t4 := fun p h1 h2 h3 => h2 (h1.symm.trans h3)
  rcases phase_cases y.biu with h | h | h | h | h | h | h
  · refine key (y.clockDevices.decide false) ?_ ?_ (decide_decided _ false).early.2.2 (hphase _ h (by simp))
    · rw [eb]; unfold Sys.phaseAction; rw [e0, h]
    · exact congrArg Prod.fst (decide_decided y.clockDevices false).front
  · refine key { y.clockDevices with biu := y.clockDevices.biu.drive cs } ?_ ?_ ?_ (hphase _ h (by simp))
    · rw [eb]; unfold Sys.phaseAction; rw [e0, h]
    · simp only [Biu.drive]; split <;> rfl
    · simp only [Biu.drive]; split <;> simp
  · refine key ((y.clockDevices).phaseAction cs) eb ?_ ?_ (hphase _ h (by simp))
    · unfold Sys.phaseAction; rw [e0, h]
    · unfold Sys.phaseAction; rw [e0, h]; simp
  · have had : y.biu.addressed = true := by unfold Biu.addressed; rw [h]
    have hop : y.biu.op = .codeFetch := hc.fetching (by unfold Biu.inCycle; rw [h])
    by_cases hw : y.biu.waitLeft = 0
    · refine keyT y.clockDevices ?_ rfl rfl rfl hcd had (hphase _ h (by simp)) hop
      rw [eb]; unfold Sys.phaseAction; rw [e0, h]; dsimp only; rw [if_pos hw]
    · refine key { y.clockDevices with biu := { y.clockDevices.biu with phase := .tw } } ?_ rfl (by simp) (hphase _ h (by simp))
      rw [eb]; unfold Sys.phaseAction; rw [e0, h]; dsimp only; rw [if_neg hw]
  · have had : y.biu.addressed = true := by unfold Biu.addressed; rw [h]
    have hop : y.biu.op = .codeFetch := hc.fetching (by unfold Biu.inCycle; rw [h])
    by_cases hw : y.biu.waitLeft - 1 = 0
    · refine keyT { y.clockDevices with biu := { y.clockDevices.biu with waitLeft := y.biu.waitLeft - 1 } } ?_ rfl rfl rfl hcd had
        (hphase _ h (by simp)) hop
      rw [eb]; unfold Sys.phaseAction; rw [e0, h]; dsimp only; rw [if_pos hw]
    · refine key { y.clockDevices with biu := { y.clockDevices.biu with waitLeft := y.biu.waitLeft - 1 } } ?_ rfl ?_ (hphase _ h (by simp))
      · rw [eb]; unfold Sys.phaseAction; rw [e0, h]; dsimp only; rw [if_neg hw]
      · show y.biu.phase ≠ .t4; rw [h]; simp
  · have hop : y.biu.op = .codeFetch := hc.fetching (by unfold Biu.inCycle; rw [h])
    have e1 : (y.tick cs).biu = (y.clockDevices.fetchComplete.decide true).biu := by
      rw [eb]; unfold Sys.phaseAction; rw [e0, h]
    have hqu : (y.tick cs).biu.queue = y.biu.queue ++ [{ byte := y.biu.data, age := y.ticks }] := by
      rw [e1]
      exact (congrArg Prod.fst (decide_decided y.clockDevices.fetchComplete true).front).trans
        (fetchComplete_front y.clockDevices hop)
    have h4 : (y.tick cs).biu.phase ≠ .t4 := by rw [e1]; exact (decide_decided _ true).early.2.2
    unfold Sys.codeByte
    rw [hqu, hp]
    by_cases hk : k < y.biu.queue.length
    · rw [List.getElem?_append_left hk]
      rw [List.getElem?_eq_getElem hk]
    · rw [List.getElem?_append_right (Nat.le_of_not_lt hk), List.getElem?_eq_none (Nat.le_of_not_lt hk)]
      by_cases hk' : k = y.biu.queue.length
      · subst hk'
        rw [Nat.sub_self]
        simp only [List.getElem?_cons_zero]
        rw [if_pos (c := True ∧ _ ∧ _) ⟨True.intro, h, hop⟩]
      · have : 0 < k - y.biu.queue.length := by omega
        rw [List.getElem?_eq_none (by simp only [List.length_singleton]; omega)]
        dsimp only
        rw [if_neg (fun e => h4 e.2.1), if_neg (fun e => hk' e.1)]
  · refine key { y.clockDevices with biu := y.clockDevices.biu.toIdle } ?_ rfl (by simp [Biu.toIdle]) (hphase _ h (by simp))
    rw [eb]; unfold Sys.phaseAction; rw [e0, h]

theorem codeByte_of_eq {y z : Sys} (hb : z.biu = y.biu) (hs : z.still = y.still) (cs ip : Word) (k : Nat) :
    z.codeByte cs ip k = y.codeByte cs ip k := by
  unfold Sys.codeByte; rw [hb, peekByte_of_still hs]

/-- Taking the oldest byte moves the view of the code by one. -/
theorem take_codeByte {y : Sys} {q : QueueByte} {rest : List QueueByte} (hq : y.biu.queue = q :: rest) (cs ip : Word) (k : Nat) :
    Sys.codeByte { y with biu := { y.biu with queue := rest } } cs (ip + 1#16) k = y.codeByte cs ip (k + 1) := by
  have hp : ∀ a, peekByte { y with biu := { y.biu with queue := rest } } a = peekByte y a := peekByte_of_still rfl
  have ho : ip + 1#16 + BitVec.ofNat 16 k = ip + BitVec.ofNat 16 (k + 1) := by
    rw [BitVec.ofNat_add, BitVec.add_assoc, BitVec.add_comm 1#16]
  unfold Sys.codeByte
  rw [hq, hp, ho]
  simp only [List.getElem?_cons_succ, List.length_cons, Nat.add_right_cancel_iff]

/-- R531, R533: what `Sys.qfetch` answers is the next byte of the code, and the bytes after it are then next. -/
theorem qfetch_code {cs ip : Word} (n : Nat) {y : Sys} (hb : BusIn cs ip y) (hc : Calm false y) (hq : y.Quiet) {x : Byte × Sys}
    (hx : Sys.qfetch cs n y = some x) : x.1 = y.codeByte cs ip 0 ∧ x.2.still = y.still ∧
      ∀ k, x.2.codeByte cs (ip + 1#16) k = y.codeByte cs ip (k + 1) := by
  induction n generalizing y with
  | zero => cases hx
  | succ n ih =>
    unfold Sys.qfetch at hx
    cases hq' : y.biu.queue with
    | cons q rest =>
      rw [takeByte_cons hq' (hb.at'.bus.ages q (by rw [hq']; exact List.mem_cons_self))] at hx
      cases hx
      have h2 : Calm false { y with biu := { y.biu with queue := rest } } := ⟨hc.1, hc.2, hc.3, hc.4⟩
      have hs : Sys.still { y with biu := { y.biu with queue := rest } } = y.still := rfl
      have q2 := Sys.quiet_of_still hs hq
      refine ⟨?_, (Sys.tick_still q2 cs).trans hs, fun k => ?_⟩
      · unfold Sys.codeByte; rw [hq']; rfl
      · have e := codeByte_of_eq (y := Sys.tick cs { y with biu := { y.biu with queue := rest } })
          (z := (Sys.tick cs { y with biu := { y.biu with queue := rest } }).microDone) rfl rfl cs (ip + 1#16) k
        refine e.trans ?_
        exact (tick_codeByte (hb.take hq').at' h2 q2 k).trans (take_codeByte hq' cs ip k)
    | nil =>
      have ht : y.takeByte = none := by unfold Sys.takeByte; rw [hq']
      rw [ht] at hx
      have hs : Sys.still { y with stall := .queueEmpty } = y.still := rfl
      have q2 := Sys.quiet_of_still hs hq
      have hcs : Calm false { y with stall := .queueEmpty } := hc.of_biu rfl
      have st := Sys.tick_still q2 cs
      have r := ih (stalled_busIn hb).tick (hcs.tick cs) (Sys.quiet_of_still st q2) hx
      have ek : ∀ k, (Sys.tick cs { y with stall := .queueEmpty }).codeByte cs ip k = y.codeByte cs ip k := fun k =>
        (tick_codeByte (stalled_busIn hb).at' hcs q2 k).trans (codeByte_of_eq (y := y) (z := { y with stall := .queueEmpty }) rfl rfl cs ip k)
      exact ⟨r.1.trans (ek 0), r.2.1.trans (st.trans hs), fun k => (r.2.2 k).trans (ek (k + 1))⟩

end Sys2Proof.Machine
end

