-- ==== Sys2Proof/Laws/Meanings.lean ====
section
/-! SUPPORT. Every meaning keeps the invariant of a run. -/

namespace Sys2Proof.Machine

theorem Full.ite {c : Prop} [Decidable c] {s t : State} (h : Full s) (k : Full t) : Full (if c then s else t) := by
  split
  · exact h
  · exact k

theorem Full.aluEbGb {s : State} (h : Full s) (op : AluOp) (rm : RM8) (r : Reg8) : Full (aluEbGb op rm r s) :=
  (h.readPlace8 _).aluTo8 _ _ _ _

theorem Full.aluEwGw {s : State} (h : Full s) (op : AluOp) (rm : RM16) (r : Reg16) : Full (aluEwGw op rm r s) :=
  (h.readPlace16 _).aluTo16 _ _ _ _

theorem Full.aluGbEb {s : State} (h : Full s) (op : AluOp) (r : Reg8) (rm : RM8) : Full (aluGbEb op r rm s) :=
  (h.readPlace8 _).aluTo8 _ _ _ _

theorem Full.aluGwEw {s : State} (h : Full s) (op : AluOp) (r : Reg16) (rm : RM16) : Full (aluGwEw op r rm s) :=
  (h.readPlace16 _).aluTo16 _ _ _ _

theorem Full.aluAlIb {s : State} (h : Full s) (op : AluOp) (imm : Byte) : Full (aluAlIb op imm s) := h.aluTo8 _ _ _ _

theorem Full.aluAxIw {s : State} (h : Full s) (op : AluOp) (imm : Word) : Full (aluAxIw op imm s) := h.aluTo16 _ _ _ _

theorem Full.aluEbIb {s : State} (h : Full s) (op : AluOp) (rm : RM8) (imm : Byte) : Full (aluEbIb op rm imm s) :=
  (h.readPlace8 _).aluTo8 _ _ _ _

theorem Full.aluEwIw {s : State} (h : Full s) (op : AluOp) (rm : RM16) (imm : Word) : Full (aluEwIw op rm imm s) :=
  (h.readPlace16 _).aluTo16 _ _ _ _

theorem Full.popSreg {s : State} (h : Full s) (r : SReg) : Full (popSreg r s) := h.pop16.loadSreg r _

/-- Every instruction keeps the invariant. -/
theorem exec_keeps {s : State} (h : Full s) (i : Instr) : Keeps (exec i s) := by
  cases i with
  | addEbGb _ _ => exact h.aluEbGb _ _ _
  | addEwGw _ _ => exact h.aluEwGw _ _ _
  | addGbEb _ _ => exact h.aluGbEb _ _ _
  | addGwEw _ _ => exact h.aluGwEw _ _ _
  | addAlIb _ => exact h.aluAlIb _ _
  | addAxIw _ => exact h.aluAxIw _ _
  | orEbGb _ _ => exact h.aluEbGb _ _ _
  | orEwGw _ _ => exact h.aluEwGw _ _ _
  | orGbEb _ _ => exact h.aluGbEb _ _ _
  | orGwEw _ _ => exact h.aluGwEw _ _ _
  | orAlIb _ => exact h.aluAlIb _ _
  | orAxIw _ => exact h.aluAxIw _ _
  | adcEbGb _ _ => exact h.aluEbGb _ _ _
  | adcEwGw _ _ => exact h.aluEwGw _ _ _
  | adcGbEb _ _ => exact h.aluGbEb _ _ _
  | adcGwEw _ _ => exact h.aluGwEw _ _ _
  | adcAlIb _ => exact h.aluAlIb _ _
  | adcAxIw _ => exact h.aluAxIw _ _
  | sbbEbGb _ _ => exact h.aluEbGb _ _ _
  | sbbEwGw _ _ => exact h.aluEwGw _ _ _
  | sbbGbEb _ _ => exact h.aluGbEb _ _ _
  | sbbGwEw _ _ => exact h.aluGwEw _ _ _
  | sbbAlIb _ => exact h.aluAlIb _ _
  | sbbAxIw _ => exact h.aluAxIw _ _
  | andEbGb _ _ => exact h.aluEbGb _ _ _
  | andEwGw _ _ => exact h.aluEwGw _ _ _
  | andGbEb _ _ => exact h.aluGbEb _ _ _
  | andGwEw _ _ => exact h.aluGwEw _ _ _
  | andAlIb _ => exact h.aluAlIb _ _
  | andAxIw _ => exact h.aluAxIw _ _
  | subEbGb _ _ => exact h.aluEbGb _ _ _
  | subEwGw _ _ => exact h.aluEwGw _ _ _
  | subGbEb _ _ => exact h.aluGbEb _ _ _
  | subGwEw _ _ => exact h.aluGwEw _ _ _
  | subAlIb _ => exact h.aluAlIb _ _
  | subAxIw _ => exact h.aluAxIw _ _
  | xorEbGb _ _ => exact h.aluEbGb _ _ _
  | xorEwGw _ _ => exact h.aluEwGw _ _ _
  | xorGbEb _ _ => exact h.aluGbEb _ _ _
  | xorGwEw _ _ => exact h.aluGwEw _ _ _
  | xorAlIb _ => exact h.aluAlIb _ _
  | xorAxIw _ => exact h.aluAxIw _ _
  | cmpEbGb _ _ => exact h.aluEbGb _ _ _
  | cmpEwGw _ _ => exact h.aluEwGw _ _ _
  | cmpGbEb _ _ => exact h.aluGbEb _ _ _
  | cmpGwEw _ _ => exact h.aluGwEw _ _ _
  | cmpAlIb _ => exact h.aluAlIb _ _
  | cmpAxIw _ => exact h.aluAxIw _ _
  | incReg16 _ => exact h.modifyReg16 _ _
  | decReg16 _ => exact h.modifyReg16 _ _
  | pushReg16 _ => exact (h.setReg16 _ _).write16 _ _ _
  | popReg16 _ => exact h.pop16.setReg16 _ _
  | joAlias _ => exact h.jumpIf _ _
  | jnoAlias _ => exact h.jumpIf _ _
  | jbAlias _ => exact h.jumpIf _ _
  | jnbAlias _ => exact h.jumpIf _ _
  | jzAlias _ => exact h.jumpIf _ _
  | jnzAlias _ => exact h.jumpIf _ _
  | jbeAlias _ => exact h.jumpIf _ _
  | jaAlias _ => exact h.jumpIf _ _
  | jsAlias _ => exact h.jumpIf _ _
  | jnsAlias _ => exact h.jumpIf _ _
  | jpAlias _ => exact h.jumpIf _ _
  | jnpAlias _ => exact h.jumpIf _ _
  | jlAlias _ => exact h.jumpIf _ _
  | jgeAlias _ => exact h.jumpIf _ _
  | jleAlias _ => exact h.jumpIf _ _
  | jgAlias _ => exact h.jumpIf _ _
  | jo _ => exact h.jumpIf _ _
  | jno _ => exact h.jumpIf _ _
  | jb _ => exact h.jumpIf _ _
  | jnb _ => exact h.jumpIf _ _
  | jz _ => exact h.jumpIf _ _
  | jnz _ => exact h.jumpIf _ _
  | jbe _ => exact h.jumpIf _ _
  | ja _ => exact h.jumpIf _ _
  | js _ => exact h.jumpIf _ _
  | jns _ => exact h.jumpIf _ _
  | jp _ => exact h.jumpIf _ _
  | jnp _ => exact h.jumpIf _ _
  | jl _ => exact h.jumpIf _ _
  | jge _ => exact h.jumpIf _ _
  | jle _ => exact h.jumpIf _ _
  | jg _ => exact h.jumpIf _ _
  | addEbIb _ _ => exact h.aluEbIb _ _ _
  | orEbIb _ _ => exact h.aluEbIb _ _ _
  | adcEbIb _ _ => exact h.aluEbIb _ _ _
  | sbbEbIb _ _ => exact h.aluEbIb _ _ _
  | andEbIb _ _ => exact h.aluEbIb _ _ _
  | subEbIb _ _ => exact h.aluEbIb _ _ _
  | xorEbIb _ _ => exact h.aluEbIb _ _ _
  | cmpEbIb _ _ => exact h.aluEbIb _ _ _
  | addEwIw _ _ => exact h.aluEwIw _ _ _
  | orEwIw _ _ => exact h.aluEwIw _ _ _
  | adcEwIw _ _ => exact h.aluEwIw _ _ _
  | sbbEwIw _ _ => exact h.aluEwIw _ _ _
  | andEwIw _ _ => exact h.aluEwIw _ _ _
  | subEwIw _ _ => exact h.aluEwIw _ _ _
  | xorEwIw _ _ => exact h.aluEwIw _ _ _
  | cmpEwIw _ _ => exact h.aluEwIw _ _ _
  | addEbIb82 _ _ => exact h.aluEbIb _ _ _
  | orEbIb82 _ _ => exact h.aluEbIb _ _ _
  | adcEbIb82 _ _ => exact h.aluEbIb _ _ _
  | sbbEbIb82 _ _ => exact h.aluEbIb _ _ _
  | andEbIb82 _ _ => exact h.aluEbIb _ _ _
  | subEbIb82 _ _ => exact h.aluEbIb _ _ _
  | xorEbIb82 _ _ => exact h.aluEbIb _ _ _
  | cmpEbIb82 _ _ => exact h.aluEbIb _ _ _
  | addEwIs _ _ => exact h.aluEwIw _ _ _
  | orEwIs _ _ => exact h.aluEwIw _ _ _
  | adcEwIs _ _ => exact h.aluEwIw _ _ _
  | sbbEwIs _ _ => exact h.aluEwIw _ _ _
  | andEwIs _ _ => exact h.aluEwIw _ _ _
  | subEwIs _ _ => exact h.aluEwIw _ _ _
  | xorEwIs _ _ => exact h.aluEwIw _ _ _
  | cmpEwIs _ _ => exact h.aluEwIw _ _ _
  | testEbGb _ _ => exact (h.readPlace8 _).alu8 _ _ _
  | testEwGw _ _ => exact (h.readPlace16 _).alu16 _ _ _
  | xchgGbEb _ _ => exact ((h.readPlace8 _).writePlace8 _ _).setReg8 _ _
  | xchgGwEw _ _ => exact ((h.readPlace16 _).writePlace16 _ _).setReg16 _ _
  | movEbGb _ _ => exact h.writePlace8 _ _
  | movEwGw _ _ => exact h.writePlace16 _ _
  | movGbEb _ _ => exact (h.readPlace8 _).setReg8 _ _
  | movGwEw _ _ => exact (h.readPlace16 _).setReg16 _ _
  | movEwSw _ _ _ => exact h.writePlace16 _ _
  | leaM0 _ _ => exact h.setReg16 _ _
  | leaM1 _ _ => exact h.setReg16 _ _
  | leaM2 _ _ => exact h.setReg16 _ _
  | leaReg _ _ => exact True.intro
  | movSwEw _ _ _ => exact (h.readPlace16 _).loadSreg _ _
  | popEw _ _ => exact h.pop16.writePlace16 _ _
  | callFar _ _ => exact h.callFarTo _ _
  | movAlOb _ => exact (h.read8 _ _).setReg8 _ _
  | movAxOw _ => exact (h.read16 _ _).setReg16 _ _
  | movObAl _ => exact h.write8 _ _ _
  | movOwAx _ => exact h.write16 _ _ _
  | testAlIb _ => exact h.alu8 _ _ _
  | testAxIw _ => exact h.alu16 _ _ _
  | movReg8Ib _ _ => exact h.setReg8 _ _
  | movReg16Iw _ _ => exact h.setReg16 _ _
  | retIwAlias _ => exact h.returnNear _
  | retIw _ => exact h.returnNear _
  | lesM0 _ _ => exact h.loadFar (sr := .es) nofun _ _
  | lesM1 _ _ => exact h.loadFar (sr := .es) nofun _ _
  | lesM2 _ _ => exact h.loadFar (sr := .es) nofun _ _
  | lesReg _ _ => exact True.intro
  | ldsM0 _ _ => exact h.loadFar (sr := .ds) nofun _ _
  | ldsM1 _ _ => exact h.loadFar (sr := .ds) nofun _ _
  | ldsM2 _ _ => exact h.loadFar (sr := .ds) nofun _ _
  | ldsReg _ _ => exact True.intro
  | movEbIb _ _ _ => exact h.writePlace8 _ _
  | movEwIw _ _ _ => exact h.writePlace16 _ _
  | retfIwAlias _ => exact h.returnFar _
  | retfIw _ => exact h.returnFar _
  | intIb _ => exact h.interrupt _ _
  | rolEb1 _ => exact h.shiftEb _ _ _
  | rorEb1 _ => exact h.shiftEb _ _ _
  | rclEb1 _ => exact h.shiftEb _ _ _
  | rcrEb1 _ => exact h.shiftEb _ _ _
  | shlEb1 _ => exact h.shiftEb _ _ _
  | shrEb1 _ => exact h.shiftEb _ _ _
  | setmoEb1 _ => exact h.setmoEb _
  | sarEb1 _ => exact h.shiftEb _ _ _
  | rolEw1 _ => exact h.shiftEw _ _ _
  | rorEw1 _ => exact h.shiftEw _ _ _
  | rclEw1 _ => exact h.shiftEw _ _ _
  | rcrEw1 _ => exact h.shiftEw _ _ _
  | shlEw1 _ => exact h.shiftEw _ _ _
  | shrEw1 _ => exact h.shiftEw _ _ _
  | setmoEw1 _ => exact h.setmoEw _
  | sarEw1 _ => exact h.shiftEw _ _ _
  | rolEbCl _ => exact h.shiftEb _ _ _
  | rorEbCl _ => exact h.shiftEb _ _ _
  | rclEbCl _ => exact h.shiftEb _ _ _
  | rcrEbCl _ => exact h.shiftEb _ _ _
  | shlEbCl _ => exact h.shiftEb _ _ _
  | shrEbCl _ => exact h.shiftEb _ _ _
  | setmocEbCl _ => exact Full.ite (c := s.clCount = 0) h (h.setmoEb _)
  | sarEbCl _ => exact h.shiftEb _ _ _
  | rolEwCl _ => exact h.shiftEw _ _ _
  | rorEwCl _ => exact h.shiftEw _ _ _
  | rclEwCl _ => exact h.shiftEw _ _ _
  | rcrEwCl _ => exact h.shiftEw _ _ _
  | shlEwCl _ => exact h.shiftEw _ _ _
  | shrEwCl _ => exact h.shiftEw _ _ _
  | setmocEwCl _ => exact Full.ite (c := s.clCount = 0) h (h.setmoEw _)
  | sarEwCl _ => exact h.shiftEw _ _ _
  | aam _ => exact h.aamBy _
  | aad _ => exact h.aadBy _
  | esc _ _ _ => exact h.escape _
  | loopnz _ => exact h.loopIf _ _
  | loopz _ => exact h.loopIf _ _
  | loop _ => exact h.loopIf _ _
  | jcxz _ => exact h.jumpIf _ _
  | inAlIb _ => exact (h.in8 _).setReg8 _ _
  | inAxIb _ => exact (h.in16 _).setReg16 _ _
  | outIbAl _ => exact h.out8 _ _
  | outIbAx _ => exact h.out16 _ _
  | callRel16 _ => exact (h.push16 _).jumpBy _
  | jmpRel16 _ => exact h.jumpBy _
  | jmpFar _ _ => exact h.jumpFar _ _
  | jmpRel8 _ => exact h.jumpBy _
  | testEbIb _ _ => exact (h.readPlace8 _).alu8 _ _ _
  | testEbIbAlias _ _ => exact (h.readPlace8 _).alu8 _ _ _
  | notEb _ => exact h.modifyEb _ _
  | negEb _ => exact h.modifyEb _ _
  | mulEb _ => exact Keeps.unlessRepeated (h.withEb (fun _ _ ht => ht.mulBy8 _) _)
  | imulEb _ => exact Keeps.unlessRepeated (h.withEb (fun _ _ ht => ht.imulBy8 _) _)
  | divEb _ => exact Keeps.unlessRepeated (h.withEb (fun _ _ ht => ht.divBy8 _) _)
  | idivEb _ => exact Keeps.unlessRepeated (h.withEb (fun _ _ ht => ht.idivBy8 _) _)
  | testEwIw _ _ => exact (h.readPlace16 _).alu16 _ _ _
  | testEwIwAlias _ _ => exact (h.readPlace16 _).alu16 _ _ _
  | notEw _ => exact h.modifyEw _ _
  | negEw _ => exact h.modifyEw _ _
  | mulEw _ => exact Keeps.unlessRepeated (h.withEw (fun _ _ ht => ht.mulBy16 _) _)
  | imulEw _ => exact Keeps.unlessRepeated (h.withEw (fun _ _ ht => ht.imulBy16 _) _)
  | divEw _ => exact Keeps.unlessRepeated (h.withEw (fun _ _ ht => ht.divBy16 _) _)
  | idivEw _ => exact Keeps.unlessRepeated (h.withEw (fun _ _ ht => ht.idivBy16 _) _)
  | incEb _ => exact h.modifyEb _ _
  | decEb _ => exact h.modifyEb _ _
  | grp4op2 _ => exact True.intro
  | grp4op3 _ => exact True.intro
  | grp4op4 _ => exact True.intro
  | grp4op5 _ => exact True.intro
  | grp4op6 _ => exact True.intro
  | grp4op7 _ => exact True.intro
  | incEw _ => exact h.modifyEw _ _
  | decEw _ => exact h.modifyEw _ _
  | callEw _ => exact ((h.readPlace16 _).push16 _).callTo _
  | jmpEw _ => exact (h.readPlace16 _).jumpTo _
  | pushEw _ => exact (h.readPlace16 _).push16 _
  | pushEwAlias _ => exact (h.readPlace16 _).push16 _
  | callMpM0 _ => exact (h.readFar _).callFarTo _ _
  | callMpM1 _ => exact (h.readFar _).callFarTo _ _
  | callMpM2 _ => exact (h.readFar _).callFarTo _ _
  | callReg _ => exact True.intro
  | jmpMpM0 _ => exact (h.readFar _).jumpFar _ _
  | jmpMpM1 _ => exact (h.readFar _).jumpFar _ _
  | jmpMpM2 _ => exact (h.readFar _).jumpFar _ _
  | jmpReg _ => exact True.intro
  | pushEs => exact h.push16 _
  | pushCs => exact h.push16 _
  | pushSs => exact h.push16 _
  | pushDs => exact h.push16 _
  | popEs => exact h.popSreg _
  | popCs => exact h.popSreg _
  | popSs => exact h.popSreg _
  | popDs => exact h.popSreg _
  | segEs => exact h.withEu _
  | segCs => exact h.withEu _
  | segSs => exact h.withEu _
  | segDs => exact h.withEu _
  | daa => exact h.decimalAdjustAl _
  | das => exact h.decimalAdjustAl _
  | aaa => exact h.asciiAdjustAx _
  | aas => exact h.asciiAdjustAx _
  | nop => exact h
  | xchgAxCx => exact (h.setReg16 _ _).setReg16 _ _
  | xchgAxDx => exact (h.setReg16 _ _).setReg16 _ _
  | xchgAxBx => exact (h.setReg16 _ _).setReg16 _ _
  | xchgAxSp => exact (h.setReg16 _ _).setReg16 _ _
  | xchgAxBp => exact (h.setReg16 _ _).setReg16 _ _
  | xchgAxSi => exact (h.setReg16 _ _).setReg16 _ _
  | xchgAxDi => exact (h.setReg16 _ _).setReg16 _ _
  | cbw => exact h.internal.setReg16 _ _
  | cwd => exact h.internal.setReg16 _ _
  | wait => exact h.waitPoll
  | pushf => exact h.push16 _
  | popf => exact h.pop16.withFlags _
  | sahf => exact h.withFlags _
  | lahf => exact h.setReg8 _ _
  | movsb => exact h.stringStep _ (fun _ ht => ht.movsb)
  | movsw => exact h.stringStep _ (fun _ ht => ht.movsw)
  | cmpsb => exact h.stringStep _ (fun _ ht => ht.cmpsb)
  | cmpsw => exact h.stringStep _ (fun _ ht => ht.cmpsw)
  | stosb => exact h.stringStep _ (fun _ ht => ht.stosb)
  | stosw => exact h.stringStep _ (fun _ ht => ht.stosw)
  | lodsb => exact h.stringStep _ (fun _ ht => ht.lodsb)
  | lodsw => exact h.stringStep _ (fun _ ht => ht.lodsw)
  | scasb => exact h.stringStep _ (fun _ ht => ht.scasb)
  | scasw => exact h.stringStep _ (fun _ ht => ht.scasw)
  | retAlias => exact h.returnNear _
  | ret => exact h.returnNear _
  | retfAlias => exact h.returnFar _
  | retf => exact h.returnFar _
  | int3 => exact h.interrupt _ _
  | into => exact Full.ite (c := s.flags.of = true) (h.interrupt _ _) h
  | iret => exact h.returnFromInterrupt
  | salc => exact h.setReg8 _ _
  | xlat => exact (h.read8 _ _).setReg8 _ _
  | inAlDx => exact (h.in8 _).setReg8 _ _
  | inAxDx => exact (h.in16 _).setReg16 _ _
  | outDxAl => exact h.out8 _ _
  | outDxAx => exact h.out16 _ _
  | lock => exact h.lockBus _ _
  | lockAlias => exact h.lockBus _ _
  | repne => exact h.withEu _
  | rep => exact h.withEu _
  | hlt => exact h.halt
  | cmc => exact h.withFlags _
  | clc => exact h.withFlags _
  | stc => exact h.withFlags _
  | cli => exact h.withFlags _
  | sti => exact h.of_eq rfl rfl rfl
  | cld => exact h.withFlags _
  | std => exact h.withFlags _

end Sys2Proof.Machine
end

