-- ==== Sys2Proof/Laws/Ports.lean ====
section
/-! SUPPORT. Port accesses: what one answers, and that only the port's device reacts to it. -/

namespace Sys2Proof.Machine

theorem Dma.read_wants (d : Dma) (r : BitVec 4) (c : BitVec 2) : (d.read r).2.wants c = d.wants c := by
  unfold Dma.read
  split
  · split <;> rfl
  · rfl

theorem portRead_quiet {y : Sys} (hq : y.Quiet) (port : Word) : (portRead y port).2.Quiet := by
  unfold portRead
  split
  · unfold Sys.Quiet at hq ⊢
    simp only [Dma.read_wants]
    exact hq
  · exact hq
  · exact hq
  · exact hq
  · split
    · exact hq
    · exact hq
    · unfold Sys.readPortC; split <;> exact hq
    · exact hq
  · exact hq
  · exact hq
  · exact hq
  · exact hq

/-! ## Memory through a port access -/

/-- What memory holds: RAM, the ROM images, the map, display memory without the read latches. -/
def Sys.contents (y : Sys) : (Params × Sparse Byte × Sparse Byte) × (Sparse Byte × EgaPlanes) :=
  ((y.cfg, y.ram, y.rom), (y.video.cga.vram, y.video.ega.planes.still))

theorem sameMemory_of_contents {y z : Sys} (h : z.contents = y.contents) : SameMemory y z := by
  simp only [Sys.contents, Prod.mk.injEq] at h
  obtain ⟨⟨h1, h2, h3⟩, h4, h5⟩ := h
  refine ⟨fun a ha => ?_, h4, h5⟩
  simp only [peekByte, busRead, h1, Sys.ramByte, Sys.romByte, h2, h3]
  split
  · rfl
  · rfl
  · rename_i hk; exact absurd hk ha
  · rfl

theorem contents_of_still {y z : Sys} (h : z.still = y.still) : z.contents = y.contents := by
  have := congrArg (fun x : Sys => ((x.cfg, x.ram, x.rom), (x.video.cga.vram, x.video.ega.planes))) h
  exact this

theorem portRead_contents (y : Sys) (port : Word) : (portRead y port).2.contents = y.contents := by
  unfold portRead
  split
  · rfl
  · rfl
  · rfl
  · rfl
  · split
    · rfl
    · rfl
    · unfold Sys.readPortC; split <;> rfl
    · rfl
  · rfl
  · dsimp only [Sys.contents, Video.readPort]
    split
    · rfl
    · rfl
    · exact congrArg (fun p : EgaPlanes => ((y.cfg, y.ram, y.rom), (y.video.cga.vram, p.still))) (ega_readPort_mem _ _ _ _).1
    · exact congrArg (fun p : EgaPlanes => ((y.cfg, y.ram, y.rom), (y.video.cga.vram, p.still))) (ega_readPort_mem _ _ _ _).1
  · rfl
  · rfl

theorem portWrite_contents (y : Sys) (port : Word) (v : Byte) : (portWrite y port v).contents = y.contents := by
  unfold portWrite
  split
  · rfl
  · rfl
  · rfl
  · rfl
  · split <;> rfl
  · rfl
  · dsimp only [Sys.contents, Video.writePort]
    split
    · rfl
    · exact congrArg (fun m : Sparse Byte => ((y.cfg, y.ram, y.rom), (m, y.video.ega.planes.still))) (cga_writePort_vram _ _ _)
    · exact congrArg (fun p : EgaPlanes => ((y.cfg, y.ram, y.rom), (y.video.cga.vram, p.still))) (ega_writePort_mem _ _ _ _).1
    · exact congrArg (fun p : EgaPlanes => ((y.cfg, y.ram, y.rom), (y.video.cga.vram, p.still))) (ega_writePort_mem _ _ _ _).1
  · rfl
  · rfl

theorem portRead_sameMemory {w y z : Sys} {port : Word} (h : w.still = y.still) (k : z.still = (portRead w port).2.still) :
    SameMemory y z :=
  sameMemory_of_contents ((contents_of_still k).trans ((portRead_contents w port).trans (contents_of_still h)))

theorem portWrite_sameMemory {w y z : Sys} {port : Word} {v : Byte} (h : w.still = y.still)
    (k : z.still = (portWrite w port v).still) : SameMemory y z :=
  sameMemory_of_contents ((contents_of_still k).trans ((portWrite_contents w port v).trans (contents_of_still h)))

/-! ## The accesses -/

/-- The request of a port byte reaches that port. -/
theorem State.portRequest_port (s : State) (op : BusOp) (port : Word) (b : Byte) : (s.portRequest op port b).addr.setWidth 16 = port := by
  simp [State.portRequest]

theorem Sys.euCycle_ioRead (s : State) {y : Sys} (hq : y.Quiet) (cs port : Word) :
    let x := y.euCycle cs (s.portRequest .ioRead port 0#8)
    PortRead y x.2 port x.1 ∧ x.2.Quiet := by
  obtain ⟨z, hz, h1, h2⟩ := Sys.euCycle_eq hq cs (s.portRequest .ioRead port 0#8)
  have ht : transfer z (s.portRequest .ioRead port 0#8) = portRead z port := by
    show portRead z ((s.portRequest .ioRead port 0#8).addr.setWidth 16) = _
    rw [State.portRequest_port]
  rw [ht] at h1 h2
  exact ⟨⟨z, hz, h1, h2, portRead_sameMemory hz h2⟩, Sys.quiet_of_still h2 (portRead_quiet (Sys.quiet_of_still hz hq) port)⟩

theorem PortRead.trans_still {y z w : Sys} {port : Word} {v : Byte} (h : PortRead y z port v) (k : w.still = z.still) :
    PortRead y w port v := by
  obtain ⟨u, h1, h2, h3, _⟩ := h; exact ⟨u, h1, h2, k.trans h3, portRead_sameMemory h1 (k.trans h3)⟩

theorem PortRead.still_trans {y z w : Sys} {port : Word} {v : Byte} (k : z.still = y.still) (h : PortRead z w port v) :
    PortRead y w port v := by
  obtain ⟨u, h1, h2, h3, _⟩ := h; exact ⟨u, h1.trans k, h2, h3, portRead_sameMemory (h1.trans k) h3⟩

theorem State.in8_spec {s : State} (hq : s.sys.Quiet) (port : Word) : PortRead s.sys (s.in8 port).2.sys port (s.in8 port).1 := by
  obtain ⟨h, q⟩ := Sys.euCycle_ioRead s hq s.sregs.cs port
  exact h.trans_still (Sys.euEnd_still q s.sregs.cs)

theorem Sys.access2_ioRead (s : State) {y : Sys} (hq : y.Quiet) (cs port : Word) :
    let x := y.access2 cs (s.portRequest .ioRead port 0#8) (s.portRequest .ioRead (port + 1#16) 0#8)
    ∃ m, PortRead y m port x.1 ∧ PortRead m x.2.2 (port + 1#16) x.2.1 := by
  obtain ⟨h, q⟩ := Sys.euCycle_ioRead s hq cs port
  unfold Sys.access2
  dsimp only at h q ⊢
  generalize y.euCycle cs (s.portRequest .ioRead port 0#8) = x at h q ⊢
  have e : x.2.microDone.still = x.2.still := rfl
  obtain ⟨h', q'⟩ := Sys.euCycle_ioRead s (Sys.quiet_of_still e q) cs (port + 1#16)
  exact ⟨x.2.microDone, h.trans_still e, h'.trans_still (Sys.euEnd_still q' cs)⟩

theorem State.in16_spec {s : State} (hq : s.sys.Quiet) (port : Word) :
    ∃ m, PortRead s.sys m port (loByte (s.in16 port).1) ∧ PortRead m (s.in16 port).2.sys (port + 1#16) (hiByte (s.in16 port).1) := by
  have h := Sys.access2_ioRead s hq s.sregs.cs port
  unfold State.in16 State.readVia2
  dsimp only at h ⊢
  rw [loByte_word, hiByte_word]
  exact h

theorem Sys.euCycle_ioWrite (s : State) {y : Sys} (hq : y.Quiet) (cs port : Word) (v : Byte) :
    ∃ w, w.still = y.still ∧ (y.euCycle cs (s.portRequest .ioWrite port v)).2.still = (portWrite w port v).still := by
  obtain ⟨z, hz, h1, h2⟩ := Sys.euCycle_eq hq cs (s.portRequest .ioWrite port v)
  have ht : (transfer z (s.portRequest .ioWrite port v)).2 = portWrite z port v := by
    show portWrite z ((s.portRequest .ioWrite port v).addr.setWidth 16) v = _
    rw [State.portRequest_port]
  rw [ht] at h2
  exact ⟨z, hz, h2⟩

theorem PortWrote.of {w y z : Sys} {port : Word} {v : Byte} (h : w.still = y.still)
    (k : (portWrite w port v).Quiet → z.still = (portWrite w port v).still) : PortWrote y z port v :=
  ⟨w, h, fun q => ⟨k q, portWrite_sameMemory h (k q)⟩⟩

theorem State.out8_spec {s : State} (hq : s.sys.Quiet) (port : Word) (v : Byte) : PortWrote s.sys (s.out8 port v).sys port v := by
  obtain ⟨w, hw, h⟩ := Sys.euCycle_ioWrite s hq s.sregs.cs port v
  exact PortWrote.of hw (fun q => (Sys.euEnd_still (Sys.quiet_of_still h q) s.sregs.cs).trans h)

theorem Sys.access2_ioWrite (s : State) {y : Sys} (hq : y.Quiet) (cs port : Word) (a b : Byte) :
    let x := y.access2 cs (s.portRequest .ioWrite port a) (s.portRequest .ioWrite (port + 1#16) b)
    ∃ m, PortWrote y m port a ∧ (m.Quiet → PortWrote m x.2.2 (port + 1#16) b) := by
  obtain ⟨w, hw, h⟩ := Sys.euCycle_ioWrite s hq cs port a
  unfold Sys.access2
  dsimp only at h ⊢
  generalize y.euCycle cs (s.portRequest .ioWrite port a) = x at h ⊢
  have e : x.2.microDone.still = x.2.still := rfl
  refine ⟨x.2.microDone, PortWrote.of hw (fun _ => e.trans h), fun q => ?_⟩
  obtain ⟨u, hu, h'⟩ := Sys.euCycle_ioWrite s q cs (port + 1#16) b
  exact PortWrote.of hu (fun q' => (Sys.euEnd_still (Sys.quiet_of_still h' q') cs).trans h')

theorem State.out16_spec {s : State} (hq : s.sys.Quiet) (port v : Word) :
    ∃ m, PortWrote s.sys m port (loByte v) ∧ (m.Quiet → PortWrote m (s.out16 port v).sys (port + 1#16) (hiByte v)) :=
  Sys.access2_ioWrite s hq s.sregs.cs port (loByte v) (hiByte v)

end Sys2Proof.Machine
end

