-- ==== Sys2Proof/Laws/Run.lean ====
section
/-! SUPPORT. Fetching a whole instruction, decoding it, running it, and the step around it. -/

namespace Sys2Proof.Machine

/-! ## Bytes that are one instruction -/

theorem parseRM_some {R : Type} (f : BitVec 3 → R) (b : Byte) {disp : List Byte} (h : disp.length = dispLen b) :
    ∃ rm, ∀ rest, parseRM f b (disp ++ rest) = some (rm, rest) := by
  unfold dispLen at h
  unfold parseRM
  split at h
  · split at h
    · rename_i h6
      obtain ⟨x, y, rfl⟩ := List.length_eq_two.1 h
      exact ⟨.mem (.direct (wordOf x y)), fun rest => by simp [h6]⟩
    · rename_i h6
      cases List.eq_nil_of_length_eq_zero h
      exact ⟨.mem (.ind (EaBase.ofNum (rmField b))), fun rest => by simp [h6]⟩
  · obtain ⟨x, rfl⟩ := List.length_eq_one_iff.1 h
    exact ⟨_, fun rest => rfl⟩
  · obtain ⟨x, y, rfl⟩ := List.length_eq_two.1 h
    exact ⟨_, fun rest => rfl⟩
  · cases List.eq_nil_of_length_eq_zero h
    exact ⟨_, fun rest => rfl⟩

theorem takeImm8_some (k : Byte → Instr) {is : List Byte} (h : is.length = 1) :
    ∃ i, ∀ rest, takeImm8 k (is ++ rest) = .ok i rest := by
  obtain ⟨x, rfl⟩ := List.length_eq_one_iff.1 h
  exact ⟨_, fun _ => rfl⟩

theorem takeImm16_some (k : Word → Instr) {is : List Byte} (h : is.length = 2) :
    ∃ i, ∀ rest, takeImm16 k (is ++ rest) = .ok i rest := by
  obtain ⟨x, y, rfl⟩ := List.length_eq_two.1 h
  exact ⟨_, fun _ => rfl⟩

theorem takeRM_some {R : Type} (f : BitVec 3 → R) (k : BitVec 3 → RM R → List Byte → DecodeResult) (b : Byte)
    {disp is : List Byte} (h : disp.length = dispLen b)
    (hk : ∀ rm, ∃ i, ∀ rest, k (regField b) rm (is ++ rest) = .ok i rest) :
    ∃ i, ∀ rest, takeRM f k ([b] ++ disp ++ is ++ rest) = .ok i rest := by
  obtain ⟨rm, hrm⟩ := parseRM_some f b h
  obtain ⟨i, hi⟩ := hk rm
  refine ⟨i, fun rest => ?_⟩
  have : [b] ++ disp ++ is ++ rest = b :: (disp ++ (is ++ rest)) := by simp
  rw [this, takeRM, hrm]
  exact hi rest

/-- R185: an opcode byte with the bytes its format counts is one whole instruction, whatever follows. -/
theorem Shape.decode_plain {sh : Shape} (hs : sh.hasModRM = false) {is : List Byte} (h : is.length = sh.immLen 0#3) :
    ∃ i, ∀ rest, sh.decode (is ++ rest) = .ok i rest := by
  cases sh with
  | np i => cases List.eq_nil_of_length_eq_zero h; exact ⟨i, fun _ => rfl⟩
  | imm8 k => exact takeImm8_some k h
  | imm16 k => exact takeImm16_some k h
  | far k =>
    match is, h with
    | [a, b, c, d], _ => exact ⟨_, fun _ => rfl⟩
  | modrm8 k => cases hs
  | modrm16 k => cases hs
  | modrm8i8 k => cases hs
  | modrm16i16 k => cases hs
  | modrm16i8 k => cases hs
  | group3Eb => cases hs
  | group3Ew => cases hs

theorem Shape.decode_modrm {sh : Shape} (hs : sh.hasModRM = true) (b : Byte) {disp is : List Byte}
    (h : disp.length = dispLen b) (hi : is.length = sh.immLen (regField b)) :
    ∃ i, ∀ rest, sh.decode ([b] ++ disp ++ is ++ rest) = .ok i rest := by
  have nil : ∀ l : List Byte, l.length = 0 → l = [] := fun l hl => List.eq_nil_of_length_eq_zero hl
  cases sh with
  | np i => cases hs
  | imm8 k => cases hs
  | imm16 k => cases hs
  | far k => cases hs
  | modrm8 k => simp only [Shape.decode]; exact takeRM_some _ _ b h (fun rm => by cases nil _ hi; exact ⟨_, fun _ => rfl⟩)
  | modrm16 k => simp only [Shape.decode]; exact takeRM_some _ _ b h (fun rm => by cases nil _ hi; exact ⟨_, fun _ => rfl⟩)
  | modrm8i8 k => simp only [Shape.decode]; exact takeRM_some _ _ b h (fun rm => takeImm8_some _ hi)
  | modrm16i16 k => simp only [Shape.decode]; exact takeRM_some _ _ b h (fun rm => takeImm16_some _ hi)
  | modrm16i8 k => simp only [Shape.decode]; exact takeRM_some _ _ b h (fun rm => takeImm8_some _ hi)
  | group3Eb =>
    simp only [Shape.decode]
    refine takeRM_some _ _ b h (fun rm => ?_)
    simp only [Shape.immLen] at hi
    generalize (regField b).toNat = n at hi ⊢
    match n with
    | 0 => exact takeImm8_some _ hi
    | 1 => exact takeImm8_some _ hi
    | n + 2 =>
      rw [if_neg (by omega)] at hi
      cases nil _ hi
      exact ⟨_, fun _ => rfl⟩
  | group3Ew =>
    simp only [Shape.decode]
    refine takeRM_some _ _ b h (fun rm => ?_)
    simp only [Shape.immLen] at hi
    generalize (regField b).toNat = n at hi ⊢
    match n with
    | 0 => exact takeImm16_some _ hi
    | 1 => exact takeImm16_some _ hi
    | n + 2 =>
      rw [if_neg (by omega)] at hi
      cases nil _ hi
      exact ⟨_, fun _ => rfl⟩

theorem dispLen_le (b : Byte) : dispLen b ≤ 2 := by
  unfold dispLen; split <;> (try split) <;> omega

theorem immLen_le {sh : Shape} (reg : BitVec 3) (h : sh.hasModRM = true) : sh.immLen reg ≤ 2 := by
  cases sh with
  | np i => nomatch h
  | imm8 k => nomatch h
  | imm16 k => nomatch h
  | far k => nomatch h
  | modrm8 k => exact Nat.zero_le _
  | modrm16 k => exact Nat.zero_le _
  | modrm8i8 k => exact Nat.le_succ 1
  | modrm16i16 k => exact Nat.le_refl 2
  | modrm16i8 k => exact Nat.le_succ 1
  | group3Eb => simp only [Shape.immLen]; split <;> omega
  | group3Ew => simp only [Shape.immLen]; split <;> omega

theorem immLen_le' {sh : Shape} (reg : BitVec 3) : sh.immLen reg ≤ 4 := by
  cases sh <;> (simp only [Shape.immLen]; (try split) <;> omega)

/-! ## Bytes taken -/

/-- The state after the instruction bytes `bs` have been taken. -/
structure Took (s t : State) (bs : List Byte) : Prop where
  full : Full t
  running : t.sys.halted = false
  regs : t.regs = s.regs
  flags : t.flags = s.flags
  sregs : t.sregs = s.sregs
  ip : t.ip = s.ip + BitVec.ofNat 16 bs.length
  control : SameControl s t
  code : s.sys.Quiet → t.sys.still = s.sys.still ∧ bs = s.codeBytes bs.length ∧
    ∀ k, t.codeByte k = s.codeByte (bs.length + k)

theorem Took.nil {s : State} (h : Full s) (hr : s.sys.halted = false) : Took s s [] :=
  ⟨h, hr, rfl, rfl, rfl, (BitVec.add_zero _).symm, SameControl.rfl' s, fun _ => ⟨rfl, rfl, fun k => by simp⟩⟩

theorem codeBytes_add (s : State) (m n : Nat) :
    s.codeBytes (m + n) = s.codeBytes m ++ (List.range n).map (fun k => s.codeByte (m + k)) := by
  unfold State.codeBytes
  rw [List.range_add, List.map_append, List.map_map]
  rfl

theorem Took.trans {s t u : State} {bs cs : List Byte} (h : Took s t bs) (k : Took t u cs) : Took s u (bs ++ cs) := by
  refine ⟨k.full, k.running, k.regs.trans h.regs, k.flags.trans h.flags, k.sregs.trans h.sregs, ?_,
    h.control.trans k.control, fun hq => ?_⟩
  · rw [k.ip, h.ip, List.length_append, BitVec.ofNat_add, BitVec.add_assoc]
  · obtain ⟨h1, h2, h3⟩ := h.code hq
    obtain ⟨k1, k2, k3⟩ := k.code (Sys.quiet_of_still h1 hq)
    refine ⟨k1.trans h1, ?_, fun n => ?_⟩
    · rw [List.length_append, codeBytes_add, ← h2]
      congr 1
      exact k2.trans (List.map_congr_left fun x _ => h3 x)
    · rw [k3, h3, List.length_append, Nat.add_assoc]

/-- R131. -/
theorem fetchByte_took {s : State} (h : Full s) (hr : s.sys.halted = false) :
    ∃ b t, s.fetchByte = some (b, t) ∧ Took s t [b] := by
  obtain ⟨x, hx⟩ := qfetch_some s.sys.stallBound h.bus h.calm hr (by unfold Sys.stallBound; omega)
    (fun _ => due_lt_stallBound h.bus.at'.bus)
  have hf := qfetch_full _ h.bus h.calm hx
  refine ⟨x.1, { s with sys := x.2, ip := s.ip + 1#16 }, by rw [State.fetchByte_eq, hx]; rfl,
    ⟨memWf_qfetch h.1 hx, hf.1, hf.2.1⟩, (congrArg (fun x => x.2.2) hf.2.2).trans hr, rfl, rfl, rfl, rfl,
    ⟨rfl, rfl, rfl, rfl, rfl, rfl, rfl, rfl⟩, fun hq => ?_⟩
  have hc := qfetch_code _ h.bus h.calm hq hx
  refine ⟨hc.2.1, ?_, fun k => ?_⟩
  · rw [hc.1]; rfl
  · rw [Nat.add_comm]; exact hc.2.2 k

theorem fetchBytes_took (n : Nat) (got : List Byte) {s : State} (h : Full s) (hr : s.sys.halted = false) :
    ∃ bs t, State.fetchBytes n got s = some (got ++ bs, t) ∧ bs.length = n ∧ Took s t bs := by
  induction n generalizing got s with
  | zero => exact ⟨[], s, by simp [State.fetchBytes], rfl, Took.nil h hr⟩
  | succ n ih =>
    obtain ⟨b, t, e, k⟩ := fetchByte_took h hr
    obtain ⟨bs, u, e', hl, k'⟩ := ih (got ++ [b]) k.full k.running
    refine ⟨b :: bs, u, ?_, by simp [hl], k.trans k'⟩
    unfold State.fetchBytes
    rw [e]
    dsimp only
    rw [e']
    simp

theorem tickN_codeByte {cs ip : Word} (n : Nat) {y : Sys} (hb : BusIn cs ip y) (hc : Calm false y) (hq : y.Quiet) (k : Nat) :
    (y.tickN cs n).codeByte cs ip k = y.codeByte cs ip k := by
  induction n generalizing y with
  | zero => rfl
  | succ n ih =>
    exact (ih hb.tick (hc.tick cs) (Sys.quiet_of_still (Sys.tick_still hq cs) hq)).trans (tick_codeByte hb.at' hc hq k)

theorem internal_codeByte {cs ip : Word} (n : Nat) {y : Sys} (hb : BusIn cs ip y) (hc : Calm false y) (hq : y.Quiet) (k : Nat) :
    (Sys.internal cs n y).codeByte cs ip k = y.codeByte cs ip k :=
  (codeByte_of_eq (y := y.tickN cs n) (z := Sys.internal cs n y) rfl rfl cs ip k).trans (tickN_codeByte n hb hc hq k)

theorem tickN_fixed (cs : Word) (n : Nat) (y : Sys) : (y.tickN cs n).fixed = y.fixed := by
  induction n generalizing y with
  | zero => rfl
  | succ n ih => exact (ih (y.tick cs)).trans (tick_fixed y cs)

/-- A change of the EU's latches: no byte is taken. -/
theorem withEu_took {s : State} (u : Eu) (h : Full s) (hr : s.sys.halted = false) (hc : SameControl s { s with eu := u }) :
    Took s { s with eu := u } [] :=
  ⟨h.withEu u, hr, rfl, rfl, rfl, (BitVec.add_zero _).symm, hc, fun _ => ⟨rfl, rfl, fun k => by simp [State.codeByte]⟩⟩

/-- A micro-operation without bus activity: no byte is taken. -/
theorem spend_took {s : State} (n : Nat) (h : Full s) (hr : s.sys.halted = false) : Took s (s.spend n) [] := by
  refine ⟨h.spend n, ?_, rfl, rfl, rfl, (BitVec.add_zero _).symm, ⟨rfl, rfl, rfl, rfl, rfl, rfl, rfl, rfl⟩,
    fun hq => ⟨State.spend_still hq n, rfl, fun k => ?_⟩⟩
  · exact (congrArg (fun x => x.2.2) (tickN_fixed s.sregs.cs n s.sys)).trans hr
  · rw [List.length_nil, Nat.zero_add]
    exact internal_codeByte n h.bus h.calm hq k

theorem beginOpcode_took {s : State} (b : Byte) (h : Full s) (hr : s.sys.halted = false) : Took s (s.beginOpcode b) [] :=
  withEu_took _ h hr ⟨rfl, rfl, rfl, rfl, rfl, rfl, rfl, rfl⟩

theorem noteModRM_took {s : State} (b : Byte) (h : Full s) (hr : s.sys.halted = false) : Took s (s.noteModRM b) [] :=
  withEu_took _ h hr ⟨rfl, rfl, rfl, rfl, rfl, rfl, rfl, rfl⟩

theorem eaStep_took {s : State} (modrm : Byte) (disp : List Byte) (h : Full s) (hr : s.sys.halted = false) :
    Took s (s.eaStep modrm disp) [] := by
  unfold State.eaStep
  split
  · rename_i m _ _
    have k := withEu_took { s.eu with ea := s.effAddr m } h hr ⟨rfl, rfl, rfl, rfl, rfl, rfl, rfl, rfl⟩
    exact k.trans (spend_took _ k.full k.running)
  · exact Took.nil h hr

/-- R132, R185: the bytes fetched are one whole instruction. -/
theorem fetchCode_took {s : State} (h : Full s) (hr : s.sys.halted = false) :
    ∃ bs t i, s.fetchCode = some (bs, t) ∧ bs.length ≤ 6 ∧ Took s t bs ∧ ∀ rest, decode (bs ++ rest) = .ok i rest := by
  obtain ⟨b, t, e, k0⟩ := fetchByte_took h hr
  have k := k0.trans (beginOpcode_took b k0.full k0.running)
  rw [List.append_nil] at k
  unfold State.fetchCode
  rw [e]
  dsimp only
  by_cases hm : (shapeOf b).hasModRM = true
  · rw [if_pos hm]
    obtain ⟨m, t1, e1, k1⟩ := fetchByte_took k.full k.running
    have kn := noteModRM_took m k1.full k1.running
    obtain ⟨disp, t2, e2, hl2, k2⟩ := fetchBytes_took (dispLen m) [] kn.full kn.running
    have k3 := eaStep_took m disp k2.full k2.running
    have em : (t.beginOpcode b).fetchModRM [b] = some (regField m, [b] ++ [m] ++ disp, t2.eaStep m disp) := by
      unfold State.fetchModRM
      rw [e1]
      dsimp only
      rw [e2]
      rfl
    rw [em]
    dsimp only
    obtain ⟨is, t4, e4, hl4, k4⟩ := fetchBytes_took ((shapeOf b).immLen (regField m)) ([b] ++ [m] ++ disp) k3.full k3.running
    rw [e4]
    obtain ⟨i, hi⟩ := Shape.decode_modrm hm m hl2 hl4
    refine ⟨_, t4, i, rfl, ?_, ?_, fun rest => ?_⟩
    · have := dispLen_le m
      have := immLen_le (regField m) hm
      simp only [List.length_append, List.length_singleton]; omega
    · have := (((((k.trans k1).trans kn).trans k2).trans k3).trans k4)
      simpa using this
    · have e5 : [b] ++ [m] ++ disp ++ is ++ rest = b :: ([m] ++ disp ++ is ++ rest) := by simp
      rw [e5]; exact hi rest
  · have hm : (shapeOf b).hasModRM = false := by simpa using hm
    rw [if_neg (by rw [hm]; simp)]
    obtain ⟨is, t4, e4, hl4, k4⟩ := fetchBytes_took ((shapeOf b).immLen 0#3) [b] k.full k.running
    rw [e4]
    obtain ⟨i, hi⟩ := Shape.decode_plain hm hl4
    refine ⟨_, t4, i, rfl, ?_, k.trans k4, fun rest => ?_⟩
    · have := immLen_le' (sh := shapeOf b) 0#3
      simp only [List.length_append, List.length_singleton]; omega
    · exact hi rest

theorem fetchInstr_took {s : State} (h : Full s) (hr : s.sys.halted = false) :
    ∃ i t bs, s.fetchInstr = some (i, t) ∧ bs.length ≤ 6 ∧ Took s t bs ∧ ∀ rest, decode (bs ++ rest) = .ok i rest := by
  obtain ⟨bs, t, i, e, hl, k, hd⟩ := fetchCode_took h hr
  refine ⟨i, t, bs, ?_, hl, k, hd⟩
  unfold State.fetchInstr
  rw [e]
  have := hd []
  rw [List.append_nil] at this
  dsimp only
  rw [this]

/-- What the next six bytes decode to is the instruction fetched. -/
theorem fetchInstr_decodes {s : State} (h : Full s) (hr : s.sys.halted = false) (hq : s.sys.Quiet) {i : Instr} {rest : List Byte}
    (hd : decode (s.codeBytes 6) = .ok i rest) :
    ∃ t bs, s.fetchInstr = some (i, t) ∧ Took s t bs ∧ bs.length = 6 - rest.length ∧ rest.length ≤ 6 := by
  obtain ⟨j, t, bs, e, hl, k, hd'⟩ := fetchInstr_took h hr
  have hb := (k.code hq).2.1
  have h6 : s.codeBytes 6 = bs ++ (List.range (6 - bs.length)).map (fun k => s.codeByte (bs.length + k)) := by
    have := codeBytes_add s bs.length (6 - bs.length)
    rw [Nat.add_sub_cancel' hl, ← hb] at this
    exact this
  rw [h6, hd'] at hd
  cases hd
  refine ⟨t, bs, e, k, ?_, ?_⟩
  · simp only [List.length_map, List.length_range]; omega
  · simp only [List.length_map, List.length_range]; omega

/-! ## Running one instruction -/

theorem Full.setInstr {s : State} (h : Full s) (i : Instr) : Full (s.setInstr i) := h.withEu _

/-- A prefix byte neither halts nor transfers. -/
theorem prefix_next {i : Instr} (hp : isPrefixByte i = true) {s : State} (h : Full s) :
    ∃ t, exec i s = .next t ∧ Full t ∧ t.sys.halted = s.sys.halted := by
  cases i <;> simp only [isPrefixByte, reduceCtorEq] at hp <;> first
    | exact ⟨_, rfl, h.withEu _, rfl⟩
    | exact ⟨_, rfl, h.lockBus _ _, rfl⟩

theorem runInstr_keeps (n : Nat) {s : State} (h : Full s) (hr : s.sys.halted = false) : Keeps (runInstr n s) := by
  induction n generalizing s with
  | zero => exact h.withEu _
  | succ n ih =>
    obtain ⟨i, t, bs, e, -, k, -⟩ := fetchInstr_took h hr
    unfold runInstr
    rw [e]
    dsimp only
    split
    · rename_i hp
      obtain ⟨u, e', hu, hh⟩ := prefix_next hp (k.full.setInstr i)
      rw [e']
      exact ih hu (hh.trans k.running)
    · exact exec_keeps (k.full.setInstr i) i

/-- An answer that is no fault. -/
def NoFault : Out → Prop
  | .next _ => True
  | .fault _ => False
  | .refused _ => True

/-- No instruction ends in a fault: the 8088 never fails (R772). -/
theorem exec_noFault (i : Instr) (s : State) : NoFault (exec i s) := by
  have hu : ∀ k : State → State, NoFault (Machine.unlessRepeated s k) := by
    intro k; unfold Machine.unlessRepeated; split <;> exact True.intro
  cases i <;> first | exact True.intro | exact hu _

/-- Nothing starves: with the invariant no instruction waits for a byte in vain. -/
theorem runInstr_fed (n : Nat) {s : State} (h : Full s) (hr : s.sys.halted = false) : NoFault (runInstr n s) := by
  induction n generalizing s with
  | zero => exact True.intro
  | succ n ih =>
    obtain ⟨i, t, bs, e, -, k, -⟩ := fetchInstr_took h hr
    unfold runInstr
    rw [e]
    dsimp only
    split
    · rename_i hp
      obtain ⟨u, e', hu, hh⟩ := prefix_next hp (k.full.setInstr i)
      rw [e']
      exact ih hu (hh.trans k.running)
    · exact exec_noFault i _

/-! ## The step -/

theorem Full.retire {s : State} (h : Full s) : Full s.retire := by
  unfold State.retire; split
  · exact h
  · exact h.spend _

theorem Full.endStep {s : State} (h : Full s) (t0 : Nat) : Full (s.endStep t0) := by
  have h1 := h.lockBus false (s.eu.settle s.waitTpr)
  exact h1.of_sys rfl rfl (memWf_sampleLines h1.memory t0) rfl rfl

theorem Full.finish {s : State} (h : Full s) (t0 : Nat) : Full (s.finish t0) := by
  unfold State.finish; split
  · exact h
  · exact h.retire.endStep t0

theorem Full.beginInstr {s : State} (h : Full s) : Full s.beginInstr := h.of_sys rfl rfl h.memory rfl rfl

theorem Full.beginIteration {s : State} (h : Full s) : Full s.beginIteration :=
  (h.lockBus (s.waitTpr && s.eu.pfx.lock) { s.eu with opIndex := 0 }).of_sys rfl rfl h.memory rfl rfl

theorem Full.haltedStep {s : State} (h : Full s) : Full s.haltedStep :=
  Full.withEu (s := { s with sys := s.sys.tick s.sregs.cs }) ⟨memWf_tick h.1 _, h.2.tick, h.3.tick _⟩ _

theorem Full.afterTest {s : State} (h : Full s) : Full s.afterTest := by
  unfold State.afterTest
  split
  · exact h.of_sys rfl rfl h.memory rfl rfl
  · exact h
  · exact h.of_eq rfl rfl rfl
  · exact h.of_eq rfl rfl rfl

/-- An interrupt is entered from a state in order but for its fetch pointer, which the entry's flush sets anew. -/
theorem Full.enterEvent {s : State} (h : Full s) (e : Event) : Full (s.enterEvent e) := by
  have hw : Half s.wake := ⟨h.memory, false, h.calm.of_biu rfl⟩
  cases e with
  | nmi => exact hw.interrupt _ _
  | intr => exact Half.externalInterrupt (s := s.wake) hw.memory (h.calm.of_biu rfl)
  | trap => exact hw.interrupt _ _

theorem normalStep_keeps {s : State} (h : Full s) : Keeps (normalStep s) ∧ NoFault (normalStep s) := by
  have h1 : Full s.loadTrapLatch := h.of_eq rfl rfl rfl
  unfold normalStep
  split
  · exact ⟨h1.haltedStep, True.intro⟩
  · rename_i hh
    have hr : s.sys.halted = false := Bool.not_eq_true _ |>.mp hh
    split
    · exact ⟨runInstr_keeps _ (h.withEu _) hr, runInstr_fed _ (h.withEu _) hr⟩
    · dsimp only
      split
      · rename_i i _
        exact ⟨exec_keeps h1.beginIteration i, exec_noFault i _⟩
      · exact ⟨runInstr_keeps _ h1.beginInstr hr, runInstr_fed _ h1.beginInstr hr⟩

theorem cpuStep_keeps {s : State} (h : Full s) : Keeps (cpuStep s) ∧ NoFault (cpuStep s) := by
  unfold cpuStep
  split
  · exact ⟨h.afterTest.enterEvent _, True.intro⟩
  · exact normalStep_keeps h.afterTest

/-- Every step keeps the invariant, and no step faults. -/
theorem step_keeps {s : State} (h : Full s) : Keeps (step s) ∧ NoFault (step s) := by
  have hc := cpuStep_keeps h
  unfold step machineStep
  split
  · rename_i t ht
    rw [ht] at hc
    exact ⟨Full.finish hc.1 _, True.intro⟩
  · rename_i r hr
    rw [hr] at hc
    exact ⟨True.intro, hc.2⟩
  · exact ⟨True.intro, True.intro⟩

end Sys2Proof.Machine
end

