-- ==== Sys2Proof/Laws/Steps.lean ====
section
/-! SUPPORT. A step in its parts: what it is in each case, what its end leaves of memory, one tick, and the entry
of each interrupt. -/

namespace Sys2Proof.Machine

/-! ## The clock -/

theorem phaseAction_ticks (y : Sys) (cs : Word) : (y.phaseAction cs).ticks = y.ticks := by
  unfold Sys.phaseAction
  split
  · exact (decide_decided y false).ticks
  · rfl
  · rfl
  · split
    · exact (fetchTransfer_fetched y).ticks
    · rfl
  · dsimp only
    split
    · exact (fetchTransfer_fetched _).ticks
    · rfl
  · exact (decide_decided _ true).ticks.trans (fetchComplete_rest y).1
  · rfl

/-- R580: a tick is one tick. -/
theorem tick_ticks (y : Sys) (cs : Word) : (y.tick cs).ticks = y.ticks + 1 :=
  congrArg (· + 1) (phaseAction_ticks y.clockDevices cs)

/-- The bus unit after a tick is the one after the phase's action. -/
theorem tick_biu (y : Sys) (cs : Word) : (y.tick cs).biu = (y.clockDevices.phaseAction cs).biu := rfl

/-- The devices' tick does not touch the bus unit. -/
theorem clockDevices_biu (y : Sys) : y.clockDevices.biu = y.biu := rfl

theorem decideCpu_phase_t4 (y : Sys) (b : Bool) (h : y.biu.phase ≠ .idle) :
    (y.decideCpu b).biu.phase = .t1 ∨ (y.decideCpu b).biu.phase = .idle := by
  have hh : (y.biu.haltReq && decide (y.biu.phase = .idle)) = false := by simp [h]
  unfold Sys.decideCpu
  split
  · exact .inl rfl
  · split
    · split
      · exact .inl rfl
      · split
        · split
          · exact .inl rfl
          · exact .inr rfl
        · exact .inr rfl
    · rw [hh]; exact .inr rfl

theorem decide_phase_t4 (y : Sys) (b : Bool) (h : y.biu.phase ≠ .idle) :
    (y.decide b).biu.phase = .t1 ∨ (y.decide b).biu.phase = .idle := by
  unfold Sys.decide
  split
  · split
    · exact .inr (hold_idle _).1
    · exact decideCpu_phase_t4 y b h
  · exact decideCpu_phase_t4 _ false h
  · exact .inr (hold_idle _).1

/-! ## Memory at the end of a step -/

/-- What an address reads as depends on the map, the memories, the adapter and the external devices alone. -/
theorem peekByte_congr {y z : Sys} (hc : z.cfg = y.cfg) (hm : z.ram = y.ram) (hr : z.rom = y.rom)
    (hv : z.video = y.video) (he : z.extAccesses = y.extAccesses) (a : PhysAddr) : peekByte z a = peekByte y a := by
  simp only [peekByte, busRead, mmioRead, hc, hv, he, Sys.ramByte, Sys.romByte, hm, hr]
  split <;> first | rfl | (split <;> rfl)

/-- R588: sampling the lines changes no byte of memory. -/
theorem peekByte_endStep (s : State) (t0 : Nat) (a : PhysAddr) : peekByte (s.endStep t0).sys a = peekByte s.sys a := by
  have h : peekByte { s.sys with video := s.sys.video.clearRises } a = peekByte s.sys a :=
    peekByte_of_still (y := s.sys) (z := { s.sys with video := s.sys.video.clearRises }) rfl a
  rw [← h]
  exact peekByte_congr (y := { s.sys with video := s.sys.video.clearRises }) (z := (s.endStep t0).sys) rfl rfl rfl rfl rfl a

@[simp] theorem State.endStep_regs (s : State) (t0 : Nat) : (s.endStep t0).regs = s.regs := rfl
@[simp] theorem State.endStep_sregs (s : State) (t0 : Nat) : (s.endStep t0).sregs = s.sregs := rfl
@[simp] theorem State.endStep_ip (s : State) (t0 : Nat) : (s.endStep t0).ip = s.ip := rfl
@[simp] theorem State.endStep_flags (s : State) (t0 : Nat) : (s.endStep t0).flags = s.flags := rfl
@[simp] theorem State.endStep_waitTpr (s : State) (t0 : Nat) : (s.endStep t0).waitTpr = s.waitTpr := rfl
@[simp] theorem State.endStep_halted (s : State) (t0 : Nat) : (s.endStep t0).sys.halted = s.sys.halted := rfl
@[simp] theorem State.endStep_ticks (s : State) (t0 : Nat) : (s.endStep t0).sys.ticks = s.sys.ticks := rfl

/-- A repetition goes on, or does not, as the instruction left it. -/
@[simp] theorem State.endStep_repActive (s : State) (t0 : Nat) : (s.endStep t0).eu.repActive = s.eu.repActive := by
  show (s.eu.settle s.waitTpr).repActive = _
  unfold Eu.settle; split <;> rfl

/-! ## RNI -/

/-- RNI takes time and nothing else. -/
theorem State.retire_same {s : State} (hq : s.sys.Quiet) : Same s s.retire := by
  unfold State.retire
  split
  · exact Same.rfl' s
  · exact ⟨⟨rfl, rfl, rfl, rfl, ⟨rfl, rfl, rfl, rfl, rfl, rfl, rfl, rfl⟩⟩, State.spend_still hq _⟩

@[simp] theorem State.retire_regs (s : State) : s.retire.regs = s.regs := by unfold State.retire; split <;> rfl
@[simp] theorem State.retire_sregs (s : State) : s.retire.sregs = s.sregs := by unfold State.retire; split <;> rfl
@[simp] theorem State.retire_ip (s : State) : s.retire.ip = s.ip := by unfold State.retire; split <;> rfl
@[simp] theorem State.retire_flags (s : State) : s.retire.flags = s.flags := by unfold State.retire; split <;> rfl
@[simp] theorem State.retire_waitTpr (s : State) : s.retire.waitTpr = s.waitTpr := by unfold State.retire; split <;> rfl
@[simp] theorem State.retire_eu (s : State) : s.retire.eu = s.eu := by unfold State.retire; split <;> rfl

theorem State.retire_halted (s : State) : s.retire.sys.halted = s.sys.halted := by
  unfold State.retire
  split
  · rfl
  · exact congrArg (fun x => x.2.2) (tickN_fixed s.sregs.cs _ s.sys)

/-- A halted CPU with no instruction current spends nothing on RNI. -/
theorem State.retire_of_halted {s : State} (h : s.sys.halted = true) (hi : s.eu.instr = none) : s.retire = s := by
  unfold State.retire; rw [h, hi]; simp

/-- What the end of a step leaves of the CPU: everything but the prefixes of an instruction that is over. -/
structure Finished (s t : State) : Prop where
  regs : t.regs = s.regs
  flags : t.flags = s.flags
  sregs : t.sregs = s.sregs
  ip : t.ip = s.ip
  repeating : t.eu.repActive = s.eu.repActive
  waiting : t.waitTpr = s.waitTpr
  halted : t.sys.halted = s.sys.halted

theorem State.finish_finished (s : State) (t0 : Nat) : Finished s (s.finish t0) := by
  unfold State.finish
  split
  · exact ⟨rfl, rfl, rfl, rfl, rfl, rfl, rfl⟩
  · exact ⟨by simp, by simp, by simp, by simp, by simp, by simp, by simp [State.retire_halted]⟩

/-- The end of a step changes no byte of memory. -/
theorem peekByte_finish {s : State} (hq : s.sys.Quiet) (t0 : Nat) (a : PhysAddr) :
    peekByte (s.finish t0).sys a = peekByte s.sys a := by
  unfold State.finish
  split
  · rfl
  · exact (peekByte_endStep _ _ _).trans (peekByte_of_still (State.retire_same hq).still a)

/-! ## The cases of a step -/

/-- A step is the CPU's part, then the end of the step. -/
theorem step_next {s t : State} (h : cpuStep s = .next t) : step s = .next (t.finish s.stepStart) := by
  unfold step machineStep; rw [h]

theorem afterTest_none {s : State} (h : s.dueEvent = none) : s.afterTest = { s with intInhibit := false } := by
  unfold State.afterTest; rw [h]

/-- A place among the prefix bytes of an instruction is no boundary. -/
theorem stepStart_of_event {s : State} {e : Event} (h : s.dueEvent = some e) : s.eu.prefixing = false ∧ s.stepStart = s.sys.ticks := by
  have hp : s.eu.prefixing = false := by
    cases hp : s.eu.prefixing with
    | false => rfl
    | true => simp [State.dueEvent, hp] at h
  exact ⟨hp, by unfold State.stepStart; rw [hp]; rfl⟩

/-- R775: with an event due, the step is its entry. -/
theorem step_event {s : State} {e : Event} (h : s.dueEvent = some e) :
    step s = .next ((s.afterTest.enterEvent e).finish s.stepStart) :=
  step_next (by unfold cpuStep; rw [h])

/-- R585 item 3: with nothing due a halted step is one tick. -/
theorem step_halted {s : State} (h : s.dueEvent = none) (hh : s.sys.halted = true) :
    step s = .next (s.afterTest.loadTrapLatch.haltedStep.finish s.stepStart) := by
  refine step_next ?_
  unfold cpuStep
  rw [h]
  have h1 : s.afterTest.sys.halted = true := by rw [afterTest_none h]; exact hh
  show normalStep s.afterTest = _
  unfold normalStep
  rw [h1, if_pos rfl]

/-- R585 item 4: one instruction of `runInstr`, its bytes fetched. -/
theorem runInstr_fetched {n : Nat} {s t : State} {i : Instr} (h : s.fetchInstr = some (i, t)) :
    runInstr (n + 1) s = (if isPrefixByte i then
        match exec i (t.setInstr i) with
        | .next u => runInstr n u
        | .fault r => .fault r
        | .refused r => .refused r
      else exec i (t.setInstr i)) := by
  conv => lhs; unfold runInstr
  rw [h]
  all_goals rfl

/-! ## Interrupt entry -/

/-- An event taken: the CPU is awake, at the address it resumes at, with nothing else changed. -/
theorem wake_spec (s : State) :
    s.wake.regs = s.regs ∧ s.wake.flags = s.flags ∧ s.wake.sregs = s.sregs ∧
    s.wake.ip = (if s.eu.repActive then s.ip - 2#16 else if s.waitTpr then s.eu.start else s.ip) ∧
    s.wake.sys.halted = false ∧ s.wake.eu.repActive = false ∧ s.wake.waitTpr = false ∧
    s.wake.sys.cfg = s.sys.cfg ∧ s.wake.sys.ram = s.sys.ram ∧ s.wake.sys.rom = s.sys.rom ∧
    s.wake.sys.video = s.sys.video ∧ s.wake.sys.dma = s.sys.dma ∧ s.wake.sys.pic = s.sys.pic :=
  ⟨rfl, rfl, rfl, rfl, rfl, rfl, rfl, rfl, rfl, rfl, rfl, rfl, rfl⟩

/-- Stores are blind to what memory is blind to. -/
theorem storedByte_congr {y z : Sys} (hc : z.cfg = y.cfg) (h : ∀ a, peekByte z a = peekByte y a)
    (l : List (PhysAddr × Byte)) (a : PhysAddr) : storedByte z l a = storedByte y l a := by
  unfold storedByte; rw [hc, h]

theorem pic_of_still {y z : Sys} (h : z.still = y.still) : z.pic = y.pic := by
  have := congrArg Sys.pic h; exact this

/-- The system with another PIC. -/
theorem still_pic {y z : Sys} (h : z.still = y.still) (p : Pic) : Sys.still { z with pic := p } = Sys.still { y with pic := p } := by
  have := congrArg (fun x : Sys => { x with pic := p }) h; exact this

theorem Pic.update_vector (p : Pic) : p.update.vector = p.vector := rfl

/-- R646: what the first pulse leaves for the second. -/
theorem Pic.inta1_fields (p : Pic) : p.inta1.base = p.base ∧ p.inta1.upm = p.upm ∧ p.inta1.inInta = true ∧
    p.inta1.intaLevel = (p.highest p.irr).getD 7#3 := by
  unfold Pic.inta1
  cases p.highest p.irr <;> exact ⟨rfl, rfl, rfl, rfl⟩

theorem intaGap_still {y : Sys} (hq : y.Quiet) (cs : Word) (n : Nat) : (y.intaGap cs n).still = y.still := by
  unfold Sys.intaGap
  split
  · rfl
  · have h0 : Sys.still { y with biu := { y.biu with suspended := true } } = y.still := rfl
    have h1 := (Sys.euEnd_still (Sys.quiet_of_still h0 hq) cs).trans h0
    exact (Sys.internal_still (Sys.quiet_of_still h1 hq) cs n).trans h1

/-- R785: the two acknowledge cycles: the type is the PIC's base and the level it acknowledges (R646, R654), and
nothing but the PIC and the clock has moved. -/
theorem intAck_spec {y : Sys} (hq : y.Quiet) (cs : Word) (n : Nat) (h : y.pic.inInta = false) (hu : y.pic.upm = true) :
    (Sys.intAck cs n y).1 = y.pic.base ++ (y.pic.highest y.pic.irr).getD 7#3 ∧
    ∃ p : Pic, (Sys.intAck cs n y).2.still = Sys.still { y with pic := p } := by
  have quiet : ∀ (z : Sys) (p : Pic), z.still = Sys.still { y with pic := p } → z.Quiet := fun z p hz =>
    Sys.quiet_of_still (y := { y with pic := p }) hz hq
  obtain ⟨z, hz, -, e2⟩ := Sys.euCycle_eq hq cs intAckRequest
  unfold Sys.intAck
  dsimp only
  generalize y.euCycle cs intAckRequest = v at e2 ⊢
  have hp := pic_of_still hz
  have hc : transfer z intAckRequest = intAckCycle z := rfl
  rw [hc, intAckCycle, hp, if_neg (by rw [h]; simp)] at e2
  generalize hp1 : Pic.inta1 { y.pic with draws := y.pic.draws + 1 } = p1 at e2
  have e2 : v.2.still = Sys.still { y with pic := p1 } := e2.trans (still_pic hz p1)
  have em : (v.2.intaGap cs n).still = Sys.still { y with pic := p1 } := (intaGap_still (quiet _ p1 e2) cs n).trans e2
  obtain ⟨z', hz', k1, k2⟩ := Sys.euCycle_eq (quiet _ p1 em) cs intAckRequest
  generalize (v.2.intaGap cs n).euCycle cs intAckRequest = w at k1 k2 ⊢
  have hp' := pic_of_still (hz'.trans em)
  have hf := Pic.inta1_fields { y.pic with draws := y.pic.draws + 1 }
  rw [hp1] at hf
  have hc' : transfer z' intAckRequest = intAckCycle z' := rfl
  rw [hc', intAckCycle, hp', if_pos hf.2.2.1] at k1 k2
  have k2 : w.2.still = Sys.still { y with pic := p1.inta2 } := k2.trans (still_pic (hz'.trans em) p1.inta2)
  refine ⟨?_, p1.inta2, ?_⟩
  · show w.1 = _
    rw [k1]
    show p1.vector = _
    unfold Pic.vector
    rw [hf.2.1, if_pos (show y.pic.upm = true from hu), hf.1, hf.2.2.2]
    rfl
  · exact (Sys.euEnd_still (quiet _ p1.inta2 k2) cs).trans k2

end Sys2Proof.Machine
end

