-- ==== Sys2Proof/Laws/Video.lean ====
section
/-! SUPPORT. An EGA or VGA character gives its 8 or 9 dots in every mode (R732, R745, R750). -/

namespace Sys2Proof.Machine

/-- Pairing keeps the number of dots. -/
theorem pairPixels_length : ∀ vs : List (BitVec 4), (pairPixels vs).length = vs.length
  | [] => rfl
  | [_] => rfl
  | _ :: _ :: rest => by simp [pairPixels, pairPixels_length rest]

theorem dotsPerChar_cases (r : EgaRegs) : r.dotsPerChar = 8 ∨ r.dotsPerChar = 9 := by
  unfold EgaRegs.dotsPerChar; split <;> simp

/-- Text and graphics values are one a dot. -/
theorem values_length (vga : Bool) (size : Nat) (g : Ega) (h : Nat) :
    (g.values vga size h).length = g.regs.dotsPerChar := by
  unfold Ega.values
  split
  · unfold Ega.graphicsValues bitPairs
    dsimp only
    rcases dotsPerChar_cases g.regs with e | e <;> by_cases hg : bit g.regs.gr[5] 5 = true <;> simp [e, hg]
  · unfold Ega.textValues
    rcases dotsPerChar_cases g.regs with e | e <;> simp [e]

/-- Every character gives its 8 or 9 outputs (R732, R745). -/
theorem outputs_length (vga : Bool) (size : Nat) (g : Ega) (h : Nat) :
    (g.outputs vga size h).length = g.regs.dotsPerChar := by
  have hv := values_length vga size g h
  unfold Ega.outputs
  dsimp only
  split
  · rcases dotsPerChar_cases g.regs with e | e <;> simp [e]
  · split
    · rw [pairPixels_length, hv]
    · rw [List.length_map, hv]

/-- A character clock gives as many dots, panned or not. -/
theorem charOutputs_length (vga : Bool) (size : Nat) (g : Ega) : (g.charOutputs vga size).length = g.regs.dotsPerChar := by
  unfold Ega.charOutputs
  dsimp only
  split
  · have hp : g.regs.panShift g.scan.pan ≤ g.regs.dotsPerChar := by
      unfold EgaRegs.panShift
      rcases dotsPerChar_cases g.regs with e | e <;> simp only [e, if_true] <;> (repeat split) <;> omega
    simp [outputs_length]; omega
  · simp

end Sys2Proof.Machine
end

