-- ==== Sys2Proof/Tests/Slice0.lean ====
section
/-! SUPPORT. Checks of the model on fixed values: ill-formed terms are refused, words written out from the spec's
encodings decode, one instruction runs as the example of its rule says, and each obligation's hypotheses are met
somewhere. Expected values are the spec's, of the rule or of the vector of spec/95_test_vectors.md named beside them. -/

namespace Sys2Proof.Tests

open Sys2Proof Sys2Proof.Machine

/-! ## Helpers -/

/-- The reset state with other registers and flags and some bytes of RAM. -/
def start (f : Regs → Regs) (g : Flags → Flags := id) (mem : List (Nat × Byte) := []) : State :=
  { State.reset with
    regs := f State.reset.regs, flags := g State.reset.flags,
    sys := mem.foldl (fun y p => y.putRam p.1 p.2) State.reset.sys }

/-- With data and stack segments. -/
def State.segs (s : State) (es ss ds : Word) : State :=
  { s with sregs := { s.sregs with es := es, ss := ss, ds := ds } }

/-- A check of a next state. -/
def after (o : Out) (p : State → Bool) : Bool :=
  match o with
  | .next t => p t
  | .fault _ => false
  | .refused _ => false

/-- The CPU at 1000:0100 with bytes placed there, about to fetch. -/
def coded (s : State) (bs : List Byte) : State :=
  State.withCode { s with sregs := { s.sregs with cs := 0x1000#16 }, ip := 0x0100#16 } bs

/-! ## Well-formedness refuses ill-formed terms (R155, R180) -/

theorem test_wf_bp_without_displacement : (Instr.addEbGb (.mem (.ind .bp)) .al).wf = false := by decide
theorem test_wf_bp_with_displacement : (Instr.addEbGb (.mem (.ind8 .bp 0#8)) .al).wf = true := by decide
theorem test_wf_lea_row_of_another_mod :
    (Instr.leaM0 .ax (.ind8 .si 4#8)).wf = false ∧ (Instr.leaM1 .ax (.ind .si)).wf = false ∧
    (Instr.leaM2 .ax (.ind8 .si 4#8)).wf = false ∧ (Instr.leaM0 .ax (.ind .bp)).wf = false := by decide
theorem test_wf_far_pointer_row_of_another_mod :
    (Instr.callMpM1 (.direct 0#16)).wf = false ∧ (Instr.jmpMpM0 (.ind16 .bx 0#16)).wf = false ∧
    (Instr.ldsM2 .ax (.ind .di)).wf = false ∧ (Instr.lesM1 .ax (.ind16 .bx 1#16)).wf = false := by decide

/-! ## Decoding, a word of each family written out from its rule -/

/-- R262 (00 /r), R171 (80 /7 ib), R161 (83 /5 ib). -/
theorem test_decode_alu :
    decode [0x00#8, 0b00010111#8] = .ok (.addEbGb (.mem (.ind .bx)) .dl) [] ∧
    decode [0x80#8, 0b11111011#8, 0x41#8] = .ok (.cmpEbIb (.reg .bl) 0x41#8) [] ∧
    decode [0x83#8, 0b01101110#8, 0xFE#8, 0x80#8] = .ok (.subEwIs (.mem (.ind8 .bp 0xFE#8)) 0x80#8) [] ∧
    decode [0x05#8, 0x34#8, 0x12#8] = .ok (.addAxIw 0x1234#16) [] := by decide
/-- R268 to R276: 40+r, FE /1, F6 /4, F7 /7; R281: D4. -/
theorem test_decode_arithmetic :
    decode [0x43#8] = .ok (.incReg16 .bx) [] ∧ decode [0xFE#8, 0b11001100#8] = .ok (.decEb (.reg .ah)) [] ∧
    decode [0xF6#8, 0b11100011#8] = .ok (.mulEb (.reg .bl)) [] ∧
    decode [0xF7#8, 0b10111100#8, 0x02#8, 0x01#8] = .ok (.idivEw (.mem (.ind16 .si 0x0102#16))) [] ∧
    decode [0x27#8] = .ok .daa [] ∧ decode [0xD4#8, 0x0A#8] = .ok (.aam 0x0A#8) [] := by decide
/-- R326, R330 to R338: F6 /0, D1 /4, D2 /3, D0 /6. -/
theorem test_decode_logic_shift :
    decode [0xF6#8, 0b11000011#8, 0x80#8] = .ok (.testEbIb (.reg .bl) 0x80#8) [] ∧
    decode [0xD1#8, 0b11100000#8] = .ok (.shlEw1 (.reg .ax)) [] ∧
    decode [0xD2#8, 0b00011000#8] = .ok (.rcrEbCl (.mem (.ind .bxSi))) [] ∧
    decode [0xD0#8, 0b11110000#8] = .ok (.setmoEb1 (.reg .al)) [] := by decide
/-- R201 to R229: 89 /r, 8E /3, B4, A1, 8F /0, C5 /r. -/
theorem test_decode_data_transfer :
    decode [0x89#8, 0b11011000#8] = .ok (.movEwGw (.reg .ax) .bx) [] ∧
    decode [0x8E#8, 0b11011000#8] = .ok (.movSwEw .ds false (.reg .ax)) [] ∧
    decode [0xB4#8, 0x4C#8] = .ok (.movReg8Ib .ah 0x4C#8) [] ∧
    decode [0xA1#8, 0x34#8, 0x12#8] = .ok (.movAxOw 0x1234#16) [] ∧
    decode [0x8F#8, 0b00000110#8, 0x00#8, 0x10#8] = .ok (.popEw (.mem (.direct 0x1000#16)) 0#3) [] ∧
    decode [0xC5#8, 0b00110110#8, 0x00#8, 0x01#8] = .ok (.ldsM0 .si (.direct 0x0100#16)) [] ∧
    decode [0x57#8] = .ok (.pushReg16 .di) [] := by decide
/-- R371 to R375. -/
theorem test_decode_strings :
    decode [0xA4#8] = .ok .movsb [] ∧ decode [0xA7#8] = .ok .cmpsw [] ∧ decode [0xAE#8] = .ok .scasb [] ∧
    decode [0xAD#8] = .ok .lodsw [] ∧ decode [0xAA#8] = .ok .stosb [] := by decide
/-- R401 to R433: EB, 75, 62 (alias), E8, FF /3, C2, CD, CF. -/
theorem test_decode_control_transfer :
    decode [0xEB#8, 0xFE#8] = .ok (.jmpRel8 0xFE#8) [] ∧ decode [0x75#8, 0xFC#8] = .ok (.jnz 0xFC#8) [] ∧
    decode [0x62#8, 0x01#8] = .ok (.jbAlias 0x01#8) [] ∧
    decode [0xE8#8, 0x10#8, 0x00#8] = .ok (.callRel16 0x0010#16) [] ∧
    decode [0xFF#8, 0b00011110#8, 0x00#8, 0x10#8] = .ok (.callMpM0 (.direct 0x1000#16)) [] ∧
    decode [0xC2#8, 0x04#8, 0x00#8] = .ok (.retIw 4#16) [] ∧ decode [0xCF#8] = .ok .iret [] := by decide
/-- R460 to R479: F8, FB, F4, 9B, D9 /0, 26, F0. -/
theorem test_decode_processor_control :
    decode [0xF8#8] = .ok .clc [] ∧ decode [0xFB#8] = .ok .sti [] ∧ decode [0xF4#8] = .ok .hlt [] ∧
    decode [0x9B#8] = .ok .wait [] ∧
    decode [0xD9#8, 0b00000110#8, 0x00#8, 0x10#8] = .ok (.esc 1#3 0#3 (.mem (.direct 0x1000#16))) [] ∧
    decode [0x26#8] = .ok .segEs [] ∧ decode [0xF0#8] = .ok .lock [] := by decide
/-- R485 to R487: the encodings not fixed have their lengths. -/
theorem test_decode_unfixed :
    decode [0xFE#8, 0b01010110#8, 0x05#8] = .ok (.grp4op2 (.mem (.ind8 .bp 5#8))) [] ∧
    decode [0xFF#8, 0b11011000#8] = .ok (.callReg .ax) [] ∧ decode [0x8D#8, 0b11000001#8] = .ok (.leaReg .ax .cx) [] := by
  decide
/-- R180: the numbering of the opcode table's bits. -/
theorem test_decodeTableWord :
    decodeTableWord 16 0xF7D8 = some (.negEw (.reg .ax)) ∧ decodeTableWord 16 0x9000 = some .nop := by decide

/-! ## One instruction on a small state -/

/-! Arithmetic -/

/-- R263: 8000 + 8000. -/
theorem test_add : after (exec (.addEwGw (.reg .ax) .bx) (start (fun r => { r with ax := 0x8000#16, bx := 0x8000#16 }))) (fun t =>
    t.regs.ax == 0#16 && t.flags.cf && t.flags.of && t.flags.zf && !t.flags.sf && t.flags.pf && !t.flags.af) = true := by decide

/-- R263, R156: 0x7F + 1 at SS:BP+2, whose sum overflows. -/
theorem test_add_memory : after (exec (.addEbGb (.mem (.ind8 .bp 2#8)) .dl) (start (fun r => { r with bp := 0x10#16, dx := 0x1#16 }) id [(0x12, 0x7F#8)])) (fun t =>
    t.sys.ramByte 0x12 == 0x80#8 && t.flags.of && t.flags.sf && t.flags.af && !t.flags.cf && !t.flags.pf) = true := by decide

/-- R264. -/
theorem test_adc : after (exec (.adcAlIb 0#8) (start (fun r => { r with ax := 0xF#16 }) (fun f => { f with cf := true }))) (fun t =>
    t.regs.ax == 0x0010#16 && t.flags.af && !t.flags.cf) = true := by decide

/-- R265. -/
theorem test_sub : after (exec (.subAlIb 1#8) (start (fun r => { r with ax := 0x10#16 }))) (fun t =>
    t.regs.ax == 0x000F#16 && t.flags.af && t.flags.pf && !t.flags.cf) = true := by decide

/-- R266. -/
theorem test_sbb : after (exec (.sbbAlIb 0#8) (start id (fun f => { f with cf := true }))) (fun t =>
    t.regs.ax == 0x00FF#16 && t.flags.cf && t.flags.sf) = true := by decide

/-- R267: AL is kept. -/
theorem test_cmp : after (exec (.cmpAlIb 0x41#8) (start (fun r => { r with ax := 0x40#16 }))) (fun t =>
    t.regs.ax == 0x0040#16 && t.flags.cf && t.flags.sf && !t.flags.zf) = true := by decide

/-- R161, R265: 0x83 with 0xFF subtracts 0xFFFF. -/
theorem test_sub_sign_extended : after (exec (.subEwIs (.reg .cx) 0xFF#8) (start (fun r => { r with cx := 0x1#16 }))) (fun t =>
    t.regs.cx == 2#16 && t.flags.cf) = true := by decide

/-- R269: CF is kept. -/
theorem test_inc : after (exec (.incEb (.reg .al)) (start (fun r => { r with ax := 0x7F#16 }) (fun f => { f with cf := true }))) (fun t =>
    t.regs.ax == 0x0080#16 && t.flags.of && t.flags.sf && t.flags.af && t.flags.cf) = true := by decide

/-- R270. -/
theorem test_dec : after (exec (.decReg16 .cx) (start (fun r => { r with cx := 0x0#16 }))) (fun t =>
    t.regs.cx == 0xFFFF#16 && t.flags.sf && t.flags.af && !t.flags.of && !t.flags.cf) = true := by decide

/-- R272. -/
theorem test_neg : after (exec (.negEw (.reg .ax)) (start (fun r => { r with ax := 0x1#16 }))) (fun t =>
    t.regs.ax == 0xFFFF#16 && t.flags.cf && t.flags.sf && t.flags.af && t.flags.pf) = true := by decide

/-- R273. -/
theorem test_mul : after (exec (.mulEb (.reg .bl)) (start (fun r => { r with ax := 0x10#16, bx := 0x10#16 }))) (fun t =>
    t.regs.ax == 0x0100#16 && t.flags.cf && t.flags.of) = true := by decide

/-- R273: FFFF * FFFF. -/
theorem test_mul_word : after (exec (.mulEw (.reg .bx)) (start (fun r => { r with ax := 0xFFFF#16, bx := 0xFFFF#16 }))) (fun t =>
    t.regs.dx == 0xFFFE#16 && t.regs.ax == 1#16 && t.flags.cf) = true := by decide

/-- R274: -2 * 3. -/
theorem test_imul : after (exec (.imulEb (.reg .bl)) (start (fun r => { r with ax := 0xFE#16, bx := 0x3#16 }))) (fun t =>
    t.regs.ax == 0xFFFA#16 && !t.flags.cf && !t.flags.of) = true := by decide

/-- R275. -/
theorem test_div : after (exec (.divEb (.reg .bl)) (start (fun r => { r with ax := 0x64#16, bx := 0x7#16 }))) (fun t =>
    t.regs.ax == 0x020E#16) = true := by decide

set_option maxRecDepth 2000 in
/-- R275, R771: FFFF by FF enters vector 0. -/
theorem test_div_does_not_fit : after (exec (.divEb (.reg .bl)) (start (fun r => { r with ax := 0xFFFF#16, bx := 0xFF#16, sp := 0x100#16 }) (fun f => { f with ief := true }) [(0x0, 0x34#8), (0x1, 0x12#8), (0x2, 0x78#8), (0x3, 0x56#8)])) (fun t =>
    t.regs.ax == 0xFFFF#16 && t.ip == 0x1234#16 && t.sregs.cs == 0x5678#16 && t.regs.sp == 0xFA#16 && !t.flags.ief) = true := by decide

/-- R276: -7 by 2. -/
theorem test_idiv : after (exec (.idivEb (.reg .bl)) (start (fun r => { r with ax := 0xFFF9#16, bx := 0x2#16 }))) (fun t =>
    t.regs.ax == 0xFFFD#16) = true := by decide

/-- R276: a quotient of -128 is a divide error. -/
theorem test_idiv_minus_128 : after (exec (.idivEb (.reg .bl)) (start (fun r => { r with ax := 0xFF80#16, bx := 0x1#16, sp := 0x100#16 }))) (fun t =>
    t.regs.ax == 0xFF80#16 && t.regs.sp == 0xFA#16) = true := by decide

/-- R277. -/
theorem test_daa : after (exec (.daa) (start (fun r => { r with ax := 0x3C#16 }))) (fun t =>
    t.regs.ax == 0x0042#16 && t.flags.af && !t.flags.cf) = true := by decide

/-- R278. -/
theorem test_das : after (exec (.das) (start (fun r => { r with ax := 0x2D#16 }) (fun f => { f with af := true }))) (fun t =>
    t.regs.ax == 0x0027#16 && t.flags.af && !t.flags.cf) = true := by decide

/-- R279. -/
theorem test_aaa : after (exec (.aaa) (start (fun r => { r with ax := 0xB#16 }))) (fun t =>
    t.regs.ax == 0x0101#16 && t.flags.af && t.flags.cf) = true := by decide

/-- R280. -/
theorem test_aas : after (exec (.aas) (start (fun r => { r with ax := 0x1FF#16 }) (fun f => { f with af := true }))) (fun t =>
    t.regs.ax == 0x0009#16 && t.flags.af && t.flags.cf) = true := by decide

/-- R281. -/
theorem test_aam : after (exec (.aam 0x0A#8) (start (fun r => { r with ax := 0x3F#16 }))) (fun t =>
    t.regs.ax == 0x0603#16 && !t.flags.zf && !t.flags.sf && t.flags.pf) = true := by decide

/-- R282. -/
theorem test_aad : after (exec (.aad 0x0A#8) (start (fun r => { r with ax := 0x603#16 }))) (fun t =>
    t.regs.ax == 0x003F#16 && t.flags.pf) = true := by decide

/-- R283. -/
theorem test_cbw : after (exec (.cbw) (start (fun r => { r with ax := 0x80#16 }))) (fun t =>
    t.regs.ax == 0xFF80#16) = true := by decide

/-- R284. -/
theorem test_cwd : after (exec (.cwd) (start (fun r => { r with ax := 0x7FFF#16, dx := 0x1234#16 }))) (fun t =>
    t.regs.dx == 0#16) = true := by decide

/-! Logic, shifts and rotates -/

/-- R321. -/
theorem test_and : after (exec (.andAlIb 0x0F#8) (start (fun r => { r with ax := 0xA5#16 }))) (fun t =>
    t.regs.ax == 5#16 && !t.flags.zf && !t.flags.sf && t.flags.pf) = true := by decide

/-- R322. -/
theorem test_or : after (exec (.orAlIb 0x80#8) (start (fun r => { r with ax := 0x1#16 }))) (fun t =>
    t.regs.ax == 0x81#16 && t.flags.sf && t.flags.pf && !t.flags.zf) = true := by decide

/-- R323. -/
theorem test_xor : after (exec (.xorEwGw (.reg .ax) .ax) (start (fun r => { r with ax := 0x1234#16 }) (fun f => { f with cf := true, of := true }))) (fun t =>
    t.regs.ax == 0#16 && t.flags.zf && t.flags.pf && !t.flags.sf && !t.flags.cf && !t.flags.of) = true := by decide

/-- R326. -/
theorem test_test : after (exec (.testEbIb (.reg .bl) 0x80#8) (start (fun r => { r with bx := 0x80#16 }))) (fun t =>
    t.regs.bx == 0x80#16 && t.flags.sf && !t.flags.zf && !t.flags.pf) = true := by decide

/-- R327. -/
theorem test_not : after (exec (.notEb (.reg .al)) (start (fun r => { r with ax := 0xF#16 }))) (fun t =>
    t.regs.ax == 0xF0#16) = true := by decide

/-- R331. -/
theorem test_rol : after (exec (.rolEb1 (.reg .al)) (start (fun r => { r with ax := 0x81#16 }))) (fun t =>
    t.regs.ax == 3#16 && t.flags.cf && t.flags.of) = true := by decide

/-- R332. -/
theorem test_ror : after (exec (.rorEb1 (.reg .al)) (start (fun r => { r with ax := 0x1#16 }))) (fun t =>
    t.regs.ax == 0x80#16 && t.flags.cf && t.flags.of) = true := by decide

/-- R333. -/
theorem test_rcl : after (exec (.rclEb1 (.reg .al)) (start (fun r => { r with ax := 0x80#16 }))) (fun t =>
    t.regs.ax == 0#16 && t.flags.cf && t.flags.of) = true := by decide

/-- R334, R340: nine steps through carry restore a byte. -/
theorem test_rcr : after (exec (.rcrEbCl (.reg .al)) (start (fun r => { r with ax := 0x5A#16, cx := 0x9#16 }) (fun f => { f with cf := true }))) (fun t =>
    t.regs.ax == 0x5A#16 && t.flags.cf) = true := by decide

/-- R335. -/
theorem test_shl : after (exec (.shlEw1 (.reg .ax)) (start (fun r => { r with ax := 0x4000#16 }))) (fun t =>
    t.regs.ax == 0x8000#16 && !t.flags.cf && t.flags.of && t.flags.sf && !t.flags.zf && t.flags.pf) = true := by decide

/-- R336. -/
theorem test_shr : after (exec (.shrEb1 (.reg .al)) (start (fun r => { r with ax := 0x81#16 }))) (fun t =>
    t.regs.ax == 0x40#16 && t.flags.cf && t.flags.of && !t.flags.sf && !t.flags.pf) = true := by decide

/-- R337. -/
theorem test_sar : after (exec (.sarEb1 (.reg .al)) (start (fun r => { r with ax := 0x81#16 }))) (fun t =>
    t.regs.ax == 0xC0#16 && t.flags.cf && t.flags.sf && t.flags.pf) = true := by decide

/-- R340: CL = 0 keeps every flag. -/
theorem test_shift_by_zero : after (exec (.shlEbCl (.reg .al)) (start (fun r => { r with ax := 0x81#16 }) (fun f => { f with cf := true, zf := true }))) (fun t =>
    t.regs.ax == 0x81#16 && t.flags.cf && t.flags.zf && !t.flags.sf) = true := by decide

/-- R338. -/
theorem test_setmo : after (exec (.setmoEb1 (.reg .al)) (start (fun r => { r with ax := 0x12#16 }))) (fun t =>
    t.regs.ax == 0xFF#16 && t.flags.sf && t.flags.pf && !t.flags.zf) = true := by decide

/-! Data transfer -/

/-- R202, R72: a word at offset FFFF has its high byte at 0. -/
theorem test_mov_wraps : after (exec (.movGwEw .ax (.mem (.ind .bx))) (start (fun r => { r with bx := 0xFFFF#16 }) id [(0x0, 0x12#8), (0xFFFF, 0x34#8)])) (fun t =>
    t.regs.ax == 0x1234#16) = true := by decide

/-- R203. -/
theorem test_mov_immediate : after (exec (.movEwIw (.mem (.direct 0x2000#16)) 0#3 0x1234#16) (start id)) (fun t =>
    t.sys.ramByte 0x2000 == 0x34#8 && t.sys.ramByte 0x2001 == 0x12#8) = true := by decide

/-- R204, R21. -/
theorem test_mov_ah : after (exec (.movReg8Ib .ah 0x4C#8) (start (fun r => { r with ax := 0x1122#16 }))) (fun t =>
    t.regs.ax == 0x4C22#16) = true := by decide

/-- R207: DS is written and the boundary inhibited. -/
theorem test_mov_sreg : after (exec (.movSwEw .ds false (.reg .ax)) (start (fun r => { r with ax := 0x1234#16 }))) (fun t =>
    t.sregs.ds == 0x1234#16 && t.intInhibit) = true := by decide

/-- R208. -/
theorem test_mov_from_sreg : after (exec (.movEwSw (.reg .ax) .cs false) (start id)) (fun t =>
    t.regs.ax == 0xFFFF#16 && !t.intInhibit) = true := by decide

/-- R210. -/
theorem test_push : after (exec (.pushReg16 .ax) (start (fun r => { r with ax := 0xBEEF#16, sp := 0x100#16 }))) (fun t =>
    t.regs.sp == 0xFE#16 && t.sys.ramByte 0xFE == 0xEF#8 && t.sys.ramByte 0xFF == 0xBE#8) = true := by decide

/-- R210: the new SP is stored; R211: the old one. -/
theorem test_push_sp : after (exec (.pushReg16 .sp) (start (fun r => { r with sp := 0x100#16 }))) (fun t =>
    t.sys.ramByte 0xFE == 0xFE#8 && after (exec (.pushEw (.reg .sp)) (start (fun r => { r with sp := 0x0100#16 }))) fun u => u.sys.ramByte 0xFF == 1#8) = true := by decide

/-- R213. -/
theorem test_pop : after (exec (.popReg16 .bx) (start (fun r => { r with sp := 0xFE#16 }) id [(0xFE, 0xEF#8), (0xFF, 0xBE#8)])) (fun t =>
    t.regs.bx == 0xBEEF#16 && t.regs.sp == 0x100#16) = true := by decide

/-- R213. -/
theorem test_pop_sp : after (exec (.popReg16 .sp) (start (fun r => { r with sp := 0xFE#16 }) id [(0xFE, 0xEF#8), (0xFF, 0xBE#8)])) (fun t =>
    t.regs.sp == 0xBEEF#16) = true := by decide

/-- R215. -/
theorem test_pop_ss : after (exec (.popSs) (start (fun r => { r with sp := 0xFE#16 }) id [(0xFF, 0x20#8)])) (fun t =>
    t.sregs.ss == 0x2000#16 && t.regs.sp == 0x100#16 && t.intInhibit) = true := by decide

/-- R216. -/
theorem test_pushf : after (exec (.pushf) (start (fun r => { r with sp := 0x100#16 }) (fun f => { f with ief := true }))) (fun t =>
    t.sys.ramByte 0xFE == 0x02#8 && t.sys.ramByte 0xFF == 0xF2#8) = true := by decide

/-- R217. -/
theorem test_popf : after (exec (.popf) (start (fun r => { r with sp := 0xFE#16 }) (fun f => { f with zf := true, df := true }) [(0xFE, 0x1#8)])) (fun t =>
    t.flags.cf && !t.flags.zf && !t.flags.df && t.regs.sp == 0x100#16) = true := by decide

/-- R218. -/
theorem test_xchg : after (exec (.xchgGwEw .bx (.reg .cx)) (start (fun r => { r with bx := 0x1#16, cx := 0x2#16 }))) (fun t =>
    t.regs.bx == 2#16 && t.regs.cx == 1#16) = true := by decide

/-- R219. -/
theorem test_xchg_ax : after (exec (.xchgAxSp) (start (fun r => { r with ax := 0x5#16, sp := 0x100#16 }))) (fun t =>
    t.regs.ax == 0x100#16 && t.regs.sp == 5#16) = true := by decide

/-- R220. -/
theorem test_lahf : after (exec (.lahf) (start id (fun f => { f with sf := true, cf := true }))) (fun t =>
    t.regs.ax == 0x8300#16) = true := by decide

/-- R221. -/
theorem test_sahf : after (exec (.sahf) (start (fun r => { r with ax := 0xFF00#16 }))) (fun t =>
    t.flags.sf && t.flags.zf && t.flags.af && t.flags.pf && t.flags.cf && !t.flags.of) = true := by decide

/-- R222, R96: the PIC's mask register. -/
theorem test_in : after (exec (.inAlIb 0x21#8) (start id)) (fun t =>
    t.regs.ax == 0#16) = true := by decide

/-- R94: an unowned port reads 0xFF. -/
theorem test_in_unowned : after (exec (.inAxDx) (start (fun r => { r with dx := 0x9999#16 }))) (fun t =>
    t.regs.ax == 0xFFFF#16) = true := by decide

/-- R224, R650: the mask register takes the byte when the PIC is ready. -/
theorem test_out : after (exec (.outIbAl 0x21#8) (start (fun r => { r with ax := 0xBC#16 }))) (fun t =>
    t.sys.pic.imr == 0xBC#8) = true := by decide

/-- R225: a CRTC index and its data in one instruction. -/
theorem test_out_word : after (exec (.outDxAx) (start (fun r => { r with ax := 0xE0C#16, dx := 0x3D4#16 }))) (fun t =>
    t.sys.video.cga.index == 0x0C#5 && t.sys.video.cga.cr[12] == 0x0E#8) = true := by decide

/-- R226. -/
theorem test_xlat : after (exec (.xlat) (start (fun r => { r with bx := 0x200#16, ax := 0x5#16 }) id [(0x205, 0x41#8)])) (fun t =>
    t.regs.ax == 0x41#16) = true := by decide

/-- R227. -/
theorem test_lea : after (exec (.leaM1 .bx (.ind8 .si 4#8)) (start (fun r => { r with si := 0xFFFE#16 }))) (fun t =>
    t.regs.bx == 2#16) = true := by decide

/-- R228. -/
theorem test_lds : after (exec (.ldsM0 .si (.direct 0x0100#16)) (start id id [(0x100, 0x78#8), (0x101, 0x56#8), (0x102, 0x34#8), (0x103, 0x12#8)])) (fun t =>
    t.regs.si == 0x5678#16 && t.sregs.ds == 0x1234#16 && !t.intInhibit) = true := by decide

/-- R229. -/
theorem test_les : after (exec (.lesM0 .di (.direct 0x0100#16)) (start id id [(0x100, 0x78#8), (0x101, 0x56#8), (0x102, 0x34#8), (0x103, 0x12#8)])) (fun t =>
    t.regs.di == 0x5678#16 && t.sregs.es == 0x1234#16) = true := by decide

/-! Strings -/

/-- R371, R370: down when DF is set. -/
theorem test_movs : after (exec (.movsb) (start (fun r => { r with si := 0x10#16, di := 0x20#16 }) (fun f => { f with df := true }) [(0x10, 0x41#8)])) (fun t =>
    t.sys.ramByte 0x20 == 0x41#8 && t.regs.si == 0xF#16 && t.regs.di == 0x1F#16) = true := by decide

/-- R372: source minus destination. -/
theorem test_cmps : after (exec (.cmpsb) (start (fun r => { r with si := 0x10#16, di := 0x20#16 }) id [(0x10, 0x10#8), (0x20, 0x20#8)])) (fun t =>
    t.flags.cf && !t.flags.zf && t.flags.sf && t.regs.si == 0x11#16) = true := by decide

/-- R373. -/
theorem test_scas : after (exec (.scasb) (start (fun r => { r with di := 0x20#16 }))) (fun t =>
    t.flags.zf && t.regs.di == 0x21#16 && t.regs.si == 0#16) = true := by decide

/-- R374. -/
theorem test_lods : after (exec (.lodsw) (start (fun r => { r with si := 0x10#16 }) id [(0x10, 0x34#8), (0x11, 0x12#8)])) (fun t =>
    t.regs.ax == 0x1234#16 && t.regs.si == 0x12#16) = true := by decide

/-- R375. -/
theorem test_stos : after (exec (.stosw) (start (fun r => { r with ax := 0x720#16, di := 0x10#16 }))) (fun t =>
    t.sys.ramByte 0x10 == 0x20#8 && t.sys.ramByte 0x11 == 7#8 && t.regs.di == 0x12#16) = true := by decide

/-! Control transfer -/

/-- R403. -/
theorem test_jmp_far : after (exec (.jmpFar 0xE05B#16 0xF000#16) (start id)) (fun t =>
    t.sregs.cs == 0xF000#16 && t.ip == 0xE05B#16 && t.sys.biu.queue.isEmpty) = true := by decide

/-- R404: an absolute offset. -/
theorem test_jmp_indirect : after (exec (.jmpEw (.reg .bx)) (start (fun r => { r with bx := 0x1234#16 }))) (fun t =>
    t.ip == 0x1234#16) = true := by decide

/-- R406: JNZ back with ZF = 0, not with ZF = 1. -/
theorem test_jcc : after (exec (.jnz 0xFC#8) (start id)) (fun t =>
    t.ip == 0xFFFC#16 && after (exec (.jnz 0xFC#8) (start id fun f => { f with zf := true })) fun u => u.ip == 0#16) = true := by decide

/-- R410. -/
theorem test_call : after (exec (.callRel16 0x10#16) (start (fun r => { r with sp := 0x200#16 }))) (fun t =>
    t.ip == 0x10#16 && t.regs.sp == 0x1FE#16 && t.sys.ramByte 0x1FE == 0#8) = true := by decide

/-- R411: CALL SP goes to the old SP. -/
theorem test_call_sp : after (exec (.callEw (.reg .sp)) (start (fun r => { r with sp := 0x200#16 }))) (fun t =>
    t.ip == 0x200#16 && t.regs.sp == 0x1FE#16) = true := by decide

set_option maxRecDepth 2000 in
/-- R412: CS above IP. -/
theorem test_call_far : after (exec (.callFar 0#16 0x1000#16) (start (fun r => { r with sp := 0x200#16 }))) (fun t =>
    t.sregs.cs == 0x1000#16 && t.sys.ramByte 0x1FE == 0xFF#8 && t.sys.ramByte 0x1FC == 0#8 && t.regs.sp == 0x1FC#16) = true := by decide

/-- R416. -/
theorem test_ret : after (exec (.retIw 4#16) (start (fun r => { r with sp := 0x1FE#16 }) id [(0x1FE, 0x3#8), (0x1FF, 0x1#8)])) (fun t =>
    t.ip == 0x103#16 && t.regs.sp == 0x204#16) = true := by decide

/-- R417. -/
theorem test_retf : after (exec (.retf) (start (fun r => { r with sp := 0x1FC#16 }) id [(0x1FC, 0x5#8), (0x1FE, 0x34#8), (0x1FF, 0x12#8)])) (fun t =>
    t.ip == 5#16 && t.sregs.cs == 0x1234#16 && t.regs.sp == 0x200#16) = true := by decide

/-- R425: CX = 0 becomes FFFF and the jump is taken. -/
theorem test_loop : after (exec (.loop 0xFE#8) (start (fun r => { r with cx := 0x0#16 }))) (fun t =>
    t.regs.cx == 0xFFFF#16 && t.ip == 0xFFFE#16) = true := by decide

/-- R426. -/
theorem test_loopz : after (exec (.loopz 0xFE#8) (start (fun r => { r with cx := 0x3#16 }))) (fun t =>
    t.regs.cx == 2#16 && t.ip == 0#16) = true := by decide

/-- R427. -/
theorem test_loopnz : after (exec (.loopnz 0xFE#8) (start (fun r => { r with cx := 0x3#16 }))) (fun t =>
    t.regs.cx == 2#16 && t.ip == 0xFFFE#16) = true := by decide

/-- R428. -/
theorem test_jcxz : after (exec (.jcxz 2#8) (start (fun r => { r with cx := 0x0#16 }))) (fun t =>
    t.ip == 2#16 && t.regs.cx == 0#16) = true := by decide

set_option maxRecDepth 2000 in
/-- R430. -/
theorem test_int : after (exec (.intIb 0x21#8) (start (fun r => { r with sp := 0x100#16 }) (fun f => { f with ief := true }) [(0x84, 0x60#8), (0x85, 0x14#8), (0x86, 0x70#8)])) (fun t =>
    t.sregs.cs == 0x70#16 && t.ip == 0x1460#16 && t.sys.ramByte 0xFE == 2#8 && t.sys.ramByte 0xFF == 0xF2#8 && !t.flags.ief) = true := by decide

/-- R431. -/
theorem test_int3 : after (exec (.int3) (start (fun r => { r with sp := 0x100#16 }) id [(0xC, 0x55#8)])) (fun t =>
    t.ip == 0x55#16 && t.regs.sp == 0xFA#16) = true := by decide

/-- R432: with OF, and without. -/
theorem test_into : after (exec (.into) (start (fun r => { r with sp := 0x100#16 }) (fun f => { f with of := true }) [(0x10, 0x55#8)])) (fun t =>
    t.ip == 0x55#16 && after (exec .into (start id)) fun u => u.ip == 0#16 && u.regs.sp == 0#16) = true := by decide

/-- R433. -/
theorem test_iret : after (exec (.iret) (start (fun r => { r with sp := 0x100#16 }) id [(0x100, 0x3#8), (0x101, 0x1#8), (0x103, 0x10#8), (0x104, 0x2#8), (0x105, 0xF2#8)])) (fun t =>
    t.ip == 0x103#16 && t.sregs.cs == 0x1000#16 && t.flags.ief && t.regs.sp == 0x106#16) = true := by decide

/-! Processor control -/

/-- R460 to R462. -/
theorem test_carry_flag : after (exec (.clc) (start id (fun f => { f with cf := true }))) (fun t =>
    !t.flags.cf && after (exec .cmc t) (fun u => u.flags.cf) && after (exec .stc t) fun u => u.flags.cf) = true := by decide

/-- R463, R464. -/
theorem test_direction_flag : after (exec (.std) (start id)) (fun t =>
    t.flags.df && after (exec .cld t) fun u => !u.flags.df) = true := by decide

/-- R465, R466. -/
theorem test_interrupt_flag : after (exec (.sti) (start id)) (fun t =>
    t.flags.ief && t.intInhibit && after (exec .cli t) fun u => !u.flags.ief) = true := by decide

/-- R471. -/
theorem test_salc : after (exec (.salc) (start id (fun f => { f with cf := true }))) (fun t =>
    t.regs.ax == 0xFF#16) = true := by decide

/-- R475. -/
theorem test_hlt : after (exec (.hlt) (start id)) (fun t =>
    t.sys.halted && t.regs.ax == 0#16) = true := by decide

/-- R476: TEST is asserted, so WAIT ends. -/
theorem test_wait : after (exec (.wait) (start id)) (fun t =>
    !t.waitTpr) = true := by decide

/-- R477. -/
theorem test_esc : after (exec (.esc 1#3 0#3 (.mem (.direct 0x1000#16))) (start (fun r => { r with ax := 0x1#16 }))) (fun t =>
    t.regs.ax == 1#16 && t.ip == 0#16) = true := by decide

/-! ## The hypotheses of the obligations are met

One theorem per obligation with hypotheses, each clause at a boundary value. -/

theorem reset_quiet : Sys.reset.Quiet := ⟨rfl, rfl, rfl, rfl⟩
/-- A small state is steady whatever its registers and flags. -/
theorem start_steady (f : Regs → Regs) (g : Flags → Flags) : (start f g).Steady := ⟨rfl, reset_quiet⟩

/-- A state with the bus unit about to fetch meets the invariant. -/
theorem restart_inv {s : State} (hm : Memory.wf s = true) (hb : s.sys.biu = Biu.restart s.ip) : s.Inv := by
  refine ⟨hm, ⟨?_, ?_, ?_, ?_, ?_, ?_⟩, ?_, ⟨?_, ?_, ?_⟩⟩ <;>
    simp [Sys.PcOk, hb, Biu.restart, Biu.reset, Biu.inCycle, Biu.addressed, Biu.ahead]

/-- The states of the fetch statements' witnesses: `PUSH DI` from unmapped bytes, and `REP MOVSB`. -/
def repMovsb : State := coded State.reset [0xF3#8, 0xA4#8, 0x90#8, 0x90#8, 0x90#8, 0x90#8]

theorem witness_EncodedInstructionsDecode :
    (Instr.addEbGb (.mem (.ind8 .bp 0#8)) .al).wf = true ∧ (Instr.leaM0 .ax (.direct 0xFFFF#16)).wf = true ∧
    (Instr.jmpMpM2 (.ind16 .bp 0xFFFF#16)).wf = true := by decide
theorem witness_DecodedBytesAreTheEncoding :
    decode [0x90#8, 0x91#8] = .ok .nop [0x91#8] ∧
    decode [0x81#8, 0b10000110#8, 0xFF#8, 0xFF#8, 0x00#8, 0x80#8] =
      .ok (.addEwIw (.mem (.ind16 .bp 0xFFFF#16)) 0x8000#16) [] := by decide
theorem witness_SixBytesDecode : 6 ≤ (List.replicate 6 0xFF#8).length := by decide
theorem witness_StepRunsTheDecodedInstruction :
    (State.reset.Inv ∧ State.reset.Begins ∧ State.reset.sys.Quiet ∧
      decode (State.reset.codeBytes 6) = .ok (.pushEwAlias (.reg .di)) [0xFF#8, 0xFF#8, 0xFF#8, 0xFF#8]) ∧
    (repMovsb.Inv ∧ repMovsb.Begins ∧ repMovsb.sys.Quiet ∧
      decode (repMovsb.codeBytes 6) = .ok .rep [0xA4#8, 0x90#8, 0x90#8, 0x90#8, 0x90#8]) :=
  ⟨⟨restart_inv (by decide) rfl, ⟨by decide, by decide, by decide, by decide, by decide⟩, ⟨rfl, rfl, rfl, rfl⟩, by decide⟩,
   ⟨restart_inv (by decide) rfl, ⟨by decide, by decide, by decide, by decide, by decide⟩, ⟨rfl, rfl, rfl, rfl⟩, by decide⟩⟩
theorem witness_PrefixedInstructionRuns :
    State.reset.Inv ∧ State.reset.sys.halted = false ∧ State.reset.sys.Quiet ∧
      decode (State.reset.codeBytes 6) = .ok (.pushEwAlias (.reg .di)) [0xFF#8, 0xFF#8, 0xFF#8, 0xFF#8] ∧
    repMovsb.Inv ∧ repMovsb.sys.halted = false ∧ repMovsb.sys.Quiet ∧
      decode (repMovsb.codeBytes 6) = .ok .rep [0xA4#8, 0x90#8, 0x90#8, 0x90#8, 0x90#8] :=
  ⟨restart_inv (by decide) rfl, by decide, ⟨rfl, rfl, rfl, rfl⟩, by decide, restart_inv (by decide) rfl, by decide,
   ⟨rfl, rfl, rfl, rfl⟩, by decide⟩

/-- In a repetition of MOVSB with a REP prefix. -/
def inRep : State :=
  { start (fun r => { r with cx := 2#16 }) with
    eu := { Eu.reset with instr := some .movsb, pfx := { Pfx.empty with rep := .rep }, repActive := true } }
/-- In a WAIT with TEST not asserted. -/
def inWait : State :=
  { start id with
    waitTpr := true, eu := { Eu.reset with instr := some .wait },
    sys := { Sys.reset with inputs := [(0, { Lines.idle with test := false })] } }

/-- Among the prefix bytes of an instruction. -/
def inPrefixes : State := { start id with eu := { Eu.reset with prefixing := true } }

theorem witness_StepGoesOnWithItsInstruction :
    (inRep.dueEvent = none ∧ inRep.eu.prefixing = false ∧ inRep.sys.halted = false ∧ inRep.eu.instr = some .movsb ∧
      inRep.eu.repActive = true) ∧
    (inWait.dueEvent = none ∧ inWait.eu.prefixing = false ∧ inWait.sys.halted = false ∧ inWait.eu.instr = some .wait ∧
      inWait.waitTpr = true) ∧
    (inPrefixes.eu.prefixing = true ∧ inPrefixes.sys.halted = false) := by
  decide
theorem witness_StepKeepsTheInvariant : State.reset.Inv ∧ after (step State.reset) (fun _ => true) = true :=
  ⟨restart_inv (by decide) rfl, by decide⟩
theorem witness_StepNeverFaults : State.reset.Inv := restart_inv (by decide) rfl
theorem witness_EveryOtherInstructionCompletes :
    isStop (.divEw (.reg .bx)) = false ∧ isMulDiv (.divEw (.reg .bx)) = true ∧ State.reset.eu.pfx.rep = .none ∧
    isStop .movsb = false ∧ isMulDiv .movsb = false := by decide
theorem witness_UnfixedEncodingsAreRefused :
    isMulDiv (.idivEb (.reg .al)) = true ∧ inRep.eu.pfx.rep ≠ .none := by decide
/-- `Steady` alone: ByteAluForms, WordAluForms, IncDecNegNot, TestForms, DecimalAdjustForms, SignExtension,
ShiftForms, MovForms, Pushes, Pops, Exchanges, AddressAndFlagByteTransfers, PortInput, Jumps, Calls, Returns,
InterruptReturn, HaltWaitEscape. -/
theorem witness_Steady : State.reset.Steady ∧ (start (fun r => { r with sp := 1#16 })).Steady :=
  ⟨⟨rfl, rfl, rfl, rfl, rfl⟩, start_steady _ _⟩
theorem witness_Multiplication : (start (fun r => { r with ax := 0xFFFF#16 })).Steady ∧
    (start (fun r => { r with ax := 0xFFFF#16 })).eu.pfx.rep = .none := ⟨start_steady _ _, rfl⟩

/-- Dividends and divisors at the bounds. -/
def dividing (dx ax bx : Word) : State := start fun r => { r with dx := dx, ax := ax, bx := bx }

theorem witness_Division :
    (∀ a b c, (dividing a b c).Steady ∧ (dividing a b c).eu.pfx.rep = .none) ∧
    ((dividing 0#16 0xFFFF#16 0#16).operand8 (.mem (.direct 0#16))).toNat = 0 ∧
    (let s := dividing 0#16 0x00FF#16 1#16
     (s.operand8 (.reg .bl)).toNat ≠ 0 ∧ s.regs.ax.toNat / (s.operand8 (.reg .bl)).toNat = 0xFF) ∧
    (let s := dividing 0#16 0xFFFF#16 1#16
     (s.operand16 (.reg .bx)).toNat ≠ 0 ∧
     (s.regs.dx.toNat * 0x10000 + s.regs.ax.toNat) / (s.operand16 (.reg .bx)).toNat = 0xFFFF) ∧
    (let s := dividing 0#16 0xFF81#16 1#16
     (s.operand8 (.reg .bl)).toInt ≠ 0 ∧ s.regs.ax.toInt.tdiv (s.operand8 (.reg .bl)).toInt = -127) ∧
    (let s := dividing 0xFFFF#16 0x8001#16 0xFFFF#16
     (s.operand16 (.reg .bx)).toInt ≠ 0 ∧
     (s.regs.dx ++ s.regs.ax : BitVec 32).toInt.tdiv (s.operand16 (.reg .bx)).toInt = 32767) :=
  ⟨fun _ _ _ => ⟨start_steady _ _, rfl⟩, by decide⟩
theorem witness_DivideErrors :
    (∀ a b c, (dividing a b c).Steady ∧ (dividing a b c).eu.pfx.rep = .none) ∧
    ((dividing 0#16 1#16 0#16).operand8 (.reg .bl)).toNat = 0 ∧
    (let s := dividing 0#16 0x0100#16 1#16
     0xFF < s.regs.ax.toNat / (s.operand8 (.reg .bl)).toNat) ∧
    (let s := dividing 1#16 0#16 1#16
     0xFFFF < (s.regs.dx.toNat * 0x10000 + s.regs.ax.toNat) / (s.operand16 (.reg .bx)).toNat) ∧
    (let s := dividing 0#16 0xFF80#16 1#16
     s.regs.ax.toInt.tdiv (s.operand8 (.reg .bl)).toInt < -127) ∧
    (let s := dividing 0#16 0x0080#16 1#16
     127 < s.regs.ax.toInt.tdiv (s.operand8 (.reg .bl)).toInt) ∧
    (let s := dividing 0xFFFF#16 0x8000#16 1#16
     (s.regs.dx ++ s.regs.ax : BitVec 32).toInt.tdiv (s.operand16 (.reg .bx)).toInt < -32767) ∧
    (let s := dividing 0#16 0x8000#16 1#16
     32767 < (s.regs.dx ++ s.regs.ax : BitVec 32).toInt.tdiv (s.operand16 (.reg .bx)).toInt) :=
  ⟨fun _ _ _ => ⟨start_steady _ _, rfl⟩, by decide⟩
theorem witness_DecimalAdjustGivesDecimal : (99 : Nat) < 100 ∧ (0 : Nat) < 100 := by decide
theorem witness_AsciiAdjustForms :
    (let s := start fun r => { r with ax := 0x000A#16 }
     s.Steady ∧ (9 < (s.reg8 .al).toNat % 16 ∨ s.flags.af = true)) ∧
    (let s := start (fun r => { r with ax := 0x0009#16 }) fun f => { f with af := true }
     s.Steady ∧ (9 < (s.reg8 .al).toNat % 16 ∨ s.flags.af = true)) ∧
    (let s := start fun r => { r with ax := 0x0009#16 }
     s.Steady ∧ ¬(9 < (s.reg8 .al).toNat % 16 ∨ s.flags.af = true)) ∧
    (1#8 ≠ 0#8 ∧ 0xFF#8 ≠ 0#8) :=
  ⟨⟨start_steady _ _, by decide⟩, ⟨start_steady _ _, by decide⟩, ⟨start_steady _ _, by decide⟩, by decide⟩
theorem witness_SetMinusOne :
    (start (fun r => { r with cx := 1#16 })).reg8 .cl ≠ 0#8 ∧ (start (fun r => { r with cx := 0xFF00#16 })).reg8 .cl = 0#8 ∧
    (start (fun r => { r with cx := 1#16 })).Steady := ⟨by decide, by decide, start_steady _ _⟩
theorem witness_SegmentLoads : State.reset.Steady ∧ (SReg.cs : SReg) = .cs ∧ SReg.es ≠ .cs :=
  ⟨⟨rfl, rfl, rfl, rfl, rfl⟩, by decide, by decide⟩
theorem witness_PortOutput : State.reset.Steady ∧ (portWrite State.reset.sys 0x21#16 0xFF#8).Quiet :=
  ⟨⟨rfl, rfl, rfl, rfl, rfl⟩, by decide, by decide, by decide⟩
theorem witness_StringElements : (start id).Steady ∧ (start id).eu.pfx.rep = .none ∧
    StringOp.stores .cmps true (start id) = [] ∧ StringOp.stores .movs true (start id) ≠ [] :=
  ⟨start_steady _ _, rfl, rfl, by decide⟩

/-- A repeated string instruction at each count. -/
def repeating (p : Rep) (cx : Word) (zf : Bool) : State :=
  { start (fun r => { r with cx := cx }) fun f => { f with zf := zf } with
    eu := { Eu.reset with pfx := { Pfx.empty with rep := p } } }

theorem witness_RepeatedStringElements :
    (∀ p cx z, (repeating p cx z).Steady) ∧ (repeating .rep 0#16 false).eu.pfx.rep ≠ .none ∧
    (repeating .repne 0xFFFF#16 true).eu.pfx.rep ≠ .none ∧ (repeating .rep 0#16 false).regs.cx = 0#16 ∧
    (repeating .rep 1#16 false).regs.cx ≠ 0#16 ∧
    ((repeating .rep 2#16 false).regs.cx ≠ 1#16 ∧
      (StringOp.flags .cmps false (repeating .rep 2#16 false)).zf = true) :=
  ⟨fun _ _ _ => ⟨rfl, reset_quiet⟩, by decide, by decide, by decide, by decide, by decide⟩
theorem witness_ConditionalJumps :
    (∀ c : Cond, (∃ f, c.holds f = true) ∧ ∃ f, c.holds f = false) ∧ (start id).Steady := by
  refine ⟨fun c => ?_, start_steady _ _⟩
  let g : Flags := { Flags.reset with of := true, cf := true, zf := true, pf := true }
  let s : Flags := { Flags.reset with sf := true }
  have h : c.holds Flags.reset = true ∨ c.holds g = true ∨ c.holds s = true := by cases c <;> decide
  have h' : c.holds Flags.reset = false ∨ c.holds g = false ∨ c.holds s = false := by cases c <;> decide
  exact ⟨h.elim (⟨_, ·⟩) (·.elim (⟨_, ·⟩) (⟨_, ·⟩)), h'.elim (⟨_, ·⟩) (·.elim (⟨_, ·⟩) (⟨_, ·⟩))⟩
theorem witness_Loops :
    (∀ cx, (start (fun r => { r with cx := cx })).Steady) ∧
    (start (fun r => { r with cx := 0#16 })).regs.cx - 1#16 ≠ 0#16 ∧
    ¬((start (fun r => { r with cx := 1#16 })).regs.cx - 1#16 ≠ 0#16) ∧
    ((start (fun r => { r with cx := 2#16 }) fun f => { f with zf := true }).regs.cx - 1#16 ≠ 0#16 ∧
      (start (fun r => { r with cx := 2#16 }) fun f => { f with zf := true }).flags.zf = true) ∧
    (start id).regs.cx = 0#16 ∧ (start (fun r => { r with cx := 1#16 })).regs.cx ≠ 0#16 :=
  ⟨fun _ => start_steady _ _, by decide⟩
theorem witness_SoftwareInterrupts :
    (start id fun f => { f with of := true }).Steady ∧ (start id fun f => { f with of := true }).flags.of = true ∧
    (start id).flags.of = false := ⟨start_steady _ _, rfl, rfl⟩

/-- An NMI and a trap latched with INTR pending. -/
def pending (nmi intr trap ief : Bool) : State :=
  { start (fun r => { r with sp := 2#16 }) fun f => { f with ief := ief } with
    trapLatched := trap,
    sys := { Sys.reset with nmiLatched := nmi, intrPending := intr,
                            pic := { Pic.reset with upm := true, irr := 0x81#8, base := 1#5 } } }

theorem witness_NmiAndTrapEntry :
    (∀ a b c d, (pending a b c d).Steady ∧ (pending a b c d).eu.prefixing = false ∧ (pending a b c d).intInhibit = false) ∧
    (pending true true true true).sys.nmiLatched = true ∧
    ((pending false true true false).sys.nmiLatched = false ∧ (pending false true true false).flags.ief = false ∧
      (pending false true true false).trapLatched = true) ∧
    ((pending false false true true).sys.intrPending = false ∧ (pending false false true true).trapLatched = true) ∧
    inRep.Steady ∧ inRep.intInhibit = false ∧ inWait.Steady ∧ inWait.waitTpr = true :=
  ⟨fun _ _ _ _ => ⟨⟨rfl, reset_quiet⟩, rfl, rfl⟩, by decide, by decide, by decide, ⟨rfl, rfl, rfl, rfl, rfl⟩, rfl,
   ⟨rfl, rfl, rfl, rfl, rfl⟩, rfl⟩
theorem witness_ExternalInterruptEntry :
    (let s := pending false true true true
     s.Steady ∧ s.eu.prefixing = false ∧ s.intInhibit = false ∧ s.sys.nmiLatched = false ∧ s.sys.intrPending = true ∧ s.flags.ief = true ∧
     s.sys.pic.upm = true ∧ s.sys.pic.inInta = false ∧ s.sys.pic.ackLevel = 0#3) ∧
    Pic.ackLevel Pic.reset = 7#3 :=
  ⟨⟨⟨rfl, rfl, rfl, rfl, rfl⟩, by decide⟩, by decide⟩
theorem witness_HaltedStep :
    (let s := { State.reset with sys := { Sys.reset with halted := true } }
     s.Steady ∧ s.dueEvent = none ∧ s.sys.halted = true) := ⟨⟨rfl, rfl, rfl, rfl, rfl⟩, by decide, rfl⟩
theorem witness_BusReadsAndWrites :
    Sys.reset.memWf = true ∧ Sys.reset.cfg.kindAt 0x9FFFF#20 = some .ram ∧ Sys.reset.cfg.kindAt 0xF0000#20 = some .rom ∧
    Sys.reset.cfg.kindAt 0xA0000#20 = none ∧ Sys.reset.cfg.kindAt 0xB8000#20 = some .mmio ∧
    (0x00001#20 ≠ 0x00000#20 ∧ Sys.reset.cfg.kindAt 0x00001#20 ≠ some .mmio) := by decide

/-- A system whose bus unit is in a given phase. -/
def inPhase (p : Phase) (n : Nat) : Sys := { Sys.reset with biu := { Biu.reset with phase := p, waitLeft := n } }

theorem witness_AddressFormation :
    (let s : State := { start id with eu := { Eu.reset with pfx := { Pfx.empty with seg := some .ss } } }
     s.Steady ∧ s.eu.pfx.rep = .none) ∧ EaBase.si ≠ .bp ∧
    usesBp (.ind8 .bp 0#8) = true ∧ usesBp (.direct 0#16) = false := ⟨⟨⟨rfl, reset_quiet⟩, rfl⟩, by decide⟩
theorem witness_BusPhaseEdges :
    (∀ p n, (inPhase p n).biu.phase = p) ∧ (inPhase .t3 0).biu.waitLeft = 0 ∧ (inPhase .t3 1).biu.waitLeft ≠ 0 ∧
    (inPhase .tw 1).biu.waitLeft ≤ 1 ∧ 1 < (inPhase .tw 2).biu.waitLeft := ⟨fun _ _ => rfl, by decide⟩
theorem witness_TickLeavesMemory : Sys.reset.Quiet := ⟨rfl, rfl, rfl, rfl⟩
theorem witness_PicAcknowledge :
    (let p := { Pic.reset with upm := true, irr := 0x80#8 }
     p.upm = true ∧ (p.highest p.irr).isSome = true ∧ p.ltim = false ∧ p.aeoi = false) ∧
    (let p := { Pic.reset with upm := true, aeoi := true }
     p.upm = true ∧ p.highest p.irr = none ∧ p.aeoi = true) := by decide
theorem witness_DmaRegistersAndRefresh :
    (7#4).getLsbD 3 = false ∧ (0#4).getLsbD 3 = false ∧ Dma.reset.ch0.curCount = 0#16 ∧
    ({ DmaChannel.reset with curCount := 1#16 } : DmaChannel).curCount ≠ 0#16 ∧
    ({ DmaChannel.reset with mode := 4#6 } : DmaChannel).mode.getLsbD 2 = true ∧ Dma.reset.ch0.mode.getLsbD 2 = false := by
  decide

/-- A mode 2 counter running on the count `n`. -/
def counting2 (n : Word) : PitCounter :=
  { PitCounter.reset true with mode := some .m2, rw := 3#2, cr := n, loaded := true, running := true, out := true }

theorem witness_RateGeneratorPeriod :
    (∀ n, (counting2 n).mode = some .m2 ∧ (counting2 n).bcd = false ∧ (counting2 n).running = true ∧
      (counting2 n).gate = true ∧ (counting2 n).pendingLoad = false ∧ (counting2 n).gateEdge = false ∧
      (counting2 n).out = true) ∧
    2 ≤ (counting2 2#16).cr.toNat ∧ 2 ≤ (counting2 18#16).cr.toNat := ⟨fun _ => ⟨rfl, rfl, rfl, rfl, rfl, rfl, rfl⟩, by decide⟩

/-! ## Devices -/

/-- R621: the strobe of mode 4 lasts one CLK although GATE has fallen. -/
theorem test_mode4_strobe_with_gate_low :
    (let c := { PitCounter.reset true with mode := some .m4, cr := 1#16, ce := 1#16, loaded := true, running := true,
                                           armed := true, out := true }
     let d := c.clk 2
     d.out = false ∧ ((d.setGate false).clk 2).out = true ∧ ((d.setGate false).clk 2).ce = d.ce) := by decide

/-- R620: an odd count of mode 3 is odd by what is being counted, not by what has been written since. -/
theorem test_mode3_parity_of_the_period :
    (let c := { PitCounter.reset true with mode := some .m3, cr := 5#16, loaded := true, running := true, out := true }
     ({ c.reload with cr := 4#16 }.clk 2).ce = 4#16) := by decide

/-- R614: the low byte of a new count leaves the period of a running mode 2 counter alone. -/
theorem test_low_byte_leaves_the_period :
    (let c := { PitCounter.reset true with mode := some .m2, rw := 3#2, cr := 5#16, loaded := true, running := true, out := true }
     (((c.reload).writeCount 0 1#8).clk 0).ce = 4#16) := by decide

/-- R840 item 7: a control word alone makes counter 0 request nothing. -/
theorem test_unwritten_counter_is_quiet :
    (let y := { Sys.reset with pit := Sys.reset.pit.write 3 0x34#8 }
     y.pit.c0.out = true ∧ (y.sampleLines 0).pic.irr.getLsbD 0 = false) := by decide

/-- R702: the register bits that do not exist read zero. -/
theorem test_crtc_unused_bits : crtcMask 3 = 0x0F#8 ∧ crtcMask 8 = 0x03#8 := by decide

/-- R780: a pulse on the NMI line within one step is latched. -/
theorem test_nmi_pulse :
    (let y := { Sys.reset with nmiEnable := true, inputs := [(1, { Lines.idle with nmi := true }), (2, Lines.idle)] }
     (y.tickN 0#16 3).nmiLatched = true) := by decide

/-- 95_test_vectors.md 8.2 (R831): after reset two Idle ticks, T1 of 0xFFFF0 in the third, the byte in the seventh. -/
theorem test_first_fetch_after_reset :
    (let y := fun n => Sys.reset.tickN 0xFFFF#16 n
     (y 0).biu.phase = .idle ∧ (y 1).biu.phase = .idle ∧ (y 2).biu.phase = .t1 ∧ (y 2).biu.op = .codeFetch ∧
     (y 3).biu.addr = 0xFFFF0#20 ∧ (y 5).biu.phase = .t4 ∧ (y 5).takeByte.isNone = true ∧
     (y 6).takeByte.isSome = true ∧ (y 6).biu.phase = .t1) := by decide

/-- R521 item 4, R536: a flush leaves two Idle ticks too, the tick that flushes deciding itself. -/
theorem test_fetch_after_flush :
    (let y := Sys.flush 0xFFFF#16 0#16 1 (Sys.susp 0xFFFF#16 1 (Sys.reset.tickN 0xFFFF#16 3))
     y.biu.queue = [] ∧ y.biu.phase = .idle ∧ (y.tickN 0xFFFF#16 1).biu.phase = .idle ∧
     (y.tickN 0xFFFF#16 2).biu.phase = .t1) := by decide

/-- R26: PC counts a fetched byte from the end of its T3 on. -/
theorem test_pc_after_t3 : ((inPhase .t3 0).biu.op = .passive) ∧
    (let y := { Sys.reset with biu := { Biu.reset with phase := .t3, op := .codeFetch } }
     (y.tick 0#16).biu.phase = .t4 ∧ (y.tick 0#16).biu.pc = 1#16 ∧ (y.tick 0#16).biu.queue = []) := by decide

/-- R673, R676: a refresh granted in a fetch's T4 costs the fetch that would have followed five ticks. -/
theorem test_refresh_costs_five :
    (let y : Sys := { Sys.reset with dma := { Dma.reset with dreq := 1#4, mask := 0#4 },
                                     biu := { Biu.reset with phase := .t4, op := .codeFetch } }
     (y.tickN 0#16 5).biu.phase = .idle ∧ (y.tickN 0#16 6).biu.phase = .t1 ∧ (y.tickN 0#16 6).biu.op = .codeFetch) := by
  decide

/-- R76: a device that a read may change has seen the read; a plain one has not. -/
theorem test_mmio_read_seen :
    (let y (d : MmioDevice) : Sys := { Sys.reset with cfg := { Params.reference with
       memMap := [{ base := 0xD0000, len := 16, kind := .mmio, device := d, wait := 0 }] } }
     (busRead (y (.reactive 1)) 0xD0004#20).2.extAccesses = [{ place := .memory 0xD0004#20, wrote := none }] ∧
     (busRead (y (.external 1)) 0xD0004#20).2.extAccesses = []) := by decide

/-- R93, R7 IoMap: a port given to a device out of scope reaches it; its neighbour is unowned. -/
theorem test_port_external :
    (let y : Sys := { Sys.reset with cfg := { Params.reference with
       ioMap := [{ base := 0x3F8, len := 8, device := .external 2 }] } }
     (portWrite y 0x3F8#16 0x41#8).extAccesses = [{ place := .port 0x3F8#16, wrote := some 0x41#8 }] ∧
     (portRead y 0x3FF#16).2.extAccesses = [{ place := .port 0x3FF#16, wrote := none }] ∧
     (portRead y 0x400#16).1 = 0xFF#8 ∧ (portRead y 0x400#16).2.extAccesses = []) := by decide

/-- R7, R90: conventional memory ends at CONV_RAM_BYTES. -/
theorem test_conventional_memory :
    (let c : Params := { Params.reference with convRamBytes := 0x40000 }
     c.kindAt 0x3FFFF#20 = some .ram ∧ c.kindAt 0x40000#20 = none ∧ Params.reference.kindAt 0x9FFFF#20 = some .ram) := by
  decide

/-- D19: EuCost depends on the operands: a row for MUL by 3 says nothing of a MUL by 4. -/
theorem test_eu_cost_operands :
    (let s (d : Word) : State := { State.reset with
       eu := { Eu.reset with opword := some 0xE1F7#16, tmpb := d },
       sys := { Sys.reset with mpc := 2, cfg := { Params.reference with
         euCost := [{ instr := some 0xE1F7#16, step := .alu, index := 2, operands := [.tmpb 3#16], ticks := 70 }] } } }
     (s 3#16).euCost .alu = 70 ∧ (s 4#16).euCost .alu = 1) := by decide

/-- R740: a VGA that is not enabled takes port 0x3C3 and no other. -/
theorem test_vga_enable :
    (let g := Ega.reset.writePort true 0x3C4 0x02#8
     let h := (Ega.reset.writePort true 0x3C3 0x01#8).writePort true 0x3C4 0x02#8
     g.regs.seqIndex = 0#8 ∧ h.regs.seqIndex = 2#8) := by decide

/-- R582: what one tick adds, in one unit, for 14.318 MHz and for 16.257 MHz. -/
theorem test_dot_clocks :
    Params.reference.dotStep 0x00#8 = 3 * 4772727 ∧ Params.reference.dotStep 0x04#8 = 16257000 := by decide

end Sys2Proof.Tests
end

section
/-! SUPPORT. The state's own statements: the invariant of a run at reset and through a step, FLAGS as a word, the
machine after reset. -/

namespace Sys2Proof.Machine

/-! ## The invariant of a run -/

/-- A bus unit about to fetch is in order: nothing is queued, in progress or scheduled. -/
theorem BusOk.of_idle {cs : Word} {y : Sys} (hp : y.biu.phase = .idle) (hq : y.biu.queue = [])
    (hs : y.biu.fetchSched = .none) : BusOk cs y where
  capacity := by simp [hq]
  room := by simp [Biu.not_inCycle (.inl hp)]
  ages := by simp [hq]
  address := by simp [Biu.addressed, hp]
  schedule := by simp [hs]
  waiting := by simp [hp]

/-- With no byte fetched ahead, PC is IP (R26). -/
theorem Sys.PcOk.of_idle {y : Sys} {ip : Word} (hp : y.biu.phase = .idle) (hq : y.biu.queue = [])
    (hpc : y.biu.pc = ip) : y.PcOk ip := by
  have ha : y.biu.ahead = 0 := by rw [Biu.ahead_queue (by simp [hp]), hq, List.length_nil]
  rw [Sys.PcOk, ha, hpc]
  exact (BitVec.add_zero ip).symm

/-- An idle bus unit with no request is settled, unless fetching is suspended. -/
theorem Sys.Settled.of_idle {y : Sys} (hp : y.biu.phase = .idle) (hr : y.biu.request = none)
    (hs : y.biu.suspended = false) : y.Settled :=
  ⟨hr, hs, by simp [Biu.not_inCycle (.inl hp)]⟩

/-- A step's next state meets the invariant when the state before it does. -/
theorem step_inv {s t : State} (hs : s.Inv) (ht : step s = .next t) : t.Inv := by
  have hk : Keeps (step s) := (step_keeps ((full_iff_inv s).2 hs)).1
  rw [ht] at hk
  exact (full_iff_inv t).1 hk

/-! ## FLAGS as a word -/

/-- R28: the bits of FLAGS, from bit 0 up. -/
def Flags.imageBits (f : Flags) : List Bool :=
  [f.cf, true, f.pf, false, f.af, false, f.zf, f.sf, f.tf, f.ief, f.df, f.of, true, true, true, true]

theorem Flags.image_eq_imageBits (f : Flags) : f.image = BitVec.ofBoolListLE f.imageBits := rfl

theorem Flags.getLsbD_image (f : Flags) (i : Nat) : f.image.getLsbD i = f.imageBits.getD i false :=
  (congrArg (BitVec.getLsbD · i) f.image_eq_imageBits).trans BitVec.getLsbD_ofBoolListLE

/-- R28: FLAGS taken back from their word are the nine flags. -/
@[simp] theorem Flags.ofImage_image (f : Flags) : Flags.ofImage f.image = f := by
  simp only [Flags.ofImage, bit, Flags.getLsbD_image]
  rfl

/-- R28: bits 15 to 12 of FLAGS are one. -/
theorem Flags.image_high (f : Flags) : f.image.extractLsb' 12 4 = 0xF#4 := by
  apply BitVec.eq_of_getLsbD_eq
  intro i hi
  rw [BitVec.getLsbD_extractLsb', Flags.getLsbD_image]
  interval_cases i <;> rfl

/-- R28: of a word taken as FLAGS the nine flags' bits are kept, and the seven others fixed. -/
theorem Flags.image_ofImage (w : Word) : (Flags.ofImage w).image = (w &&& 0x0FD5#16) ||| 0xF002#16 := by
  apply BitVec.eq_of_getLsbD_eq
  intro i hi
  rw [Flags.getLsbD_image]
  interval_cases i <;> simp [Flags.imageBits, Flags.ofImage, bit]

/-! ## The statements -/

/-- Settles O8: the CPU's part of a step and its end both keep the invariant. -/
theorem stepKeepsTheInvariant : Obligations.StepKeepsTheInvariant := by
  unfold Obligations.StepKeepsTheInvariant
  intro s t hs ht
  exact step_inv hs ht

/-- Settles O9: after reset the memories list nothing and the bus unit is idle with PC = IP = 0. -/
theorem resetMeetsTheInvariant : Obligations.ResetMeetsTheInvariant := by
  unfold Obligations.ResetMeetsTheInvariant
  exact ⟨rfl, BusOk.of_idle rfl rfl rfl, Sys.PcOk.of_idle rfl rfl rfl, Sys.Settled.of_idle rfl rfl rfl⟩

/-- Settles O33: the image is read bit by bit from `Flags.imageBits`. -/
theorem flagsImage : Obligations.FlagsImage := by
  unfold Obligations.FlagsImage
  refine fun f => ⟨?_, Flags.image_ofImage⟩
  simp only [Flags.getLsbD_image, f.image_high, f.ofImage_image]
  simp [Flags.imageBits]

/-- Settles O60: the reset state evaluates to R40's values. -/
theorem resetState : Obligations.ResetState := by
  unfold Obligations.ResetState
  decide

end Sys2Proof.Machine
end

section
/-! SUPPORT. Memory: a byte written and read back, physical and effective addresses, the segments of memory operands
and of string instructions. -/

namespace Sys2Proof.Machine

/-! ## Bytes read and written -/

/-- R79: an unmapped address reads 0xFF, and the read changes nothing. -/
theorem busRead_unmapped {y : Sys} {a : PhysAddr} (h : y.cfg.kindAt a = none) : busRead y a = (0xFF#8, y) := by
  simp only [busRead, h]

/-- Settles O53: R80's write by the kind of its address; what is read back of RAM rests on its canonical form. -/
theorem busReadsAndWrites : Obligations.BusReadsAndWrites := by
  unfold Obligations.BusReadsAndWrites
  intro y a v hw
  have discarded : y.cfg.kindAt a ≠ some .ram → y.cfg.kindAt a ≠ some .mmio → busWrite y a v = y :=
    peekByte_busWrite_rom v
  exact ⟨peekByte_busWrite_ram (Sys.ramWf_of_memWf hw) v,
    fun rom => discarded (by simp [rom]) (by simp [rom]),
    fun unmapped => ⟨discarded (by simp [unmapped]) (by simp [unmapped]), busRead_unmapped unmapped⟩,
    fun b other notMmio => peekByte_busWrite_other v notMmio other,
    memWf_busWrite hw a v⟩

/-! ## Physical addresses and words -/

/-- R71: the sum is taken modulo 2^20. -/
theorem toNat_phys (seg off : Word) : (phys seg off).toNat = (seg.toNat * 16 + off.toNat) % 2 ^ 20 := by
  have hs := seg.isLt
  have ho := off.isLt
  simp only [phys, BitVec.toNat_add, BitVec.toNat_shiftLeft, BitVec.toNat_setWidth, Nat.shiftLeft_eq]
  omega

/-- R72, R81: a word in memory as a number. -/
theorem State.toNat_wordAt (s : State) (seg off : Word) :
    (s.wordAt seg off).toNat = (s.byteAt seg off).toNat + 256 * (s.byteAt seg (off + 1#16)).toNat := by
  rw [State.wordAt, toNat_word]
  omega

/-! ## Encoded memory operands -/

/-- R155: a direct offset, reg 0. -/
theorem MemOp.encode_direct (lo hi : Byte) : MemOp.encode (.direct (word hi lo)) 0#3 = [0x06#8, lo, hi] :=
  congrArg (0x06#8 :: ·) (wordBytes_wordOf lo hi)

/-- R156: a base alone, reg 0. -/
theorem MemOp.encode_ind (b : EaBase) : MemOp.encode (.ind b) 0#3 = [baseNumber b] := by cases b <;> rfl

/-- R156: a base with a displacement byte, reg 0. -/
theorem MemOp.encode_ind8 (b : EaBase) (d : Byte) : MemOp.encode (.ind8 b d) 0#3 = [0x40#8 + baseNumber b, d] := by
  cases b <;> rfl

/-- R156: a base with a displacement word, reg 0. -/
theorem MemOp.encode_ind16 (b : EaBase) (lo hi : Byte) :
    MemOp.encode (.ind16 b (word hi lo)) 0#3 = [0x80#8 + baseNumber b, lo, hi] := by
  have hb : modrmByte 2#2 0#3 b.num = 0x80#8 + baseNumber b := by cases b <;> rfl
  exact congrArg₂ List.cons hb (wordBytes_wordOf lo hi)

/-- R176: LEA AX with the memory operand whose bytes are `bs`, in the row of its mod field. -/
theorem decode_leaAx {m : MemOp} {bs : List Byte} (h : m.wf = true) (hm : m.encode 0#3 = bs) (rest : List Byte) :
    decode (0x8D#8 :: (bs ++ rest)) = .ok (byModLea .ax (.mem m)) rest := by
  have hs : shapeOf 0x8D#8 = .modrm16 fun reg rm => byModLea (Reg16.ofNum reg) rm := rfl
  rw [← hm]
  exact decode_modrm16 (rm := .mem m) hs h 0#3 rest

/-- A base without displacement has an encoding unless it is BP (R155). -/
theorem MemOp.wf_ind {b : EaBase} (h : b ≠ .bp) : (MemOp.ind b).wf = true := by
  cases b
  case bp => exact absurd rfl h
  all_goals rfl

/-! ## Effective addresses -/

theorem State.eaBase_eq_ofInt (s : State) (b : EaBase) : s.eaBase b = BitVec.ofInt 16 (baseSum s.regs b) := by
  cases b <;> simp [State.eaBase, baseSum, BitVec.ofInt_add]

/-- R156: the effective address is the sum of base and displacement, taken modulo 2^16. -/
theorem State.effAddr_eq_ofInt (s : State) (m : MemOp) : s.effAddr m = BitVec.ofInt 16 (memSum s.regs m) := by
  cases m with
  | direct off => simp [State.effAddr, memSum]
  | ind b => exact s.eaBase_eq_ofInt b
  | ind8 b d =>
    rw [State.effAddr, memSum, BitVec.ofInt_add, s.eaBase_eq_ofInt b]
    rfl
  | ind16 b d => simp [State.effAddr, memSum, BitVec.ofInt_add, s.eaBase_eq_ofInt b]

theorem State.toNat_effAddr (s : State) (m : MemOp) : ((s.effAddr m).toNat : Int) = memSum s.regs m % 2 ^ 16 := by
  rw [s.effAddr_eq_ofInt, BitVec.toNat_ofInt]
  exact Int.toNat_of_nonneg (Int.emod_nonneg _ (by decide))

/-! ## Segments -/

/-- R157: the segment value with an override, or else of the default register. -/
theorem State.sreg_segFor (s : State) (r : SReg) : s.sreg (s.segFor r) = overridden s (s.sreg r) := by
  unfold State.segFor overridden
  cases s.eu.pfx.seg with
  | none => rfl
  | some q => cases q <;> rfl

/-- R156: SS is the default segment of the operands with BP, and DS of the others. -/
theorem defaultSegOf_eq (m : MemOp) : defaultSegOf m = if usesBp m then .ss else .ds := by
  have hb : ∀ b, baseDefaultSeg b = if decide (b = .bp ∨ b = .bpSi ∨ b = .bpDi) then .ss else .ds := by
    intro b; cases b <;> rfl
  cases m with
  | direct _ => rfl
  | ind b => exact hb b
  | ind8 b _ => exact hb b
  | ind16 b _ => exact hb b

theorem State.segValueOf_eq (s : State) (m : MemOp) :
    s.segValueOf m = overridden s (if usesBp m then s.sregs.ss else s.sregs.ds) := by
  rw [State.segValueOf, State.segOf, State.sreg_segFor, defaultSegOf_eq]
  congr 1
  split <;> rfl

/-- R157: the source segment of a string instruction, of XLAT and of a direct offset. -/
theorem State.dataSeg_eq (s : State) : s.dataSeg = overridden s s.sregs.ds := s.sreg_segFor .ds

/-! ## String instructions without a repeat prefix -/

/-- R384: a string instruction without a repeat prefix completes with one element, and no repetition goes on. -/
theorem completes_stringStep_once {i : Instr} {s : State} {compares : Bool} {k : State → State} {P : State → Prop}
    (hi : exec i s = .next (stringStep compares k s)) (h : s.eu.pfx.rep = .none) (hP : P ((k s).setRep false)) :
    Completes i s P :=
  ⟨(k s).setRep false, by rw [hi, stringStep_once h], hP⟩

/-- R157, R371 to R373, R375: a string source admits an override, and a string destination is ES. -/
theorem string_segments {s : State} (hs : s.Steady) (h : s.eu.pfx.rep = .none) :
    (let src := s.byteAt (overridden s s.sregs.ds) s.regs.si
     let dst := s.byteAt s.sregs.es s.regs.di
     Completes .movsb s (fun t => Stores s.sys t.sys (store8 s.sregs.es s.regs.di src)) ∧
     Completes .stosb s (fun t => Stores s.sys t.sys (store8 s.sregs.es s.regs.di (s.reg8 .al))) ∧
     Completes .cmpsb s (fun t => t.flags = (subN s.flags src dst false).2) ∧
     Completes .scasb s (fun t => t.flags = (subN s.flags (s.reg8 .al) dst false).2)) := by
  rw [← s.dataSeg_eq]
  exact ⟨completes_stringStep_once rfl h (movsb_spec hs.quiet hs.ramWf).2,
    completes_stringStep_once rfl h (stosb_spec hs.quiet hs.ramWf).2,
    completes_stringStep_once rfl h (cmpsb_spec hs.quiet).1.flags,
    completes_stringStep_once rfl h (scasb_spec hs.quiet).1.flags⟩

/-- Settles O54: addresses are sums modulo 2^20 and 2^16, the forms are read back from their encodings, and an
override replaces the default segment in `State.sreg_segFor`. -/
theorem addressFormation : Obligations.AddressFormation := by
  unfold Obligations.AddressFormation
  refine ⟨toNat_phys, fun _ _ => rfl, State.toNat_wordAt, fun rest => ⟨fun lo hi => ?direct, fun b => ⟨fun hb => ?ind,
    fun d => ?ind8, fun lo hi => ?ind16⟩⟩, fun s m => ⟨s.toNat_effAddr m, s.segValueOf_eq m, s.dataSeg_eq⟩,
    fun _ => string_segments⟩
  case direct => exact decode_leaAx rfl (MemOp.encode_direct lo hi) rest
  case ind => exact decode_leaAx (MemOp.wf_ind hb) (MemOp.encode_ind b) rest
  case ind8 => exact decode_leaAx rfl (MemOp.encode_ind8 b d) rest
  case ind16 => exact decode_leaAx rfl (MemOp.encode_ind16 b lo hi) rest

end Sys2Proof.Machine
end

section
/-! SUPPORT. Encoder and decoder are inverse to each other, and six bytes always decode. -/

namespace Sys2Proof

/-! ## Every instruction's bytes decode to it -/

section
variable {op : Byte} {rm8 : RM8} {rm16 : RM16} (rest : List Byte)

/-- The rows `Eb, Gb` (R141, R151). -/
theorem decode_ebGb {k : RM8 → Reg8 → Instr} (hs : shapeOf op = .modrm8 fun reg rm => k rm (Reg8.ofNum reg))
    (h : rm8.wf = true) (r : Reg8) : decode ((op :: rm8.encode8 r.num) ++ rest) = .ok (k rm8 r) rest := by
  rw [decode_modrm8 hs h, Reg8.ofNum_num]

/-- The rows `Gb, Eb` (R141, R151). -/
theorem decode_gbEb {k : Reg8 → RM8 → Instr} (hs : shapeOf op = .modrm8 fun reg rm => k (Reg8.ofNum reg) rm)
    (h : rm8.wf = true) (r : Reg8) : decode ((op :: rm8.encode8 r.num) ++ rest) = .ok (k r rm8) rest :=
  decode_ebGb rest (k := fun rm r => k r rm) hs h r

/-- The rows `Ew, Gw` (R141, R150). -/
theorem decode_ewGw {k : RM16 → Reg16 → Instr} (hs : shapeOf op = .modrm16 fun reg rm => k rm (Reg16.ofNum reg))
    (h : rm16.wf = true) (r : Reg16) : decode ((op :: rm16.encode16 r.num) ++ rest) = .ok (k rm16 r) rest := by
  rw [decode_modrm16 hs h, Reg16.ofNum_num]

/-- The rows `Gw, Ew` (R141, R150). -/
theorem decode_gwEw {k : Reg16 → RM16 → Instr} (hs : shapeOf op = .modrm16 fun reg rm => k (Reg16.ofNum reg) rm)
    (h : rm16.wf = true) (r : Reg16) : decode ((op :: rm16.encode16 r.num) ++ rest) = .ok (k r rm16) rest :=
  decode_ewGw rest (k := fun rm r => k r rm) hs h r

end

/-- A row split by mod (R180): its memory operand is well-formed and has the row's mod. -/
theorem MemOp.wf_and_mode {m : MemOp} {n : BitVec 2} (h : (m.wf && m.mode == n) = true) : m.wf = true ∧ m.mode = n := by
  simpa using h

/-- R130, R165, R170 to R177: the decoder reads an instruction back from its bytes, whatever follows them. -/
theorem decode_encode (i : Instr) (h : i.wf = true) (rest : List Byte) : decode (encode i ++ rest) = .ok i rest := by
  cases i with
  | pushEs | pushCs | pushSs | pushDs | popEs | popCs | popSs | popDs | segEs | segCs | segSs | segDs | daa | das
  | aaa | aas | nop | xchgAxCx | xchgAxDx | xchgAxBx | xchgAxSp | xchgAxBp | xchgAxSi | xchgAxDi | cbw | cwd | wait
  | pushf | popf | sahf | lahf | movsb | movsw | cmpsb | cmpsw | stosb | stosw | lodsb | lodsw | scasb | scasw
  | retAlias | ret | retfAlias | retf | int3 | into | iret | salc | xlat | inAlDx | inAxDx | outDxAl | outDxAx | lock
  | lockAlias | repne | rep | hlt | cmc | clc | stc | cli | sti | cld | std =>
    exact decode_np (by rfl) rest
  | addAlIb x | orAlIb x | adcAlIb x | sbbAlIb x | andAlIb x | subAlIb x | xorAlIb x | cmpAlIb x | joAlias x
  | jnoAlias x | jbAlias x | jnbAlias x | jzAlias x | jnzAlias x | jbeAlias x | jaAlias x | jsAlias x | jnsAlias x
  | jpAlias x | jnpAlias x | jlAlias x | jgeAlias x | jleAlias x | jgAlias x | jo x | jno x | jb x | jnb x | jz x
  | jnz x | jbe x | ja x | js x | jns x | jp x | jnp x | jl x | jge x | jle x | jg x | testAlIb x | intIb x | aam x
  | aad x | loopnz x | loopz x | loop x | jcxz x | inAlIb x | inAxIb x | outIbAl x | outIbAx x | jmpRel8 x =>
    exact decode_imm8 (by rfl) x rest
  | addAxIw v | orAxIw v | adcAxIw v | sbbAxIw v | andAxIw v | subAxIw v | xorAxIw v | cmpAxIw v | movAlOb v
  | movAxOw v | movObAl v | movOwAx v | testAxIw v | retIwAlias v | retIw v | retfIwAlias v | retfIw v | callRel16 v
  | jmpRel16 v =>
    exact decode_imm16 (by rfl) v rest
  | callFar v w | jmpFar v w =>
    exact decode_far (by rfl) v w rest
  | incReg16 r => exact decode_np (by cases r <;> rfl) rest
  | decReg16 r => exact decode_np (by cases r <;> rfl) rest
  | pushReg16 r => exact decode_np (by cases r <;> rfl) rest
  | popReg16 r => exact decode_np (by cases r <;> rfl) rest
  | movReg8Ib r x => exact decode_imm8 (by cases r <;> rfl) x rest
  | movReg16Iw r v => exact decode_imm16 (by cases r <;> rfl) v rest
  | addEbGb rm r | orEbGb rm r | adcEbGb rm r | sbbEbGb rm r | andEbGb rm r | subEbGb rm r | xorEbGb rm r
  | cmpEbGb rm r | testEbGb rm r | movEbGb rm r =>
    exact decode_ebGb rest (rm8 := rm) (by rfl) h r
  | addGbEb r rm | orGbEb r rm | adcGbEb r rm | sbbGbEb r rm | andGbEb r rm | subGbEb r rm | xorGbEb r rm
  | cmpGbEb r rm | xchgGbEb r rm | movGbEb r rm =>
    exact decode_gbEb rest (rm8 := rm) (by rfl) h r
  | addEwGw rm r | orEwGw rm r | adcEwGw rm r | sbbEwGw rm r | andEwGw rm r | subEwGw rm r | xorEwGw rm r
  | cmpEwGw rm r | testEwGw rm r | movEwGw rm r =>
    exact decode_ewGw rest (rm16 := rm) (by rfl) h r
  | addGwEw r rm | orGwEw r rm | adcGwEw r rm | sbbGwEw r rm | andGwEw r rm | subGwEw r rm | xorGwEw r rm
  | cmpGwEw r rm | xchgGwEw r rm | movGwEw r rm =>
    exact decode_gwEw rest (rm16 := rm) (by rfl) h r
  | addEbIb rm x | orEbIb rm x | adcEbIb rm x | sbbEbIb rm x | andEbIb rm x | subEbIb rm x | xorEbIb rm x
  | cmpEbIb rm x =>
    exact decode_modrm8i8 (op := 0x80#8) rfl h _ x rest
  | addEwIw rm v | orEwIw rm v | adcEwIw rm v | sbbEwIw rm v | andEwIw rm v | subEwIw rm v | xorEwIw rm v
  | cmpEwIw rm v =>
    exact decode_modrm16i16 (op := 0x81#8) rfl h _ v rest
  | addEbIb82 rm x | orEbIb82 rm x | adcEbIb82 rm x | sbbEbIb82 rm x | andEbIb82 rm x | subEbIb82 rm x
  | xorEbIb82 rm x | cmpEbIb82 rm x =>
    exact decode_modrm8i8 (op := 0x82#8) rfl h _ x rest
  | addEwIs rm x | orEwIs rm x | adcEwIs rm x | sbbEwIs rm x | andEwIs rm x | subEwIs rm x | xorEwIs rm x
  | cmpEwIs rm x =>
    exact decode_modrm16i8 (op := 0x83#8) rfl h _ x rest
  | movEwSw rm sr b =>
    have hd := decode_modrm16 (op := 0x8C#8) rfl h (sregField sr b) rest
    rwa [(sregField_fields sr b).1, (sregField_fields sr b).2] at hd
  | movSwEw sr b rm =>
    have hd := decode_modrm16 (op := 0x8E#8) rfl h (sregField sr b) rest
    rwa [(sregField_fields sr b).1, (sregField_fields sr b).2] at hd
  | popEw rm reg => exact decode_modrm16 (op := 0x8F#8) rfl h reg rest
  | movEbIb rm reg x => exact decode_modrm8i8 (op := 0xC6#8) rfl h reg x rest
  | movEwIw rm reg v => exact decode_modrm16i16 (op := 0xC7#8) rfl h reg v rest
  | esc op reg rm => exact decode_modrm16 (shapeOf_esc op) h reg rest
  | rolEb1 rm | rorEb1 rm | rclEb1 rm | rcrEb1 rm | shlEb1 rm | shrEb1 rm | setmoEb1 rm | sarEb1 rm =>
    exact decode_modrm8 (op := 0xD0#8) rfl h _ rest
  | rolEbCl rm | rorEbCl rm | rclEbCl rm | rcrEbCl rm | shlEbCl rm | shrEbCl rm | setmocEbCl rm | sarEbCl rm =>
    exact decode_modrm8 (op := 0xD2#8) rfl h _ rest
  | incEb rm | decEb rm | grp4op2 rm | grp4op3 rm | grp4op4 rm | grp4op5 rm | grp4op6 rm | grp4op7 rm =>
    exact decode_modrm8 (op := 0xFE#8) rfl h _ rest
  | rolEw1 rm | rorEw1 rm | rclEw1 rm | rcrEw1 rm | shlEw1 rm | shrEw1 rm | setmoEw1 rm | sarEw1 rm =>
    exact decode_modrm16 (op := 0xD1#8) rfl h _ rest
  | rolEwCl rm | rorEwCl rm | rclEwCl rm | rcrEwCl rm | shlEwCl rm | shrEwCl rm | setmocEwCl rm | sarEwCl rm =>
    exact decode_modrm16 (op := 0xD3#8) rfl h _ rest
  | incEw rm | decEw rm | callEw rm | jmpEw rm | pushEw rm | pushEwAlias rm =>
    exact decode_modrm16 (op := 0xFF#8) rfl h _ rest
  | testEbIb rm x => exact (decode_testEb h x rest).1
  | testEbIbAlias rm x => exact (decode_testEb h x rest).2
  | testEwIw rm v => exact (decode_testEw h v rest).1
  | testEwIwAlias rm v => exact (decode_testEw h v rest).2
  | notEb rm | negEb rm | mulEb rm | imulEb rm | divEb rm | idivEb rm =>
    exact decode_group3Eb h (by decide) rest
  | notEw rm | negEw rm | mulEw rm | imulEw rm | divEw rm | idivEw rm =>
    exact decode_group3Ew h (by decide) rest
  | leaReg r r2 => exact decode_gwEw rest (op := 0x8D#8) (k := byModLea) (rm16 := .reg r2) rfl rfl r
  | leaM0 r m | leaM1 r m | leaM2 r m =>
    obtain ⟨hw, hm⟩ := MemOp.wf_and_mode h
    refine (decode_gwEw rest (op := 0x8D#8) (k := byModLea) (rm16 := .mem m) rfl hw r).trans ?_
    simp [byModLea, hm]
  | lesReg r r2 => exact decode_gwEw rest (op := 0xC4#8) (k := byModLes) (rm16 := .reg r2) rfl rfl r
  | lesM0 r m | lesM1 r m | lesM2 r m =>
    obtain ⟨hw, hm⟩ := MemOp.wf_and_mode h
    refine (decode_gwEw rest (op := 0xC4#8) (k := byModLes) (rm16 := .mem m) rfl hw r).trans ?_
    simp [byModLes, hm]
  | ldsReg r r2 => exact decode_gwEw rest (op := 0xC5#8) (k := byModLds) (rm16 := .reg r2) rfl rfl r
  | ldsM0 r m | ldsM1 r m | ldsM2 r m =>
    obtain ⟨hw, hm⟩ := MemOp.wf_and_mode h
    refine (decode_gwEw rest (op := 0xC5#8) (k := byModLds) (rm16 := .mem m) rfl hw r).trans ?_
    simp [byModLds, hm]
  | callReg r2 => exact decode_modrm16 (op := 0xFF#8) (rm := .reg r2) rfl rfl 3#3 rest
  | jmpReg r2 => exact decode_modrm16 (op := 0xFF#8) (rm := .reg r2) rfl rfl 5#3 rest
  | callMpM0 m | callMpM1 m | callMpM2 m =>
    obtain ⟨hw, hm⟩ := MemOp.wf_and_mode h
    refine (decode_modrm16 (op := 0xFF#8) (rm := .mem m) rfl hw 3#3 rest).trans ?_
    simp [group5, byModCall, hm]
  | jmpMpM0 m | jmpMpM1 m | jmpMpM2 m =>
    obtain ⟨hw, hm⟩ := MemOp.wf_and_mode h
    refine (decode_modrm16 (op := 0xFF#8) (rm := .mem m) rfl hw 5#3 rest).trans ?_
    simp [group5, byModJmp, hm]

/-- Settles O1: each format's bytes are read back field by field. -/
theorem encodedInstructionsDecode : Obligations.EncodedInstructionsDecode := by
  unfold Obligations.EncodedInstructionsDecode
  exact decode_encode

/-! ## What is decoded encodes to the bytes read -/

/-- An instruction the bytes `bs` stand for. -/
structure Instr.Spells (i : Instr) (bs : List Byte) : Prop where
  wf : i.wf = true
  bytes : encode i = bs

/-- Every instruction of a format, at every operand, has the encoding of that format under the opcode `op` (R165). The
two formats of R173 belong to one opcode each. -/
def Shape.Encodes (op : Byte) : Shape → Prop
  | .np i => i.Spells [op]
  | .imm8 k => ∀ x, (k x).Spells [op, x]
  | .imm16 k => ∀ v, (k v).Spells (op :: wordBytes v)
  | .far k => ∀ v w, (k v w).Spells (op :: (wordBytes v ++ wordBytes w))
  | .modrm8 k => ∀ reg rm, rm.wf = true → (k reg rm).Spells (op :: rm.encode8 reg)
  | .modrm16 k => ∀ reg rm, rm.wf = true → (k reg rm).Spells (op :: rm.encode16 reg)
  | .modrm8i8 k => ∀ reg rm x, rm.wf = true → (k reg rm x).Spells (op :: (rm.encode8 reg ++ [x]))
  | .modrm16i16 k => ∀ reg rm v, rm.wf = true → (k reg rm v).Spells (op :: (rm.encode16 reg ++ wordBytes v))
  | .modrm16i8 k => ∀ reg rm x, rm.wf = true → (k reg rm x).Spells (op :: (rm.encode16 reg ++ [x]))
  | .group3Eb => op = 0xF6#8
  | .group3Ew => op = 0xF7#8

/-- Cases on a three-bit field. -/
theorem BitVec3.cases {P : BitVec 3 → Prop} (c0 : P 0#3) (c1 : P 1#3) (c2 : P 2#3) (c3 : P 3#3) (c4 : P 4#3)
    (c5 : P 5#3) (c6 : P 6#3) (c7 : P 7#3) (n : BitVec 3) : P n := by
  have h : n = 0#3 ∨ n = 1#3 ∨ n = 2#3 ∨ n = 3#3 ∨ n = 4#3 ∨ n = 5#3 ∨ n = 6#3 ∨ n = 7#3 := by revert n; decide
  rcases h with rfl | rfl | rfl | rfl | rfl | rfl | rfl | rfl <;> assumption

/-! ## Operands taken -/

theorem takeImm8_ok {k : Byte → Instr} {bs rest : List Byte} {i : Instr} (h : takeImm8 k bs = .ok i rest) :
    ∃ x, bs = x :: rest ∧ i = k x := by
  cases bs with
  | nil => nomatch h
  | cons x _ => cases h; exact ⟨x, rfl, rfl⟩

theorem takeImm16_ok {k : Word → Instr} {bs rest : List Byte} {i : Instr} (h : takeImm16 k bs = .ok i rest) :
    ∃ v, bs = wordBytes v ++ rest ∧ i = k v := by
  match bs, h with
  | lo :: hi :: _, h => cases h; exact ⟨wordOf lo hi, by rw [wordBytes_wordOf]; rfl, rfl⟩

/-- R155: r/m code 6 with mod 0 is the direct offset, so no other code names BP alone. -/
theorem EaBase.ofNum_ne_bp {n : BitVec 3} (h : n ≠ 6#3) : EaBase.ofNum n ≠ .bp := fun e =>
  h ((EaBase.num_ofNum n).symm.trans (congrArg EaBase.num e))

/-- R141, R155: what `parseRM` reads is the register of the r/m field, or a memory operand whose encoding under the
byte's reg field is the bytes read. -/
theorem parseRM_ok {R : Type} {f : BitVec 3 → R} {b : Byte} {bs tail : List Byte} {rm : RM R}
    (h : parseRM f b bs = some (rm, tail)) :
    (rm = .reg (f (rmField b)) ∧ modrmByte 3#2 (regField b) (rmField b) = b ∧ bs = tail) ∨
    ∃ m, rm = .mem m ∧ m.wf = true ∧ b :: bs = m.encode (regField b) ++ tail := by
  have byte : ∀ md, modField b = md → modrmByte md (regField b) (rmField b) = b := by
    rintro _ rfl; exact modrmByte_of_fields b
  have mode : ∀ n, (modField b).toNat = n → modField b = BitVec.ofNat 2 n := by
    rintro _ rfl; simp
  unfold parseRM at h
  split at h
  case h_1 hm =>
    right
    split at h
    case isTrue h6 =>
      split at h
      case h_1 lo hi _ =>
        cases h
        exact ⟨.direct (wordOf lo hi), rfl, rfl, by simp [MemOp.encode, wordBytes_wordOf, ← h6, byte _ (mode _ hm)]⟩
      case h_2 => nomatch h
    case isFalse h6 =>
      cases h
      exact ⟨.ind (EaBase.ofNum (rmField b)), rfl, Machine.MemOp.wf_ind (EaBase.ofNum_ne_bp h6),
        by simp [MemOp.encode, byte _ (mode _ hm)]⟩
  case h_2 hm =>
    right
    split at h
    case h_1 d _ =>
      cases h
      exact ⟨.ind8 (EaBase.ofNum (rmField b)) d, rfl, rfl, by simp [MemOp.encode, byte _ (mode _ hm)]⟩
    case h_2 => nomatch h
  case h_3 hm =>
    right
    split at h
    case h_1 lo hi _ =>
      cases h
      exact ⟨.ind16 (EaBase.ofNum (rmField b)) (wordOf lo hi), rfl, rfl,
        by simp [MemOp.encode, wordBytes_wordOf, byte _ (mode _ hm)]⟩
    case h_2 => nomatch h
  case h_4 h0 h1 h2 =>
    left
    cases h
    have h3 : (modField b).toNat = 3 := by
      have := (modField b).isLt
      simp only [imp_false] at h0 h1 h2
      omega
    exact ⟨rfl, byte _ (mode _ h3), rfl⟩

/-- The bytes an r/m operand was taken from are its encoding, `enc` being that of its width. -/
theorem takeRM_ok {R : Type} {f : BitVec 3 → R} {enc : RM R → BitVec 3 → List Byte}
    (reg_enc : ∀ n reg, enc (.reg (f n)) reg = [modrmByte 3#2 reg n])
    (mem_enc : ∀ m reg, enc (.mem m) reg = m.encode reg) {k : BitVec 3 → RM R → List Byte → DecodeResult}
    {bs rest : List Byte} {i : Instr} (h : takeRM f k bs = .ok i rest) :
    ∃ reg rm tail, rm.wf = true ∧ bs = enc rm reg ++ tail ∧ k reg rm tail = .ok i rest := by
  cases bs with
  | nil => nomatch h
  | cons b bs =>
    rw [takeRM] at h
    split at h
    case h_1 rm tail hp =>
      refine ⟨regField b, rm, tail, ?_, ?_, h⟩ <;> obtain ⟨rfl, hb, rfl⟩ | ⟨m, rfl, hw, hb⟩ := parseRM_ok hp
      · rfl
      · exact hw
      · rw [reg_enc, hb]; rfl
      · rw [mem_enc, hb]
    case h_2 => nomatch h

theorem takeRM_ok8 {k : BitVec 3 → RM8 → List Byte → DecodeResult} {bs rest : List Byte} {i : Instr}
    (h : takeRM Reg8.ofNum k bs = .ok i rest) :
    ∃ reg rm tail, rm.wf = true ∧ bs = rm.encode8 reg ++ tail ∧ k reg rm tail = .ok i rest :=
  takeRM_ok (enc := RM.encode8) (fun n reg => by rw [RM.encode8, Reg8.num_ofNum]) (fun _ _ => rfl) h

theorem takeRM_ok16 {k : BitVec 3 → RM16 → List Byte → DecodeResult} {bs rest : List Byte} {i : Instr}
    (h : takeRM Reg16.ofNum k bs = .ok i rest) :
    ∃ reg rm tail, rm.wf = true ∧ bs = rm.encode16 reg ++ tail ∧ k reg rm tail = .ok i rest :=
  takeRM_ok (enc := RM.encode16) (fun n reg => by rw [RM.encode16, Reg16.num_ofNum]) (fun _ _ => rfl) h

theorem Instr.Spells.append {i : Instr} {bs all rest : List Byte} (h : i.Spells bs) (e : all = bs ++ rest) :
    i.wf = true ∧ encode i ++ rest = all :=
  ⟨h.wf, by rw [h.bytes, e]⟩

/-- R130, R132: with a format's encodings known, the bytes read are the encoding of what was decoded. -/
theorem Shape.decode_ok {sh : Shape} {op : Byte} (hs : sh.Encodes op) {bs rest : List Byte} {i : Instr}
    (h : sh.decode bs = .ok i rest) : i.wf = true ∧ encode i ++ rest = op :: bs := by
  cases sh with
  | np i => cases h; exact hs.append rfl
  | imm8 k =>
    obtain ⟨x, rfl, rfl⟩ := takeImm8_ok h
    exact (hs x).append rfl
  | imm16 k =>
    obtain ⟨v, rfl, rfl⟩ := takeImm16_ok h
    exact (hs v).append rfl
  | far k =>
    match bs, h with
    | a :: b :: c :: d :: _, h =>
      cases h
      exact (hs (wordOf a b) (wordOf c d)).append (by simp [wordBytes_wordOf])
  | modrm8 k =>
    rw [Shape.decode] at h
    obtain ⟨reg, rm, tail, hw, rfl, hk⟩ := takeRM_ok8 h
    cases hk
    exact (hs reg rm hw).append rfl
  | modrm16 k =>
    rw [Shape.decode] at h
    obtain ⟨reg, rm, tail, hw, rfl, hk⟩ := takeRM_ok16 h
    cases hk
    exact (hs reg rm hw).append rfl
  | modrm8i8 k =>
    rw [Shape.decode] at h
    obtain ⟨reg, rm, tail, hw, rfl, hk⟩ := takeRM_ok8 h
    obtain ⟨x, rfl, rfl⟩ := takeImm8_ok hk
    exact (hs reg rm x hw).append (by simp)
  | modrm16i16 k =>
    rw [Shape.decode] at h
    obtain ⟨reg, rm, tail, hw, rfl, hk⟩ := takeRM_ok16 h
    obtain ⟨v, rfl, rfl⟩ := takeImm16_ok hk
    exact (hs reg rm v hw).append (by simp)
  | modrm16i8 k =>
    rw [Shape.decode] at h
    obtain ⟨reg, rm, tail, hw, rfl, hk⟩ := takeRM_ok16 h
    obtain ⟨x, rfl, rfl⟩ := takeImm8_ok hk
    exact (hs reg rm x hw).append (by simp)
  | group3Eb =>
    cases hs
    rw [Shape.decode] at h
    obtain ⟨reg, rm, tail, hw, rfl, hk⟩ := takeRM_ok8 h
    cases reg using BitVec3.cases with
    | c0 =>
      obtain ⟨x, rfl, rfl⟩ := takeImm8_ok (k := .testEbIb rm) hk
      exact ⟨hw, congrArg (0xF6#8 :: ·) (List.append_assoc (rm.encode8 0#3) [x] rest)⟩
    | c1 =>
      obtain ⟨x, rfl, rfl⟩ := takeImm8_ok (k := .testEbIbAlias rm) hk
      exact ⟨hw, congrArg (0xF6#8 :: ·) (List.append_assoc (rm.encode8 1#3) [x] rest)⟩
    | _ =>
      cases hk
      exact ⟨hw, rfl⟩
  | group3Ew =>
    cases hs
    rw [Shape.decode] at h
    obtain ⟨reg, rm, tail, hw, rfl, hk⟩ := takeRM_ok16 h
    cases reg using BitVec3.cases with
    | c0 =>
      obtain ⟨x, rfl, rfl⟩ := takeImm16_ok (k := .testEwIw rm) hk
      exact ⟨hw, congrArg (0xF7#8 :: ·) (List.append_assoc (rm.encode16 0#3) (wordBytes x) rest)⟩
    | c1 =>
      obtain ⟨x, rfl, rfl⟩ := takeImm16_ok (k := .testEwIwAlias rm) hk
      exact ⟨hw, congrArg (0xF7#8 :: ·) (List.append_assoc (rm.encode16 1#3) (wordBytes x) rest)⟩
    | _ =>
      cases hk
      exact ⟨hw, rfl⟩

/-! ## The opcode map (R170) -/

section
variable {op : Byte}

theorem Shape.encodes_ebGb {k : RM8 → Reg8 → Instr}
    (h : ∀ rm r, rm.wf = true → (k rm r).Spells (op :: rm.encode8 r.num)) :
    Shape.Encodes op (.modrm8 fun reg rm => k rm (Reg8.ofNum reg)) := by
  intro reg rm hw
  have spells := h rm (Reg8.ofNum reg) hw
  rwa [Reg8.num_ofNum] at spells

theorem Shape.encodes_gbEb {k : Reg8 → RM8 → Instr}
    (h : ∀ r rm, rm.wf = true → (k r rm).Spells (op :: rm.encode8 r.num)) :
    Shape.Encodes op (.modrm8 fun reg rm => k (Reg8.ofNum reg) rm) :=
  encodes_ebGb (k := fun rm r => k r rm) fun rm r => h r rm

theorem Shape.encodes_ewGw {k : RM16 → Reg16 → Instr}
    (h : ∀ rm r, rm.wf = true → (k rm r).Spells (op :: rm.encode16 r.num)) :
    Shape.Encodes op (.modrm16 fun reg rm => k rm (Reg16.ofNum reg)) := by
  intro reg rm hw
  have spells := h rm (Reg16.ofNum reg) hw
  rwa [Reg16.num_ofNum] at spells

theorem Shape.encodes_gwEw {k : Reg16 → RM16 → Instr}
    (h : ∀ r rm, rm.wf = true → (k r rm).Spells (op :: rm.encode16 r.num)) :
    Shape.Encodes op (.modrm16 fun reg rm => k (Reg16.ofNum reg) rm) :=
  encodes_ewGw (k := fun rm r => k r rm) fun rm r => h r rm

end

/-! The rows split by the mod field (R180). -/

theorem byModLea_spells (r : Reg16) (rm : RM16) (h : rm.wf = true) :
    (byModLea r rm).Spells (0x8D#8 :: rm.encode16 r.num) := by
  cases rm with
  | reg _ => exact ⟨rfl, rfl⟩
  | mem m => cases m <;> exact ⟨Bool.and_eq_true_iff.2 ⟨h, rfl⟩, rfl⟩

theorem byModLes_spells (r : Reg16) (rm : RM16) (h : rm.wf = true) :
    (byModLes r rm).Spells (0xC4#8 :: rm.encode16 r.num) := by
  cases rm with
  | reg _ => exact ⟨rfl, rfl⟩
  | mem m => cases m <;> exact ⟨Bool.and_eq_true_iff.2 ⟨h, rfl⟩, rfl⟩

theorem byModLds_spells (r : Reg16) (rm : RM16) (h : rm.wf = true) :
    (byModLds r rm).Spells (0xC5#8 :: rm.encode16 r.num) := by
  cases rm with
  | reg _ => exact ⟨rfl, rfl⟩
  | mem m => cases m <;> exact ⟨Bool.and_eq_true_iff.2 ⟨h, rfl⟩, rfl⟩

theorem byModCall_spells (rm : RM16) (h : rm.wf = true) : (byModCall rm).Spells (0xFF#8 :: rm.encode16 3#3) := by
  cases rm with
  | reg _ => exact ⟨rfl, rfl⟩
  | mem m => cases m <;> exact ⟨Bool.and_eq_true_iff.2 ⟨h, rfl⟩, rfl⟩

theorem byModJmp_spells (rm : RM16) (h : rm.wf = true) : (byModJmp rm).Spells (0xFF#8 :: rm.encode16 5#3) := by
  cases rm with
  | reg _ => exact ⟨rfl, rfl⟩
  | mem m => cases m <;> exact ⟨Bool.and_eq_true_iff.2 ⟨h, rfl⟩, rfl⟩

theorem group5_spells (reg : BitVec 3) (rm : RM16) (h : rm.wf = true) :
    (group5 reg.toNat rm).Spells (0xFF#8 :: rm.encode16 reg) := by
  cases reg using BitVec3.cases with
  | c0 | c1 | c2 | c4 | c6 | c7 => exact ⟨h, rfl⟩
  | c3 => exact byModCall_spells rm h
  | c5 => exact byModJmp_spells rm h

/-- R152: the reg field holds a segment register number and a bit without meaning. -/
theorem sregField_of_field (reg : BitVec 3) : sregField (SReg.ofNum (reg.extractLsb' 0 2)) (reg.getLsbD 2) = reg := by
  revert reg; decide

/-- R262, R170: the row of eight opcodes that begins with a two-operand operation. -/
def aluRow : Machine.AluOp → BitVec 3 → Shape
  | .add => opRow00
  | .or => opRow08
  | .adc => opRow10
  | .sbb => opRow18
  | .and => opRow20
  | .sub => opRow28
  | .xor => opRow30
  | .cmp => opRow38

/-- R170: the first opcode of that row. -/
def aluOpcode : Machine.AluOp → Byte
  | .add => 0x00#8
  | .or => 0x08#8
  | .adc => 0x10#8
  | .sbb => 0x18#8
  | .and => 0x20#8
  | .sub => 0x28#8
  | .xor => 0x30#8
  | .cmp => 0x38#8

theorem aluRow_encodes (op : Machine.AluOp) (lo : BitVec 3) : (aluRow op lo).Encodes (opReg (aluOpcode op) lo) := by
  cases lo using BitVec3.cases with
  | c0 => cases op <;> exact Shape.encodes_ebGb fun _ _ h => ⟨h, rfl⟩
  | c1 => cases op <;> exact Shape.encodes_ewGw fun _ _ h => ⟨h, rfl⟩
  | c2 => cases op <;> exact Shape.encodes_gbEb fun _ _ h => ⟨h, rfl⟩
  | c3 => cases op <;> exact Shape.encodes_gwEw fun _ _ h => ⟨h, rfl⟩
  | c4 => cases op <;> exact fun _ => ⟨rfl, rfl⟩
  | c5 => cases op <;> exact fun _ => ⟨rfl, rfl⟩
  | c6 => cases op <;> exact ⟨rfl, rfl⟩
  | c7 => cases op <;> exact ⟨rfl, rfl⟩

theorem opRow40_encodes (lo : BitVec 3) : (opRow40 lo).Encodes (opReg 0x40#8 lo) :=
  ⟨rfl, congrArg (fun n => [opReg 0x40#8 n]) (Reg16.num_ofNum lo)⟩

theorem opRow48_encodes (lo : BitVec 3) : (opRow48 lo).Encodes (opReg 0x48#8 lo) :=
  ⟨rfl, congrArg (fun n => [opReg 0x48#8 n]) (Reg16.num_ofNum lo)⟩

theorem opRow50_encodes (lo : BitVec 3) : (opRow50 lo).Encodes (opReg 0x50#8 lo) :=
  ⟨rfl, congrArg (fun n => [opReg 0x50#8 n]) (Reg16.num_ofNum lo)⟩

theorem opRow58_encodes (lo : BitVec 3) : (opRow58 lo).Encodes (opReg 0x58#8 lo) :=
  ⟨rfl, congrArg (fun n => [opReg 0x58#8 n]) (Reg16.num_ofNum lo)⟩

theorem opRowB0_encodes (lo : BitVec 3) : (opRowB0 lo).Encodes (opReg 0xB0#8 lo) := fun x =>
  ⟨rfl, congrArg (fun n => [opReg 0xB0#8 n, x]) (Reg8.num_ofNum lo)⟩

theorem opRowB8_encodes (lo : BitVec 3) : (opRowB8 lo).Encodes (opReg 0xB8#8 lo) := fun v =>
  ⟨rfl, congrArg (fun n => opReg 0xB8#8 n :: wordBytes v) (Reg16.num_ofNum lo)⟩

theorem opRowD8_encodes (lo : BitVec 3) : (opRowD8 lo).Encodes (opReg 0xD8#8 lo) := fun _ _ h => ⟨h, rfl⟩

theorem opRow60_encodes (lo : BitVec 3) : (opRow60 lo).Encodes (opReg 0x60#8 lo) := by
  cases lo using BitVec3.cases <;> exact fun _ => ⟨rfl, rfl⟩

theorem opRow68_encodes (lo : BitVec 3) : (opRow68 lo).Encodes (opReg 0x68#8 lo) := by
  cases lo using BitVec3.cases <;> exact fun _ => ⟨rfl, rfl⟩

theorem opRow70_encodes (lo : BitVec 3) : (opRow70 lo).Encodes (opReg 0x70#8 lo) := by
  cases lo using BitVec3.cases <;> exact fun _ => ⟨rfl, rfl⟩

theorem opRow78_encodes (lo : BitVec 3) : (opRow78 lo).Encodes (opReg 0x78#8 lo) := by
  cases lo using BitVec3.cases <;> exact fun _ => ⟨rfl, rfl⟩

theorem opRow80_encodes (lo : BitVec 3) : (opRow80 lo).Encodes (opReg 0x80#8 lo) := by
  cases lo using BitVec3.cases with
  | c0 | c1 | c2 | c3 => exact fun reg _ _ h => by cases reg using BitVec3.cases <;> exact ⟨h, rfl⟩
  | c4 => exact Shape.encodes_ebGb fun _ _ h => ⟨h, rfl⟩
  | c5 => exact Shape.encodes_ewGw fun _ _ h => ⟨h, rfl⟩
  | c6 => exact Shape.encodes_gbEb fun _ _ h => ⟨h, rfl⟩
  | c7 => exact Shape.encodes_gwEw fun _ _ h => ⟨h, rfl⟩

theorem opRow88_encodes (lo : BitVec 3) : (opRow88 lo).Encodes (opReg 0x88#8 lo) := by
  cases lo using BitVec3.cases with
  | c0 => exact Shape.encodes_ebGb fun _ _ h => ⟨h, rfl⟩
  | c1 => exact Shape.encodes_ewGw fun _ _ h => ⟨h, rfl⟩
  | c2 => exact Shape.encodes_gbEb fun _ _ h => ⟨h, rfl⟩
  | c3 => exact Shape.encodes_gwEw fun _ _ h => ⟨h, rfl⟩
  | c4 => exact fun reg rm h => ⟨h, congrArg (0x8C#8 :: rm.encode16 ·) (sregField_of_field reg)⟩
  | c5 => exact Shape.encodes_gwEw byModLea_spells
  | c6 => exact fun reg rm h => ⟨h, congrArg (0x8E#8 :: rm.encode16 ·) (sregField_of_field reg)⟩
  | c7 => exact fun _ _ h => ⟨h, rfl⟩

theorem opRow90_encodes (lo : BitVec 3) : (opRow90 lo).Encodes (opReg 0x90#8 lo) := by
  cases lo using BitVec3.cases <;> exact ⟨rfl, rfl⟩

theorem opRow98_encodes (lo : BitVec 3) : (opRow98 lo).Encodes (opReg 0x98#8 lo) := by
  cases lo using BitVec3.cases with
  | c0 | c1 | c3 | c4 | c5 | c6 | c7 => exact ⟨rfl, rfl⟩
  | c2 => exact fun _ _ => ⟨rfl, rfl⟩

theorem opRowA0_encodes (lo : BitVec 3) : (opRowA0 lo).Encodes (opReg 0xA0#8 lo) := by
  cases lo using BitVec3.cases with
  | c0 | c1 | c2 | c3 => exact fun _ => ⟨rfl, rfl⟩
  | c4 | c5 | c6 | c7 => exact ⟨rfl, rfl⟩

theorem opRowA8_encodes (lo : BitVec 3) : (opRowA8 lo).Encodes (opReg 0xA8#8 lo) := by
  cases lo using BitVec3.cases with
  | c0 | c1 => exact fun _ => ⟨rfl, rfl⟩
  | c2 | c3 | c4 | c5 | c6 | c7 => exact ⟨rfl, rfl⟩

theorem opRowC0_encodes (lo : BitVec 3) : (opRowC0 lo).Encodes (opReg 0xC0#8 lo) := by
  cases lo using BitVec3.cases with
  | c0 | c2 => exact fun _ => ⟨rfl, rfl⟩
  | c1 | c3 => exact ⟨rfl, rfl⟩
  | c4 => exact Shape.encodes_gwEw byModLes_spells
  | c5 => exact Shape.encodes_gwEw byModLds_spells
  | c6 | c7 => exact fun _ _ _ h => ⟨h, rfl⟩

theorem opRowC8_encodes (lo : BitVec 3) : (opRowC8 lo).Encodes (opReg 0xC8#8 lo) := by
  cases lo using BitVec3.cases with
  | c0 | c2 | c5 => exact fun _ => ⟨rfl, rfl⟩
  | c1 | c3 | c4 | c6 | c7 => exact ⟨rfl, rfl⟩

theorem opRowD0_encodes (lo : BitVec 3) : (opRowD0 lo).Encodes (opReg 0xD0#8 lo) := by
  cases lo using BitVec3.cases with
  | c0 | c1 | c2 | c3 => exact fun reg _ h => by cases reg using BitVec3.cases <;> exact ⟨h, rfl⟩
  | c4 | c5 => exact fun _ => ⟨rfl, rfl⟩
  | c6 | c7 => exact ⟨rfl, rfl⟩

theorem opRowE0_encodes (lo : BitVec 3) : (opRowE0 lo).Encodes (opReg 0xE0#8 lo) := by
  cases lo using BitVec3.cases <;> exact fun _ => ⟨rfl, rfl⟩

theorem opRowE8_encodes (lo : BitVec 3) : (opRowE8 lo).Encodes (opReg 0xE8#8 lo) := by
  cases lo using BitVec3.cases with
  | c0 | c1 | c3 => exact fun _ => ⟨rfl, rfl⟩
  | c2 => exact fun _ _ => ⟨rfl, rfl⟩
  | c4 | c5 | c6 | c7 => exact ⟨rfl, rfl⟩

theorem opRowF0_encodes (lo : BitVec 3) : (opRowF0 lo).Encodes (opReg 0xF0#8 lo) := by
  cases lo using BitVec3.cases with
  | c0 | c1 | c2 | c3 | c4 | c5 => exact ⟨rfl, rfl⟩
  | c6 | c7 => exact rfl

theorem opRowF8_encodes (lo : BitVec 3) : (opRowF8 lo).Encodes (opReg 0xF8#8 lo) := by
  cases lo using BitVec3.cases with
  | c0 | c1 | c2 | c3 | c4 | c5 => exact ⟨rfl, rfl⟩
  | c6 => exact fun reg _ h => by cases reg using BitVec3.cases <;> exact ⟨h, rfl⟩
  | c7 => exact group5_spells

/-- R140: an opcode from its row and its low three bits. -/
theorem opReg_of_fields (op : Byte) :
    opReg (BitVec.ofNat 8 (8 * (op.extractLsb' 3 5 : BitVec 5).toNat)) (op.extractLsb' 0 3) = op := by
  revert op; decide

/-- An opcode of the row whose opcodes have `n` in bits 7:3. -/
theorem Shape.encodes_of_row {row : BitVec 3 → Shape} {op : Byte} {n : Nat}
    (h : (op.extractLsb' 3 5 : BitVec 5).toNat = n)
    (hrow : ∀ lo, (row lo).Encodes (opReg (BitVec.ofNat 8 (8 * n)) lo)) :
    (row (op.extractLsb' 0 3)).Encodes op := by
  have encodes := hrow (op.extractLsb' 0 3)
  rwa [← h, opReg_of_fields] at encodes

/-- R170, R190: all 256 opcodes. -/
theorem shapeOf_encodes (op : Byte) : (shapeOf op).Encodes op := by
  unfold shapeOf
  split
  case h_1 h => exact Shape.encodes_of_row h (aluRow_encodes .add)
  case h_2 h => exact Shape.encodes_of_row h (aluRow_encodes .or)
  case h_3 h => exact Shape.encodes_of_row h (aluRow_encodes .adc)
  case h_4 h => exact Shape.encodes_of_row h (aluRow_encodes .sbb)
  case h_5 h => exact Shape.encodes_of_row h (aluRow_encodes .and)
  case h_6 h => exact Shape.encodes_of_row h (aluRow_encodes .sub)
  case h_7 h => exact Shape.encodes_of_row h (aluRow_encodes .xor)
  case h_8 h => exact Shape.encodes_of_row h (aluRow_encodes .cmp)
  case h_9 h => exact Shape.encodes_of_row h opRow40_encodes
  case h_10 h => exact Shape.encodes_of_row h opRow48_encodes
  case h_11 h => exact Shape.encodes_of_row h opRow50_encodes
  case h_12 h => exact Shape.encodes_of_row h opRow58_encodes
  case h_13 h => exact Shape.encodes_of_row h opRow60_encodes
  case h_14 h => exact Shape.encodes_of_row h opRow68_encodes
  case h_15 h => exact Shape.encodes_of_row h opRow70_encodes
  case h_16 h => exact Shape.encodes_of_row h opRow78_encodes
  case h_17 h => exact Shape.encodes_of_row h opRow80_encodes
  case h_18 h => exact Shape.encodes_of_row h opRow88_encodes
  case h_19 h => exact Shape.encodes_of_row h opRow90_encodes
  case h_20 h => exact Shape.encodes_of_row h opRow98_encodes
  case h_21 h => exact Shape.encodes_of_row h opRowA0_encodes
  case h_22 h => exact Shape.encodes_of_row h opRowA8_encodes
  case h_23 h => exact Shape.encodes_of_row h opRowB0_encodes
  case h_24 h => exact Shape.encodes_of_row h opRowB8_encodes
  case h_25 h => exact Shape.encodes_of_row h opRowC0_encodes
  case h_26 h => exact Shape.encodes_of_row h opRowC8_encodes
  case h_27 h => exact Shape.encodes_of_row h opRowD0_encodes
  case h_28 h => exact Shape.encodes_of_row h opRowD8_encodes
  case h_29 h => exact Shape.encodes_of_row h opRowE0_encodes
  case h_30 h => exact Shape.encodes_of_row h opRowE8_encodes
  case h_31 h => exact Shape.encodes_of_row h opRowF0_encodes
  case h_32 =>
    have last : (op.extractLsb' 3 5 : BitVec 5).toNat = 31 := by
      have := (op.extractLsb' 3 5 : BitVec 5).isLt
      simp only [imp_false] at *
      omega
    exact Shape.encodes_of_row last opRowF8_encodes

/-- R132: what decodes is well-formed, and its encoding is the bytes read. -/
theorem encode_of_decode {bs rest : List Byte} {i : Instr} (h : decode bs = .ok i rest) :
    i.wf = true ∧ encode i ++ rest = bs := by
  cases bs with
  | nil => nomatch h
  | cons op _ => exact (shapeOf op).decode_ok (shapeOf_encodes op) h

/-- Settles O2: by the encodings of the 256 opcodes' formats, `shapeOf_encodes`. -/
theorem decodedBytesAreTheEncoding : Obligations.DecodedBytesAreTheEncoding := by
  unfold Obligations.DecodedBytesAreTheEncoding
  exact fun _ _ _ => encode_of_decode

/-! ## Six bytes always decode -/

/-- R185, R190: a byte sequence of six or more begins with an instruction of at most six bytes. -/
theorem decode_of_six_le {bs : List Byte} (h : 6 ≤ bs.length) :
    ∃ i rest, decode bs = .ok i rest ∧ rest.length < bs.length ∧ bs.length ≤ rest.length + 6 := by
  match bs, h with
  | op :: b :: tail, h =>
    simp only [List.length_cons] at h ⊢
    cases hm : (shapeOf op).hasModRM with
    | false =>
      let n := (shapeOf op).immLen 0#3
      have hn : n ≤ 4 := Machine.immLen_le' _
      obtain ⟨i, hi⟩ := Machine.Shape.decode_plain hm (is := (b :: tail).take n)
        (List.length_take_of_le (by simp only [List.length_cons]; omega))
      refine ⟨i, (b :: tail).drop n, ?_, ?_⟩
      · rw [← hi, List.take_append_drop]; rfl
      · simp only [List.length_drop, List.length_cons]; omega
    | true =>
      let d := dispLen b
      let n := (shapeOf op).immLen (regField b)
      have hd : d ≤ 2 := Machine.dispLen_le b
      have hn : n ≤ 2 := Machine.immLen_le _ hm
      obtain ⟨i, hi⟩ := Machine.Shape.decode_modrm hm b (disp := tail.take d) (is := (tail.drop d).take n)
        (List.length_take_of_le (by omega)) (List.length_take_of_le (by rw [List.length_drop]; omega))
      refine ⟨i, (tail.drop d).drop n, ?_, ?_⟩
      · rw [← hi, List.append_assoc, List.take_append_drop, List.append_assoc, List.take_append_drop]; rfl
      · simp only [List.length_drop]; omega

/-- Settles O3: the opcode, the ModRM byte's displacement and the format's immediate are at most six bytes. -/
theorem sixBytesDecode : Obligations.SixBytesDecode := by
  unfold Obligations.SixBytesDecode
  exact fun _ => decode_of_six_le

end Sys2Proof
end

section
/-! SUPPORT. What a step makes of the bytes at CS:IP: an instruction runs, a prefix byte goes on, nothing faults. -/

namespace Sys2Proof.Machine

/-! ## Fetching -/

/-- What taking the bytes `bs` leaves of the system when nothing but the CPU changes memory. -/
theorem Took.unchanged {s t : State} {bs : List Byte} (h : Took s t bs) (hq : s.sys.Quiet) : Unchanged s.sys t.sys :=
  unchanged_of_still (h.code hq).1

/-- R134: a prefix byte is executed and the next instruction byte taken in the same step. -/
theorem runInstr_prefix {n : Nat} {s t : State} {i : Instr} (hf : s.fetchInstr = some (i, t))
    (hp : isPrefixByte i = true) (ht : Full t) :
    ∃ v, exec i (t.setInstr i) = .next v ∧ v.Inv ∧ runInstr (n + 1) s = runInstr n v := by
  obtain ⟨v, hv, full, -⟩ := prefix_next hp (ht.setInstr i)
  exact ⟨v, hv, (full_iff_inv v).1 full, by rw [runInstr_fetched hf, if_pos hp, hv]⟩

/-- R134: an instruction other than a prefix byte is the end of its prefixes. -/
theorem runInstr_of_not_prefix {n : Nat} {s t : State} {i : Instr} (hf : s.fetchInstr = some (i, t))
    (hp : isPrefixByte i = false) : runInstr (n + 1) s = exec i (t.setInstr i) := by
  rw [runInstr_fetched hf, hp]; rfl

/-- Settles O6: the state after the fetch is the one the instruction runs in. -/
theorem prefixedInstructionRuns : Obligations.PrefixedInstructionRuns := by
  unfold Obligations.PrefixedInstructionRuns
  intro n s i rest hinv running quiet hd
  obtain ⟨t, bs, fetched, took, len, -⟩ := fetchInstr_decodes ((full_iff_inv s).2 hinv) running quiet hd
  exact ⟨t.setInstr i, took.regs, took.flags, took.sregs, len ▸ took.ip, took.control.prefixes, rfl,
    took.unchanged quiet, runInstr_of_not_prefix fetched, fun hp => runInstr_prefix fetched hp took.full⟩

/-! ## No fault -/

/-- Settles O10: with the invariant a byte comes whenever the queue is read, and no meaning faults (`step_keeps`). -/
theorem stepNeverFaults : Obligations.StepNeverFaults := by
  unfold Obligations.StepNeverFaults
  intro s f hinv faults
  have noFault : NoFault (step s) := (step_keeps ((full_iff_inv s).2 hinv)).2
  rw [faults] at noFault
  exact noFault

/-! ## Completion -/

/-- R286: MUL, IMUL, DIV and IDIV are one operation each, given without a repeat prefix. -/
theorem exec_mulDiv {i : Instr} (h : isMulDiv i = true) (s : State) : ∃ k, exec i s = unlessRepeated s k := by
  cases i with
  | mulEb _ | mulEw _ | imulEb _ | imulEw _ | divEb _ | divEw _ | idivEb _ | idivEw _ => exact ⟨_, rfl⟩
  | _ => nomatch h

/-- R190: every other instruction answers a next state as it stands, the stops of R485, R486 and R487 apart. -/
theorem exec_next {i : Instr} (hstop : isStop i = false) (hm : isMulDiv i = false) (s : State) :
    ∃ t, exec i s = .next t := by
  cases i with
  | grp4op2 _ | grp4op3 _ | grp4op4 _ | grp4op5 _ | grp4op6 _ | grp4op7 _ | callReg _ | jmpReg _ | leaReg _ _
  | lesReg _ _ | ldsReg _ _ => nomatch hstop
  | mulEb _ | mulEw _ | imulEb _ | imulEw _ | divEb _ | divEw _ | idivEb _ | idivEw _ => nomatch hm
  | _ => exact ⟨_, rfl⟩

/-- Settles O11: a multiplication or division by its missing repeat prefix, every other instruction by its arm. -/
theorem everyOtherInstructionCompletes : Obligations.EveryOtherInstructionCompletes := by
  unfold Obligations.EveryOtherInstructionCompletes
  intro i s hstop hrep
  cases hm : isMulDiv i with
  | true =>
    obtain ⟨k, hk⟩ := exec_mulDiv hm s
    exact ⟨k s, hk.trans (unlessRepeated_none (hrep hm) k)⟩
  | false => exact exec_next hstop hm s

end Sys2Proof.Machine
end

section
/-! SUPPORT. Data transfer: the registers by name and number, MOV, the stack, exchanges, flag bytes, addresses and
ports. -/

namespace Sys2Proof.Machine

/-! ## Registers (R20, R21) -/

/-- R20: a word register written changes no other. -/
theorem State.reg16_setReg16 (s : State) (r q : Reg16) (v : Word) :
    (s.setReg16 r v).reg16 q = if q = r then v else s.reg16 q := by
  split
  next h => rw [h, State.reg16_setReg16_same]
  next h => exact s.reg16_setReg16_other v h

/-- R21: a byte register written changes no other. -/
theorem State.reg8_setReg8 (s : State) (r q : Reg8) (v : Byte) :
    (s.setReg8 r v).reg8 q = if q = r then v else s.reg8 q := by
  split
  next h => rw [h, State.reg8_setReg8_same]
  next h => exact s.reg8_setReg8_other v h

/-- R21: the word registers that have halves are AX, BX, CX and DX. -/
theorem State.setReg8_keeps (s : State) (r : Reg8) (v : Byte) :
    (s.setReg8 r v).regs.sp = s.regs.sp ∧ (s.setReg8 r v).regs.bp = s.regs.bp ∧
    (s.setReg8 r v).regs.si = s.regs.si ∧ (s.setReg8 r v).regs.di = s.regs.di := by
  cases r <;> exact ⟨rfl, rfl, rfl, rfl⟩

/-- R20, R21: the registers by name. -/
theorem registerRule (s : State) : RegisterRule s := by
  have halves (w : Word) : w = hiByte w ++ loByte w := (word_hiByte_loByte w).symm
  exact ⟨⟨rfl, rfl, rfl, rfl, rfl, rfl, rfl, rfl⟩, ⟨halves _, halves _, halves _, halves _⟩, s.reg16_setReg16,
    s.reg8_setReg8, s.setReg8_keeps⟩

/-! ## Register numbers (R150 to R152) -/

/-- R151, R204: the opcode of MOV reg8,Ib. -/
theorem decode_movReg8Ib (r : Reg8) (imm : Byte) (rest : List Byte) :
    decode ((0xB0#8 + number8 r) :: imm :: rest) = .ok (.movReg8Ib r imm) rest := by
  have hop : 0xB0#8 + number8 r = opReg 0xB0#8 r.num := by cases r <;> rfl
  rw [hop]
  exact decode_encode (.movReg8Ib r imm) rfl rest

/-- R150, R204: the opcode of MOV reg16,Iw. -/
theorem decode_movReg16Iw (r : Reg16) (lo hi : Byte) (rest : List Byte) :
    decode ((0xB8#8 + number16 r) :: lo :: hi :: rest) = .ok (.movReg16Iw r (word hi lo)) rest := by
  have hop : 0xB8#8 + number16 r = opReg 0xB8#8 r.num := by cases r <;> rfl
  have hd := decode_encode (.movReg16Iw r (wordOf lo hi)) rfl rest
  rw [encode, wordBytes_wordOf, ← hop] at hd
  exact hd

/-- R152, R208: the ModRM byte of MOV AX,Sw. -/
theorem decode_movAxSw (sr : SReg) (rest : List Byte) :
    decode (0x8C#8 :: (0xC0#8 + regFieldOf sr) :: rest) = .ok (.movEwSw (.reg .ax) sr false) rest := by
  have hb : 0xC0#8 + regFieldOf sr = modrmByte 3#2 (sregField sr false) Reg16.ax.num := by cases sr <;> rfl
  rw [hb]
  exact decode_encode (.movEwSw (.reg .ax) sr false) rfl rest

/-! ## Changes in a row -/

theorem Ran.trans {s t u : State} {g g' : Regs} {f f' : Flags} (h : Ran s t g f) (k : Ran t u g' f') : Ran s u g' f' :=
  ⟨k.regs, k.flags, k.sregs.trans h.sregs, k.ip.trans h.ip, h.control.trans k.control⟩

theorem Ran.setReg8 {s t : State} {g : Regs} {f : Flags} (h : Ran s t g f) (r : Reg8) (v : Byte) :
    Ran s (t.setReg8 r v) ({ s with regs := g }.setReg8 r v).regs f :=
  ⟨State.setReg8_congr (s := { s with regs := g }) h.regs r v, h.flags, h.sregs, h.ip,
    h.control.trans ⟨rfl, rfl, rfl, rfl, rfl, rfl, rfl, rfl⟩⟩

theorem Ran.setReg16 {s t : State} {g : Regs} {f : Flags} (h : Ran s t g f) (r : Reg16) (v : Word) :
    Ran s (t.setReg16 r v) (g.set16 r v) f :=
  ⟨congrArg (fun g : Regs => g.set16 r v) h.regs, h.flags, h.sregs, h.ip,
    h.control.trans ⟨rfl, rfl, rfl, rfl, rfl, rfl, rfl, rfl⟩⟩

theorem Ran.withFlags {s t : State} {g : Regs} {f : Flags} (h : Ran s t g f) (f' : Flags) :
    Ran s { t with flags := f' } g f' :=
  ⟨h.regs, rfl, h.sregs, h.ip, h.control.trans ⟨rfl, rfl, rfl, rfl, rfl, rfl, rfl, rfl⟩⟩

/-! ## Operands moved -/

/-- A byte read goes into a register. -/
theorem put8_of_read {s : State} {x : Byte × State} {v : Byte} (h : x.1 = v ∧ Same s x.2) (r : Reg8) :
    Put8 s (x.2.setReg8 r x.1) (.reg r) v s.flags := by
  obtain ⟨hv, hs⟩ := h
  rw [hv]
  exact hs.put8 r v

/-- A word read goes into a register. -/
theorem put16_of_read {s : State} {x : Word × State} {v : Word} (h : x.1 = v ∧ Same s x.2) (r : Reg16) :
    Put16 s (x.2.setReg16 r x.1) (.reg r) v s.flags := by
  obtain ⟨hv, hs⟩ := h
  rw [hv]
  exact hs.put16 r v

/-- R164: a byte goes into an r/m operand. -/
theorem State.writeRM8_spec {s : State} (hs : s.Steady) (rm : RM8) (v : Byte) :
    Put8 s (s.writeRM8 rm v) rm v s.flags :=
  State.writePlace8_spec rm v s.flags (Same.rfl' s).ran rfl hs.quiet hs.ramWf

/-- R164: a word goes into an r/m operand. -/
theorem State.writeRM16_spec {s : State} (hs : s.Steady) (rm : RM16) (v : Word) :
    Put16 s (s.writeRM16 rm v) rm v s.flags :=
  State.writePlace16_spec rm v s.flags (Same.rfl' s).ran rfl hs.quiet hs.ramWf

/-- A byte written to memory changes no register. -/
theorem State.write8_ran (s : State) (g : Option SReg) (off : Word) (v : Byte) :
    Ran s (s.write8 g off v) s.regs s.flags :=
  ⟨rfl, rfl, rfl, rfl, ⟨rfl, rfl, rfl, rfl, rfl, rfl, rfl, rfl⟩⟩

/-- A word written to memory changes no register. -/
theorem State.write16_ran (s : State) (g : Option SReg) (off v : Word) :
    Ran s (s.write16 g off v) s.regs s.flags := by
  refine ⟨?_, ?_, ?_, ?_, ⟨?_, ?_, ?_, ?_, ?_, ?_, ?_, ?_⟩⟩ <;> simp

/-- R78: a byte goes to memory. -/
theorem State.write8_ran_stores {s : State} (hs : s.Steady) (g : Option SReg) (off : Word) (v : Byte) :
    Ran s (s.write8 g off v) s.regs s.flags ∧ Stores s.sys (s.write8 g off v).sys (store8 (s.segValue g) off v) :=
  ⟨s.write8_ran g off v, (State.write8_spec hs.quiet hs.ramWf g off v).1⟩

/-- R78: a word goes to memory. -/
theorem State.write16_ran_stores {s : State} (hs : s.Steady) (g : Option SReg) (off v : Word) :
    Ran s (s.write16 g off v) s.regs s.flags ∧ Stores s.sys (s.write16 g off v).sys (store16 (s.segValue g) off v) :=
  ⟨s.write16_ran g off v, (State.write16_spec hs.quiet hs.ramWf g off v).1⟩

/-- Settles O29: each MOV is one read or one write of an operand; the encodings are those of `decode_encode`. -/
theorem movForms : Obligations.MovForms := by
  unfold Obligations.MovForms
  refine ⟨registerRule, fun rest => ⟨fun r imm => decode_movReg8Ib r imm rest,
    fun r lo hi => decode_movReg16Iw r lo hi rest, fun sr => decode_movAxSw sr rest⟩, fun s hs => ?_⟩
  have hq := hs.quiet
  have same := Same.rfl' s
  exact ⟨fun rm _ => ⟨_, rfl, State.writeRM8_spec hs rm _⟩,
    fun rm _ => ⟨_, rfl, State.writeRM16_spec hs rm _⟩,
    fun r rm => ⟨_, rfl, put8_of_read (State.readRM8_spec hq rm) r⟩,
    fun r rm => ⟨_, rfl, put16_of_read (State.readRM16_spec hq rm) r⟩,
    fun rm _ imm => ⟨_, rfl, State.writeRM8_spec hs rm imm⟩,
    fun rm _ imm => ⟨_, rfl, State.writeRM16_spec hs rm imm⟩,
    fun r imm => ⟨_, rfl, same.put8 r imm⟩,
    fun r imm => ⟨_, rfl, same.put16 r imm⟩,
    fun off => ⟨_, rfl, put8_of_read (same.read8 hq (some (s.segFor .ds)) off) .al⟩,
    fun off => ⟨_, rfl, put16_of_read (same.read16 hq (some (s.segFor .ds)) off) .ax⟩,
    fun off => ⟨_, rfl, State.write8_ran_stores hs (some (s.segFor .ds)) off _⟩,
    fun off => ⟨_, rfl, State.write16_ran_stores hs (some (s.segFor .ds)) off _⟩,
    fun rm sr _ => ⟨_, rfl, State.writeRM16_spec hs rm (s.sreg sr)⟩⟩

/-! ## Segment registers -/

/-- R207: MOV of an operand to a segment register. -/
theorem completes_movSwEw {s : State} (hq : s.sys.Quiet) (sr : SReg) (b : Bool) (rm : RM16) :
    Completes (.movSwEw sr b rm) s fun t =>
      SegLoaded s t s.regs sr (s.operand16 rm) ∧ Unchanged s.sys t.sys := by
  obtain ⟨hv, same⟩ := State.readRM16_spec hq rm
  rw [← hv]
  exact ⟨_, rfl, State.loadSreg_spec same.ran same.still hq sr _⟩

/-- R215: the word popped is loaded with SP already two higher. -/
theorem popSreg_spec {s : State} (hq : s.sys.Quiet) (sr : SReg) :
    SegLoaded s (popSreg sr s) { s.regs with sp := s.regs.sp + 2#16 } sr (s.wordAt s.sregs.ss s.regs.sp) ∧
    Unchanged s.sys (popSreg sr s).sys := by
  obtain ⟨hv, still⟩ := State.pop16_spec hq
  rw [← hv]
  exact State.loadSreg_spec s.pop16_ran still hq sr _

/-- Settles O30: what is read or popped is loaded by `State.loadSreg`. -/
theorem segmentLoads : Obligations.SegmentLoads := by
  unfold Obligations.SegmentLoads
  intro s hs
  have popped (sr : SReg) := popSreg_spec hs.quiet sr
  exact ⟨completes_movSwEw hs.quiet,
    ⟨_, rfl, popped .es⟩, ⟨_, rfl, popped .cs⟩, ⟨_, rfl, popped .ss⟩, ⟨_, rfl, popped .ds⟩⟩

/-! ## Stack -/

/-- A word read, or at hand, is pushed. -/
theorem push16_of_read {s : State} (hs : s.Steady) {x : Word × State} {v : Word} (h : x.1 = v ∧ Same s x.2) :
    Ran s (x.2.push16 x.1) { s.regs with sp := s.regs.sp - 2#16 } s.flags ∧
    Stores s.sys (x.2.push16 x.1).sys (store16 s.sregs.ss (s.regs.sp - 2#16) v) := by
  obtain ⟨hv, same⟩ := h
  have pushed := (same.pushed hs.ramWf).push hs.quiet x.1
  rw [hv] at pushed ⊢
  exact ⟨pushed.ran, pushed.stores⟩

/-- Settles O31: every push is `State.push16`; PUSH SP reads its register after SP has moved. -/
theorem pushes : Obligations.Pushes := by
  unfold Obligations.Pushes
  intro s hs
  have pushed (v : Word) := push16_of_read hs (x := (v, s)) ⟨rfl, Same.rfl' s⟩
  have operand (rm : RM16) := push16_of_read hs (State.readRM16_spec hs.quiet rm)
  refine ⟨fun r => ?_, fun rm => ⟨_, rfl, operand rm⟩, fun rm => ⟨_, rfl, operand rm⟩, ⟨_, rfl, pushed s.sregs.es⟩,
    ⟨_, rfl, pushed s.sregs.cs⟩, ⟨_, rfl, pushed s.sregs.ss⟩, ⟨_, rfl, pushed s.sregs.ds⟩,
    ⟨_, rfl, pushed s.flags.image⟩⟩
  have hr : s.decSp.reg16 r = if r = .sp then s.regs.sp - 2#16 else s.reg16 r := s.reg16_setReg16 .sp r _
  rw [← hr]
  exact ⟨_, rfl, pushed (s.decSp.reg16 r)⟩

/-- R213: the register is written after SP has moved. -/
theorem completes_popReg16 {s : State} (hq : s.sys.Quiet) (r : Reg16) :
    Completes (.popReg16 r) s fun t =>
      Ran s t ((s.addSp 2#16).regs.set16 r (s.wordAt s.sregs.ss s.regs.sp)) s.flags ∧ Unchanged s.sys t.sys := by
  obtain ⟨hv, still⟩ := State.pop16_spec hq
  rw [← hv]
  exact ⟨_, rfl, s.pop16_ran.setReg16 r _, unchanged_of_still still⟩

/-- R214: the operand's place is formed first, and the operand is written after SP has moved. -/
theorem popRM_spec {s : State} (hs : s.Steady) (rm : RM16) :
    Ran s (popRM rm s) ((s.addSp 2#16).regsAfter16 (s.wordAt s.sregs.ss s.regs.sp) rm) s.flags ∧
    Wrote16 s (popRM rm s) (s.wordAt s.sregs.ss s.regs.sp) rm := by
  obtain ⟨hv, still⟩ := State.pop16_spec hs.quiet
  rw [← hv]
  cases rm with
  | reg r => exact ⟨s.pop16_ran.setReg16 r _, unchanged_of_still still⟩
  | mem m =>
    have stored := State.write16_spec (Sys.quiet_of_still still hs.quiet) (Sys.ramWf_of_still still hs.ramWf)
      (some (s.segOf m)) (s.effAddr m) s.pop16.1
    exact ⟨s.pop16_ran.trans (s.pop16.2.write16_ran _ _ _), Stores.still_trans still stored.1⟩

/-- R217: the nine flags are those of the word popped. -/
theorem completes_popf {s : State} (hq : s.sys.Quiet) :
    Completes .popf s fun t =>
      Ran s t { s.regs with sp := s.regs.sp + 2#16 } (Flags.ofImage (s.wordAt s.sregs.ss s.regs.sp)) ∧
      Unchanged s.sys t.sys := by
  obtain ⟨hv, still⟩ := State.pop16_spec hq
  rw [← hv]
  exact ⟨_, rfl, s.pop16_ran.withFlags _, unchanged_of_still still⟩

/-- Settles O32: the word popped is SS:SP's, and every destination is written after `State.pop16`. -/
theorem pops : Obligations.Pops := by
  unfold Obligations.Pops
  exact fun s hs => ⟨completes_popReg16 hs.quiet, fun rm _ => ⟨_, rfl, popRM_spec hs rm⟩, completes_popf hs.quiet⟩

/-! ## Exchanges -/

/-- R218: the operand is written before the register, both with the other's old value. -/
theorem xchgEb_spec {s : State} (hs : s.Steady) (r : Reg8) (rm : RM8) :
    Ran s (xchgEb r rm s) ({ s with regs := s.regsAfter8 (s.reg8 r) rm }.setReg8 r (s.operand8 rm)).regs s.flags ∧
    Wrote8 s (xchgEb r rm s) (s.reg8 r) rm := by
  have same := State.readPlace8_same hs.quiet (s.place rm)
  obtain ⟨ran, wrote⟩ := State.writePlace8_spec rm (s.reg8 r) s.flags same.ran same.still hs.quiet hs.ramWf
  unfold xchgEb
  dsimp only
  rw [same.reg8, (State.readPlace8_spec hs.quiet rm).1]
  exact ⟨ran.setReg8 r _, wrote⟩

/-- R218: the same of words. -/
theorem xchgEw_spec {s : State} (hs : s.Steady) (r : Reg16) (rm : RM16) :
    Ran s (xchgEw r rm s) ((s.regsAfter16 (s.reg16 r) rm).set16 r (s.operand16 rm)) s.flags ∧
    Wrote16 s (xchgEw r rm s) (s.reg16 r) rm := by
  have same := State.readPlace16_same hs.quiet (s.place rm)
  obtain ⟨ran, wrote⟩ := State.writePlace16_spec rm (s.reg16 r) s.flags same.ran same.still hs.quiet hs.ramWf
  unfold xchgEw
  dsimp only
  rw [same.reg16, (State.readPlace16_spec hs.quiet rm).1]
  exact ⟨ran.setReg16 r _, wrote⟩

/-- R219: AX gets the register's value, then the register AX's old one. -/
theorem xchgAx_spec (r : Reg16) (s : State) :
    Ran s (xchgAx r s) ((s.regs.set16 .ax (s.reg16 r)).set16 r s.regs.ax) s.flags ∧
    Unchanged s.sys (xchgAx r s).sys :=
  ⟨((Same.rfl' s).ran.setReg16 .ax _).setReg16 r _, (Same.rfl' s).unchanged⟩

/-- Settles O34: an exchange is two writes of values read before; NOP is none. -/
theorem exchanges : Obligations.Exchanges := by
  unfold Obligations.Exchanges
  intro s hs
  have exchanged (r : Reg16) := xchgAx_spec r s
  exact ⟨fun r rm => ⟨_, rfl, xchgEb_spec hs r rm⟩, fun r rm => ⟨_, rfl, xchgEw_spec hs r rm⟩,
    ⟨_, rfl, exchanged .cx⟩, ⟨_, rfl, exchanged .dx⟩, ⟨_, rfl, exchanged .bx⟩, ⟨_, rfl, exchanged .sp⟩,
    ⟨_, rfl, exchanged .bp⟩, ⟨_, rfl, exchanged .si⟩, ⟨_, rfl, exchanged .di⟩, ⟨_, rfl, (Same.rfl' s).kept⟩⟩

/-! ## Flag bytes and addresses -/

/-- Settles O35: XLAT reads at DS or the override, LDS and LES by `loadFar_spec`, the others what the state holds. -/
theorem addressAndFlagByteTransfers : Obligations.AddressAndFlagByteTransfers := by
  unfold Obligations.AddressAndFlagByteTransfers
  intro s hs
  have hq := hs.quiet
  have same := Same.rfl' s
  have lea (r : Reg16) (m : MemOp) := same.put16 r (s.effAddr m)
  have lds (r : Reg16) (m : MemOp) := loadFar_spec hq .ds r m
  have les (r : Reg16) (m : MemOp) := loadFar_spec hq .es r m
  exact ⟨⟨_, rfl, same.put8 .ah _⟩,
    ⟨_, rfl, same.withFlags _, same.unchanged⟩,
    ⟨_, rfl, same.put8 .al _⟩,
    ⟨_, rfl, put8_of_read (same.read8 hq (some (s.segFor .ds)) _) .al⟩,
    fun r m => ⟨⟨_, rfl, lea r m⟩, ⟨_, rfl, lea r m⟩, ⟨_, rfl, lea r m⟩⟩,
    fun r m => ⟨⟨_, rfl, lds r m⟩, ⟨_, rfl, lds r m⟩, ⟨_, rfl, lds r m⟩,
      ⟨_, rfl, les r m⟩, ⟨_, rfl, les r m⟩, ⟨_, rfl, les r m⟩⟩⟩

/-! ## Ports -/

/-- A byte read from a port changes no register. -/
theorem State.in8_ran (s : State) (port : Word) : Ran s (s.in8 port).2 s.regs s.flags :=
  ⟨rfl, rfl, rfl, rfl, ⟨rfl, rfl, rfl, rfl, rfl, rfl, rfl, rfl⟩⟩

/-- A word read from two ports changes no register. -/
theorem State.in16_ran (s : State) (port : Word) : Ran s (s.in16 port).2 s.regs s.flags :=
  ⟨rfl, rfl, rfl, rfl, ⟨rfl, rfl, rfl, rfl, rfl, rfl, rfl, rfl⟩⟩

/-- R222, R223: AL gets what the port's device answers. -/
theorem inAl_spec {s : State} (hq : s.sys.Quiet) (port : Word) :
    ∃ v, Ran s (inAl port s) (s.setReg8 .al v).regs s.flags ∧ PortRead s.sys (inAl port s).sys port v :=
  ⟨_, (s.in8_ran port).setReg8 .al _, State.in8_spec hq port⟩

/-- R222, R223: AL gets what the port's device answers, then AH what the next port's does. -/
theorem inAx_spec {s : State} (hq : s.sys.Quiet) (port : Word) :
    ∃ m lo hi, Ran s (inAx port s) { s.regs with ax := word hi lo } s.flags ∧ PortRead s.sys m port lo ∧
      PortRead m (inAx port s).sys (port + 1#16) hi := by
  obtain ⟨m, low, high⟩ := State.in16_spec hq port
  refine ⟨m, _, _, ?_, low, high⟩
  rw [word_hiByte_loByte]
  exact (s.in16_ran port).setReg16 .ax _

/-- Settles O36: the four forms are two operations, on an immediate port or DX. -/
theorem portInput : Obligations.PortInput := by
  unfold Obligations.PortInput
  intro s hs
  have al (port : Word) := inAl_spec hs.quiet port
  have ax (port : Word) := inAx_spec hs.quiet port
  exact ⟨fun p => ⟨⟨_, rfl, al (zext16 p)⟩, ⟨_, rfl, ax (zext16 p)⟩⟩, ⟨_, rfl, al s.regs.dx⟩,
    ⟨_, rfl, ax s.regs.dx⟩⟩

/-- A byte written to a port changes no register. -/
theorem State.out8_ran (s : State) (port : Word) (v : Byte) : Ran s (s.out8 port v) s.regs s.flags :=
  ⟨rfl, rfl, rfl, rfl, ⟨rfl, rfl, rfl, rfl, rfl, rfl, rfl, rfl⟩⟩

/-- A word written to two ports changes no register. -/
theorem State.out16_ran (s : State) (port v : Word) : Ran s (s.out16 port v) s.regs s.flags := by
  refine ⟨?_, ?_, ?_, ?_, ⟨?_, ?_, ?_, ?_, ?_, ?_, ?_, ?_⟩⟩ <;> simp

/-- Settles O37: the four forms are two operations, on an immediate port or DX. -/
theorem portOutput : Obligations.PortOutput := by
  unfold Obligations.PortOutput
  intro s hs
  have al (port : Word) := And.intro (s.out8_ran port (s.reg8 .al)) (State.out8_spec hs.quiet port (s.reg8 .al))
  have ax (port : Word) := And.intro (s.out16_ran port s.regs.ax) (State.out16_spec hs.quiet port s.regs.ax)
  exact ⟨fun p => ⟨⟨_, rfl, al (zext16 p)⟩, ⟨_, rfl, ax (zext16 p)⟩⟩, ⟨_, rfl, al s.regs.dx⟩,
    ⟨_, rfl, ax s.regs.dx⟩⟩

end Sys2Proof.Machine
end

section
/-! SUPPORT. Addition, subtraction and the logical operations in numbers (R260, R261, R320), and the instructions of
one and two operands that apply them (R262 to R272, R327). -/

namespace Sys2Proof.Machine

/-! ## Parity, sign and zero -/

/-- One bit more turns the parity over when it is set. -/
theorem even_length_filter_cons (p : Nat → Bool) (i : Nat) (l : List Nat) :
    (((i :: l).filter p).length % 2 == 0) = (p i ^^ ((l.filter p).length % 2 == 0)) := by
  cases h : p i with
  | false => simp [h]
  | true =>
    rw [List.filter_cons_of_pos h, List.length_cons, Bool.eq_iff_iff]
    simp only [beq_iff_eq, Bool.true_xor, Bool.not_eq_true', beq_eq_false_iff_ne]
    omega

/-- R27: PF is even parity of the low eight bits. -/
theorem parity8_eq_evenParity {n : Nat} (r : BitVec n) : parity8 (r.setWidth 8) = evenParity r := by
  have hrange : List.range 8 = [0, 1, 2, 3, 4, 5, 6, 7] := rfl
  simp [parity8, evenParity, hrange, even_length_filter_cons]

/-- SF, ZF and PF set by a result, the carries given: the control flags stay. -/
theorem Flags.setSZP_resultFlags {n : Nat} (f : Flags) (r : BitVec n) (c a o : Bool) :
    ResultFlags f { f.setSZP r with cf := c, af := a, of := o } r :=
  ⟨rfl, by simp [Flags.setSZP, BitVec.toNat_eq], parity8_eq_evenParity r, rfl, rfl, rfl⟩

/-! ## Carry and overflow -/

theorem toNat_ofNat_bool {n : Nat} (hn : 0 < n) (c : Bool) : (BitVec.ofNat n c.toNat).toNat = c.toNat := by
  rw [BitVec.toNat_ofNat, Nat.mod_eq_of_lt]
  exact c.toNat_lt.trans_le (Nat.pow_le_pow_right (by decide : 0 < 2) hn)

/-- R260: the sum is modulo 2^n. -/
theorem toNat_addN {n : Nat} (hn : 0 < n) (f : Flags) (a b : BitVec n) (c : Bool) :
    (addN f a b c).1.toNat = (a.toNat + b.toNat + c.toNat) % 2 ^ n := by
  rw [addN, BitVec.toNat_add, BitVec.toNat_add, toNat_ofNat_bool hn, Nat.mod_add_mod]

theorem toInt_addN {n : Nat} (f : Flags) (a b : BitVec n) (c : Bool) :
    (addN f a b c).1.toInt = (a.toInt + b.toInt + c.toNat).bmod (2 ^ n) := by
  rw [addN, BitVec.toInt_add, BitVec.toInt_add, BitVec.toInt_ofNat', Int.add_bmod_bmod, Int.bmod_add_bmod]

theorem toInt_subN {n : Nat} (f : Flags) (a b : BitVec n) (c : Bool) :
    (subN f a b c).1.toInt = (a.toInt - b.toInt - c.toNat).bmod (2 ^ n) := by
  rw [subN, BitVec.toInt_sub, BitVec.toInt_sub, BitVec.toInt_ofNat', Int.sub_bmod_bmod, Int.bmod_sub_bmod]

/-- A value is its signed value modulo 2^n. -/
theorem toInt_emod {n : Nat} (x : BitVec n) : x.toInt % (2 ^ n : Nat) = x.toNat := by
  rw [BitVec.toInt_eq_toNat_bmod, Int.bmod_emod]
  exact_mod_cast Nat.mod_eq_of_lt x.isLt

/-- R261: the difference is modulo 2^n. -/
theorem toNat_subN {n : Nat} (f : Flags) (a b : BitVec n) (c : Bool) :
    ((subN f a b c).1.toNat : Int) = ((a.toNat : Int) - b.toNat - c.toNat) % 2 ^ n := by
  rw [← toInt_emod, toInt_subN, Int.bmod_emod, ← toInt_emod a, ← toInt_emod b]
  simp [Int.sub_emod]

/-- A value of twice the signed range wraps at most once. -/
theorem bmod_wraps_once {m : Nat} {x : Int} (lo : -(m * 2) ≤ x) (hi : x < m * 2) :
    x.bmod (m * 2) = if x < -m then x + m * 2 else if m ≤ x then x - m * 2 else x := by
  split_ifs
  · rw [← Int.add_bmod_right, Int.bmod_eq_of_le_mul_two] <;> push_cast <;> omega
  · rw [← Int.sub_bmod_right, Int.bmod_eq_of_le_mul_two] <;> push_cast <;> omega
  · rw [Int.bmod_eq_of_le_mul_two] <;> push_cast <;> omega

/-- The signed range of an n-bit value. -/
theorem toInt_range {n : Nat} (x : BitVec n) :
    -((2 ^ (n - 1) : Nat) : Int) ≤ x.toInt ∧ x.toInt < (2 ^ (n - 1) : Nat) := by
  have lo := x.le_toInt
  have hi := @BitVec.toInt_lt n x
  push_cast
  exact ⟨lo, hi⟩

/-- The sum `t` of two signed values and a carry leaves their range exactly when their signs agree and the sign of the
wrapped sum differs. -/
theorem signs_overflow_iff {m : Nat} {x y t : Int} (hx : -m ≤ x ∧ x < m) (hy : -m ≤ y ∧ y < m)
    (ht : x + y ≤ t ∧ t ≤ x + y + 1) :
    ((x < 0 ↔ y < 0) ∧ ¬(t.bmod (m * 2) < 0 ↔ x < 0)) ↔ t < -m ∨ m ≤ t := by
  rw [bmod_wraps_once (by omega) (by omega)]
  split_ifs <;> omega

/-- R260: OF by the operands' signs is signed overflow. -/
theorem addN_overflow_iff {n : Nat} (hn : 0 < n) (f : Flags) (a b : BitVec n) (c : Bool) :
    (a.msb = b.msb ∧ (addN f a b c).1.msb ≠ a.msb) ↔
      a.toInt + b.toInt + c.toNat < -(2 ^ (n - 1)) ∨ 2 ^ (n - 1) ≤ a.toInt + b.toInt + c.toNat := by
  have hc := c.toNat_le
  have key := signs_overflow_iff (toInt_range a) (toInt_range b) (t := a.toInt + b.toInt + c.toNat) (by omega)
  push_cast [Nat.two_pow_pred_mul_two hn] at key
  simpa only [BitVec.msb_eq_toInt, toInt_addN, ne_eq, decide_eq_decide] using key

/-- R261: the same of a difference, which is the sum with the complement of `b` and the complement of the borrow. -/
theorem subN_overflow_iff {n : Nat} (hn : 0 < n) (f : Flags) (a b : BitVec n) (c : Bool) :
    (a.msb ≠ b.msb ∧ (subN f a b c).1.msb ≠ a.msb) ↔
      a.toInt - b.toInt - c.toNat < -(2 ^ (n - 1)) ∨ 2 ^ (n - 1) ≤ a.toInt - b.toInt - c.toNat := by
  have hc := c.toNat_le
  have hb := toInt_range b
  have signs : (a.toInt < 0 ↔ -1 - b.toInt < 0) ↔ ¬(a.toInt < 0 ↔ b.toInt < 0) := by omega
  have key := signs_overflow_iff (toInt_range a) (y := -1 - b.toInt) (by omega)
    (t := a.toInt - b.toInt - c.toNat) (by omega)
  push_cast [Nat.two_pow_pred_mul_two hn, signs] at key
  simpa only [BitVec.msb_eq_toInt, toInt_subN, ne_eq, decide_eq_decide] using key

/-! ## The rules -/

/-- R260 on any width. -/
theorem addRule {n : Nat} (hn : 0 < n) : AddRule n := by
  intro f a b c
  have of_iff : (addN f a b c).2.of = true ↔ a.msb = b.msb ∧ (addN f a b c).1.msb ≠ a.msb := by simp [addN]
  exact ⟨toNat_addN hn f a b c, f.setSZP_resultFlags _ _ _ _, rfl, rfl, of_iff,
    of_iff.trans (addN_overflow_iff hn f a b c)⟩

/-- R261 on any width. -/
theorem subRule {n : Nat} (hn : 0 < n) : SubRule n := by
  intro f a b c
  have of_iff : (subN f a b c).2.of = true ↔ a.msb ≠ b.msb ∧ (subN f a b c).1.msb ≠ a.msb := by simp [subN]
  exact ⟨toNat_subN f a b c, f.setSZP_resultFlags _ _ _ _, rfl, rfl, of_iff,
    of_iff.trans (subN_overflow_iff hn f a b c)⟩

/-- R320 on any width. -/
theorem logicRule (n : Nat) : LogicRule n := fun f _ _ => ⟨f.setSZP_resultFlags _ _ _ _, rfl, rfl, rfl⟩

/-- R267: CMP alone writes no destination. -/
theorem AluOp.writes_eq_false_iff (op : AluOp) : op.writes = false ↔ op = .cmp := by
  cases op <;> simp [AluOp.writes]

/-- R263 to R267, R321 to R323 on any width. -/
theorem aluRule (n : Nat) : AluRule n := by
  intro f a b af
  have logic (r : BitVec n) : LogicFlags f (logicN f r af) r af := logicRule n f r af
  exact ⟨rfl, rfl, rfl, rfl, rfl, ⟨rfl, logic _⟩, ⟨rfl, logic _⟩, ⟨rfl, logic _⟩,
    AluOp.writes_eq_false_iff⟩

/-- Settles O15: the carry out is the sum's quotient, and a signed sum wraps at most once. -/
theorem additionRule : Obligations.AdditionRule := by
  unfold Obligations.AdditionRule
  exact ⟨addRule (by decide), addRule (by decide)⟩

/-- Settles O16: the same of differences. -/
theorem subtractionRule : Obligations.SubtractionRule := by
  unfold Obligations.SubtractionRule
  exact ⟨subRule (by decide), subRule (by decide)⟩

/-! ## The two-operand forms (R262) -/

/-- R262: the five byte encodings of an operation are its five operand forms. -/
theorem exec_byteAluForms (op : AluOp) (s : State) :
    (∀ rm r, exec ((aluForms op).ebGb rm r) s = .next (aluEbGb op rm r s)) ∧
    (∀ r rm, exec ((aluForms op).gbEb r rm) s = .next (aluGbEb op r rm s)) ∧
    (∀ imm, exec ((aluForms op).alIb imm) s = .next (aluAlIb op imm s)) ∧
    (∀ rm imm, exec ((aluForms op).ebIb rm imm) s = .next (aluEbIb op rm imm s)) ∧
    (∀ rm imm, exec ((aluForms op).ebIb82 rm imm) s = .next (aluEbIb op rm imm s)) := by
  cases op <;> exact ⟨fun _ _ => rfl, fun _ _ => rfl, fun _ => rfl, fun _ _ => rfl, fun _ _ => rfl⟩

/-- R262, R161: the five word encodings, the byte of 0x83 sign-extended. -/
theorem exec_wordAluForms (op : AluOp) (s : State) :
    (∀ rm r, exec ((aluForms op).ewGw rm r) s = .next (aluEwGw op rm r s)) ∧
    (∀ r rm, exec ((aluForms op).gwEw r rm) s = .next (aluGwEw op r rm s)) ∧
    (∀ imm, exec ((aluForms op).axIw imm) s = .next (aluAxIw op imm s)) ∧
    (∀ rm imm, exec ((aluForms op).ewIw rm imm) s = .next (aluEwIw op rm imm s)) ∧
    (∀ rm imm, exec ((aluForms op).ewIs rm imm) s = .next (aluEwIw op rm (sext16 imm) s)) := by
  cases op <;> exact ⟨fun _ _ => rfl, fun _ _ => rfl, fun _ => rfl, fun _ _ => rfl, fun _ _ => rfl⟩

/-- Settles O13: each operation's five byte encodings are the operand forms whose effect the library states. -/
theorem byteAluForms : Obligations.ByteAluForms := by
  unfold Obligations.ByteAluForms
  refine ⟨aluRule 8, fun op s hs => ?_⟩
  have hq := hs.quiet
  have hw := hs.ramWf
  obtain ⟨ebGb, gbEb, alIb, ebIb, ebIb82⟩ := exec_byteAluForms op s
  exact ⟨fun rm r => ⟨_, ebGb rm r, aluEbGb_spec op rm r hq hw⟩,
    fun r rm => ⟨_, gbEb r rm, aluGbEb_spec op r rm hq hw⟩,
    fun imm => ⟨_, alIb imm, aluAlIb_spec op imm hq hw⟩,
    fun rm imm => ⟨_, ebIb rm imm, aluEbIb_spec op rm imm hq hw⟩,
    fun rm imm => ⟨_, ebIb82 rm imm, aluEbIb_spec op rm imm hq hw⟩⟩

/-- Settles O14: the same of the five word encodings. -/
theorem wordAluForms : Obligations.WordAluForms := by
  unfold Obligations.WordAluForms
  refine ⟨aluRule 16, fun op s hs => ?_⟩
  have hq := hs.quiet
  have hw := hs.ramWf
  obtain ⟨ewGw, gwEw, axIw, ewIw, ewIs⟩ := exec_wordAluForms op s
  exact ⟨fun rm r => ⟨_, ewGw rm r, aluEwGw_spec op rm r hq hw⟩,
    fun r rm => ⟨_, gwEw r rm, aluGwEw_spec op r rm hq hw⟩,
    fun imm => ⟨_, axIw imm, aluAxIw_spec op imm hq hw⟩,
    fun rm imm => ⟨_, ewIw rm imm, aluEwIw_spec op rm imm hq hw⟩,
    fun rm imm => ⟨_, ewIs rm imm, aluEwIw_spec op rm (sext16 imm) hq hw⟩⟩

/-! ## One operand (R268 to R272, R327) -/

theorem incN_fst {n : Nat} (f : Flags) (a : BitVec n) : (incN f a).1 = a + BitVec.ofNat n 1 := by simp [incN, addN]

theorem decN_fst {n : Nat} (f : Flags) (a : BitVec n) : (decN f a).1 = a - BitVec.ofNat n 1 := by simp [decN, subN]

theorem negN_fst {n : Nat} (f : Flags) (a : BitVec n) : (negN f a).1 = -a := by simp [negN, subN]

/-- A byte operand replaced by `f` of it, the result written out as `v`. -/
theorem modifyEb_put {s : State} (hs : s.Steady) {f : Flags → Byte → Byte × Flags} {rm : RM8} {v : Byte}
    (hv : (f s.flags (s.operand8 rm)).1 = v) : Put8 s (modifyEb f rm s) rm v (f s.flags (s.operand8 rm)).2 :=
  hv ▸ modifyEb_spec f rm hs.quiet hs.ramWf

/-- A word operand replaced by `f` of it, the result written out as `v`. -/
theorem modifyEw_put {s : State} (hs : s.Steady) {f : Flags → Word → Word × Flags} {rm : RM16} {v : Word}
    (hv : (f s.flags (s.operand16 rm)).1 = v) : Put16 s (modifyEw f rm s) rm v (f s.flags (s.operand16 rm)).2 :=
  hv ▸ modifyEw_spec f rm hs.quiet hs.ramWf

/-- A word register replaced by `f` of it, the result written out as `v`. -/
theorem modifyReg16_put {s : State} (hs : s.Steady) {f : Flags → Word → Word × Flags} {r : Reg16} {v : Word}
    (hv : (f s.flags (s.reg16 r)).1 = v) : Put16 s (modifyReg16 f r s) (.reg r) v (f s.flags (s.reg16 r)).2 :=
  hv ▸ (State.aluStep_same hs.quiet (s.reg16 r) 1#16).put16Flags r _ _

/-- Settles O17: each is a read, one operation and a write back; the results by `incN_fst`, `decN_fst`, `negN_fst`. -/
theorem incDecNegNot : Obligations.IncDecNegNot := by
  unfold Obligations.IncDecNegNot
  intro s hs
  exact ⟨fun rm => ⟨⟨_, rfl, modifyEb_put hs (incN_fst _ _)⟩, ⟨_, rfl, modifyEb_put hs (decN_fst _ _)⟩,
      ⟨_, rfl, modifyEb_put hs (negN_fst _ _)⟩, ⟨_, rfl, modifyEb_put hs (BitVec.allOnes_sub_eq_not _).symm⟩⟩,
    fun rm => ⟨⟨_, rfl, modifyEw_put hs (incN_fst _ _)⟩, ⟨_, rfl, modifyEw_put hs (decN_fst _ _)⟩,
      ⟨_, rfl, modifyEw_put hs (negN_fst _ _)⟩, ⟨_, rfl, modifyEw_put hs (BitVec.allOnes_sub_eq_not _).symm⟩⟩,
    fun r => ⟨⟨_, rfl, modifyReg16_put hs (incN_fst _ _)⟩, ⟨_, rfl, modifyReg16_put hs (decN_fst _ _)⟩⟩⟩

end Sys2Proof.Machine
end

section
/-! SUPPORT. Multiplication in numbers (R273, R274). -/

namespace Sys2Proof.Machine

/-! ## Operands only read (R286) -/

/-- A byte operand only read: without REP and REPNE the instruction completes. -/
theorem completes_withEb {s : State} (hq : s.sys.Quiet) (hr : s.eu.pfx.rep = .none) {i : Instr} {rm : RM8}
    {k : Byte → State → State} (he : exec i s = unlessRepeated s (withEb k rm)) {P : State → Prop}
    (h : ∀ t, Same s t → P (k (s.operand8 rm) t)) : Completes i s P := by
  obtain ⟨t, same, hk⟩ := withEb_same hq k rm
  exact ⟨k (s.operand8 rm) t, by rw [he, unlessRepeated_none hr, hk], h t same⟩

/-- A word operand only read: without REP and REPNE the instruction completes. -/
theorem completes_withEw {s : State} (hq : s.sys.Quiet) (hr : s.eu.pfx.rep = .none) {i : Instr} {rm : RM16}
    {k : Word → State → State} (he : exec i s = unlessRepeated s (withEw k rm)) {P : State → Prop}
    (h : ∀ t, Same s t → P (k (s.operand16 rm) t)) : Completes i s P := by
  obtain ⟨t, same, hk⟩ := withEw_same hq k rm
  exact ⟨k (s.operand16 rm) t, by rw [he, unlessRepeated_none hr, hk], h t same⟩

/-! ## Products (R273, R274) -/

/-- The double width holds the unsigned product. -/
theorem toNat_setWidth_mul {n : Nat} (a b : BitVec n) :
    (a.setWidth (n * 2) * b.setWidth (n * 2)).toNat = a.toNat * b.toNat := by
  have wide (x : BitVec n) : (x.setWidth (n * 2)).toNat = x.toNat := BitVec.toNat_setWidth_of_le (by omega)
  rw [BitVec.toNat_mul_of_lt] <;> rw [wide, wide]
  exact BitVec.toNat_mul_toNat_lt

/-- The double width holds the signed product. -/
theorem toInt_signExtend_mul {n : Nat} (hn : 0 < n) (a b : BitVec n) :
    (a.signExtend (n * 2) * b.signExtend (n * 2)).toInt = a.toInt * b.toInt := by
  have lo := @BitVec.le_toInt_mul_toInt n a b
  have hi := @BitVec.toInt_mul_toInt_le n a b
  have quarter : (2 : Int) ^ (n * 2) = 2 ^ (n * 2 - 2) * 2 ^ 2 := by
    rw [← Int.pow_add, Nat.sub_add_cancel (by omega)]
  have pos : (0 : Int) < 2 ^ (n * 2 - 2) := by positivity
  rw [BitVec.toInt_mul, BitVec.toInt_signExtend_of_le (by omega), BitVec.toInt_signExtend_of_le (by omega)]
  generalize a.toInt * b.toInt = p at *
  apply Int.bmod_eq_of_le_mul_two <;> push_cast <;> omega

/-- The lower half's signed value is the value wrapped to its width. -/
theorem toInt_extractLsb'_zero {m n : Nat} (hm : n ≤ m) (p : BitVec m) :
    (p.extractLsb' 0 n).toInt = p.toInt.bmod (2 ^ n) := by
  rw [BitVec.toInt_extractLsb', BitVec.toInt_eq_toNat_bmod p, Int.bmod_bmod_of_dvd (Nat.pow_dvd_pow 2 hm),
    Nat.shiftRight_zero]

/-- R274: a product is not the sign extension of its lower half exactly when it does not fit that half. -/
theorem ne_signExtend_iff {m n : Nat} (hn : 0 < n) (hm : n ≤ m) (p : BitVec m) :
    p ≠ (p.extractLsb' 0 n).signExtend m ↔ p.toInt < -(2 ^ (n - 1)) ∨ 2 ^ (n - 1) - 1 < p.toInt := by
  have range := toInt_range (p.extractLsb' 0 n)
  push_cast at range
  rw [← BitVec.toInt_ne, BitVec.toInt_signExtend_of_le hm]
  rw [toInt_extractLsb'_zero hm] at range ⊢
  constructor
  · contrapose!
    intro fits
    refine (Int.bmod_eq_of_le_mul_two ?_ ?_).symm <;> rw [← Nat.two_pow_pred_mul_two hn] <;> push_cast <;> omega
  · omega

/-- MUL's carry on bytes: the upper half matters when the product is above 0xFF. -/
theorem hiByte_ne_zero_iff (p : Word) : hiByte p ≠ 0#8 ↔ 0xFF < p.toNat := by
  have halves := toNat_word (hiByte p) (loByte p)
  rw [word_hiByte_loByte] at halves
  have hlo := (loByte p).isLt
  rw [← BitVec.toNat_ne_iff_ne, BitVec.toNat_ofNat]
  omega

/-- The two halves of a 32-bit value. -/
theorem toNat_halves32 (p : BitVec 32) :
    (p.extractLsb' 16 16).toNat * 0x10000 + (p.extractLsb' 0 16).toNat = p.toNat := by
  have hp := p.isLt
  simp only [BitVec.extractLsb'_toNat, Nat.shiftRight_eq_div_pow]
  omega

/-- R273, R274: TF, IF and DF are not a multiplication's. -/
theorem Flags.afterMul_control (f : Flags) (upper : Bool) (v : Word) : SameControlFlags f (f.afterMul upper v) :=
  ⟨rfl, rfl, rfl⟩

/-- R273: AX gets AL times the operand. -/
theorem Same.mulBy8 {s t : State} (h : Same s t) (hq : s.sys.Quiet) (d : Byte) :
    ∃ f p, Put16 s (mulBy8 d t) (.reg .ax) p f ∧ SameControlFlags s.flags f ∧
      p.toNat = (s.reg8 .al).toNat * d.toNat ∧ f.cf = decide (0xFF < p.toNat) ∧ f.of = decide (0xFF < p.toNat) := by
  have stepped := h.aluStep hq t.regs.ax (zext16 d)
  have carry (p : Word) : decide (hiByte p ≠ 0#8) = decide (0xFF < p.toNat) :=
    decide_eq_decide.2 (hiByte_ne_zero_iff p)
  refine ⟨_, _, (stepped.put16Flags .ax _ _).drawn, ?_, ?_, carry _, carry _⟩
  · rw [← stepped.ran.flags]
    exact Flags.afterMul_control _ _ _
  · rw [← stepped.reg8]
    exact toNat_setWidth_mul (n := 8) _ _

/-- R274: AX gets AL times the operand, both signed. -/
theorem Same.imulBy8 {s t : State} (h : Same s t) (hq : s.sys.Quiet) (d : Byte) :
    ∃ f p, Put16 s (imulBy8 d t) (.reg .ax) p f ∧ SameControlFlags s.flags f ∧
      p.toInt = (s.reg8 .al).toInt * d.toInt ∧ f.cf = decide (p.toInt < -0x80 ∨ 0x7F < p.toInt) ∧
      f.of = decide (p.toInt < -0x80 ∨ 0x7F < p.toInt) := by
  have stepped := h.aluStep hq t.regs.ax (zext16 d)
  have carry (p : Word) : decide (p ≠ sext16 (loByte p)) = decide (p.toInt < -0x80 ∨ 0x7F < p.toInt) :=
    decide_eq_decide.2 (ne_signExtend_iff (n := 8) (by decide) (by decide) p)
  refine ⟨_, _, (stepped.put16Flags .ax _ _).drawn, ?_, ?_, carry _, carry _⟩
  · rw [← stepped.ran.flags]
    exact Flags.afterMul_control _ _ _
  · rw [← stepped.reg8]
    exact toInt_signExtend_mul (n := 8) (by decide) _ _

/-- R273: DX and AX get AX times the operand. -/
theorem Same.mulBy16 {s t : State} (h : Same s t) (hq : s.sys.Quiet) (d : Word) :
    ∃ f hi lo, Ran s (mulBy16 d t) { s.regs with ax := lo, dx := hi } f ∧ Unchanged s.sys (mulBy16 d t).sys ∧
      SameControlFlags s.flags f ∧ hi.toNat * 0x10000 + lo.toNat = s.regs.ax.toNat * d.toNat ∧
      f.cf = decide (hi ≠ 0#16) ∧ f.of = decide (hi ≠ 0#16) := by
  have stepped := h.aluStep hq t.regs.ax d
  obtain ⟨ran, unchanged⟩ := stepped.setDxAx _ _ _
  refine ⟨_, _, _, ran, unchanged, ?_, ?_, rfl, rfl⟩
  · rw [← stepped.ran.flags]
    exact Flags.afterMul_control _ _ _
  · rw [toNat_halves32, ← stepped.ran.regs]
    exact toNat_setWidth_mul (n := 16) _ _

/-- R274: DX and AX get AX times the operand, both signed. -/
theorem Same.imulBy16 {s t : State} (h : Same s t) (hq : s.sys.Quiet) (d : Word) :
    ∃ f hi lo, Ran s (imulBy16 d t) { s.regs with ax := lo, dx := hi } f ∧ Unchanged s.sys (imulBy16 d t).sys ∧
      SameControlFlags s.flags f ∧
      (let p := s.regs.ax.toInt * d.toInt
       (hi ++ lo : BitVec 32).toInt = p ∧ f.cf = decide (p < -0x8000 ∨ 0x7FFF < p) ∧
       f.of = decide (p < -0x8000 ∨ 0x7FFF < p)) := by
  have stepped := h.aluStep hq t.regs.ax d
  have product (a : Word) := toInt_signExtend_mul (n := 16) (by decide) a d
  have carry (p : BitVec 32) : decide (p ≠ (p.extractLsb' 0 16).signExtend 32) =
      decide (p.toInt < -0x8000 ∨ 0x7FFF < p.toInt) :=
    decide_eq_decide.2 (ne_signExtend_iff (n := 16) (by decide) (by decide) p)
  obtain ⟨ran, unchanged⟩ := stepped.setDxAx _ _ _
  refine ⟨_, _, _, ran, unchanged, ?_, ?_⟩
  · rw [← stepped.ran.flags]
    exact Flags.afterMul_control _ _ _
  · rw [← stepped.ran.regs, ← product]
    exact ⟨congrArg _ BitVec.extractLsb'_append_extractLsb', carry _, carry _⟩

/-- Settles O19: the double-width product of the operands read, and its upper half. -/
theorem multiplication : Obligations.Multiplication := by
  unfold Obligations.Multiplication
  intro s hs hrep
  have hq := hs.quiet
  exact ⟨fun rm => completes_withEb hq hrep rfl fun _ h => h.mulBy8 hq (s.operand8 rm),
    fun rm => completes_withEb hq hrep rfl fun _ h => h.imulBy8 hq (s.operand8 rm),
    fun rm => completes_withEw hq hrep rfl fun _ h => h.mulBy16 hq (s.operand16 rm),
    fun rm => completes_withEw hq hrep rfl fun _ h => h.imulBy16 hq (s.operand16 rm)⟩

end Sys2Proof.Machine
end

section
/-! SUPPORT. Division in numbers (R275, R276). -/

namespace Sys2Proof.Machine

/-! ## Quotients and remainders (R275, R276) -/

/-- A word register written, then the six status flags free. -/
theorem Same.put16Free {s t : State} (h : Same s t) (r : Reg16) (v : Word) :
    ∃ f, Put16 s (t.setReg16 r v).freeStatus (.reg r) v f ∧ SameControlFlags s.flags f :=
  ⟨_, (h.put16Flags r v (t.flags.freeStatus t.free)).drawn, h.ran.flags ▸ Flags.freeStatus_control _ _⟩

/-- AX, then DX written, then the six status flags free. -/
theorem Same.setAxDxFree {s t : State} (h : Same s t) (a d : Word) :
    ∃ f, Ran s ((t.setReg16 .ax a).setReg16 .dx d).freeStatus { s.regs with ax := a, dx := d } f ∧
      Unchanged s.sys ((t.setReg16 .ax a).setReg16 .dx d).freeStatus.sys ∧ SameControlFlags s.flags f :=
  have written := h.setDxAx a d (t.flags.freeStatus t.free)
  ⟨_, written.1, written.2, h.ran.flags ▸ Flags.freeStatus_control _ _⟩

/-- A remainder by an n-bit divisor fits n bits. -/
theorem toInt_ofInt_tmod {n : Nat} (hn : 0 < n) (x : Int) {d : BitVec n} (hd : d.toInt ≠ 0) :
    (BitVec.ofInt n (x.tmod d.toInt)).toInt = x - x.tdiv d.toInt * d.toInt := by
  have range := toInt_range d
  have small : (x.tmod d.toInt).natAbs < d.toInt.natAbs := by
    rw [Int.natAbs_tmod]
    exact Nat.mod_lt _ (by omega)
  push_cast at range
  rw [BitVec.toInt_ofInt_eq_self hn (by omega) (by omega), Int.tmod_def, Int.mul_comm]

/-- R275: a byte division whose quotient fits. -/
theorem divBy8_of_fits {t : State} {d : Byte} {ax : Word} (hax : t.regs.ax = ax) (hd : d.toNat ≠ 0)
    (fits : ax.toNat / d.toNat ≤ 0xFF) :
    divBy8 d t = ((t.aluStep t.regs.ax (zext16 d)).setReg16 .ax
      (word (BitVec.ofNat 8 (ax.toNat % d.toNat)) (BitVec.ofNat 8 (ax.toNat / d.toNat)))).freeStatus := by
  subst hax
  exact if_neg (not_or_intro (fun e => hd (congrArg BitVec.toNat e)) fits.not_gt)

/-- R275: a word division whose quotient fits. -/
theorem divBy16_of_fits {t : State} {d : Word} {n : Nat} (hn : t.regs.dx.toNat * 0x10000 + t.regs.ax.toNat = n)
    (hd : d.toNat ≠ 0) (fits : n / d.toNat ≤ 0xFFFF) :
    divBy16 d t = (((t.aluStep t.regs.ax d).setReg16 .ax (BitVec.ofNat 16 (n / d.toNat))).setReg16 .dx
      (BitVec.ofNat 16 (n % d.toNat))).freeStatus := by
  subst hn
  exact if_neg (not_or_intro (fun e => hd (congrArg BitVec.toNat e)) fits.not_gt)

/-- R276: a signed byte division whose quotient fits. -/
theorem idivBy8_of_fits {t : State} {d : Byte} {ax : Word} (hax : t.regs.ax = ax) (hd : d.toInt ≠ 0)
    (hi : ax.toInt.tdiv d.toInt ≤ 127) (lo : -127 ≤ ax.toInt.tdiv d.toInt) :
    idivBy8 d t = ((t.aluStep t.regs.ax (zext16 d)).setReg16 .ax
      (word (BitVec.ofInt 8 (ax.toInt.tmod d.toInt)) (BitVec.ofInt 8 (ax.toInt.tdiv d.toInt)))).freeStatus := by
  subst hax
  exact if_neg (not_or_intro (fun e => hd (congrArg BitVec.toInt e)) (not_or_intro hi.not_gt lo.not_gt))

/-- R276: a signed word division whose quotient fits. -/
theorem idivBy16_of_fits {t : State} {d : Word} {n : Int} (hn : (t.regs.dx ++ t.regs.ax : BitVec 32).toInt = n)
    (hd : d.toInt ≠ 0) (hi : n.tdiv d.toInt ≤ 32767) (lo : -32767 ≤ n.tdiv d.toInt) :
    idivBy16 d t = (((t.aluStep t.regs.ax d).setReg16 .ax (BitVec.ofInt 16 (n.tdiv d.toInt))).setReg16 .dx
      (BitVec.ofInt 16 (n.tmod d.toInt))).freeStatus := by
  subst hn
  exact if_neg (not_or_intro (fun e => hd (congrArg BitVec.toInt e)) (not_or_intro hi.not_gt lo.not_gt))

/-- A number below 2^n is its n-bit value. -/
theorem toNat_ofNat_of_lt {n x : Nat} (hx : x < 2 ^ n) : (BitVec.ofNat n x).toNat = x := by
  rw [BitVec.toNat_ofNat, Nat.mod_eq_of_lt hx]

/-- R275: AL gets the quotient, AH the remainder. -/
theorem Same.divBy8 {s t : State} (h : Same s t) (hq : s.sys.Quiet) {d : Byte} (hd : d.toNat ≠ 0)
    (fits : s.regs.ax.toNat / d.toNat ≤ 0xFF) :
    ∃ f q r, Put16 s (divBy8 d t) (.reg .ax) (word r q) f ∧ SameControlFlags s.flags f ∧
      q.toNat = s.regs.ax.toNat / d.toNat ∧ r.toNat = s.regs.ax.toNat % d.toNat := by
  rw [divBy8_of_fits (congrArg Regs.ax h.ran.regs) hd fits]
  obtain ⟨f, put, control⟩ := (h.aluStep hq t.regs.ax (zext16 d)).put16Free .ax _
  exact ⟨f, _, _, put, control, toNat_ofNat_of_lt (Nat.lt_succ_of_le fits),
    toNat_ofNat_of_lt ((Nat.mod_lt _ (Nat.pos_of_ne_zero hd)).trans d.isLt)⟩

/-- R275: AX gets the quotient, DX the remainder. -/
theorem Same.divBy16 {s t : State} (h : Same s t) (hq : s.sys.Quiet) {d : Word} {n : Nat}
    (hn : s.regs.dx.toNat * 0x10000 + s.regs.ax.toNat = n) (hd : d.toNat ≠ 0) (fits : n / d.toNat ≤ 0xFFFF) :
    ∃ f q r, Ran s (divBy16 d t) { s.regs with ax := q, dx := r } f ∧ Unchanged s.sys (divBy16 d t).sys ∧
      SameControlFlags s.flags f ∧ q.toNat = n / d.toNat ∧ r.toNat = n % d.toNat := by
  rw [← h.ran.regs] at hn
  rw [divBy16_of_fits hn hd fits]
  obtain ⟨f, ran, unchanged, control⟩ := (h.aluStep hq t.regs.ax d).setAxDxFree _ _
  exact ⟨f, _, _, ran, unchanged, control, toNat_ofNat_of_lt (Nat.lt_succ_of_le fits),
    toNat_ofNat_of_lt ((Nat.mod_lt _ (Nat.pos_of_ne_zero hd)).trans d.isLt)⟩

/-- R276: AL gets the quotient rounded toward zero, AH its remainder. -/
theorem Same.idivBy8 {s t : State} (h : Same s t) (hq : s.sys.Quiet) {d : Byte} (hd : d.toInt ≠ 0)
    (hi : s.regs.ax.toInt.tdiv d.toInt ≤ 127) (lo : -127 ≤ s.regs.ax.toInt.tdiv d.toInt) :
    ∃ f q r, Put16 s (idivBy8 d t) (.reg .ax) (word r q) f ∧ SameControlFlags s.flags f ∧
      q.toInt = s.regs.ax.toInt.tdiv d.toInt ∧ r.toInt = s.regs.ax.toInt - q.toInt * d.toInt := by
  have quotient : (BitVec.ofInt 8 (s.regs.ax.toInt.tdiv d.toInt)).toInt = s.regs.ax.toInt.tdiv d.toInt :=
    BitVec.toInt_ofInt_eq_self (by decide) (by omega) (by omega)
  rw [idivBy8_of_fits (congrArg Regs.ax h.ran.regs) hd hi lo]
  obtain ⟨f, put, control⟩ := (h.aluStep hq t.regs.ax (zext16 d)).put16Free .ax _
  refine ⟨f, _, _, put, control, quotient, ?_⟩
  rw [quotient]
  exact toInt_ofInt_tmod (by decide) _ hd

/-- R276: AX gets the quotient rounded toward zero, DX its remainder. -/
theorem Same.idivBy16 {s t : State} (h : Same s t) (hq : s.sys.Quiet) {d : Word} {n : Int}
    (hn : (s.regs.dx ++ s.regs.ax : BitVec 32).toInt = n) (hd : d.toInt ≠ 0) (hi : n.tdiv d.toInt ≤ 32767)
    (lo : -32767 ≤ n.tdiv d.toInt) :
    ∃ f q r, Ran s (idivBy16 d t) { s.regs with ax := q, dx := r } f ∧ Unchanged s.sys (idivBy16 d t).sys ∧
      SameControlFlags s.flags f ∧ q.toInt = n.tdiv d.toInt ∧ r.toInt = n - q.toInt * d.toInt := by
  have quotient : (BitVec.ofInt 16 (n.tdiv d.toInt)).toInt = n.tdiv d.toInt :=
    BitVec.toInt_ofInt_eq_self (by decide) (by omega) (by omega)
  rw [← h.ran.regs] at hn
  rw [idivBy16_of_fits hn hd hi lo]
  obtain ⟨f, ran, unchanged, control⟩ := (h.aluStep hq t.regs.ax d).setAxDxFree _ _
  refine ⟨f, _, _, ran, unchanged, control, quotient, ?_⟩
  rw [quotient]
  exact toInt_ofInt_tmod (by decide) _ hd

/-- Settles O20: no divide error is raised, and quotient and remainder fit the registers they go to. -/
theorem division : Obligations.Division := by
  unfold Obligations.Division
  intro s hs hrep
  have hq := hs.quiet
  exact ⟨fun rm hd fits => completes_withEb hq hrep rfl fun _ h => h.divBy8 hq hd fits,
    fun rm hd fits => completes_withEw hq hrep rfl fun _ h => h.divBy16 hq rfl hd fits,
    fun rm hd hi lo => completes_withEb hq hrep rfl fun _ h => h.idivBy8 hq hd hi lo,
    fun rm hd hi lo => completes_withEw hq hrep rfl fun _ h => h.idivBy16 hq rfl hd hi lo⟩

end Sys2Proof.Machine
end

section
/-! SUPPORT. The adjusts in numbers, and sign extension (R277 to R284). -/

namespace Sys2Proof.Machine

/-! ## Decimal adjust (R277, R278) -/

theorem lowDigitAdjust_iff (f : Flags) (al : Byte) :
    lowDigitAdjust f al = true ↔ 9 < al.toNat % 16 ∨ f.af = true := by
  simp [lowDigitAdjust]

theorem highDigitAdjust_iff (f : Flags) (al : Byte) :
    highDigitAdjust f al = true ↔ 0x99 < al.toNat ∨ f.cf = true := by
  simp [highDigitAdjust]

/-- R277, R278: what is added or subtracted. -/
theorem toNat_decimalAmount (low high : Bool) :
    ((if low then 0x06#8 else 0#8) + (if high then 0x60#8 else 0#8)).toNat =
      (if low = true then 6 else 0) + (if high = true then 0x60 else 0) := by
  cases low <;> cases high <;> rfl

/-- R277, R278: the adjusted AL as a number. -/
theorem toNat_decimalAdjust (subtract : Bool) (f : Flags) (al : Byte) (o : Bool) :
    (decimalAdjust subtract f al o).1.toNat =
      (let d := (if lowDigitAdjust f al = true then 6 else 0) + (if highDigitAdjust f al = true then 0x60 else 0)
       if subtract then al.toNat + 256 - d else al.toNat + d) % 256 := by
  have amount := toNat_decimalAmount (lowDigitAdjust f al) (highDigitAdjust f al)
  cases subtract with
  | false => exact (BitVec.toNat_add _ _).trans (by rw [amount]; rfl)
  | true =>
    refine (BitVec.toNat_sub _ _).trans ?_
    rw [amount, if_pos rfl]
    split_ifs <;> omega

/-- R277, R278 in numbers. -/
theorem decimalAdjustRule (subtract : Bool) : DecimalAdjustRule subtract := by
  intro f al o
  have value := toNat_decimalAdjust subtract f al o
  simp only [lowDigitAdjust_iff, highDigitAdjust_iff] at value
  exact ⟨value, f.setSZP_resultFlags _ _ _ _, lowDigitAdjust_iff f al, highDigitAdjust_iff f al, rfl⟩

/-- The flags of an adjust outside packed BCD. -/
theorem decimalAdjustOpenRule : DecimalAdjustOpenRule :=
  fun f al _ _ => ⟨f.setSZP_resultFlags _ _ _ _, lowDigitAdjust_iff f al⟩

/-- R277, R278: AL and the flags of the adjust, or those of the free one. -/
theorem decimalAdjustAl_put {s : State} (hq : s.sys.Quiet) (subtract : Bool) :
    ∃ (v : Bool) (w : Word × Word),
      let al := s.reg8 .al
      let x := if (if subtract then bcdDifferencePossible s.flags al else bcdSumPossible s.flags al) then
          decimalAdjust subtract s.flags al v
        else decimalAdjustOpen s.flags al w.1 w.2
      Put8 s (decimalAdjustAl subtract s) (.reg .al) x.1 x.2 := by
  have stepped := State.aluStep_same hq (zext16 (s.reg8 .al)) 0#16
  exact ⟨_, (_, _), (stepped.put8Flags .al _ _).drawn.drawn⟩

/-- Settles O22: `decimalAdjustAl_put` for both directions, what it writes by the rules above. -/
theorem decimalAdjustForms : Obligations.DecimalAdjustForms := by
  unfold Obligations.DecimalAdjustForms
  exact ⟨decimalAdjustRule false, decimalAdjustRule true, decimalAdjustOpenRule, fun s hs =>
    ⟨⟨_, rfl, decimalAdjustAl_put hs.quiet false⟩, ⟨_, rfl, decimalAdjustAl_put hs.quiet true⟩⟩⟩

/-! ## Packed BCD -/

theorem toNat_bcd {n : Nat} (h : n < 100) : (bcd n).toNat = n / 10 * 16 + n % 10 := by
  rw [bcd, BitVec.toNat_ofNat]
  omega

/-- The packed-BCD byte of two digits. -/
theorem toNat_bcd_digits {n t o : Nat} (ht : t ≤ 9) (ho : o ≤ 9) (hn : n = 10 * t + o) :
    (bcd n).toNat = 16 * t + o := by
  rw [toNat_bcd (by omega)]
  omega

/-- R277: digit sums `h` and `l`, 6 added for a low digit above 9 and 0x60 for a sum above 99, are the decimal sum. -/
theorem adjusted_sum {h l : Nat} (hh : h ≤ 18) (hl : l ≤ 19) :
    ((16 * h + l) % 256 + ((if 10 ≤ l then 6 else 0) + (if 100 ≤ 10 * h + l then 0x60 else 0))) % 256 =
      (bcd ((10 * h + l) % 100)).toNat := by
  obtain low | low := lt_or_ge l 10 <;> obtain high | high := lt_or_ge (10 * h + l) 100
  · rw [if_neg low.not_ge, if_neg high.not_ge, toNat_bcd_digits (t := h) (o := l)] <;> omega
  · rw [if_neg low.not_ge, if_pos high, toNat_bcd_digits (t := h - 10) (o := l)] <;> omega
  · rw [if_pos low, if_neg high.not_ge, toNat_bcd_digits (t := h + 1) (o := l - 10)] <;> omega
  · rw [if_pos low, if_pos high, toNat_bcd_digits (t := h - 9) (o := l - 10)] <;> omega

/-- R277: digit sums `h` and `l` pass 0x99 as packed digits exactly when they pass 99 as a decimal number. -/
theorem sum_high_iff {h l : Nat} (hl : l ≤ 19) :
    (0x99 < (16 * h + l) % 256 ∨ 256 ≤ 16 * h + l) ↔ 100 ≤ 10 * h + l := by
  obtain hlt | rfl | hgt := lt_trichotomy h 9 <;> omega

/-- R278: digit differences `h` and `l`, 6 taken from a low digit that borrowed and 0x60 from a difference that did. -/
theorem adjusted_difference {h l : Int} (hh : -9 ≤ h ∧ h ≤ 9) (hl : -10 ≤ l ∧ l ≤ 9) {x n : Nat}
    (hx : (x : Int) = (16 * h + l) % 256) (hn : (n : Int) = (10 * h + l) % 100) :
    (x + 256 - ((if l < 0 then 6 else 0) + (if 10 * h + l < 0 then 0x60 else 0))) % 256 = (bcd n).toNat := by
  obtain low | low := lt_or_ge l 0 <;> obtain high | high := lt_or_ge (10 * h + l) 0
  · rw [if_pos low, if_pos high, toNat_bcd_digits (t := (h + 9).toNat) (o := (l + 10).toNat)] <;> omega
  · rw [if_pos low, if_neg high.not_gt, toNat_bcd_digits (t := (h - 1).toNat) (o := (l + 10).toNat)] <;> omega
  · rw [if_neg low.not_gt, if_pos high, toNat_bcd_digits (t := (h + 10).toNat) (o := l.toNat)] <;> omega
  · have digit : 0 ≤ h := by omega
    rw [if_neg low.not_gt, if_neg high.not_gt, toNat_bcd_digits (t := h.toNat) (o := l.toNat)] <;> omega

/-- R260 on packed-BCD bytes, by the sums `h` and `l` of the high and the low digits. -/
theorem addN_bcd {a b : Nat} (f : Flags) (c : Bool) (ha : a < 100) (hb : b < 100) :
    let x := addN f (bcd a) (bcd b) c
    ∃ h l : Nat, h ≤ 18 ∧ l ≤ 19 ∧ a + b + c.toNat = 10 * h + l ∧ x.1.toNat = (16 * h + l) % 256 ∧
      (x.2.cf = true ↔ 256 ≤ 16 * h + l) ∧ (x.2.af = true ↔ 15 < l) := by
  have hc := c.toNat_le
  have sum := toNat_addN (by decide) f (bcd a) (bcd b) c
  have carry : (addN f (bcd a) (bcd b) c).2.cf = decide (2 ^ 8 ≤ (bcd a).toNat + (bcd b).toNat + c.toNat) := rfl
  have half : (addN f (bcd a) (bcd b) c).2.af = decide (15 < (bcd a).toNat % 16 + (bcd b).toNat % 16 + c.toNat) := rfl
  rw [toNat_bcd ha, toNat_bcd hb] at sum carry half
  refine ⟨a / 10 + b / 10, a % 10 + b % 10 + c.toNat, by omega, by omega, by omega, by omega, ?_, ?_⟩
  · rw [carry, decide_eq_true_eq]
    omega
  · rw [half, decide_eq_true_eq]
    omega

/-- R261 on packed-BCD bytes, by the differences `h` and `l` of the high and the low digits. -/
theorem subN_bcd {a b : Nat} (f : Flags) (c : Bool) (ha : a < 100) (hb : b < 100) :
    let x := subN f (bcd a) (bcd b) c
    ∃ h l : Int, (-9 ≤ h ∧ h ≤ 9) ∧ (-10 ≤ l ∧ l ≤ 9) ∧ (a : Int) - b - c.toNat = 10 * h + l ∧
      (x.1.toNat : Int) = (16 * h + l) % 256 ∧ (x.2.cf = true ↔ 16 * h + l < 0) ∧ (x.2.af = true ↔ l < 0) := by
  have hc := c.toNat_le
  have diff := toNat_subN f (bcd a) (bcd b) c
  have borrow : (subN f (bcd a) (bcd b) c).2.cf = decide ((bcd a).toNat < (bcd b).toNat + c.toNat) := rfl
  have half : (subN f (bcd a) (bcd b) c).2.af = decide ((bcd a).toNat % 16 < (bcd b).toNat % 16 + c.toNat) := rfl
  rw [toNat_bcd ha, toNat_bcd hb] at diff borrow half
  refine ⟨(a / 10 : Nat) - (b / 10 : Nat), (a % 10 : Nat) - (b % 10 : Nat) - c.toNat, by omega, by omega, by omega,
    by omega, ?_, ?_⟩
  · rw [borrow, decide_eq_true_eq]
    omega
  · rw [half, decide_eq_true_eq]
    omega

/-- R277: DAA after an addition of packed-BCD bytes. -/
theorem decimalAdjust_addN {a b : Nat} (f : Flags) (c o : Bool) (ha : a < 100) (hb : b < 100) :
    let x := addN f (bcd a) (bcd b) c
    let y := decimalAdjust false x.2 x.1 o
    bcdSumPossible x.2 x.1 = true ∧ y.1 = bcd ((a + b + c.toNat) % 100) ∧ y.2.cf = decide (100 ≤ a + b + c.toNat) := by
  obtain ⟨h, l, hh, hl, total, sum, carry, half⟩ := addN_bcd f c ha hb
  dsimp only
  generalize addN f (bcd a) (bcd b) c = x at *
  have high : (0x99 < x.1.toNat ∨ x.2.cf = true) ↔ 100 ≤ 10 * h + l := by
    rw [carry, sum]
    exact sum_high_iff hl
  have low : (9 < x.1.toNat % 16 ∨ x.2.af = true) ↔ 10 ≤ l := by
    rw [half, sum]
    omega
  obtain ⟨value, -, -, cf, -⟩ := decimalAdjustRule false x.2 x.1 o
  rw [total]
  refine ⟨?_, BitVec.eq_of_toNat_eq ?_, Bool.eq_iff_iff.2 ?_⟩
  · simp only [bcdSumPossible, sum, Bool.and_eq_true, Bool.or_eq_true, Bool.not_eq_true', decide_eq_true_eq,
      ← Bool.not_eq_true, half, carry, apply_ite (· = true)]
    split_ifs <;> omega
  · simp only [low, high] at value
    rw [value, sum]
    exact adjusted_sum hh hl
  · rw [cf, high, decide_eq_true_eq]

/-- R278: DAS after a subtraction of packed-BCD bytes. -/
theorem decimalAdjust_subN {a b : Nat} (f : Flags) (c o : Bool) (ha : a < 100) (hb : b < 100) :
    let x := subN f (bcd a) (bcd b) c
    let y := decimalAdjust true x.2 x.1 o
    bcdDifferencePossible x.2 x.1 = true ∧ y.1 = bcd ((a + 100 - b - c.toNat) % 100) ∧
      y.2.cf = decide (a < b + c.toNat) := by
  have hc := c.toNat_le
  obtain ⟨h, l, hh, hl, total, diff, borrow, half⟩ := subN_bcd f c ha hb
  dsimp only
  generalize subN f (bcd a) (bcd b) c = x at *
  have low : (9 < x.1.toNat % 16 ∨ x.2.af = true) ↔ l < 0 := by
    rw [half]
    omega
  have high : (0x99 < x.1.toNat ∨ x.2.cf = true) ↔ 10 * h + l < 0 := by
    rw [borrow]
    omega
  obtain ⟨value, -, -, cf, -⟩ := decimalAdjustRule true x.2 x.1 o
  refine ⟨?_, BitVec.eq_of_toNat_eq ?_, Bool.eq_iff_iff.2 ?_⟩
  · simp only [bcdDifferencePossible, Bool.and_eq_true, decide_eq_true_eq, half, borrow, apply_ite (· = true)]
    split_ifs <;> omega
  · simp only [low, high] at value
    rw [value]
    exact adjusted_difference hh hl diff (by omega)
  · rw [cf, high, decide_eq_true_eq]
    omega

/-- Settles O23: sums and differences digit by digit, then the adjust's rule in numbers. -/
theorem decimalAdjustGivesDecimal : Obligations.DecimalAdjustGivesDecimal := by
  unfold Obligations.DecimalAdjustGivesDecimal
  exact fun f _ _ c o ha hb => ⟨decimalAdjust_addN f c o ha hb, decimalAdjust_subN f c o ha hb⟩

/-! ## ASCII adjust (R279 to R282) -/

/-- R279, R280: the AX and the two flags of AAA and AAS. -/
theorem asciiAdjustAx_put {s : State} (hq : s.sys.Quiet) (subtract : Bool) {adj : Bool}
    (h : lowDigitAdjust s.flags (s.reg8 .al) = adj) :
    ∃ f, Put16 s (asciiAdjustAx subtract s) (.reg .ax)
        (let al := s.reg8 .al
         let ah := s.reg8 .ah
         word (if adj then (if subtract then ah - 1#8 else ah + 1#8) else ah)
           ((if adj then (if subtract then al - 6#8 else al + 6#8) else al) &&& 0x0F#8)) f ∧
      f.af = adj ∧ f.cf = adj ∧ SameControlFlags s.flags f := by
  subst h
  have stepped := State.aluStep_same hq s.regs.ax 0#16
  exact ⟨_, (stepped.put16Flags .ax _ _).drawn, rfl, rfl, rfl, rfl, rfl⟩

/-- R281: AAM by an immediate other than 0: AH gets the quotient, AL the remainder. -/
theorem aamBy_put {s : State} (hq : s.sys.Quiet) {b : Byte} (hb : b ≠ 0#8) :
    ∃ f q r, Put16 s (aamBy b s) (.reg .ax) (word q r) f ∧ q.toNat = (s.reg8 .al).toNat / b.toNat ∧
      r.toNat = (s.reg8 .al).toNat % b.toNat ∧ ResultFlags s.flags f r := by
  have stepped := State.aluStep_same hq s.regs.ax (zext16 b)
  have hal := (s.reg8 .al).isLt
  unfold aamBy
  dsimp only
  rw [if_neg hb]
  exact ⟨_, _, _, (stepped.put16Flags .ax _ _).drawn, toNat_ofNat_of_lt ((Nat.div_le_self _ _).trans_lt hal),
    toNat_ofNat_of_lt ((Nat.mod_le _ _).trans_lt hal), s.flags.setSZP_resultFlags _ _ _ _⟩

/-- R282: AAD: AL gets AH times the immediate, plus AL; AH is cleared. -/
theorem aadBy_put {s : State} (hq : s.sys.Quiet) (b : Byte) :
    ∃ f r, Put16 s (aadBy b s) (.reg .ax) (word 0#8 r) f ∧
      r.toNat = ((s.reg8 .al).toNat + (s.reg8 .ah).toNat * b.toNat) % 256 ∧ ResultFlags s.flags f r := by
  have stepped := State.aluStep_same hq s.regs.ax (zext16 b)
  refine ⟨_, _, (stepped.put16Flags .ax _ _).drawn, ?_, s.flags.setSZP_resultFlags _ _ _ _⟩
  rw [BitVec.toNat_add, BitVec.toNat_mul, Nat.add_mod_mod, stepped.reg8, stepped.reg8]

/-- Settles O24: AAA and AAS by whether the low digit is adjusted, AAM and AAD by their operations. -/
theorem asciiAdjustForms : Obligations.AsciiAdjustForms := by
  unfold Obligations.AsciiAdjustForms
  intro s hs
  have hq := hs.quiet
  refine ⟨fun adjust => ?_, fun noAdjust => ?_,
    fun b => ⟨fun hb => ⟨_, rfl, aamBy_put hq hb⟩, ⟨_, rfl, aadBy_put hq b⟩⟩⟩
  · have h := (lowDigitAdjust_iff s.flags (s.reg8 .al)).2 adjust
    have aaa := asciiAdjustAx_put hq false h
    have aas := asciiAdjustAx_put hq true h
    simp only [Bool.false_eq_true, ↓reduceIte] at aaa aas
    exact ⟨⟨_, rfl, aaa⟩, ⟨_, rfl, aas⟩⟩
  · have h := Bool.eq_false_iff.2 (mt (lowDigitAdjust_iff s.flags (s.reg8 .al)).1 noAdjust)
    have aaa := asciiAdjustAx_put hq false h
    have aas := asciiAdjustAx_put hq true h
    simp only [Bool.false_eq_true, ↓reduceIte] at aaa aas
    exact ⟨⟨_, rfl, aaa⟩, ⟨_, rfl, aas⟩⟩

/-! ## Sign extension (R283, R284) -/

/-- R283: sign extension fills the high byte with the sign. -/
theorem sext16_eq_word (b : Byte) : sext16 b = word (if b.msb then 0xFF#8 else 0x00#8) b := by
  revert b; decide

/-- Settles O25: writing AX with AL sign-extended is writing AH with its sign. -/
theorem signExtension : Obligations.SignExtension := by
  unfold Obligations.SignExtension
  refine ⟨fun rest => ⟨decode_np rfl rest, decode_np rfl rest⟩, fun s hs => ?_⟩
  have same := State.internal_same hs.quiet
  refine ⟨⟨_, rfl, ?_⟩, ⟨_, rfl, same.put16 .dx _⟩⟩
  rw [sext16_eq_word]
  exact same.put8 .ah _

/-! ## Written words -/

/-- Settles O4: each word is the encoding of its instruction. -/
theorem writtenWordsDecode : Obligations.WrittenWordsDecode := by
  unfold Obligations.WrittenWordsDecode
  exact ⟨decode_encode (.addEwGw (.reg .ax) .bx) rfl [], decode_encode (.negEw (.reg .ax)) rfl [],
    decode_encode (.shrEb1 (.reg .al)) rfl [], decode_encode (.leaM1 .bx (.ind8 .si 4#8)) rfl [],
    decode_encode (.pushEw (.mem (.direct 0x1000#16))) rfl [], decode_encode (.jmpFar 0xE05B#16 0xF000#16) rfl [],
    decode_encode .rep rfl [0xA4#8], decode_encode (.intIb 0x21#8) rfl [], rfl⟩

end Sys2Proof.Machine
end

section
/-! SUPPORT. TEST (R324 to R326), the shifts and rotates (R330 to R337, R340) and SETMO (R338). -/

namespace Sys2Proof.Machine

/-! ## TEST (R324 to R326) -/

/-- TEST of a byte operand read with a byte: only flags change. -/
theorem test8_of_read {s : State} (hq : s.sys.Quiet) {x : Byte × State} {v : Byte} (h : x.1 = v ∧ Same s x.2)
    (b : Byte) : ∃ af, Kept s (x.2.test8 x.1 b) (logicN s.flags (v &&& b) af) := by
  obtain ⟨rfl, same⟩ := h
  exact same.test8 hq x.1 b

/-- TEST of a word operand read with a word: only flags change. -/
theorem test16_of_read {s : State} (hq : s.sys.Quiet) {x : Word × State} {v : Word} (h : x.1 = v ∧ Same s x.2)
    (b : Word) : ∃ af, Kept s (x.2.test16 x.1 b) (logicN s.flags (v &&& b) af) := by
  obtain ⟨rfl, same⟩ := h
  exact same.test16 hq x.1 b

/-- R324: TEST of an r/m byte with a byte register. -/
theorem completes_testEbGb {s : State} (hq : s.sys.Quiet) (rm : RM8) (r : Reg8) :
    Completes (.testEbGb rm r) s fun t =>
      ∃ af, Kept s t (logicN s.flags (s.operand8 rm &&& s.reg8 r) af) := by
  have read := State.readRM8_spec hq rm
  rw [← read.2.reg8 r]
  exact ⟨_, rfl, test8_of_read hq read _⟩

/-- R324: TEST of an r/m word with a word register. -/
theorem completes_testEwGw {s : State} (hq : s.sys.Quiet) (rm : RM16) (r : Reg16) :
    Completes (.testEwGw rm r) s fun t =>
      ∃ af, Kept s t (logicN s.flags (s.operand16 rm &&& s.reg16 r) af) := by
  have read := State.readRM16_spec hq rm
  rw [← read.2.reg16 r]
  exact ⟨_, rfl, test16_of_read hq read _⟩

/-- Settles O18: each form is one or two operands read and the flags of AND. -/
theorem testForms : Obligations.TestForms := by
  unfold Obligations.TestForms
  refine ⟨⟨logicRule 8, logicRule 16⟩, fun s hs => ?_⟩
  have hq := hs.quiet
  have same := Same.rfl' s
  have byte (rm : RM8) := test8_of_read hq (State.readRM8_spec hq rm)
  have word (rm : RM16) := test16_of_read hq (State.readRM16_spec hq rm)
  exact ⟨completes_testEbGb hq, completes_testEwGw hq,
    fun imm => ⟨_, rfl, same.test8 hq _ imm⟩, fun imm => ⟨_, rfl, same.test16 hq _ imm⟩,
    fun rm imm => ⟨_, rfl, byte rm imm⟩, fun rm imm => ⟨_, rfl, byte rm imm⟩,
    fun rm imm => ⟨_, rfl, word rm imm⟩, fun rm imm => ⟨_, rfl, word rm imm⟩⟩

/-! ## A bit moved in -/

/-- A bit moved in at the bottom: the library's operation. -/
theorem shiftIn_eq_shiftConcat {n : Nat} (v : BitVec n) (c : Bool) : shiftIn v c = v.shiftConcat c := by
  ext i hi
  cases i <;> simp [shiftIn, BitVec.getElem_shiftConcat]

/-- A bit moved in at the top: each bit is the one above it. -/
theorem getLsbD_shiftInTop {n : Nat} (v : BitVec n) (c : Bool) (i : Nat) :
    (shiftInTop v c).getLsbD i = if i + 1 = n then c else v.getLsbD (i + 1) := by
  rw [shiftInTop, BitVec.getLsbD_or, BitVec.getLsbD_ushiftRight, Nat.add_comm 1 i]
  by_cases top : i + 1 = n
  · subst top
    cases c <;> simp
  · have other : (BitVec.twoPow n (n - 1)).getLsbD i = false := by
      rw [BitVec.getLsbD_twoPow, Bool.and_eq_false_iff, decide_eq_false_iff_not, decide_eq_false_iff_not]
      omega
    cases c <;> simp [top, other]

theorem msb_shiftInTop {n : Nat} (hn : 0 < n) (v : BitVec n) (c : Bool) : (shiftInTop v c).msb = c := by
  rw [BitVec.msb_eq_getLsbD_last, getLsbD_shiftInTop, if_pos (Nat.sub_add_cancel hn)]

/-- R331: the top bit moved in at the bottom. -/
theorem shiftIn_msb_eq_rotateLeft {n : Nat} (v : BitVec n) : shiftIn v v.msb = v.rotateLeft 1 := by
  ext i hi
  rw [shiftIn_eq_shiftConcat, BitVec.getElem_shiftConcat, BitVec.getElem_rotateLeft]
  rcases Nat.lt_or_ge 1 n with wide | narrow
  · cases i <;> simp [Nat.mod_eq_of_lt wide, BitVec.msb_eq_getLsbD_last, hi]
  · obtain ⟨rfl, rfl⟩ : n = 1 ∧ i = 0 := by omega
    simp [BitVec.msb_eq_getLsbD_last]

/-- R332: the lowest bit moved in at the top. -/
theorem shiftInTop_lsb_eq_rotateRight {n : Nat} (v : BitVec n) : shiftInTop v (v.getLsbD 0) = v.rotateRight 1 := by
  ext i hi
  rw [← BitVec.getLsbD_eq_getElem, getLsbD_shiftInTop, ← BitVec.getLsbD_eq_getElem, BitVec.getLsbD_rotateRight]
  rcases Nat.lt_or_ge 1 n with wide | narrow
  · rw [Nat.mod_eq_of_lt wide]
    by_cases top : i + 1 = n
    · simp [← top]
    · have below : i < n - 1 := by omega
      simp [top, below, Nat.add_comm 1 i]
  · obtain ⟨rfl, rfl⟩ : n = 1 ∧ i = 0 := by omega
    simp

/-- The top bit as a number. -/
theorem toNat_msb {n : Nat} (hn : 0 < n) (v : BitVec n) : v.msb.toNat = v.toNat / 2 ^ (n - 1) := by
  have one : v.toNat / 2 ^ (n - 1) < 2 := Nat.div_lt_of_lt_mul ((Nat.two_pow_pred_mul_two hn).symm ▸ v.isLt)
  rw [BitVec.msb_eq_getLsbD_last, BitVec.getLsbD, Nat.toNat_testBit, Nat.mod_eq_of_lt one]

/-- The lowest bit as a number. -/
theorem toNat_getLsbD_zero {n : Nat} (v : BitVec n) : (v.getLsbD 0).toNat = v.toNat % 2 := by
  rw [BitVec.getLsbD, Nat.toNat_testBit, pow_zero, Nat.div_one]

/-- R333, R335: the value doubled and the bit moved in; the top bit is carried out. -/
theorem toNat_shiftIn {n : Nat} (hn : 0 < n) (v : BitVec n) (c : Bool) :
    (shiftIn v c).toNat + 2 ^ n * v.msb.toNat = 2 * v.toNat + c.toNat := by
  have hc := c.toNat_le
  have carry : v.msb.toNat = (2 * v.toNat + c.toNat) / 2 ^ n := by
    have double : (2 * v.toNat + c.toNat) / 2 = v.toNat := by omega
    rw [toNat_msb hn, ← Nat.two_pow_pred_mul_two hn, Nat.mul_comm _ 2, ← Nat.div_div_eq_div_mul, double]
  rw [carry, shiftIn_eq_shiftConcat, BitVec.toNat_shiftConcat, Nat.shiftLeft_eq, pow_one, Nat.mul_comm v.toNat]
  exact Nat.mod_add_div _ _

/-- R334, R336: the value halved and the bit moved in at its top; the lowest bit is carried out. -/
theorem toNat_shiftInTop {n : Nat} (hn : 0 < n) (v : BitVec n) (c : Bool) :
    2 * (shiftInTop v c).toNat + (v.getLsbD 0).toNat = v.toNat + 2 ^ n * c.toNat := by
  have hv := v.isLt
  have half := Nat.two_pow_pred_mul_two hn
  have low : v.toNat / 2 < 2 ^ (n - 1) := by omega
  have placed : (if c then BitVec.twoPow n (n - 1) else 0#n).toNat = 2 ^ (n - 1) * c.toNat := by
    cases c
    · simp
    · simp [BitVec.toNat_twoPow, Nat.mod_eq_of_lt (show 2 ^ (n - 1) < 2 ^ n by omega)]
  have value : (shiftInTop v c).toNat = 2 ^ (n - 1) * c.toNat + v.toNat / 2 := by
    rw [Nat.two_pow_add_eq_or_of_lt low, Nat.or_comm, ← placed, shiftInTop, BitVec.toNat_or, BitVec.toNat_ushiftRight,
      Nat.shiftRight_one]
  have parts := Nat.div_add_mod v.toNat 2
  rw [value, toNat_getLsbD_zero, ← half]
  linarith

/-- The top bit counts negatively in the signed value. -/
theorem toInt_eq_toNat_sub_msb {n : Nat} (v : BitVec n) : v.toInt = v.toNat - 2 ^ n * (v.msb.toNat : Int) := by
  rw [BitVec.toInt_eq_msb_cond]
  cases v.msb <;> simp

/-- R337: the signed value halved; the lowest bit is carried out. -/
theorem toInt_shiftInTop_msb {n : Nat} (hn : 0 < n) (v : BitVec n) :
    2 * (shiftInTop v v.msb).toInt + (v.getLsbD 0).toNat = v.toInt := by
  have halved : (2 * (shiftInTop v v.msb).toNat + (v.getLsbD 0).toNat : Int) = v.toNat + 2 ^ n * v.msb.toNat :=
    mod_cast toNat_shiftInTop hn v v.msb
  rw [toInt_eq_toNat_sub_msb, toInt_eq_toNat_sub_msb v, msb_shiftInTop hn]
  linarith

/-! ## One step (R331 to R337) -/

/-- SF, ZF and PF set by a result, CF and OF given. -/
theorem Flags.setSZP_shiftFlags {n : Nat} (f : Flags) (r : BitVec n) (c o : Bool) :
    ResultFlags f { f.setSZP r with cf := c, of := o } r := f.setSZP_resultFlags r c f.af o

theorem Flags.rotateFlags (f : Flags) (c o : Bool) : RotateFlags f { f with cf := c, of := o } :=
  ⟨rfl, rfl, rfl, rfl, rfl, rfl, rfl⟩

/-- R331 to R337, R340 on any width. -/
theorem shiftRule {n : Nat} (hn : 0 < n) : ShiftRule n := by
  intro f v
  exact ⟨⟨shiftIn_msb_eq_rotateLeft v, rfl, rfl, f.rotateFlags _ _⟩,
    ⟨shiftInTop_lsb_eq_rotateRight v, rfl, rfl, f.rotateFlags _ _⟩,
    ⟨toNat_shiftIn hn v f.cf, rfl, f.rotateFlags _ _⟩,
    ⟨toNat_shiftInTop hn v f.cf, rfl, f.rotateFlags _ _⟩,
    ⟨toNat_shiftIn hn v false, rfl, f.setSZP_shiftFlags _ _ _⟩,
    ⟨toNat_shiftInTop hn v false, rfl, f.setSZP_shiftFlags _ _ _⟩,
    ⟨toInt_shiftInTop_msb hn v, rfl, f.setSZP_shiftFlags _ _ _⟩,
    fun _ _ => ⟨rfl, rfl⟩⟩

/-- The shifts leave AF free, the rotates do not. -/
theorem ShiftOp.drawsAf_eq_true_iff (op : ShiftOp) : op.drawsAf = true ↔ op = .shl ∨ op = .shr ∨ op = .sar := by
  cases op <;> simp [ShiftOp.drawsAf]

/-- Settles O27: the steps are rotations, or doublings and halvings with the bits moved in and out. -/
theorem shiftStepRules : Obligations.ShiftStepRules := by
  unfold Obligations.ShiftStepRules
  exact ⟨shiftRule (by decide), shiftRule (by decide), ShiftOp.drawsAf_eq_true_iff⟩

/-! ## The forms of the shifts (R330, R340) -/

/-- R340: what a shift by `count` answers, AF apart the step repeated. -/
theorem ShiftOp.apply_eq {n : Nat} (op : ShiftOp) (f : Flags) (x : BitVec n) (count : Nat) (af : Bool) :
    op.apply f x count af =
      let y := op.repeated count (x, f)
      (y.1, if op.drawsAf = true ∧ count ≠ 0 then { y.2 with af := af } else y.2) := by
  unfold ShiftOp.apply
  by_cases h : op.drawsAf = true ∧ count ≠ 0 <;> simp [h]

/-- R330: the four encodings of a shift are two operations, by 1 or by CL. -/
theorem exec_shiftForms (op : ShiftOp) (s : State) :
    (∀ rm, exec ((shiftForms op).eb1 rm) s = .next (shiftEb op rm 1 s)) ∧
    (∀ rm, exec ((shiftForms op).ew1 rm) s = .next (shiftEw op rm 1 s)) ∧
    (∀ rm, exec ((shiftForms op).ebCl rm) s = .next (shiftEb op rm s.clCount s)) ∧
    (∀ rm, exec ((shiftForms op).ewCl rm) s = .next (shiftEw op rm s.clCount s)) := by
  cases op <;> exact ⟨fun _ => rfl, fun _ => rfl, fun _ => rfl, fun _ => rfl⟩

/-- Settles O26: each encoding is a shift of its operand, by `ShiftOp.apply_eq` the step repeated. -/
theorem shiftForms_hold : Obligations.ShiftForms := by
  unfold Obligations.ShiftForms
  intro op s hs
  obtain ⟨eb1, ew1, ebCl, ewCl⟩ := exec_shiftForms op s
  have byte (rm : RM8) (count : Nat) := shiftEb_spec op rm count hs.quiet hs.ramWf
  have word (rm : RM16) (count : Nat) := shiftEw_spec op rm count hs.quiet hs.ramWf
  simp only [ShiftOp.apply_eq] at byte word
  exact ⟨fun rm => ⟨_, eb1 rm, byte rm 1⟩, fun rm => ⟨_, ew1 rm, word rm 1⟩,
    fun rm => ⟨_, ebCl rm, byte rm _⟩, fun rm => ⟨_, ewCl rm, word rm _⟩⟩

/-! ## SETMO and SETMOC (R338) -/

/-- R338: SETMO writes all ones to a byte operand. -/
theorem setmoEb_put {s : State} (hs : s.Steady) (rm : RM8) : Put8 s (setmoEb rm s) rm 0xFF#8 s.flags.setmo :=
  have same := State.internal_same hs.quiet
  State.writePlace8_spec rm _ _ (same.withFlags _) same.still hs.quiet hs.ramWf

/-- R338: SETMO writes all ones to a word operand. -/
theorem setmoEw_put {s : State} (hs : s.Steady) (rm : RM16) : Put16 s (setmoEw rm s) rm 0xFFFF#16 s.flags.setmo :=
  have same := State.internal_same hs.quiet
  State.writePlace16_spec rm _ _ (same.withFlags _) same.still hs.quiet hs.ramWf

/-- R340: the count is 0 exactly when CL is. -/
theorem State.clCount_eq_zero_iff (s : State) : s.clCount = 0 ↔ s.reg8 .cl = 0#8 := BitVec.toNat_inj (y := 0#8)

/-- R338: SETMOC is SETMO unless CL is 0. -/
theorem completes_unlessClZero {s t : State} {i : Instr} (he : exec i s = .next (if s.clCount = 0 then s else t))
    {P : State → Prop} (h : P t) :
    Completes i s fun u => (s.reg8 .cl ≠ 0#8 → P u) ∧ (s.reg8 .cl = 0#8 → u = s) := by
  simp only [State.clCount_eq_zero_iff] at he
  exact ⟨_, he, fun hcl => by rwa [if_neg hcl], fun hcl => if_pos hcl⟩

/-- Settles O28: SETMO writes and sets its flags, SETMOC does so by the test of CL. -/
theorem setMinusOne : Obligations.SetMinusOne := by
  unfold Obligations.SetMinusOne
  intro s hs
  exact ⟨fun rm => ⟨_, rfl, setmoEb_put hs rm⟩, fun rm => ⟨_, rfl, setmoEw_put hs rm⟩,
    fun rm => completes_unlessClZero rfl (setmoEb_put hs rm),
    fun rm => completes_unlessClZero rfl (setmoEw_put hs rm)⟩

end Sys2Proof.Machine
end

section
/-! SUPPORT. Strings: one element of each string instruction, its repetition (R370 to R384), and the steps that go on
with an instruction already begun (R380, R476, R585). -/

namespace Sys2Proof.Machine

/-! ## One element (R370 to R375) -/

/-- The model's own operation for one element of a string instruction. -/
def StringOp.iteration : StringOp → Bool → State → State
  | .movs, false => movsb | .movs, true => movsw
  | .cmps, false => cmpsb | .cmps, true => cmpsw
  | .scas, false => scasb | .scas, true => scasw
  | .lods, false => lodsb | .lods, true => lodsw
  | .stos, false => stosb | .stos, true => stosw

/-- R380: every string instruction is `stringStep` of its element. -/
theorem exec_string (o : StringOp) (wide : Bool) (s : State) :
    exec (o.instr wide) s = .next (stringStep o.compares (o.iteration wide) s) := by
  cases o <;> cases wide <;> rfl

/-- R371 to R375: a string instruction is its opcode alone. -/
theorem decode_string (o : StringOp) (wide : Bool) (rest : List Byte) :
    decode (o.opcode wide :: rest) = .ok (o.instr wide) rest := by
  have hwf : (o.instr wide).wf = true := by cases o <;> cases wide <;> rfl
  have henc : encode (o.instr wide) = [o.opcode wide] := by cases o <;> cases wide <;> rfl
  have hd := decode_encode (o.instr wide) hwf rest
  rwa [henc] at hd

theorem loByte_zext16 (b : Byte) : loByte (zext16 b) = b := by
  rw [loByte, zext16, ← BitVec.setWidth_eq_extractLsb' (by decide), BitVec.setWidth_setWidth_of_le _ (by decide),
    BitVec.setWidth_eq]

/-- R370: a byte element is the low byte of what it reads as. -/
theorem State.byteAt_eq_loByte_element (s : State) (seg off : Word) :
    s.byteAt seg off = loByte (s.element false seg off) := (loByte_zext16 _).symm

/-- What one element of a string instruction leaves behind. -/
def StringOp.Done (o : StringOp) (wide : Bool) (s t : State) : Prop :=
  Ran s t (o.regs wide s) (o.flags wide s) ∧ Stores s.sys t.sys (o.stores wide s) ∧
    (o.stores wide s = [] → Unchanged s.sys t.sys)

/-- An element that stores nothing leaves memory unchanged. -/
theorem StringOp.done_of_unchanged {o : StringOp} {wide : Bool} {s t : State} (hnone : o.stores wide s = [])
    (h : Ran s t (o.regs wide s) (o.flags wide s) ∧ Unchanged s.sys t.sys) : o.Done wide s t := by
  obtain ⟨ran, unchanged⟩ := h
  exact ⟨ran, hnone ▸ Stores.of_still unchanged.rest, fun _ => unchanged⟩

/-- An element that stores bytes. -/
theorem StringOp.done_of_stores {o : StringOp} {wide : Bool} {s t : State} (hsome : o.stores wide s ≠ [])
    (h : Ran s t (o.regs wide s) (o.flags wide s) ∧ Stores s.sys t.sys (o.stores wide s)) : o.Done wide s t :=
  ⟨h.1, h.2, fun hnone => absurd hnone hsome⟩

/-- R371 to R375: one element is done as the statements describe it. -/
theorem StringOp.iteration_done (o : StringOp) (wide : Bool) {s : State} (hs : s.Steady) :
    o.Done wide s (o.iteration wide s) := by
  have hq := hs.quiet
  have hw := hs.ramWf
  have hbyte := s.byteAt_eq_loByte_element
  match o, wide with
  | .movs, false =>
    have h := movsb_spec hq hw
    rw [hbyte] at h
    exact StringOp.done_of_stores (List.cons_ne_nil _ _) h
  | .movs, true => exact StringOp.done_of_stores (List.cons_ne_nil _ _) (movsw_spec hq hw)
  | .cmps, false =>
    have h := cmpsb_spec hq
    rw [hbyte, hbyte] at h
    exact StringOp.done_of_unchanged rfl h
  | .cmps, true => exact StringOp.done_of_unchanged rfl (cmpsw_spec hq)
  | .scas, false =>
    have h := scasb_spec hq
    rw [hbyte] at h
    exact StringOp.done_of_unchanged rfl h
  | .scas, true => exact StringOp.done_of_unchanged rfl (scasw_spec hq)
  | .lods, false =>
    have h := lodsb_spec hq
    rw [hbyte] at h
    exact StringOp.done_of_unchanged rfl h
  | .lods, true => exact StringOp.done_of_unchanged rfl (lodsw_spec hq)
  | .stos, false => exact StringOp.done_of_stores (List.cons_ne_nil _ _) (stosb_spec hq hw)
  | .stos, true => exact StringOp.done_of_stores (List.cons_ne_nil _ _) (stosw_spec hq hw)

/-! ## Repetition (R380, R381, R384) -/

theorem Ran.setRep {s t : State} {g : Regs} {f : Flags} (h : Ran s t g f) (b : Bool) :
    Ran (s.setRep b) (t.setRep b) g f := by
  obtain ⟨regs, flags, sregs, ip, trap, inhibit, waiting, instr, prefixes, -, start, prefixing⟩ := h
  exact ⟨regs, flags, sregs, ip, trap, inhibit, waiting, instr, prefixes, rfl, start, prefixing⟩

/-- Settles O38: without a repeat prefix `stringStep` is one element, and the repetition is over. -/
theorem stringElements : Obligations.StringElements := by
  unfold Obligations.StringElements
  refine ⟨decode_string, fun o wide s hs hrep => ?_⟩
  obtain ⟨ran, stores, unchanged⟩ := o.iteration_done wide hs
  have he := exec_string o wide s
  rw [stringStep_once hrep] at he
  exact ⟨_, he, ran.setRep false, stores, unchanged⟩

/-- No string instruction uses CX but for its repetition. -/
@[simp] theorem StringOp.regs_cx (o : StringOp) (wide : Bool) (s : State) : (o.regs wide s).cx = s.regs.cx := by
  cases o <;> rfl

/-- R380: what ZF must be for a repeated comparison to go on. -/
theorem Rep.stopsOn_eq_false_iff {r : Rep} (h : r ≠ .none) (zf : Bool) :
    r.stopsOn zf = false ↔ (zf = true ↔ r = .rep) := by
  cases r with
  | none => exact absurd rfl h
  | repne | rep => cases zf <;> decide

/-- R380, R381: the test after an element, in the terms of the statement. -/
theorem goesOn_iff {r : Rep} (h : r ≠ .none) (compares zf : Bool) (cx : Word) :
    (!(compares && r.stopsOn zf) && decide (cx - 1#16 ≠ 0#16)) = true ↔
      cx ≠ 1#16 ∧ (compares = true → (zf = true ↔ r = .rep)) := by
  have hcx : cx - 1#16 = 0#16 ↔ cx = 1#16 := by bv_omega
  rw [← Rep.stopsOn_eq_false_iff h zf]
  cases compares <;> simp [hcx, and_comm]

/-- R381: the repetition's step with CX not 0: the element, CX one less, and the test for the end. -/
theorem stringStep_element {s : State} (hs : s.Steady) (hrep : s.eu.pfx.rep ≠ .none) (hcx : s.regs.cx ≠ 0#16)
    (o : StringOp) (wide : Bool) :
    let t := stringStep o.compares (o.iteration wide) s
    Ran (s.setRep t.eu.repActive) t { o.regs wide s with cx := s.regs.cx - 1#16 } (o.flags wide s) ∧
    (t.eu.repActive = true ↔
      s.regs.cx ≠ 1#16 ∧ (o.compares = true → ((o.flags wide s).zf = true ↔ s.eu.pfx.rep = .rep))) ∧
    t.sys = (o.iteration wide s).sys := by
  obtain ⟨ran, -⟩ := o.iteration_done wide hs
  have hcount := ran.setReg16 .cx (s.regs.cx - 1#16)
  have hzf : (o.iteration wide s).flags.zf = (o.flags wide s).zf := congrArg Flags.zf ran.flags
  have hold : (o.iteration wide s).regs.cx = s.regs.cx := by rw [ran.regs, o.regs_cx]
  rw [stringStep_more hrep hcx, hold]
  refine ⟨hcount.setRep _, ?_, rfl⟩
  rw [← goesOn_iff hrep, ← hzf]
  rfl

/-- Settles O39: CX = 0 is `stringStep_done`, CX not 0 `stringStep_element`. -/
theorem repeatedStringElements : Obligations.RepeatedStringElements := by
  unfold Obligations.RepeatedStringElements
  intro o wide s hs hrep
  refine ⟨_, exec_string o wide s, fun hcx => stringStep_done hrep hcx _ _, fun hcx => ?_⟩
  obtain ⟨-, stores, unchanged⟩ := o.iteration_done wide hs
  obtain ⟨ran, goesOn, hsys⟩ := stringStep_element hs hrep hcx o wide
  rw [← hsys] at stores unchanged
  exact ⟨ran, goesOn, stores, unchanged⟩

/-! ## Steps that go on with their instruction (R476, R585) -/

/-- With nothing due a step is `normalStep` with the inhibition spent. -/
theorem step_of_no_event {s : State} (h : s.dueEvent = none) :
    step s = ended s.stepStart (normalStep { s with intInhibit := false }) := by
  have hc : cpuStep s = normalStep { s with intInhibit := false } := by
    unfold cpuStep
    rw [h, ← afterTest_none h]
  unfold step machineStep
  rw [hc]
  cases normalStep { s with intInhibit := false } <;> rfl

/-- A repetition or a WAIT that is not over runs its instruction again. -/
theorem normalStep_goesOn {s : State} {i : Instr} (hp : s.eu.prefixing = false) (hh : s.sys.halted = false)
    (hi : s.eu.instr = some i) (ha : s.eu.repActive = true ∨ s.waitTpr = true) :
    normalStep s = exec i s.loadTrapLatch.beginIteration := by
  have hcur : (if s.loadTrapLatch.eu.repActive || s.loadTrapLatch.waitTpr then s.loadTrapLatch.eu.instr else none) =
      some i := (if_pos (Bool.or_eq_true_iff.2 ha)).trans hi
  unfold normalStep
  simp only [hh, hp, hcur, Bool.false_eq_true, if_false]

/-- A step among prefix bytes goes on with the bytes after them. -/
theorem normalStep_prefixing {s : State} (hp : s.eu.prefixing = true) (hh : s.sys.halted = false) :
    normalStep s = runInstr 65536 { s with eu := { s.eu with prefixing := false } } := by
  unfold normalStep
  simp only [hh, hp, Bool.false_eq_true, if_false, if_true, prefixBound]

/-- A place among prefix bytes is no boundary, so nothing is due there. -/
theorem dueEvent_of_prefixing {s : State} (hp : s.eu.prefixing = true) : s.dueEvent = none := by
  simp [State.dueEvent, hp]

/-- Settles O7: the state that goes on is the one `State.beginIteration` makes, of which the clock's parts alone
differ; among prefix bytes only the mark that a step ended there is taken back. -/
theorem stepGoesOnWithItsInstruction : Obligations.StepGoesOnWithItsInstruction := by
  unfold Obligations.StepGoesOnWithItsInstruction
  refine ⟨fun s i hdue hp hh hi ha => ?_, fun s hp hh => ?_⟩
  · have hstart : s.stepStart = s.sys.ticks := by simp [State.stepStart, hp]
    have hnormal := normalStep_goesOn (s := { s with intInhibit := false }) hp hh hi ha
    refine ⟨State.beginIteration (State.loadTrapLatch { s with intInhibit := false }), rfl, rfl, rfl, rfl, rfl, rfl, rfl,
      unchanged_of_still rfl, ?_⟩
    rw [step_of_no_event hdue, hstart, hnormal]
  · have hstart : s.stepStart = s.eu.startTick := by simp [State.stepStart, hp]
    have hnormal := normalStep_prefixing (s := { s with intInhibit := false }) hp hh
    rw [step_of_no_event (dueEvent_of_prefixing hp), hstart, hnormal]

end Sys2Proof.Machine
end

section
/-! SUPPORT. Control transfer: jumps, conditions, loops, calls, returns, software interrupts and the return from them
(R401 to R433). -/

namespace Sys2Proof.Machine

/-! ## Jumps (R401 to R405) -/

/-- A jump from a state in which only the clock has moved changes nothing but CS:IP. -/
theorem Same.jumped {s t u : State} {seg off : Word} (h : Same s t)
    (j : Transferred s u t.regs t.flags seg off ∧ u.sys.still = t.sys.still) :
    Transferred s u s.regs s.flags seg off ∧ Unchanged s.sys u.sys := by
  obtain ⟨moved, still⟩ := j
  rw [h.ran.regs, h.ran.flags] at moved
  exact ⟨moved, unchanged_of_still (still.trans h.still)⟩

/-- R401, R402: a relative jump. -/
theorem jumpBy_jumped {s : State} (hq : s.sys.Quiet) (d : Word) :
    Transferred s (s.jumpBy d) s.regs s.flags s.sregs.cs (s.ip + d) ∧ Unchanged s.sys (s.jumpBy d).sys :=
  (Same.rfl' s).jumped (State.jumpBy_spec (SameControl.rfl' s) rfl hq d)

/-- R403, R405: a far jump. -/
theorem Same.jumpFar {s t : State} (h : Same s t) (hq : s.sys.Quiet) (seg off : Word) :
    Transferred s (t.jumpFar seg off) s.regs s.flags seg off ∧ Unchanged s.sys (t.jumpFar seg off).sys :=
  h.jumped (State.jumpFar_spec h.ran.control h.ran.sregs (h.quiet hq) seg off)

/-- R404: a near jump to an operand. -/
theorem completes_jmpEw {s : State} (hq : s.sys.Quiet) (rm : RM16) :
    Completes (.jmpEw rm) s fun t =>
      Transferred s t s.regs s.flags s.sregs.cs (s.operand16 rm) ∧ Unchanged s.sys t.sys := by
  obtain ⟨hv, same⟩ := State.readRM16_spec hq rm
  rw [← hv]
  exact ⟨_, rfl, same.jumped (State.jumpTo_spec same.ran.control same.ran.sregs (same.quiet hq) _)⟩

/-- R405: a far jump through a pointer in memory. -/
theorem jumpThrough_spec {s : State} (hq : s.sys.Quiet) (m : MemOp) :
    Transferred s (jumpThrough m s) s.regs s.flags (s.wordAt (s.segValueOf m) (s.effAddr m + 2#16))
      (s.wordAt (s.segValueOf m) (s.effAddr m)) ∧ Unchanged s.sys (jumpThrough m s).sys := by
  obtain ⟨hoff, hseg, same⟩ := State.readFar_spec hq m
  rw [← hoff, ← hseg]
  exact same.jumpFar hq _ _

/-- Settles O40: each jump is one transfer after what reads its target. -/
theorem jumps : Obligations.Jumps := by
  unfold Obligations.Jumps
  intro s hs
  have hq := hs.quiet
  have through (m : MemOp) := jumpThrough_spec hq m
  exact ⟨fun rel => ⟨_, rfl, jumpBy_jumped hq (sext16 rel)⟩, fun rel => ⟨_, rfl, jumpBy_jumped hq rel⟩,
    fun off seg => ⟨_, rfl, (Same.rfl' s).jumpFar hq seg off⟩, completes_jmpEw hq,
    fun m => ⟨⟨_, rfl, through m⟩, ⟨_, rfl, through m⟩, ⟨_, rfl, through m⟩⟩⟩

/-! ## Conditional jumps (R406) -/

/-- R406: the opcodes of the jump of a condition, at 0x70 and again at 0x60. -/
theorem shapeOf_jccForms (c : Cond) :
    shapeOf (0x70#8 + c.number) = .imm8 (jccForms c).1 ∧ shapeOf (0x60#8 + c.number) = .imm8 (jccForms c).2 := by
  cases c <;> exact ⟨rfl, rfl⟩

/-- R406: both encodings of the jump of a condition are `jumpIf` of that condition. -/
theorem exec_jccForms (c : Cond) (rel : Byte) (s : State) :
    exec ((jccForms c).1 rel) s = .next (jumpIf (c.holds s.flags) rel s) ∧
    exec ((jccForms c).2 rel) s = .next (jumpIf (c.holds s.flags) rel s) := by
  cases c <;> exact ⟨rfl, rfl⟩

/-- Settles O41: the condition decides what `jumpIf` does. -/
theorem conditionalJumps : Obligations.ConditionalJumps := by
  unfold Obligations.ConditionalJumps
  refine ⟨fun c rel rest => ?_, fun c rel s hs => ?_⟩
  · obtain ⟨jump, other⟩ := shapeOf_jccForms c
    exact ⟨decode_imm8 jump rel rest, decode_imm8 other rel rest⟩
  · obtain ⟨jump, other⟩ := exec_jccForms c rel s
    have taken := jumpIf_spec hs.quiet (c.holds s.flags) rel
    exact ⟨⟨_, jump, taken⟩, ⟨_, other, taken⟩⟩

/-! ## Conditions after a comparison (R261, R406) -/

/-- ZF after a comparison is equality. -/
theorem subN_zf {n : Nat} (f : Flags) (a b : BitVec n) : (subN f a b false).2.zf = decide (a = b) := by
  have equal : a - b = 0#n ↔ a = b := sub_eq_zero
  simp [subN, Flags.setSZP, equal]

/-- CF after a comparison is the unsigned order. -/
theorem subN_cf {n : Nat} (f : Flags) (a b : BitVec n) : (subN f a b false).2.cf = decide (a.toNat < b.toNat) := rfl

/-- The wrapped difference of two signed values is negative, or the difference leaves their range, but not both,
exactly when the first value is the smaller. -/
theorem sign_xor_overflow_iff {m : Nat} {x y : Int} (hx : -m ≤ x ∧ x < m) (hy : -m ≤ y ∧ y < m) :
    ((x - y).bmod (m * 2) < 0 ↔ ¬(x - y < -m ∨ m ≤ x - y)) ↔ x < y := by
  rw [bmod_wraps_once (by omega) (by omega)]
  split_ifs <;> omega

/-- SF differs from OF after a comparison exactly when the first operand is the smaller in the signed order. -/
theorem subN_sf_bne_of {n : Nat} (hn : 0 < n) (f : Flags) (a b : BitVec n) :
    ((subN f a b false).2.sf != (subN f a b false).2.of) = decide (a.toInt < b.toInt) := by
  obtain ⟨-, result, -, -, -, overflow⟩ := subRule hn f a b false
  have negative : (subN f a b false).2.sf = true ↔ (a.toInt - b.toInt).bmod (2 ^ n) < 0 := by
    rw [result.sign, BitVec.msb_eq_toInt, decide_eq_true_iff, toInt_subN]
    simp
  have order := sign_xor_overflow_iff (toInt_range a) (toInt_range b)
  push_cast [Nat.two_pow_pred_mul_two hn] at order
  simp only [Bool.toNat_false, Nat.cast_zero, sub_zero] at overflow
  rw [← negative, ← overflow] at order
  rw [Bool.eq_iff_iff, decide_eq_true_iff, ← order, bne_iff_ne]
  cases (subN f a b false).2.sf <;> cases (subN f a b false).2.of <;> decide

/-- R406: the five conditions on an order after a comparison. -/
theorem orderConditions {n : Nat} (hn : 0 < n) (f : Flags) (a b : BitVec n) :
    let g := (subN f a b false).2
    (Cond.z.holds g = true ↔ a = b) ∧
    (Cond.b.holds g = true ↔ a.toNat < b.toNat) ∧ (Cond.be.holds g = true ↔ a.toNat ≤ b.toNat) ∧
    (Cond.l.holds g = true ↔ a.toInt < b.toInt) ∧ (Cond.le.holds g = true ↔ a.toInt ≤ b.toInt) := by
  have unsignedLe : a.toNat < b.toNat ∨ a = b ↔ a.toNat ≤ b.toNat := by rw [le_iff_lt_or_eq, BitVec.toNat_inj]
  have signedLe : a = b ∨ a.toInt < b.toInt ↔ a.toInt ≤ b.toInt := by
    rw [le_iff_lt_or_eq, BitVec.toInt_inj, or_comm]
  simp [Cond.holds, subN_zf, subN_cf, subN_sf_bne_of hn, unsignedLe, signedLe]

/-- R406: the opposite of a condition holds when the condition does not. -/
theorem Cond.holds_opposite (f : Flags) :
    (Cond.nz.holds f = true ↔ ¬Cond.z.holds f = true) ∧ (Cond.nb.holds f = true ↔ ¬Cond.b.holds f = true) ∧
    (Cond.a.holds f = true ↔ ¬Cond.be.holds f = true) ∧ (Cond.ge.holds f = true ↔ ¬Cond.l.holds f = true) ∧
    (Cond.g.holds f = true ↔ ¬Cond.le.holds f = true) := by
  simp [Cond.holds]

/-- R406 on any width: the conditions on an order, and their opposites. -/
theorem orderRule {n : Nat} (hn : 0 < n) : OrderRule n := by
  intro f a b
  obtain ⟨z, below, belowEq, less, lessEq⟩ := orderConditions hn f a b
  obtain ⟨nz, nb, above, ge, greater⟩ := Cond.holds_opposite (subN f a b false).2
  rw [z] at nz
  rw [below, not_lt] at nb
  rw [belowEq, not_le] at above
  rw [less, not_lt] at ge
  rw [lessEq, not_le] at greater
  exact ⟨z, nz, below, nb, belowEq, above, less, ge, lessEq, greater⟩

/-- Settles O42: the order of the operands by `orderRule`; the six others read one flag. -/
theorem conditionsOrderOperands : Obligations.ConditionsOrderOperands := by
  unfold Obligations.ConditionsOrderOperands
  exact ⟨orderRule (by decide), orderRule (by decide), fun f => by simp [Cond.holds]⟩

/-! ## Loops (R425 to R428) -/

/-- R406: `jumpIf` by a proposition that its test decides. -/
theorem jumpIf_iff {s : State} (hq : s.sys.Quiet) {c : Bool} {taken : Prop} (hc : c = true ↔ taken) (rel : Byte) :
    (taken → Transferred s (jumpIf c rel s) s.regs s.flags s.sregs.cs (s.ip + rel.signExtend 16) ∧
      Unchanged s.sys (jumpIf c rel s).sys) ∧
    (¬taken → jumpIf c rel s = s) := by
  obtain ⟨jumps, stays⟩ := jumpIf_spec hq c rel
  exact ⟨fun h => jumps (hc.2 h), fun h => stays (Bool.eq_false_iff.2 (mt hc.1 h))⟩

/-- A transfer is the same one from any state with those segment registers and latches. -/
theorem Ran.transferred {s t u : State} {g g' : Regs} {f f' : Flags} {seg off : Word} (h : Ran s t g f)
    (j : Transferred t u g' f' seg off) : Transferred s u g' f' seg off :=
  ⟨j.regs, j.flags, by rw [j.sregs, h.sregs], j.ip, j.queue, j.pc, j.resumed, h.control.trans j.control⟩

/-- R425 to R427: CX counts down, then the transfer happens if CX and `c` say so. -/
theorem loopIf_spec {s : State} (hq : s.sys.Quiet) (rel : Byte) {c : Bool} {wanted : Prop} (hc : c = true ↔ wanted) :
    let g := { s.regs with cx := s.regs.cx - 1#16 }
    (s.regs.cx - 1#16 ≠ 0#16 ∧ wanted →
      Transferred s (loopIf c rel s) g s.flags s.sregs.cs (s.ip + rel.signExtend 16) ∧
      Unchanged s.sys (loopIf c rel s).sys) ∧
    (¬(s.regs.cx - 1#16 ≠ 0#16 ∧ wanted) → loopIf c rel s = { s with regs := g }) := by
  have test : (decide (s.regs.cx - 1#16 ≠ 0#16) && c) = true ↔ s.regs.cx - 1#16 ≠ 0#16 ∧ wanted := by
    rw [Bool.and_eq_true, decide_eq_true_iff, hc]
  obtain ⟨jumps, stays⟩ := jumpIf_iff (s := s.setReg16 .cx (s.regs.cx - 1#16)) hq test rel
  refine ⟨fun taken => ?_, stays⟩
  obtain ⟨moved, unchanged⟩ := jumps taken
  exact ⟨((Same.rfl' s).ran.setReg16 .cx _).transferred moved, unchanged⟩

/-- Settles O43: the loops are `loopIf`, JCXZ is `jumpIf` of CX as it stands. -/
theorem loops : Obligations.Loops := by
  unfold Obligations.Loops
  refine ⟨fun rel rest => ⟨decode_imm8 rfl rel rest, decode_imm8 rfl rel rest, decode_imm8 rfl rel rest,
    decode_imm8 rfl rel rest⟩, fun rel s hs => ?_⟩
  have hq := hs.quiet
  have loop := loopIf_spec hq rel (c := true) (wanted := True) (by decide)
  simp only [and_true] at loop
  exact ⟨⟨_, rfl, loop⟩, ⟨_, rfl, loopIf_spec hq rel Iff.rfl⟩, ⟨_, rfl, loopIf_spec hq rel (by rw [Bool.not_eq_true'])⟩,
    ⟨_, rfl, jumpIf_iff hq decide_eq_true_iff rel⟩⟩

/-! ## Calls (R410 to R413) -/

/-- R410, R411: the return IP pushed, then the near transfer. -/
theorem Same.callNear {s t : State} (h : Same s t) (hs : s.Steady) (off : Word) :
    Transferred s ((t.push16 t.ip).callTo off) { s.regs with sp := s.regs.sp - 2#16 } s.flags s.sregs.cs off ∧
    Stores s.sys ((t.push16 t.ip).callTo off).sys (store16 s.sregs.ss (s.regs.sp - 2#16) s.ip) := by
  rw [h.ran.ip]
  have pushed := (h.pushed hs.ramWf).push hs.quiet s.ip
  obtain ⟨moved, still⟩ := State.callTo_spec pushed.ran.control pushed.ran.sregs (pushed.stores.quiet hs.quiet) off
  rw [pushed.ran.regs, pushed.ran.flags] at moved
  exact ⟨moved, pushed.stores.trans_still still⟩

/-- R411: the operand is read before the return IP is pushed. -/
theorem completes_callEw {s : State} (hs : s.Steady) (rm : RM16) :
    Completes (.callEw rm) s fun t =>
      Transferred s t { s.regs with sp := s.regs.sp - 2#16 } s.flags s.sregs.cs (s.operand16 rm) ∧
      Stores s.sys t.sys (store16 s.sregs.ss (s.regs.sp - 2#16) s.ip) := by
  obtain ⟨hv, same⟩ := State.readRM16_spec hs.quiet rm
  rw [← hv]
  exact ⟨_, rfl, same.callNear hs _⟩

/-- R413: the pointer is read before CS and IP are pushed. -/
theorem callThrough_spec {s : State} (hs : s.Steady) (m : MemOp) :
    Transferred s (callThrough m s) { s.regs with sp := s.regs.sp - 4#16 } s.flags
      (s.wordAt (s.segValueOf m) (s.effAddr m + 2#16)) (s.wordAt (s.segValueOf m) (s.effAddr m)) ∧
    Stores s.sys (callThrough m s).sys
      (store16 s.sregs.ss (s.regs.sp - 2#16) s.sregs.cs ++ store16 s.sregs.ss (s.regs.sp - 4#16) s.ip) := by
  obtain ⟨hoff, hseg, same⟩ := State.readFar_spec hs.quiet m
  rw [← hoff, ← hseg]
  exact callFarTo_spec same hs.quiet hs.ramWf _ _

/-- Settles O44: the near calls by `Same.callNear`, the far ones by `callFarTo_spec`. -/
theorem calls : Obligations.Calls := by
  unfold Obligations.Calls
  intro s hs
  have through (m : MemOp) := callThrough_spec hs m
  exact ⟨fun rel => ⟨_, rfl, (Same.rfl' s).callNear hs (s.ip + rel)⟩, completes_callEw hs,
    fun off seg => ⟨_, rfl, callFarTo_spec (Same.rfl' s) hs.quiet hs.ramWf seg off⟩,
    fun m => ⟨⟨_, rfl, through m⟩, ⟨_, rfl, through m⟩, ⟨_, rfl, through m⟩⟩⟩

/-! ## Returns (R415 to R418, R433) -/

/-- An opcode with an immediate word, low byte first. -/
theorem decode_imm16_bytes {op : Byte} {k : Word → Instr} (hs : shapeOf op = .imm16 k) (lo hi : Byte)
    (rest : List Byte) : decode (op :: lo :: hi :: rest) = .ok (k (word hi lo)) rest := by
  have hd := decode_imm16 hs (wordOf lo hi) rest
  rwa [wordBytes_wordOf] at hd

/-- Settles O45: the eight encodings are two operations, each with its count of bytes released. -/
theorem returns : Obligations.Returns := by
  unfold Obligations.Returns
  refine ⟨fun rest => ⟨decode_np rfl rest, decode_np rfl rest, decode_np rfl rest, decode_np rfl rest⟩,
    fun lo hi rest => ⟨decode_imm16_bytes rfl lo hi rest, decode_imm16_bytes rfl lo hi rest,
      decode_imm16_bytes rfl lo hi rest, decode_imm16_bytes rfl lo hi rest⟩, fun s hs => ?_⟩
  have near (k : Word) := returnNear_spec hs.quiet k
  have far (k : Word) := returnFar_spec hs.quiet k
  exact ⟨⟨_, rfl, near 0#16⟩, ⟨_, rfl, near 0#16⟩, ⟨_, rfl, far 0#16⟩, ⟨_, rfl, far 0#16⟩,
    fun k => ⟨⟨_, rfl, near k⟩, ⟨_, rfl, near k⟩, ⟨_, rfl, far k⟩, ⟨_, rfl, far k⟩⟩⟩

/-- Settles O47: IRET is `State.returnFromInterrupt`. -/
theorem interruptReturn : Obligations.InterruptReturn := by
  unfold Obligations.InterruptReturn
  exact fun s hs => ⟨_, rfl, State.returnFromInterrupt_spec hs.quiet⟩

/-! ## Software interrupts (R430 to R432) -/

/-- R790: an interrupt taken at an instruction's end returns to the next instruction. -/
theorem interrupt_entered {s : State} (hs : s.Steady) (n : Byte) :
    Entered s (s.interrupt n s.ip) n s.flags s.ip :=
  (Same.rfl' s).ran.interrupt rfl hs.quiet hs.ramWf n s.ip

/-- R432: INTO takes interrupt 4 when OF is set, and else does nothing. -/
theorem completes_into {s : State} (hs : s.Steady) :
    Completes .into s fun t => (s.flags.of = true → Entered s t 4#8 s.flags s.ip) ∧ (s.flags.of = false → t = s) := by
  refine ⟨_, rfl, fun overflow => ?_, fun noOverflow => ?_⟩
  · rw [if_pos overflow]
    exact interrupt_entered hs 4#8
  · rw [if_neg (Bool.eq_false_iff.1 noOverflow)]

/-- Settles O46: each is one `State.interrupt` with the next instruction's IP, INTO's by the test of OF. -/
theorem softwareInterrupts : Obligations.SoftwareInterrupts := by
  unfold Obligations.SoftwareInterrupts
  exact ⟨fun n rest => ⟨decode_imm8 rfl n rest, decode_np rfl rest, decode_np rfl rest⟩,
    fun s hs => ⟨fun n => ⟨_, rfl, interrupt_entered hs n⟩, ⟨_, rfl, interrupt_entered hs 3#8⟩, completes_into hs⟩⟩

end Sys2Proof.Machine
end

section
/-! SUPPORT. Processor control: the encodings without a meaning, the flag instructions and the prefix bytes, HLT, WAIT
and ESC (R286, R460 to R466, R475 to R479, R485 to R487). -/

namespace Sys2Proof.Machine

/-! ## HLT, WAIT and ESC (R475 to R477) -/

/-- Ticks in which the EU does nothing. -/
theorem State.spend_same {s : State} (hq : s.sys.Quiet) (n : Nat) : Same s (s.spend n) :=
  ⟨⟨rfl, rfl, rfl, rfl, ⟨rfl, rfl, rfl, rfl, rfl, rfl, rfl, rfl⟩⟩, State.spend_still hq n⟩

/-- R522, R475: besides what its tick moves, HALT sets `halted` and nothing else. -/
theorem Sys.halt_still {y : Sys} (hq : y.Quiet) (cs : Word) :
    (y.halt cs).still = Sys.still { y with halted := true } :=
  Sys.internal_still (y := { y with halted := true, biu := { y.biu with haltReq := true } }) hq cs 1

theorem completes_hlt {s : State} (hq : s.sys.Quiet) :
    Completes .hlt s fun t => Ran s t s.regs s.flags ∧ t.sys.halted = true ∧
      Unchanged { s.sys with halted := true } t.sys := by
  have still := Sys.halt_still hq s.sregs.cs
  have halted : (s.sys.halt s.sregs.cs).halted = true := congrArg Sys.halted still
  exact ⟨_, rfl, ⟨rfl, rfl, rfl, rfl, ⟨rfl, rfl, rfl, rfl, rfl, rfl, rfl, rfl⟩⟩, halted, unchanged_of_still still⟩

/-- R476: a poll leaves WAIT going on exactly when TEST is not asserted; beyond that it only takes time. -/
theorem waitPoll_same {s : State} (hq : s.sys.Quiet) : Same { s with waitTpr := !s.sys.lines.test } (waitPoll s) := by
  unfold waitPoll
  cases s.sys.lines.test with
  | true => exact State.spend_same (s := { s with waitTpr := false }) hq _
  | false => exact State.spend_same (s := { s with waitTpr := true }) hq 1

/-- R477: the operand of ESC is at most read. -/
theorem escape_same {s : State} (hq : s.sys.Quiet) (rm : RM16) : Same s (escape rm s) := by
  cases rm with
  | reg r => exact Same.rfl' s
  | mem m => exact State.read16_same hq (some (s.segOf m)) (s.effAddr m)

/-- Settles O49: HLT by `Sys.halt_still`; a poll of WAIT and the operand read of ESC only take time. -/
theorem haltWaitEscape : Obligations.HaltWaitEscape := by
  unfold Obligations.HaltWaitEscape
  intro s hs
  obtain ⟨waited, still⟩ := waitPoll_same hs.quiet
  exact ⟨completes_hlt hs.quiet, ⟨_, rfl, waited, unchanged_of_still still⟩,
    fun _ _ rm => ⟨_, rfl, (escape_same hs.quiet rm).kept⟩⟩

/-! ## Refusals (R286, R485 to R487) -/

/-- R286: MUL and DIV with either repeat prefix are refused. -/
theorem unlessRepeated_of_ne {s : State} (h : s.eu.pfx.rep ≠ .none) (k : State → State) :
    unlessRepeated s k = .refused .repeatedMulDiv := by
  unfold unlessRepeated
  cases hr : s.eu.pfx.rep with
  | none => exact absurd hr h
  | repne => rfl
  | rep => rfl

/-- Settles O12: the eleven stops are refused by their arms, a multiplication or division by its repeat prefix. -/
theorem unfixedEncodingsAreRefused : Obligations.UnfixedEncodingsAreRefused := by
  unfold Obligations.UnfixedEncodingsAreRefused
  refine fun s => ⟨fun _ => ⟨rfl, rfl, rfl, rfl, rfl, rfl⟩, fun _ => ⟨rfl, rfl⟩, fun _ _ => ⟨rfl, rfl, rfl⟩,
    fun i hi repeated => ?_⟩
  obtain ⟨k, hk⟩ := exec_mulDiv hi s
  exact hk.trans (unlessRepeated_of_ne repeated k)

/-! ## Flag instructions and prefix bytes (R460 to R466, R134, R478, R479) -/

/-- Settles O48: each arm writes the one field the statement gives: seven flags, four overrides, two repeat prefixes
and LOCK under its two opcodes. -/
theorem flagAndPrefixInstructions : Obligations.FlagAndPrefixInstructions := by
  unfold Obligations.FlagAndPrefixInstructions
  intro s
  exact ⟨rfl, rfl, rfl, rfl, rfl, rfl, rfl, rfl, rfl, rfl, rfl, rfl, rfl, rfl, rfl⟩

end Sys2Proof.Machine
end

section
/-! SUPPORT. The bus unit and the clock: what one tick does to the bus phase, and what it leaves (R500, R510, R511,
R580, R676). -/

namespace Sys2Proof.Machine

/-! ## The edges that decide, and the one that leaves a halt acknowledge (R511, R521) -/

/-- In Idle a tick decides what starts next. -/
theorem tick_idle {y : Sys} (cs : Word) (h : y.biu.phase = .idle) :
    (y.tick cs).biu = (y.clockDevices.decide false).biu := by
  have hp : y.clockDevices.biu.phase = .idle := h
  rw [tick_biu, Sys.phaseAction, hp]

theorem tick_haltAck {y : Sys} (cs : Word) (h : y.biu.phase = .haltAck) : (y.tick cs).biu = y.biu.toIdle := by
  have hp : y.clockDevices.biu.phase = .haltAck := h
  rw [tick_biu, Sys.phaseAction, hp]
  rfl

theorem fetchComplete_phase (y : Sys) : y.fetchComplete.biu.phase = y.biu.phase := by
  unfold Sys.fetchComplete; split <;> rfl

/-- From T4 the halt acknowledge cannot be entered: the phase that decides is not Idle. -/
theorem tick_t4_phase {y : Sys} (cs : Word) (h : y.biu.phase = .t4) :
    (y.tick cs).biu.phase = .t1 ∨ (y.tick cs).biu.phase = .idle := by
  have inT4 : y.clockDevices.fetchComplete.biu.phase = .t4 := (fetchComplete_phase _).trans h
  rw [tick_t4 cs h]
  exact decide_phase_t4 _ true (by simp [inT4])

theorem tick_idle_phase {y : Sys} (cs : Word) (h : y.biu.phase = .idle) :
    (y.tick cs).biu.phase = .idle ∨ (y.tick cs).biu.phase = .t1 ∨ (y.tick cs).biu.phase = .haltAck := by
  rw [tick_idle cs h]
  exact (decide_decided _ false).phase.imp_right Or.symm

/-- Settles O55: inside a cycle by `EuAt`, which says what a tick makes of T1, T2, T3 and Tw; T4 and Idle by what a
decision can start. -/
theorem busPhaseEdges : Obligations.BusPhaseEdges := by
  unfold Obligations.BusPhaseEdges
  intro y cs
  have cycle {p : Phase} (h : y.biu.phase = p) : EuAt y.biu.request p y.biu.op y := ⟨h, rfl, rfl⟩
  refine ⟨fun t1 => (cycle t1).t1.phase, fun t2 => (cycle t2).t2.phase, fun t3 => ⟨fun done => ?_, fun waits => ?_⟩,
    fun tw => ⟨fun last => ?_, fun waits => ?_⟩, tick_t4_phase cs, tick_idle_phase cs, fun h => ?_⟩
  · exact ((cycle t3).t3_done done).phase
  · exact ((cycle t3).t3_wait waits).1.phase
  · exact ((cycle tw).tw.1 (by omega)).phase
  · exact ((cycle tw).tw.2 (by omega)).1.phase
  · rw [tick_haltAck cs h]; rfl

/-- Settles O56: the count by `tick_ticks`; a quiet system is still through a tick, and what is still reads the same. -/
theorem tickLeavesMemory : Obligations.TickLeavesMemory := by
  unfold Obligations.TickLeavesMemory
  intro y cs hq
  exact ⟨tick_ticks y cs, unchanged_of_still (Sys.tick_still hq cs)⟩

end Sys2Proof.Machine
end

section
/-! SUPPORT. A step with nothing due: a halted CPU's tick, and an instruction begun at CS:IP (R475, R585, R586). -/

namespace Sys2Proof.Machine

/-! ## A halted step (R475, R586) -/

/-- A tick does not end a halt. -/
theorem tick_halted (y : Sys) (cs : Word) : (y.tick cs).halted = y.halted :=
  congrArg (fun x => x.2.2) (tick_fixed y cs)

/-- R552: after a halted step there is no RNI, so the one tick is all the time the step takes. -/
theorem haltedStep_finish_ticks {s : State} (hh : s.sys.halted = true) (t0 : Nat) :
    (s.haltedStep.finish t0).sys.ticks = s.sys.ticks + 1 := by
  have halted : s.haltedStep.sys.halted = true := (tick_halted s.sys s.sregs.cs).trans hh
  unfold State.finish
  split
  · exact tick_ticks _ _
  · rw [State.endStep_ticks, State.retire_of_halted halted rfl]
    exact tick_ticks _ _

/-- R586: a halted step with its end: the CPU and every byte as before, one tick later. -/
theorem haltedStep_finish {s : State} (hq : s.sys.Quiet) (hh : s.sys.halted = true) (t0 : Nat) :
    Finished s (s.haltedStep.finish t0) ∧ (s.haltedStep.finish t0).sys.ticks = s.sys.ticks + 1 ∧
      ∀ a, peekByte (s.haltedStep.finish t0).sys a = peekByte s.sys a := by
  have still : s.haltedStep.sys.still = s.sys.still := Sys.tick_still hq s.sregs.cs
  obtain ⟨regs, flags, sregs, ip, repeating, waiting, halted⟩ := State.finish_finished s.haltedStep t0
  exact ⟨⟨regs, flags, sregs, ip, repeating, waiting, halted.trans (tick_halted s.sys s.sregs.cs)⟩,
    haltedStep_finish_ticks hh t0,
    fun a => (peekByte_finish (Sys.quiet_of_still still hq) t0 a).trans (peekByte_of_still still a)⟩

/-- Settles O52: the step is `State.haltedStep` and the end of the step, of which the tick alone takes time. -/
theorem haltedStep : Obligations.HaltedStep := by
  unfold Obligations.HaltedStep
  intro s hs hdue hh
  rw [step_halted hdue hh, afterTest_none hdue]
  obtain ⟨finished, ticks, bytes⟩ :=
    haltedStep_finish (s := State.loadTrapLatch { s with intInhibit := false }) hs.quiet hh s.stepStart
  exact ⟨_, rfl, finished.regs, finished.flags, finished.sregs, finished.ip, finished.halted.trans hh, ticks, bytes⟩

/-! ## An instruction begun (R585 item 4) -/

/-- The state in which a step that begins an instruction takes its first byte: the inhibition spent (R782), the
single-step latch loaded (R783), no prefix yet. -/
def State.atFirstByte (s : State) : State := (State.loadTrapLatch { s with intInhibit := false }).beginInstr

/-- The next instruction bytes are those before the step. -/
theorem State.atFirstByte_codeBytes (s : State) (n : Nat) : s.atFirstByte.codeBytes n = s.codeBytes n :=
  List.map_congr_left fun k _ => codeByte_of_eq (y := s.sys) (z := s.atFirstByte.sys) rfl rfl s.sregs.cs s.ip k

theorem Full.atFirstByte {s : State} (h : Full s) : Full s.atFirstByte := h.of_sys rfl rfl h.memory rfl rfl

/-- With nothing to go on with, a step runs what it fetches at CS:IP. -/
theorem step_of_begins {s : State} (h : s.Begins) :
    step s = ended s.sys.ticks (runInstr (65535 + 1) s.atFirstByte) := by
  have hstart : s.stepStart = s.sys.ticks := by simp [State.stepStart, h.notPrefixing]
  have hnormal : normalStep { s with intInhibit := false } = runInstr (65535 + 1) s.atFirstByte := by
    unfold normalStep
    simp [h.running, h.notPrefixing, State.loadTrapLatch, h.notRepeating, h.notWaiting, prefixBound, State.atFirstByte]
  rw [step_of_no_event h.event, hstart, hnormal]

/-- The state an instruction runs in, when its bytes `bs` were taken at the beginning of a step. -/
theorem Took.fetched {s t : State} {bs : List Byte} (h : Took s.atFirstByte t bs) (hw : s.waitTpr = false)
    (hq : s.sys.Quiet) (i : Instr) : Fetched s (t.setInstr i) i bs.length := by
  obtain ⟨trap, inhibit, waiting, -, prefixes, repeating, start, -⟩ := h.control
  exact ⟨h.regs, h.flags, h.sregs, h.ip, rfl, prefixes, repeating, start, trap, inhibit, waiting.trans hw,
    unchanged_of_still (h.code hq).1, (full_iff_inv _).1 (h.full.setInstr i)⟩

/-- Settles O5: the bytes are taken from `State.atFirstByte`, and `runInstr` runs the instruction they decode to. -/
theorem stepRunsTheDecodedInstruction : Obligations.StepRunsTheDecodedInstruction := by
  unfold Obligations.StepRunsTheDecodedInstruction
  intro s i rest hinv begins quiet hd
  have full : Full s.atFirstByte := ((full_iff_inv s).2 hinv).atFirstByte
  rw [← s.atFirstByte_codeBytes 6] at hd
  obtain ⟨t, bs, fetched, took, len, -⟩ := fetchInstr_decodes full begins.running quiet hd
  rw [step_of_begins begins]
  refine ⟨t.setInstr i, len ▸ took.fetched begins.notWaiting quiet i, fun hp => ?_, fun hp => ?_⟩
  · rw [runInstr_of_not_prefix fetched hp]
  · obtain ⟨v, runs, -, goesOn⟩ := runInstr_prefix fetched hp took.full
    exact ⟨v, runs, congrArg _ goesOn⟩

end Sys2Proof.Machine
end

section
/-! SUPPORT. The PIC's acknowledge in 8086 mode: what each of the two pulses does (R645 to R647, R654). -/

namespace Sys2Proof.Machine

/-- R646: a requested level goes into service; in edge mode its request is cleared. -/
theorem Pic.inta1_of_request {p : Pic} {l : BitVec 3} (h : p.highest p.irr = some l) :
    p.inta1 = Pic.update { p.accept l with intaLevel := l, inInta := true } := by
  unfold Pic.inta1
  rw [h]

/-- R654: with no request the first pulse records level 7 and nothing else. -/
theorem Pic.inta1_of_spurious {p : Pic} (h : p.highest p.irr = none) :
    p.inta1 = Pic.update { p with intaLevel := 7#3, inInta := true } := by
  unfold Pic.inta1
  rw [h]

/-- The first pulse does not touch what ICW4 set. -/
theorem Pic.inta1_aeoi (p : Pic) : p.inta1.aeoi = p.aeoi := by
  unfold Pic.inta1
  split <;> rfl

/-- R647: the second pulse in 8086 mode. -/
theorem Pic.inta2_of_upm {p : Pic} (h : p.upm = true) :
    p.inta2 = Pic.update (if p.aeoi then Pic.endLevel { p with inInta := false } p.rotateAeoi p.intaLevel
      else { p with inInta := false }) := by
  unfold Pic.inta2
  dsimp only
  rw [if_pos h]

/-- R647: the second pulse ends the acknowledge. -/
theorem Pic.inta2_inInta {p : Pic} (h : p.upm = true) : p.inta2.inInta = false := by
  rw [Pic.inta2_of_upm h]
  split <;> rfl

/-- R647: the second pulse takes a level out of service under automatic EOI alone. -/
theorem Pic.inta2_isr {p : Pic} (h : p.upm = true) :
    p.inta2.isr = if p.aeoi then setBit p.isr p.intaLevel.toNat false else p.isr := by
  rw [Pic.inta2_of_upm h]
  split <;> rfl

/-- R647: the type byte in 8086 mode. -/
theorem Pic.inta1_vector {p : Pic} (h : p.upm = true) : p.inta1.vector = p.base ++ p.ackLevel := by
  obtain ⟨base, upm, -, level⟩ := p.inta1_fields
  unfold Pic.vector
  rw [upm, if_pos h, base, level]
  rfl

/-- Settles O57: what the first pulse leaves with a request and without one, and what the second does to it. -/
theorem picAcknowledge : Obligations.PicAcknowledge := by
  unfold Obligations.PicAcknowledge
  intro p hu
  obtain ⟨-, upm, inInta, level⟩ := p.inta1_fields
  have hu1 : p.inta1.upm = true := upm.trans hu
  have inByte : p.ackLevel.toNat < 8 := p.ackLevel.isLt
  have accepted (h : (p.highest p.irr).isSome = true) :
      p.inta1.isr = setBit p.isr p.ackLevel.toNat true ∧
        p.inta1.irr = if p.ltim then p.irr else setBit p.irr p.ackLevel.toNat false := by
    obtain ⟨l, request⟩ := Option.isSome_iff_exists.1 h
    rw [Pic.ackLevel, request, Pic.inta1_of_request request]
    exact ⟨rfl, rfl⟩
  refine ⟨Pic.inta1_vector hu, inInta, Pic.inta2_inInta hu1, fun request edge => ?_, fun request => ?_,
    fun request manual => ?_, fun auto => ?_, fun spurious => ?_⟩
  · simp [(accepted request).2, edge, getLsbD_setBit]
  · simp [(accepted request).1, getLsbD_setBit, inByte]
  · simp [Pic.inta2_isr hu1, Pic.inta1_aeoi, manual, (accepted request).1, getLsbD_setBit, inByte]
  · simp [Pic.inta2_isr hu1, Pic.inta1_aeoi, auto, level, Pic.ackLevel, getLsbD_setBit]
  · rw [Pic.inta1_of_spurious spurious]
    exact ⟨rfl, rfl⟩

end Sys2Proof.Machine
end

section
/-! SUPPORT. The period of a PIT counter in mode 2 (R616, R619). -/

namespace Sys2Proof.Machine

/-- A binary counter that counts in mode 2, its gate high, on a count the spec gives a meaning. -/
structure PitCounter.RateGenerator (c : PitCounter) : Prop where
  mode : c.mode = some .m2
  binary : c.bcd = false
  running : c.running = true
  gate : c.gate = true
  notPending : c.pendingLoad = false
  notTriggered : c.gateEdge = false
  counts : c.openCount = false
  meaning : 2 ≤ c.cr.toNat

/-- A count of at least 2 is none that the spec leaves open (R615). -/
theorem PitCounter.countOpen_of_two_le {c : PitCounter} (hb : c.bcd = false) (h : 2 ≤ c.cr.toNat) :
    c.countOpen = false := by
  have : c.cr ≠ 1#16 := fun e => by simp [e] at h
  simp [PitCounter.countOpen, hb, this]

/-- R616: a CLK of such a counter counts. -/
theorem PitCounter.RateGenerator.clk {c : PitCounter} (h : c.RateGenerator) (n : Nat)
    (counts : c.count.openCount = false) : c.clk n = PitCounter.noteRise c c.count := by
  have step : c.endStrobe.advance n = c.count := by
    simp [PitCounter.endStrobe, PitCounter.advance, PitCounter.gatePermits, h.mode, h.running, h.gate, h.notPending,
      h.notTriggered, h.counts]
  simp [PitCounter.clk, h.mode, step, counts]

/-- R619: while `out` is high a CLK counts down, and `out` falls when the count reaches 1. -/
theorem PitCounter.RateGenerator.clk_high {c : PitCounter} (h : c.RateGenerator) (ho : c.out = true) (n : Nat) :
    c.clk n = { c with ce := c.ce - 1#16, out := decide (c.ce - 1#16 ≠ 1#16) } := by
  have count : c.count = { c with ce := c.ce - 1#16, out := decide (c.ce - 1#16 ≠ 1#16) } := by
    simp [PitCounter.count, PitCounter.dec, h.mode, h.binary, ho]
  rw [h.clk n (by rw [count]; exact h.counts), count]
  simp [PitCounter.noteRise, ho]

/-- R619: the CLK after `out` fell reloads the count, and `out` rises. -/
theorem PitCounter.RateGenerator.clk_low {c : PitCounter} (h : c.RateGenerator) (ho : c.out = false) (n : Nat) :
    c.clk n = { c.reload with out := true, rose := true } := by
  have count : c.count = { c.reload with out := true } := by simp [PitCounter.count, h.mode, ho]
  rw [h.clk n (by rw [count]; exact PitCounter.countOpen_of_two_le h.binary h.meaning), count]
  simp [PitCounter.noteRise, ho]

/-- The counter `k` CLKs into a period that began with a reload: `out` is low in the last one. -/
def PitCounter.inPeriod (c : PitCounter) (k : Nat) : PitCounter :=
  { c.reload with ce := c.cr - BitVec.ofNat 16 k, out := decide (k + 1 < c.cr.toNat) }

/-- It stays one through the period. -/
theorem PitCounter.RateGenerator.inPeriod {c : PitCounter} (h : c.RateGenerator) (k : Nat) :
    (c.inPeriod k).RateGenerator :=
  ⟨h.mode, h.binary, h.running, h.gate, h.notPending, h.notTriggered,
    PitCounter.countOpen_of_two_le h.binary h.meaning, h.meaning⟩

/-- One CLK further into the period. -/
theorem PitCounter.RateGenerator.clk_inPeriod {c : PitCounter} (h : c.RateGenerator) {k : Nat}
    (hk : k + 1 < c.cr.toNat) (n : Nat) : (c.inPeriod k).clk n = c.inPeriod (k + 1) := by
  have bound := c.cr.isLt
  have ce : c.cr - BitVec.ofNat 16 k - 1#16 = c.cr - BitVec.ofNat 16 (k + 1) := by bv_omega
  have last : c.cr - BitVec.ofNat 16 (k + 1) ≠ 1#16 ↔ k + 1 + 1 < c.cr.toNat := by
    rw [← BitVec.toNat_ne_iff_ne]
    simp only [BitVec.toNat_sub, BitVec.toNat_ofNat]
    omega
  rw [(h.inPeriod k).clk_high (decide_eq_true hk)]
  simp [PitCounter.inPeriod, ce, last]

/-- R619: `k` CLKs into the period. -/
theorem PitCounter.RateGenerator.iterate_clk {c : PitCounter} (h : c.RateGenerator) (ho : c.out = true) (n : Nat)
    {k : Nat} (hk : k < c.cr.toNat) : (fun x : PitCounter => x.clk n)^[k] c.reload = c.inPeriod k := by
  induction k with
  | zero =>
    have : 1 < c.cr.toNat := h.meaning
    simp [PitCounter.inPeriod, this, PitCounter.reload, ho]
  | succ k ih =>
    rw [Function.iterate_succ_apply', ih (by omega)]
    exact h.clk_inPeriod hk n

/-- Settles O59: the counter in its period by induction on the CLKs; the period's last CLK reloads. -/
theorem rateGeneratorPeriod : Obligations.RateGeneratorPeriod := by
  unfold Obligations.RateGeneratorPeriod
  intro c n mode binary running gate notPending notTriggered out meaning
  have h : c.reload.RateGenerator := ⟨mode, binary, running, gate, notPending, notTriggered,
    PitCounter.countOpen_of_two_le binary meaning, meaning⟩
  have after {k : Nat} (hk : k < c.cr.toNat) : (fun x : PitCounter => x.clk n)^[k] c.reload = c.reload.inPeriod k :=
    h.iterate_clk out n hk
  have last : (c.reload.inPeriod (c.cr.toNat - 1)).out = false := decide_eq_false (by
    show ¬ c.cr.toNat - 1 + 1 < c.cr.toNat
    omega)
  have ends : (fun x : PitCounter => x.clk n)^[c.cr.toNat] c.reload = { c.reload with rose := true } := by
    have e : c.cr.toNat = (c.cr.toNat - 1).succ := by omega
    rw [e, Function.iterate_succ_apply', after (by omega), (h.inPeriod _).clk_low last, ← out]
    rfl
  refine ⟨fun k hk => ?_, ?_, ends⟩
  · dsimp only
    rw [after (by omega)]
    exact decide_eq_true hk
  · dsimp only
    rw [after (k := c.cr.toNat - 1) (by omega)]
    exact last

end Sys2Proof.Machine
end

section
/-! SUPPORT. The DMA controller's byte registers and its refresh cycle (R671, R673, R678). -/

namespace Sys2Proof.Machine

/-! ## The DMA controller's byte registers -/

/-- R670: the controller has four channels. -/
theorem channel_cases (c : BitVec 2) : c = 0#2 ∨ c = 1#2 ∨ c = 2#2 ∨ c = 3#2 := by
  revert c; decide

/-- A channel written is the channel read. -/
theorem Dma.channel_setChannel (d : Dma) (c : BitVec 2) (x : DmaChannel) : (d.setChannel c x).channel c = x := by
  obtain rfl | rfl | rfl | rfl := channel_cases c <;> rfl

/-- The flip-flop is no channel's. -/
theorem Dma.channel_setFlipflop (d : Dma) (c : BitVec 2) (b : Bool) :
    Dma.channel { d with flipflop := b } c = d.channel c := rfl

/-- R671, R678: a byte written to an address or count port. -/
theorem Dma.write_half {r : BitVec 4} (h : r.getLsbD 3 = false) (d : Dma) (v : Byte) :
    d.write r v =
      { d.setChannel (r.extractLsb' 1 2) ((d.channel (r.extractLsb' 1 2)).writeHalf (bit r 0) d.flipflop v) with
        flipflop := !d.flipflop } := by
  unfold Dma.write
  exact if_neg (Bool.eq_false_iff.1 h)

/-- R671, R678: a byte read from an address or count port. -/
theorem Dma.read_half {r : BitVec 4} (h : r.getLsbD 3 = false) (d : Dma) :
    d.read r = ((d.channel (r.extractLsb' 1 2)).readHalf (bit r 0) d.flipflop, { d with flipflop := !d.flipflop }) := by
  unfold Dma.read
  exact if_neg (Bool.eq_false_iff.1 h)

/-- R678: the low and then the high byte written. -/
def DmaChannel.writeBoth (x : DmaChannel) (count : Bool) (lo hi : Byte) : DmaChannel :=
  (x.writeHalf count false lo).writeHalf count true hi

/-- R678: what two writes of an address or a count leave to be read. -/
theorem DmaChannel.readHalf_writeBoth (x : DmaChannel) (count half : Bool) (lo hi : Byte) :
    (x.writeBoth count lo hi).readHalf count half = if half then hi else lo := by
  cases count <;> cases half <;>
    simp [DmaChannel.writeBoth, DmaChannel.writeHalf, DmaChannel.readHalf, setHalf, halfOf, setHi, setLo]

/-- R671, R678: two writes after the flip-flop is cleared. -/
theorem Dma.write_both {r : BitVec 4} (h : r.getLsbD 3 = false) (d : Dma) (x lo hi : Byte) :
    ((d.write 12#4 x).write r lo).write r hi =
      { d.setChannel (r.extractLsb' 1 2) ((d.channel (r.extractLsb' 1 2)).writeBoth (bit r 0) lo hi) with
        flipflop := false } := by
  have clear : d.write 12#4 x = { d with flipflop := false } := rfl
  rw [clear, Dma.write_half h, Dma.write_half h]
  generalize r.extractLsb' 1 2 = c
  obtain rfl | rfl | rfl | rfl := channel_cases c <;> rfl

/-- R671, R678: the two bytes written are the two bytes read, and the flip-flop is clear again. -/
theorem Dma.read_both {r : BitVec 4} (h : r.getLsbD 3 = false) (d : Dma) (x lo hi : Byte) :
    let e := ((d.write 12#4 x).write r lo).write r hi
    let f := (e.read r).2
    (e.read r).1 = lo ∧ (f.read r).1 = hi ∧ (f.read r).2 = e ∧ e.flipflop = false := by
  dsimp only
  rw [Dma.write_both h]
  simp [Dma.read_half h, Dma.channel_setFlipflop, Dma.channel_setChannel, DmaChannel.readHalf_writeBoth]

/-! ## The refresh cycle -/

/-- R673: before terminal count a cycle moves both counters. -/
theorem DmaChannel.advance_of_ne {x : DmaChannel} (h : x.curCount ≠ 0#16) :
    x.advance = { x with curAddr := x.nextAddr, curCount := x.curCount - 1#16 } := if_neg h

/-- R673: at terminal count an auto-initialising channel is reloaded. -/
theorem DmaChannel.advance_reloads {x : DmaChannel} (h : x.curCount = 0#16) (auto : x.autoInit = true) :
    x.advance = { x with curAddr := x.baseAddr, curCount := x.baseCount } := (if_pos h).trans (if_pos auto)

/-- R673: at terminal count another channel moves its address alone. -/
theorem DmaChannel.advance_single {x : DmaChannel} (h : x.curCount = 0#16) (single : x.autoInit = false) :
    x.advance = { x with curAddr := x.nextAddr } := (if_pos h).trans (if_neg (Bool.eq_false_iff.1 single))

/-- R673: what a refresh cycle does to the status and the mask. -/
theorem Dma.grant_refresh (d : Dma) :
    (d.grant 0#2).ch0 = d.ch0.advance ∧
    (d.grant 0#2).tc = (if d.ch0.curCount = 0#16 then setBit d.tc 0 true else d.tc) ∧
    (d.grant 0#2).mask = if d.ch0.curCount = 0#16 ∧ d.ch0.autoInit = false then setBit d.mask 0 true else d.mask := by
  refine ⟨rfl, ?_, ?_⟩
  · show (if decide (d.ch0.curCount = 0#16) = true then setBit d.tc 0 true else d.tc) = _
    simp
  · show (if (decide (d.ch0.curCount = 0#16) && !d.ch0.autoInit) = true then setBit d.mask 0 true else d.mask) = _
    simp

/-- Settles O58: two writes as one of both halves; a refresh cycle by whether the count has run out. -/
theorem dmaRegistersAndRefresh : Obligations.DmaRegistersAndRefresh := by
  unfold Obligations.DmaRegistersAndRefresh
  refine ⟨fun d r x lo hi h => Dma.read_both h d x lo hi, fun d => ?_⟩
  obtain ⟨ch0, tc, mask⟩ := d.grant_refresh
  have served : (d.grant 0#2).dreq.getLsbD 0 = false := (getLsbD_setBit d.dreq 0 0 false).trans (if_pos rfl)
  refine ⟨rfl, served, rfl, rfl, rfl, rfl, fun counting => ?_, fun atEnd => ⟨?_, fun reloads => ?_, fun single => ?_⟩⟩
  · exact ⟨ch0.trans (DmaChannel.advance_of_ne counting), tc.trans (if_neg counting),
      mask.trans (if_neg fun h => counting h.1)⟩
  · rw [tc, if_pos atEnd, getLsbD_setBit]
    rfl
  · exact ⟨ch0.trans (DmaChannel.advance_reloads atEnd reloads),
      mask.trans (if_neg fun h => Bool.eq_false_iff.1 h.2 reloads)⟩
  · refine ⟨ch0.trans (DmaChannel.advance_single atEnd single), ?_⟩
    rw [mask, if_pos ⟨atEnd, single⟩, getLsbD_setBit]
    rfl

end Sys2Proof.Machine
end

section
/-! SUPPORT. Divide errors (R771): the conditions of R275, R276 and R281 under which a division takes interrupt 0. -/

namespace Sys2Proof.Machine

/-- R275: a byte division by 0, or one whose quotient does not fit. -/
theorem divBy8_of_error {t : State} {d : Byte} {ax : Word} (hax : t.regs.ax = ax)
    (h : d.toNat = 0 ∨ 0xFF < ax.toNat / d.toNat) :
    divBy8 d t = (t.aluStep t.regs.ax (zext16 d)).divideError := by
  subst hax
  exact if_pos (h.imp_left BitVec.eq_of_toNat_eq)

/-- R275: a word division by 0, or one whose quotient does not fit. -/
theorem divBy16_of_error {t : State} {d : Word} {n : Nat} (hn : t.regs.dx.toNat * 0x10000 + t.regs.ax.toNat = n)
    (h : d.toNat = 0 ∨ 0xFFFF < n / d.toNat) : divBy16 d t = (t.aluStep t.regs.ax d).divideError := by
  subst hn
  exact if_pos (h.imp_left BitVec.eq_of_toNat_eq)

/-- R276: a signed byte division by 0, or one whose quotient does not fit. -/
theorem idivBy8_of_error {t : State} {d : Byte} {ax : Word} (hax : t.regs.ax = ax)
    (h : d.toInt = 0 ∨ 127 < ax.toInt.tdiv d.toInt ∨ ax.toInt.tdiv d.toInt < -127) :
    idivBy8 d t = (t.aluStep t.regs.ax (zext16 d)).divideError := by
  subst hax
  exact if_pos (h.imp_left BitVec.eq_of_toInt_eq)

/-- R276: a signed word division by 0, or one whose quotient does not fit. -/
theorem idivBy16_of_error {t : State} {d : Word} {n : Int} (hn : (t.regs.dx ++ t.regs.ax : BitVec 32).toInt = n)
    (h : d.toInt = 0 ∨ 32767 < n.tdiv d.toInt ∨ n.tdiv d.toInt < -32767) :
    idivBy16 d t = (t.aluStep t.regs.ax d).divideError := by
  subst hn
  exact if_pos (h.imp_left BitVec.eq_of_toInt_eq)

/-- R281: AAM by 0. -/
theorem aamBy_zero (s : State) : aamBy 0#8 s = (s.aluStep s.regs.ax (zext16 0#8)).divideError := by
  unfold aamBy
  dsimp only
  rw [if_pos rfl]

/-- Settles O21: each operation is `State.divideError` after its ALU step, which moves the clock alone. -/
theorem divideErrors : Obligations.DivideErrors := by
  unfold Obligations.DivideErrors
  intro s hs
  have trap {t : State} (h : Same s t) (a b : Word) :
      ∃ f, SameControlFlags s.flags f ∧ Entered s (t.aluStep a b).divideError 0#8 f s.ip :=
    (h.aluStep hs.quiet a b).divideError hs.quiet hs.ramWf
  refine ⟨fun hrep => ⟨fun rm error => completes_withEb hs.quiet hrep rfl fun t h => ?_,
    fun rm error => completes_withEw hs.quiet hrep rfl fun t h => ?_,
    fun rm error => completes_withEb hs.quiet hrep rfl fun t h => ?_,
    fun rm error => completes_withEw hs.quiet hrep rfl fun t h => ?_⟩, _, rfl, ?_⟩
  · rw [divBy8_of_error (congrArg Regs.ax h.ran.regs) error]
    exact trap h _ _
  · rw [divBy16_of_error (by rw [h.ran.regs]) error]
    exact trap h _ _
  · rw [idivBy8_of_error (congrArg Regs.ax h.ran.regs) error]
    exact trap h _ _
  · rw [idivBy16_of_error (by rw [h.ran.regs]) error]
    exact trap h _ _
  · rw [aamBy_zero]
    exact trap (Same.rfl' s) _ _

end Sys2Proof.Machine
end

section
/-! SUPPORT. Interrupt entry steps (R775 to R790): the CPU awake at the resume address, the interrupt taken, and the
end of the step. -/

namespace Sys2Proof.Machine

/-! ## The event due (R775, R776) -/

theorem dueEvent_nmi {s : State} (hp : s.eu.prefixing = false) (hi : s.intInhibit = false)
    (hn : s.sys.nmiLatched = true) : s.dueEvent = some .nmi := by
  simp [State.dueEvent, hp, hi, hn]

theorem dueEvent_intr {s : State} (hp : s.eu.prefixing = false) (hi : s.intInhibit = false)
    (hn : s.sys.nmiLatched = false) (hr : s.sys.intrPending = true) (hf : s.flags.ief = true) :
    s.dueEvent = some .intr := by
  simp [State.dueEvent, hp, hi, hn, hr, hf]

theorem dueEvent_trap {s : State} (hp : s.eu.prefixing = false) (hi : s.intInhibit = false)
    (hn : s.sys.nmiLatched = false) (hr : s.sys.intrPending = true → s.flags.ief = false)
    (ht : s.trapLatched = true) : s.dueEvent = some .trap := by
  have noIntr : (s.sys.intrPending && s.flags.ief) = false := by simpa using hr
  simp [State.dueEvent, hp, hi, hn, noIntr, ht]

/-! ## Awake -/

/-- The system with no halt and with PIC `p`. -/
def Sys.awake (y : Sys) (p : Pic) : Sys := { y with halted := false, pic := p }

/-- What is blind to the PIC and to a halt reads as before. -/
theorem peekByte_awake (y : Sys) (p : Pic) (a : PhysAddr) : peekByte (y.awake p) a = peekByte y a :=
  peekByte_congr (y := y) (z := y.awake p) rfl rfl rfl rfl rfl a

/-- `u` is `s` about to take an interrupt: nothing halts, waits or repeats, and of the system only the clock's work
and the PIC differ. -/
structure Awake (s u : State) : Prop where
  regs : u.regs = s.regs
  flags : u.flags = s.flags
  sregs : u.sregs = s.sregs
  notRepeating : u.eu.repActive = false
  notWaiting : u.waitTpr = false
  system : ∃ p : Pic, u.sys.still = (s.sys.awake p).still

/-- R775: whatever event the test finds, the CPU is awake where the interrupted instruction resumes (R383, R476). -/
theorem afterTest_wake (s : State) : Awake s s.afterTest.wake ∧ s.afterTest.wake.ip = s.resumeIp := by
  unfold State.afterTest
  split <;> exact ⟨⟨rfl, rfl, rfl, rfl, rfl, s.sys.pic, rfl⟩, rfl⟩

/-- The test leaves the PIC as it was. -/
theorem afterTest_wake_pic (s : State) : s.afterTest.wake.sys.pic = s.sys.pic := by
  unfold State.afterTest
  split <;> rfl

/-- An awake CPU whose system has since moved with the clock, but for its PIC. -/
theorem Awake.withSys {s u : State} (h : Awake s u) {y : Sys} {p : Pic}
    (hy : y.still = Sys.still { u.sys with pic := p }) : Awake s { u with sys := y } := by
  obtain ⟨_, hu⟩ := h.system
  exact ⟨h.regs, h.flags, h.sregs, h.notRepeating, h.notWaiting, p, hy.trans (still_pic hu p)⟩

theorem Awake.quiet {s u : State} (h : Awake s u) (hq : s.sys.Quiet) : u.sys.Quiet := by
  obtain ⟨p, hu⟩ := h.system
  exact Sys.quiet_of_still hu hq

theorem Awake.ramWf {s u : State} (h : Awake s u) (hw : s.sys.RamWf) : u.sys.RamWf := by
  obtain ⟨p, hu⟩ := h.system
  exact Sys.ramWf_of_still hu hw

theorem Awake.cfg {s u : State} (h : Awake s u) : u.sys.cfg = s.sys.cfg := by
  obtain ⟨_, hu⟩ := h.system
  have := congrArg Sys.cfg hu
  exact this

theorem Awake.running {s u : State} (h : Awake s u) : u.sys.halted = false := by
  obtain ⟨_, hu⟩ := h.system
  have := congrArg Sys.halted hu
  exact this

/-- Every address reads as before. -/
theorem Awake.bytes {s u : State} (h : Awake s u) (a : PhysAddr) : peekByte u.sys a = peekByte s.sys a := by
  obtain ⟨p, hu⟩ := h.system
  exact (peekByte_of_still hu a).trans (peekByte_awake s.sys p a)

theorem Awake.wordAt {s u : State} (h : Awake s u) (seg off : Word) : u.wordAt seg off = s.wordAt seg off := by
  simp only [State.wordAt, State.byteAt, h.bytes]

/-! ## The interrupt taken (R790) -/

theorem Stores.halted {y z : Sys} {l : List (PhysAddr × Byte)} (h : Stores y z l) : z.halted = y.halted := by
  have := congrArg Sys.halted h.rest
  exact this

/-- An awake CPU takes interrupt `n`, and the step ends. -/
theorem Awake.entered {s u : State} (h : Awake s u) (hs : s.Steady) (n : Byte) (ip : Word) (t0 : Nat) :
    EnteredStep s ((u.interrupt n ip).finish t0) n ip := by
  have quiet := h.quiet hs.quiet
  obtain ⟨control, stores⟩ := (Same.rfl' u).ran.interrupt rfl quiet (h.ramWf hs.ramWf) n ip
  have done := State.finish_finished (u.interrupt n ip) t0
  refine ⟨?_, ?_, ?_, ?_, fun a hk => ?_, ?_, ?_, ?_⟩
  · rw [done.regs, control.regs, h.regs]
  · rw [done.flags, control.flags, h.flags]
  · rw [done.sregs, control.sregs, h.sregs, h.wordAt]
  · rw [done.ip, control.ip, h.wordAt]
  · rw [peekByte_finish (stores.quiet quiet), stores.bytes a (by rwa [h.cfg]), storedByte_congr h.cfg h.bytes,
      h.regs, h.flags, h.sregs]
  · rw [done.halted, stores.halted, h.running]
  · rw [done.repeating, control.control.repeating, h.notRepeating]
  · rw [done.waiting, control.control.waiting, h.notWaiting]

/-- R785: an awake CPU takes the interrupt whose type the PIC gives, and the step ends. -/
theorem Awake.externalEntered {s u : State} (h : Awake s u) (hs : s.Steady) (hp : u.sys.pic = s.sys.pic)
    (hu : s.sys.pic.upm = true) (hi : s.sys.pic.inInta = false) (t0 : Nat) :
    EnteredStep s (u.externalInterrupt.finish t0) (s.sys.pic.base ++ s.sys.pic.ackLevel) u.ip := by
  obtain ⟨type, p, still⟩ := intAck_spec (h.quiet hs.quiet) u.sregs.cs (u.euCost .intaGap)
    (by rw [hp, hi]) (by rw [hp, hu])
  rw [hp] at type
  unfold State.externalInterrupt
  dsimp only
  rw [type]
  exact (h.withSys still).entered hs _ u.ip t0

/-- Settles O50: the event due is taken by `State.interrupt` from an awake CPU. -/
theorem nmiAndTrapEntry : Obligations.NmiAndTrapEntry := by
  unfold Obligations.NmiAndTrapEntry
  intro s hs hp hi
  obtain ⟨awake, resume⟩ := afterTest_wake s
  have entry (n : Byte) :
      EnteredStep s ((s.afterTest.wake.interrupt n s.afterTest.wake.ip).finish s.stepStart) n s.resumeIp :=
    resume ▸ awake.entered hs n _ _
  exact ⟨fun nmi => ⟨_, step_event (dueEvent_nmi hp hi nmi), entry 2#8⟩,
    fun noNmi noIntr trap => ⟨_, step_event (dueEvent_trap hp hi noNmi noIntr trap), entry 1#8⟩⟩

/-- Settles O51: the two acknowledge cycles give the type, and `State.interrupt` takes it from an awake CPU. -/
theorem externalInterruptEntry : Obligations.ExternalInterruptEntry := by
  unfold Obligations.ExternalInterruptEntry
  intro s hs hp hi noNmi intr ief upm fresh
  obtain ⟨awake, resume⟩ := afterTest_wake s
  have entry := awake.externalEntered hs (afterTest_wake_pic s) upm fresh s.stepStart
  rw [resume] at entry
  exact ⟨_, step_event (dueEvent_intr hp hi noNmi intr ief), entry⟩

end Sys2Proof.Machine
end
